-- ==== Sys2Proof/Word.lean ====
section
/-! DEFINITION. The byte and 16-bit word of the desk links and of the configuration image. -/

namespace Sys2Proof

/-- One byte of a desk frame or of the configuration memory (R184, R200). -/
abbrev Byte := BitVec 8

/-- A 16-bit field: item identifiers and values, frame checks (R184, R199). -/
abbrev Word16 := BitVec 16

end Sys2Proof
end

