-- ==== Sys2Proof/Syntax.lean ====
section
/-! DEFINITION. The commands of the block: one constructor of `Instr` for each row of spec/opcode_table.json,
with the operands the row's message, event or request carries. -/

namespace Sys2Proof

/-- Transmitters T1 to T8; index 0 is T1. -/
abbrev Tx := Fin 8
/-- Antennas A1 to A24; index 0 is A1. -/
abbrev Ant := Fin 24
/-- Rotators 1 to 4; index 0 is rotator 1. -/
abbrev Rot := Fin 4

/-- The three desk links; a desk is known by its link. -/
inductive Desk where
  | dl1 | dl2 | dl3
  deriving DecidableEq, Repr

/-- A power level, ordered OFF, LOW, FULL. -/
inductive Level where
  | off | low | full
  deriving DecidableEq, Repr

/-- The 32 switches: selector ASm or output switch OSn (R1). -/
inductive Sw where
  | sel (m : Ant)
  | out (n : Tx)
  deriving DecidableEq, Repr

/-- A position of a switch: EARTH and BUS n are a selector's, ANTENNA and DUMMY an output switch's (R1). -/
inductive Pos where
  | earth
  | bus (n : Tx)
  | antenna
  | dummy
  deriving DecidableEq, Repr

/-- What a drive board reports of a switch: a position or BETWEEN (R4). -/
inductive Reading where
  | stands (p : Pos)
  | between
  deriving DecidableEq, Repr

/-- The condition a transmitter reports (R91). -/
inductive TxCond where
  | standby | tuning | ready | tripped
  deriving DecidableEq, Repr

/-- The causes of a trip (R91, R92); HOT_SWITCH is the guard's and is never reported. -/
inductive TripCause where
  | reflected | overload | other | hotSwitch
  deriving DecidableEq, Repr

/-- A STATUS report as it comes off the transmitter line (R91). `sound` is the line's own framing and check;
a condition or level outside its values is `none`; a feed outside 1 to 16 is kept as the number it is. -/
structure StatusReport where
  sound : Bool
  cond : Option TxCond
  freq : Nat
  feed : Nat
  level : Option Level
  cause : Option TripCause
  warning : Bool
  deriving DecidableEq, Repr

/-- A rotator sensor frame (section 3.2). `sound` is the rotator line's own framing and check. -/
structure SensorFrame where
  sound : Bool
  phiF : BitVec 12
  phiV : BitVec 12
  sensorOk : Bool
  deriving DecidableEq, Repr

/-- A TIME message (R160). `sound` is the framing and check of the time input. -/
structure TimeMessage where
  sound : Bool
  day : Nat
  minute : Nat
  second : Nat
  deriving DecidableEq, Repr

/-- Levels of the access input (R176). -/
inductive AccessLevel where
  | closed | opened
  deriving DecidableEq, Repr

/-- Levels of the actuator supply input (R176). -/
inductive SupplyLevel where
  | good | low
  deriving DecidableEq, Repr

/-- Levels of an RF sense input (R176). -/
inductive RfLevel where
  | present | absent
  deriving DecidableEq, Repr

/-- One sample of one filtered input (R176). -/
inductive Sample where
  | access (l : AccessLevel)
  | supply (l : SupplyLevel)
  | rf (n : Tx) (l : RfLevel)
  deriving DecidableEq, Repr

/-- The commands of the HX824: the rows of spec/opcode_table.json. A desk command carries the link it came on,
the tag of its frame and the frame's payload as received (R184, R190); the row stands for the arrival of the last
byte of its sound frame. An expiry row carries whose timer expires. SAVE_COMPLETE carries whether the configuration
memory answered on its link, and the bytes at which the memory then differs from what was written to it (from what it
held before, where it did not answer). -/
inductive Instr where
  | powerUp
  | warmRestart
  | settlingTimeout
  | describe (d : Desk) (tag : Byte) (payload : List Byte)
  | readHall (d : Desk) (tag : Byte) (payload : List Byte)
  | readTransmitter (d : Desk) (tag : Byte) (payload : List Byte)
  | readAntenna (d : Desk) (tag : Byte) (payload : List Byte)
  | readRotator (d : Desk) (tag : Byte) (payload : List Byte)
  | readRoutes (d : Desk) (tag : Byte) (payload : List Byte)
  | readEntries (d : Desk) (tag : Byte) (payload : List Byte)
  | readRun (d : Desk) (tag : Byte) (payload : List Byte)
  | readOutcomes (d : Desk) (tag : Byte) (payload : List Byte)
  | readLockouts (d : Desk) (tag : Byte) (payload : List Byte)
  | readAttention (d : Desk) (tag : Byte) (payload : List Byte)
  | readClock (d : Desk) (tag : Byte) (payload : List Byte)
  | takeHand (d : Desk) (tag : Byte) (payload : List Byte)
  | returnHand (d : Desk) (tag : Byte) (payload : List Byte)
  | route (d : Desk) (tag : Byte) (payload : List Byte)
  | unroute (d : Desk) (tag : Byte) (payload : List Byte)
  | setRf (d : Desk) (tag : Byte) (payload : List Byte)
  | tune (d : Desk) (tag : Byte) (payload : List Byte)
  | slew (d : Desk) (tag : Byte) (payload : List Byte)
  | stopSlew (d : Desk) (tag : Byte) (payload : List Byte)
  | calibrateRotator (d : Desk) (tag : Byte) (payload : List Byte)
  | clearTrip (d : Desk) (tag : Byte) (payload : List Byte)
  | clearAntennaFault (d : Desk) (tag : Byte) (payload : List Byte)
  | setEnabledBands (d : Desk) (tag : Byte) (payload : List Byte)
  | placeLockout (d : Desk) (tag : Byte) (payload : List Byte)
  | releaseLockout (d : Desk) (tag : Byte) (payload : List Byte)
  | ackHallSafe (d : Desk) (tag : Byte) (payload : List Byte)
  | writeEntries (d : Desk) (tag : Byte) (payload : List Byte)
  | deleteEntry (d : Desk) (tag : Byte) (payload : List Byte)
  | clearSeason (d : Desk) (tag : Byte) (payload : List Byte)
  | setChangeover (d : Desk) (tag : Byte) (payload : List Byte)
  | armSeason (d : Desk) (tag : Byte) (payload : List Byte)
  | disarm (d : Desk) (tag : Byte) (payload : List Byte)
  | setSubscription (d : Desk) (tag : Byte) (payload : List Byte)
  | setClock (d : Desk) (tag : Byte) (payload : List Byte)
  | openConfig (d : Desk) (tag : Byte) (payload : List Byte)
  | configure (d : Desk) (tag : Byte) (payload : List Byte)
  | closeConfig (d : Desk) (tag : Byte) (payload : List Byte)
  | abandonConfig (d : Desk) (tag : Byte) (payload : List Byte)
  | saveConfig (d : Desk) (tag : Byte) (payload : List Byte)
  | restart (d : Desk) (tag : Byte) (payload : List Byte)
  | unknownCommand (d : Desk) (tag : Byte) (code : Byte) (payload : List Byte)
  | frameDiscard (d : Desk) (b : Byte)
  | interByteTimeout (d : Desk)
  | replySent (d : Desk)
  | attentionFrame (d : Desk)
  | position (w : Option Sw) (r : Option Reading)
  | travelTimeout (w : Sw)
  | reportWindowEnd
  | supplyHoldExpiry
  | rfDropTimeout (n : Tx)
  | tripWaitExpiry (n : Tx)
  | sensorFrame (k : Rot) (f : SensorFrame)
  | frameTimeout (k : Rot)
  | reverseDwellEnd (k : Rot)
  | powerWaitExpiry (k : Rot)
  | stallWindowExpiry (k : Rot)
  | slewTimerExpiry (k : Rot)
  | status (n : Tx) (r : StatusReport)
  | silenceTimeout (n : Tx)
  | tuneTimerExpiry (n : Tx)
  | feedTimerExpiry (n : Tx)
  | recycleTimerExpiry (n : Tx)
  | rfWatchExpiry (n : Tx)
  | timePulse
  | tick
  | time (m : TimeMessage)
  | accessChange (l : AccessLevel)
  | closedTimerExpiry
  | supplyChange (l : SupplyLevel)
  | rfSenseChange (n : Tx) (l : RfLevel)
  | saveComplete (answered : Bool) (faults : List (Nat × Byte))
  | inputSample (x : Sample)
  | deskByteArrival (d : Desk) (b : Byte)
  deriving DecidableEq, Repr

end Sys2Proof
end

