-- ==== Sys2Proof/Decode.lean ====
section
/-! DEFINITION. The words of the command table. -/

namespace Sys2Proof

/-- The command that a word spells by the table's bits. No row of spec/opcode_table.json has bits (every row's "fields" is
empty and none has "fixed"), so no word spells a command. -/
def decodeTableWord (_nbits _w : Nat) : Option Instr := none

end Sys2Proof
end

