-- ==== Sys2Proof/Config.lean ====
section
/-! DEFINITION. What an installation fixes (the configuration items of R199) and the free values: constants with no
body, of which nothing can be proved but that they are the same for the same argument. -/

namespace Sys2Proof

/-- Free value (log entry 3): what a 2-byte reply field carries for a number that two bytes cannot hold. R188 sends
every such number in 2 bytes and states no rule for one above 65535. -/
opaque Config.overWord : Int → Word16

/-- Free value (log entry 4): the age in seconds shown for a lockout placed at a site second later than the present
one, as a backward clock step can leave it. R172 states no age for it. -/
opaque Config.futureAge : Nat → Nat → Nat

/-- Free value (log entry 2): the n-th choice among possibilities between which the spec names none, as between blocks
that may act in any order. -/
opaque Config.choice : Nat → Nat

/-- A keep-out sector as configured: the from and to bearings, each 0 to 3599, or 0xFFFF for unused (R72, R199). -/
structure Sector where
  fromB : Nat
  toB : Nat
  deriving DecidableEq, Repr

/-- The parameters of one rotator (R54, R72, R199). -/
structure RotParams where
  periods : Nat
  offF : Nat
  offV : Nat
  zero : Nat
  tol : Nat
  stop : Nat
  creep : Nat
  stopTol : Nat
  hold : Nat
  maxSlew : Nat
  sectors : Vector Sector 4
  deriving DecidableEq, Repr

/-- One value for every item of the item table of R199. Seconds and minutes are as the table gives them. -/
structure Configuration where
  txCount : Nat
  antCount : Nat
  grantLimit : Nat
  selTravel : Nat
  outTravel : Nat
  rfDrop : Nat
  tuneTimeout : Nat
  recycleWindow : Nat
  tripLimit : Nat
  recycleDelay : Nat
  lead : Nat
  grace : Nat
  accessInterval : Nat
  supplyInterval : Nat
  rfInterval : Nat
  bandLow : Vector Nat 16
  bandHigh : Vector Nat 16
  supported : Vector Word16 24
  rotatorOf : Vector Nat 24
  rot : Vector RotParams 4
  deriving DecidableEq, Repr

/-- The defaults of R54 and R72, with every sector unused (R199). -/
def RotParams.default : RotParams :=
  { periods := 32, offF := 0, offV := 0, zero := 0, tol := 1024, stop := 0, creep := 50, stopTol := 5, hold := 15,
    maxSlew := 300, sectors := Vector.replicate 4 ⟨65535, 65535⟩ }

/-- The default of every item (R199). -/
def Configuration.default : Configuration :=
  { txCount := 8, antCount := 24, grantLimit := 2, selTravel := 12, outTravel := 4, rfDrop := 3, tuneTimeout := 90,
    recycleWindow := 60, tripLimit := 3, recycleDelay := 5, lead := 3, grace := 5, accessInterval := 8,
    supplyInterval := 8, rfInterval := 1, bandLow := Vector.replicate 16 0, bandHigh := Vector.replicate 16 0,
    supported := Vector.replicate 24 0, rotatorOf := Vector.replicate 24 0,
    rot := Vector.replicate 4 RotParams.default }

end Sys2Proof
end

