-- ==== Sys2Proof/Machine/State.lean ====
section
/-! DEFINITION. The state of the HX824 as plain data: every record, queue, timer and mark that the spec gives the thirteen
blocks, the queue of waiting commands, and the few fields that are the model's own (log entries 1, 2, 5, 6). -/

namespace Sys2Proof.Machine

/-! ## Stops -/

/-- The faults of the model. -/
inductive Fault where
  /-- Raised by SAVE_COMPLETE when its operand names a byte outside the 8 KiB of the configuration memory. Safe: the
  memory has no such byte (section "External connections"), so no hardware run meets it. -/
  | memoryOutside
  deriving DecidableEq, Repr

/-- The refusals of the model. -/
inductive Refusal where
  /-- Raised by `exec` for a command that has no meaning yet; no command is left so. Safe. -/
  | notModelled (mnemonic : String)
  deriving DecidableEq, Repr

/-! ## Shared small types -/

/-- The reply statuses of R188 in the order of their codes, and SWITCH_FAULT, which only blocks give each other. -/
inductive Status where
  | done | doneClamped | accepted | busy | unknownCommand | badArgument | lockedOut | heldByOther | notInHand | inUse
  | antennaConflict | overlap | bandMismatch | keepOut | tableFull | positionInvalid | hallSafe | notConfigured
  | configOpen | notPermitted | switchFault
  deriving DecidableEq, Repr

/-- A timer of a block: idle, running to its due moment on the internal timebase (ms), or stopped through restart
settling, to start anew from its full value when settling ends (R111, R41, R89). -/
inductive Timer where
  | idle
  | running (due : Nat)
  | stopped
  deriving DecidableEq, Repr

/-- The twelve attention classes in the order of their places (R194). -/
inductive Attn where
  | route | switch | slew | rotator | transmitter | trip | run | schedule | lockout | hall | clock | config
  deriving DecidableEq, Repr

/-- The two season tables (R112). -/
inductive TableId where
  | a | b
  deriving DecidableEq, Repr

/-! ## Switch matrix (chapter 1) -/

/-- The confirmed position of a switch (R1). -/
inductive Confirmed where
  | stands (p : Pos)
  | between
  | unknown
  deriving DecidableEq, Repr

/-- The states of a switch record (R1). -/
inductive SwState where
  | steady | pending | moving | stopped | fault
  deriving DecidableEq, Repr

/-- Move classes, most urgent first (R1, R9). -/
inductive MoveClass where
  | safety | schedule | manual
  deriving DecidableEq, Repr

/-- Fault reasons of a switch (R1). -/
inductive SwFault where
  | travelTimeout | uncommanded | wrongPosition | conflict
  deriving DecidableEq, Repr

/-- A switch record (R1); identity and kind are its place in the matrix. `travelDue` is the moment at which the travel
timeout fixed at the grant expires (R12). -/
structure SwRec where
  commanded : Pos
  confirmed : Confirmed
  state : SwState
  cls : Option MoveClass
  arrival : Option Nat
  grantTime : Option Nat
  travelDue : Option Nat
  fault : Option SwFault
  deriving DecidableEq, Repr

/-- What the matrix controller tells the route controller: completions and faults (R15), and the grants and re-entries
it sees in the switch records (R26, R36). -/
inductive MxReport where
  | completion (w : Sw)
  | fault (w : Sw)
  | granted (w : Sw)
  | requeued (w : Sw)
  deriving DecidableEq, Repr

/-- The matrix controller. The move queue is the PENDING records ordered by class and arrival (R9); the grants held are
the MOVING records (R11). `permitted` is drive permission as last judged (R10); `reports` is empty between acts. -/
structure Matrix where
  sel : Vector SwRec 24
  out : Vector SwRec 8
  nextArrival : Nat
  safety : List Sw
  reportWindow : Timer
  supplyHold : Timer
  supplyHeld : Bool
  permitted : Bool
  reports : List MxReport
  deriving DecidableEq, Repr

/-! ## Routes and permits (chapter 2) -/

/-- The destination of a route (section 2.1). -/
inductive Dest where
  | antenna (m : Ant)
  | dummy
  | nothing
  deriving DecidableEq, Repr

/-- Who asked for a route task (R26). A LOCKOUT origin names the locked antenna. -/
inductive RouteOrigin where
  | desk (d : Desk)
  | schedule (run : Nat)
  | lockout (m : Ant)
  deriving DecidableEq, Repr

/-- States of a route task (R26). -/
inductive TaskState where
  | dropRf | tripWait | moving | done | failed
  deriving DecidableEq, Repr

/-- Progress marks of a task's switches (R26). -/
inductive Mark where
  | waiting | admitted | granted | inPlace | faulted
  deriving DecidableEq, Repr

/-- Failure reasons of a route task (R26). -/
inductive TaskFail where
  | rfStuck | switchFault | lockedOut | hall | cancelled
  deriving DecidableEq, Repr

/-- One switch of a task's set with its progress mark (R26). -/
structure SwMark where
  sw : Sw
  mark : Mark
  deriving DecidableEq, Repr

/-- A route task record (R26). `affected` is fixed when the set is formed (R32); `started` says that a switch of the set
has been marked GRANTED, which ends "unstarted" (R26). -/
structure Task where
  dest : Dest
  origin : RouteOrigin
  state : TaskState
  set : List SwMark
  affected : List Tx
  timer : Timer
  failure : Option TaskFail
  started : Bool
  deriving DecidableEq, Repr

/-- Whose requested level a permit follows (R45). -/
inductive Requester where
  | hand (d : Desk)
  | schedule
  | nobody
  deriving DecidableEq, Repr

/-- The forces of a permit record (R44). -/
structure Forces where
  route : Bool
  tune : Bool
  recycle : Bool
  trip : Bool
  deriving DecidableEq, Repr

/-- The blocking reasons of R47 and R48, and NOT_CONFIGURED (R44). -/
structure Reasons where
  hall : Bool
  configOpen : Bool
  txLockout : Bool
  txState : Bool
  forced : Bool
  pathUnsettled : Bool
  outputSwitch : Bool
  busCount : Bool
  antLockout : Bool
  band : Bool
  rotatorInvalid : Bool
  keepOut : Bool
  slewCapOff : Bool
  notConfigured : Bool
  deriving DecidableEq, Repr

/-- The caps of a permit record (R44, R48). -/
structure Caps where
  slewLow : Bool
  faultMark : Bool
  deriving DecidableEq, Repr

/-- The holds on a TRIP line (R44, R50). -/
structure Holds where
  routeTrip : Bool
  guard : Bool
  hall : Bool
  deriving DecidableEq, Repr

/-- A permit record (R44). -/
structure PermitRec where
  requester : Requester
  requested : Level
  forces : Forces
  allowed : Level
  reasons : Reasons
  caps : Caps
  output : Level
  holds : Holds
  deriving DecidableEq, Repr

/-! ## Azimuth unit (chapter 3) -/

/-- Validity of a rotator position (R52). -/
inductive Validity where
  | valid | suspect | invalid
  deriving DecidableEq, Repr

/-- Why a position was last judged bad (R52). -/
inductive BadReason where
  | residual | sensorNotOk | timeout
  deriving DecidableEq, Repr

/-- A rotator position record (R52). Its antenna is the one whose configuration names the rotator. -/
structure RotRec where
  validity : Validity
  azimuth : Option Nat
  sensor : Option Nat
  fine : Option Nat
  period : Option Nat
  residual : Option Int
  badCount : Nat
  lastBad : Option BadReason
  rawF : Option Nat
  rawV : Option Nat
  goodTime : Option Nat
  frameTimer : Timer
  deriving DecidableEq, Repr

/-! ## Slew controller (chapter 4) -/

/-- Drive directions (R71). -/
inductive Dir where
  | cw | ccw
  deriving DecidableEq, Repr

/-- Drive speeds (R71). -/
inductive Speed where
  | fast | creep
  deriving DecidableEq, Repr

/-- States of a slew record (R71). -/
inductive SlewState where
  | idle | awaitPower | drive | reverseDwell | settle | inPosition | fault
  deriving DecidableEq, Repr

/-- Fault reasons of a slew record (R71). -/
inductive SlewFault where
  | stall | wrongDirection | slewTimeout | positionInvalid | powerNotReduced
  deriving DecidableEq, Repr

/-- Who set a slew target (R71) or asked for an order (R92). -/
inductive Origin where
  | desk (d : Desk)
  | schedule (run : Nat)
  deriving DecidableEq, Repr

/-- The last drive to go off (R71). -/
structure DriveOff where
  at_ : Nat
  dir : Dir
  deriving DecidableEq, Repr

/-- A slew record (R71) with its timers, the drive references of R82 and R83, and `reported`: the end of this target
has been reported to its SCHEDULE origin, so that a correction's end is not (R86). -/
structure SlewRec where
  target : Option Nat
  state : SlewState
  dir : Option Dir
  speed : Option Speed
  cap : Option Level
  origin : Option Origin
  startTime : Option Nat
  slewTimer : Timer
  settleCount : Nat
  lastOff : Option DriveOff
  fault : Option SlewFault
  powerWait : Timer
  dwell : Timer
  stallWindow : Timer
  stallRef : Option Nat
  furthest : Option Nat
  reported : Bool
  deriving DecidableEq, Repr

/-! ## Transmitter supervisor (chapter 5) -/

/-- States of a transmitter record (R92). -/
inductive TxState where
  | offline | standby | tuning | ready | radiating | recycle | tripped
  deriving DecidableEq, Repr

/-- A standing order (R92): a TUNE order with its phase (`sent`), or a FEED order. -/
inductive Order where
  | tune (freq feed : Nat) (origin : Origin) (sent : Bool) (timer : Timer)
  | feed (feed : Nat) (origin : Origin) (timer : Timer)
  deriving DecidableEq, Repr

/-- Kinds of order (R90). -/
inductive OrderKind where
  | tune | feed
  deriving DecidableEq, Repr

/-- Reasons for the failure of an order (R97, R98). -/
inductive OrderFail where
  | tuneTimeout | tripped | offline | lockedOut | hand | cancelled | notConfigured | feedTimeout
  deriving DecidableEq, Repr

/-- The last order end (R92, R99); `failure` absent means completed. -/
structure OrderEnd where
  kind : OrderKind
  origin : Origin
  failure : Option OrderFail
  deriving DecidableEq, Repr

/-- A transmitter record (R92). Line state REPORTING is `reporting`. `lastFreq` is the frequency of the last accepted
report, which a state that follows the last reported condition takes (R97, R102; log entry 31). -/
structure TxRec where
  state : TxState
  reporting : Bool
  lastCond : Option TxCond
  tuned : Option Nat
  feed : Option Nat
  rfLevel : Option Level
  holder : Option Desk
  history : List Nat
  lastCause : Option TripCause
  warning : Bool
  order : Option Order
  lastEnd : Option OrderEnd
  recycleTimer : Timer
  clearPending : Bool
  rfWatch : Timer
  silence : Timer
  lastFreq : Option Nat
  deriving DecidableEq, Repr

/-! ## Season store (chapter 6) -/

/-- A season table entry (R113); bit 0 of `days` is Monday. -/
structure Entry where
  id : Nat
  tx : Tx
  days : BitVec 7
  start : Nat
  dur : Nat
  freq : Nat
  primary : Ant
  alt : Option Ant
  az : Option Nat
  power : Level
  feed : Nat
  failed : Option Status
  deriving DecidableEq, Repr

/-- A day and a minute of it. -/
structure DayMinute where
  day : Nat
  minute : Nat
  deriving DecidableEq, Repr

/-- The last changeover (R112): TAKEN or CHANGEOVER_SKIPPED, and when. -/
structure LastChange where
  taken : Bool
  moment : DayMinute
  deriving DecidableEq, Repr

/-- The season store (R112). -/
structure Season where
  active : TableId
  tableA : List Entry
  tableB : List Entry
  armed : Bool
  editA : Nat
  editB : Nat
  changeover : Option DayMinute
  last : Option LastChange
  deriving DecidableEq, Repr

/-! ## Run scheduler (chapter 7) -/

/-- States of a run record (R132). -/
inductive RunState where
  | waiting | preparing | ready | onAir | ended | missed | failed | aborted
  deriving DecidableEq, Repr

/-- Checklist item states (R132). -/
inductive Item where
  | notNeeded | waiting | inProgress | done | failed
  deriving DecidableEq, Repr

/-- Terminal reasons (R133). -/
inductive RunReason where
  | routeFault | slewFault | tuneTimeout | txTripped | txOffline | lockedOut | hand | noAntenna | tooLate | graceExpired
  | carryOverlap | hall | dropped | notConfigured
  deriving DecidableEq, Repr

/-- A run record (R132). -/
structure RunRec where
  num : Nat
  tx : Tx
  table : TableId
  entry : Nat
  start : Nat
  stop : Nat
  freq : Nat
  feed : Nat
  power : Level
  primary : Ant
  alt : Option Ant
  az : Option Nat
  inUse : Option Ant
  deferred : Option Ant
  state : RunState
  route : Item
  tune : Item
  slew : Item
  late : Bool
  held : Bool
  alternate : Bool
  aired : Bool
  graceBase : Nat
  reason : Option RunReason
  closedAt : Option Nat
  deriving DecidableEq, Repr

/-- The two slots of a transmitter (R133). -/
inductive Slot where
  | cur | nxt
  deriving DecidableEq, Repr

/-- A done mark: a site minute and the table it came from (R134). -/
structure DoneMark where
  minute : Nat
  table : TableId
  deriving DecidableEq, Repr

/-- The kinds of a clock step (R162). -/
inductive StepKind where
  | firstSet | smallForward | largeForward | backward
  deriving DecidableEq, Repr

/-- A step event (R162): the kind and the site minutes before and after. A first setting has no minute before. -/
structure StepEvent where
  kind : StepKind
  before : Option Nat
  after : Nat
  deriving DecidableEq, Repr

/-! ## What blocks tell each other within a step -/

/-- The end of a route task as reported by R39; `failure` absent means DONE. -/
structure TaskEnd where
  tx : Tx
  origin : RouteOrigin
  dest : Dest
  failure : Option TaskFail
  byReplacement : Bool
  ownCancel : Bool
  deriving DecidableEq, Repr

/-- Reports of the slew controller to the run scheduler (R86); NOT_CONFIGURED names the antenna that the rotator had before the close. -/
inductive SlewReport where
  | completion
  | fault (r : SlewFault)
  | keepOut
  | cancelledLockedOut
  | cancelledNotConfigured (m : Ant)
  | cancelled
  deriving DecidableEq, Repr

/-- What a lockout is placed on (R166). -/
inductive Target where
  | tx (n : Tx)
  | ant (m : Ant)
  deriving DecidableEq, Repr

/-- The paths on which notices travel: one for each block that takes them, and that of the clock's boundaries and steps, which go
to the season store and the run scheduler together. -/
inductive Block where
  | matrix | route | slew | supervisor | lockout | hall | clock | run
  deriving DecidableEq, Repr

/-- A change or report on its way from one block to another inside one step. -/
inductive Notice where
  | mxJudge
  | routeRf (n : Tx)
  | routeSafe
  | routeLeft (w : Sw)
  | routeSettled
  | slewPower
  | slewAllowed
  | slewInvalid (k : Rot)
  | slewSettled
  | txRf (n : Tx)
  | txSettled
  | lockRf (n : Tx)
  | lockSw (m : Ant) (leftMoving intoFault : Bool)
  | lockTask (e : TaskEnd)
  | lockAsk (m : Ant)
  | lockSettled
  | hallRf (n : Tx)
  | boundary (minute : Nat)
  | step (e : StepEvent)
  | runBoundary (minute : Nat)
  | runStep (e : StepEvent)
  | runEdit (t : TableId) (fromClose : Bool)
  | runChangeover (t : TableId) (minute : Nat)
  | runTask (e : TaskEnd)
  | runSlew (run : Nat) (k : Rot) (r : SlewReport)
  | runOrder (run : Nat) (kind : OrderKind) (failure : Option OrderFail)
  | runFinalTrip (n : Tx) (mark : Option Ant)
  | runLockout (t : Target)
  | runTx (n : Tx)
  | runHall
  | runSelFault (m : Ant)
  | runSlot (n : Tx) (now : Nat)
  | runJudge
  | runHeld (n : Tx)
  | runSettled
  deriving DecidableEq, Repr

/-- The run table (R133, R134), the next run number, and the notices kept through restart settling (R155). -/
structure RunTable where
  cur : Vector (Option RunRec) 8
  nxt : Vector (Option RunRec) 8
  outcomes : List RunRec
  marks : Vector (Option DoneMark) 8
  nextNum : Nat
  kept : List Notice
  deriving DecidableEq, Repr

/-! ## Site clock (chapter 8) -/

/-- States of the site clock (R156). -/
inductive ClockState where
  | unset | running | holdover
  deriving DecidableEq, Repr

/-- A time of the site clock (R156). -/
structure Civil where
  day : Nat
  minute : Nat
  second : Nat
  deriving DecidableEq, Repr

/-- The last TIME message taken and the moment it was taken (R156). -/
structure Reference where
  civil : Civil
  moment : Nat
  deriving DecidableEq, Repr

/-- The last step (R156, R162). A first setting has no old time, so no size and no site minute before. -/
structure StepRec where
  kind : StepKind
  size : Option Int
  before : Option Nat
  after : Nat
  deriving DecidableEq, Repr

/-- The clock record (R156). `lastCounted` is the moment of the last tick or one-second advance, which the 0.5 s test of
R157 reads; `tick` is the armed tick. -/
structure Clock where
  state : ClockState
  now : Option Civil
  lastMark : Option Nat
  lastCounted : Option Nat
  tick : Timer
  missed : Nat
  owed : Bool
  lastPulse : Option Nat
  lastRef : Option Reference
  lastStep : Option StepRec
  deriving DecidableEq, Repr

/-! ## Lockouts (chapter 9) -/

/-- A lockout record (R166); `placed` is the site minute and second. -/
structure LockRec where
  target : Target
  desk : Desk
  reason : Nat
  effective : Bool
  placed : Option (Nat × Nat)
  deriving DecidableEq, Repr

/-- Earthing states (R166). -/
inductive EarthState where
  | waiting | running | done | failed
  deriving DecidableEq, Repr

/-- Why an earthing failed (R166). -/
inductive EarthFail where
  | rfStuck | switchFault
  deriving DecidableEq, Repr

/-- An earthing record (R166); `loose` says that the RUNNING earthing is a loose one, with no task (R170). -/
structure EarthRec where
  state : EarthState
  failure : Option EarthFail
  loose : Bool
  deriving DecidableEq, Repr

/-- The lockout table (R166), records in the order in which they were placed. -/
structure LockTable where
  records : List LockRec
  earth : Vector (Option EarthRec) 24
  deriving DecidableEq, Repr

/-! ## Hall monitor (chapter 9) -/

/-- A filtered input (R176): accepted level, candidate mark, and, before the first accepted level, the last sample. -/
structure Filter (α : Type) where
  accepted : Option α
  candidate : Bool
  firstSample : Option α
  deriving DecidableEq, Repr

/-- The hall states (R178). -/
inductive HallState where
  | safe | restoredWait | normal
  deriving DecidableEq, Repr

/-- The hall monitor (R176, R178). `closedRunOut` marks a closed timer that has run out; `closedStart` is when it was
started. -/
structure Hall where
  state : HallState
  closed : Timer
  closedRunOut : Bool
  closedStart : Option Nat
  access : Filter AccessLevel
  supply : Filter SupplyLevel
  rf : Vector (Filter RfLevel) 8
  deriving DecidableEq, Repr

/-! ## Desk interface (chapter 10) -/

/-- A frame of a send queue (R183, R195). `linkBusy` marks a BUSY reply of the link itself (R186); a waiting attention
frame has no content until its sending begins. -/
inductive Frame where
  | reply (tag : Byte) (status : Status) (payload : List Byte) (linkBusy : Bool)
  | attnWaiting
  | attnSending (tag : Byte) (content : BitVec 12)
  deriving DecidableEq, Repr

/-- A link record (R183). The receiver is HUNTING when `rx` is empty, else RECEIVING with the bytes from the sync byte on;
`byteGap` is the 20 ms of R185; `due` says that an attention frame is due within the present step (R195). -/
structure Link where
  rx : List Byte
  byteGap : Timer
  inProgress : Option (Byte × Byte)
  queue : List Frame
  count : Byte
  attn : BitVec 12
  sub : BitVec 12
  due : Bool
  deriving DecidableEq, Repr

/-! ## Configuration store (chapter 11) -/

/-- The last close result (R199). -/
inductive CloseResult where
  | done
  | failed (check : Nat) (item : Nat)
  deriving DecidableEq, Repr

/-- The settling record (R208), with the outputs held through settling (R51). -/
structure Settling where
  timer : Timer
  waitTx : List Tx
  waitRot : List Rot
  waitSw : List Sw
  held : Vector Level 8
  deriving DecidableEq, Repr

/-- The configuration store (R199). `saving` is the image being written while the save state is WRITING; `lastSave` is
true for DONE and false for FAILED; `image` is the configuration memory. -/
structure ConfigStore where
  configured : Bool
  active : Configuration
  openDesk : Option Desk
  workspace : Option Configuration
  memoryValid : Bool
  saving : Option (List Byte)
  lastSave : Option Bool
  lastClose : Option CloseResult
  settling : Option Settling
  image : List Host.Cell
  deriving DecidableEq, Repr

/-- What the part sends on its lines. -/
inductive Output where
  | move (w : Sw) (p : Pos)
  | stop (w : Sw)
  | reportAll
  | tuneOrder (n : Tx) (freq feed : Nat)
  | feedOrder (n : Tx) (feed : Nat)
  | deskFrames (d : Desk) (frames : List (List Byte))
  deriving DecidableEq, Repr

/-- The whole state. `pending` is the queue of waiting commands, first in first out; `timebase` is the internal timebase in
milliseconds; `sent` is everything sent so far, oldest first; `choices` counts the free choices drawn so far among blocks
that the spec lets act in any order; `notices` is empty between steps. -/
structure State where
  pending : List Instr
  timebase : Nat
  choices : Nat
  sent : List Output
  notices : List Notice
  cfg : ConfigStore
  mx : Matrix
  tasks : Vector (Option Task) 8
  permit : Vector PermitRec 8
  rot : Vector RotRec 4
  slew : Vector SlewRec 4
  tx : Vector TxRec 8
  faultMark : Vector Bool 24
  enabled : Vector Word16 24
  season : Season
  run : RunTable
  clock : Clock
  locks : LockTable
  hall : Hall
  links : Vector Link 3
  deriving DecidableEq, Repr

/-! ## Values at power-up -/

/-- A switch record at power-up (R22). -/
def SwRec.powerUp (p : Pos) : SwRec :=
  { commanded := p, confirmed := .unknown, state := .steady, cls := none, arrival := none, grantTime := none,
    travelDue := none, fault := none }

/-- The matrix at power-up, its 1 s report window just opened (R22). -/
def Matrix.powerUp : Matrix :=
  { sel := Vector.replicate 24 (SwRec.powerUp .earth), out := Vector.replicate 8 (SwRec.powerUp .dummy),
    nextArrival := 1, safety := [], reportWindow := .running 1000, supplyHold := .idle, supplyHeld := false,
    permitted := false, reports := [] }

/-- A permit record at power-up while UNCONFIGURED (R44). -/
def PermitRec.powerUp : PermitRec :=
  { requester := .nobody, requested := .off, forces := ⟨false, false, false, false⟩, allowed := .off,
    reasons := ⟨false, false, false, false, false, false, false, false, false, false, false, false, false, true⟩,
    caps := ⟨false, false⟩, output := .off, holds := ⟨false, false, false⟩ }

/-- A rotator position record at power-up, equipped or not (R52, R69). -/
def RotRec.powerUp : RotRec :=
  { validity := .invalid, azimuth := none, sensor := none, fine := none, period := none, residual := none,
    badCount := 0, lastBad := none, rawF := none, rawV := none, goodTime := none, frameTimer := .idle }

/-- A slew record at power-up (R88). -/
def SlewRec.powerUp : SlewRec :=
  { target := none, state := .idle, dir := none, speed := none, cap := none, origin := none, startTime := none,
    slewTimer := .idle, settleCount := 0, lastOff := none, fault := none, powerWait := .idle, dwell := .idle,
    stallWindow := .idle, stallRef := none, furthest := none, reported := false }

/-- A transmitter record at power-up, or unconfigured (R92, R110). -/
def TxRec.powerUp : TxRec :=
  { state := .offline, reporting := false, lastCond := none, tuned := none, feed := none, rfLevel := none,
    holder := none, history := [], lastCause := none, warning := false, order := none, lastEnd := none,
    recycleTimer := .idle, clearPending := false, rfWatch := .idle, silence := .idle, lastFreq := none }

/-- The season store at power-up (R131). -/
def Season.powerUp : Season :=
  { active := .a, tableA := [], tableB := [], armed := false, editA := 0, editB := 0, changeover := none, last := none }

/-- The run table at power-up (R155). -/
def RunTable.powerUp : RunTable :=
  { cur := Vector.replicate 8 none, nxt := Vector.replicate 8 none, outcomes := [], marks := Vector.replicate 8 none,
    nextNum := 1, kept := [] }

/-- The clock at power-up (R165). -/
def Clock.powerUp : Clock :=
  { state := .unset, now := none, lastMark := none, lastCounted := none, tick := .idle, missed := 0, owed := false,
    lastPulse := none, lastRef := none, lastStep := none }

/-- The lockout table at power-up (R166). -/
def LockTable.powerUp : LockTable := { records := [], earth := Vector.replicate 24 none }

/-- A filter with no accepted level (R177). -/
def Filter.powerUp {α : Type} : Filter α := { accepted := none, candidate := false, firstSample := none }

/-- The hall monitor at power-up: SAFE until the access filter settles (R177, R178). -/
def Hall.powerUp : Hall :=
  { state := .safe, closed := .idle, closedRunOut := false, closedStart := none, access := Filter.powerUp,
    supply := Filter.powerUp, rf := Vector.replicate 8 Filter.powerUp }

/-- A link record at power-up (R183). -/
def Link.powerUp : Link :=
  { rx := [], byteGap := .idle, inProgress := none, queue := [], count := 0, attn := 0, sub := 0, due := false }

/-- The configuration store at power-up with no valid image: UNCONFIGURED (R199, R201). The active configuration then
holds the defaults (log entry 7). -/
def ConfigStore.powerUp : ConfigStore :=
  { configured := false, active := Configuration.default, openDesk := none, workspace := none, memoryValid := false,
    saving := none, lastSave := none, lastClose := none, settling := none, image := [] }

/-- The machine right after power is applied with a configuration memory in which nothing is listed: no image, so
UNCONFIGURED, REPORT-ALL sent and the report window open (R3, R22, R201). -/
def State.reset : State :=
  { pending := [], timebase := 0, choices := 0, sent := [.reportAll], notices := [], cfg := ConfigStore.powerUp,
    mx := Matrix.powerUp, tasks := Vector.replicate 8 none, permit := Vector.replicate 8 PermitRec.powerUp,
    rot := Vector.replicate 4 RotRec.powerUp, slew := Vector.replicate 4 SlewRec.powerUp,
    tx := Vector.replicate 8 TxRec.powerUp, faultMark := Vector.replicate 24 false,
    enabled := Vector.replicate 24 0, season := Season.powerUp, run := RunTable.powerUp, clock := Clock.powerUp,
    locks := LockTable.powerUp, hall := Hall.powerUp, links := Vector.replicate 3 Link.powerUp }

end Sys2Proof.Machine
end

