-- ==== Sys2Proof/Machine/Ops.lean ====
section
/-! DEFINITION. The named operations over State that every block uses: enumerations in record order, configuration
readings, timers, the accepted levels, sending, attention, notices and the tape of free choices. -/

namespace Sys2Proof

/-- The place of a desk's link record. -/
def Desk.index : Desk → Fin 3
  | .dl1 => 0
  | .dl2 => 1
  | .dl3 => 2

/-- The number of a desk, 1 to 3 (R190). -/
def Desk.number : Desk → Nat
  | .dl1 => 1
  | .dl2 => 2
  | .dl3 => 3

/-- The order OFF, LOW, FULL. -/
def Level.rank : Level → Nat
  | .off => 0
  | .low => 1
  | .full => 2

/-- The lower of two levels (R49). -/
def Level.min (a b : Level) : Level := if a.rank ≤ b.rank then a else b

end Sys2Proof

namespace Sys2Proof.Machine

/-! ## Enumerations -/

/-- T1 to T8. -/
def allTx : List Tx := [0, 1, 2, 3, 4, 5, 6, 7]

/-- A1 to A24. -/
def allAnt : List Ant :=
  [0, 1, 2, 3, 4, 5, 6, 7, 8, 9, 10, 11, 12, 13, 14, 15, 16, 17, 18, 19, 20, 21, 22, 23]

/-- Rotators 1 to 4. -/
def allRot : List Rot := [0, 1, 2, 3]

/-- The 32 switches in record order: AS1 to AS24, then OS1 to OS8 (R21). -/
def allSw : List Sw := allAnt.map Sw.sel ++ allTx.map Sw.out

/-- DL1 to DL3. -/
def allDesk : List Desk := [.dl1, .dl2, .dl3]

/-- The transmitter of a number 1 to 8. -/
def txOf (n : Nat) : Option Tx :=
  if 1 ≤ n then (if h : n - 1 < 8 then some ⟨n - 1, h⟩ else none) else none

/-- The antenna of a number 1 to 24. -/
def antOf (m : Nat) : Option Ant :=
  if 1 ≤ m then (if h : m - 1 < 24 then some ⟨m - 1, h⟩ else none) else none

/-- The rotator of a number 1 to 4. -/
def rotOf (k : Nat) : Option Rot :=
  if 1 ≤ k then (if h : k - 1 < 4 then some ⟨k - 1, h⟩ else none) else none

/-- The desk of a number 1 to 3 (R190). -/
def deskOf : Nat → Option Desk
  | 1 => some .dl1
  | 2 => some .dl2
  | 3 => some .dl3
  | _ => none

/-! ## Configuration readings -/

/-- A transmitter within the configured count; none is while UNCONFIGURED (R201). -/
def ConfigStore.txOk (c : ConfigStore) (n : Tx) : Bool := c.configured && decide (n.val < c.active.txCount)

/-- An antenna within the configured count; none is while UNCONFIGURED (R201). -/
def ConfigStore.antOk (c : ConfigStore) (m : Ant) : Bool := c.configured && decide (m.val < c.active.antCount)

/-- An equipped switch (R2). -/
def ConfigStore.swOk (c : ConfigStore) : Sw → Bool
  | .sel m => c.antOk m
  | .out n => c.txOk n

/-- The antenna whose configuration names rotator k, if one within the count does (R52). -/
def ConfigStore.rotAnt (c : ConfigStore) (k : Rot) : Option Ant :=
  allAnt.find? fun m => c.antOk m && c.active.rotatorOf[m] == k.val + 1

/-- The rotator of a configured antenna, if it has one. -/
def ConfigStore.antRot (c : ConfigStore) (m : Ant) : Option Rot :=
  if c.antOk m then rotOf c.active.rotatorOf[m] else none

/-- An equipped rotator. -/
def ConfigStore.rotOk (c : ConfigStore) (k : Rot) : Bool := (c.rotAnt k).isSome

/-- The part is settling after a warm restart (R208). -/
def State.isSettling (s : State) : Bool := s.cfg.settling.isSome

/-- A configuration is open (R199). -/
def State.isOpen (s : State) : Bool := s.cfg.openDesk.isSome

/-! ## Timers -/

/-- A timer started now for `dur` milliseconds. -/
def State.startTimer (s : State) (dur : Nat) : Timer := .running (s.timebase + dur)

/-- The timer runs. -/
def Timer.isRunning : Timer → Bool
  | .running _ => true
  | _ => false

/-- A running timer is stopped through settling (R111). -/
def Timer.halt : Timer → Timer
  | .running _ => .stopped
  | t => t

/-- A stopped timer is started anew for `dur` milliseconds. -/
def Timer.resume (t : Timer) (now dur : Nat) : Timer :=
  match t with
  | .stopped => .running (now + dur)
  | t => t

/-- The expiry of a timer: when it runs, the internal timebase stands at least at its due moment. -/
def State.atExpiry (s : State) (t : Timer) : State :=
  match t with
  | .running due => { s with timebase := max s.timebase due }
  | _ => s

/-! ## Accepted levels -/

/-- RFSn shows RF present, as it counts until its filter has an accepted level (R177). -/
def State.rfPresent (s : State) (n : Tx) : Bool := s.hall.rf[n].accepted != some .absent

/-- The hall state is SAFE. -/
def State.hallSafe (s : State) : Bool := s.hall.state == .safe

/-- The accepted level of the supply is GOOD; it counts as LOW until accepted (R177). -/
def State.supplyGood (s : State) : Bool := s.hall.supply.accepted == some .good

/-! ## Sending, notices, choices -/

/-- A message or order is sent. -/
def State.send (s : State) (o : Output) : State := { s with sent := s.sent ++ [o] }

/-- A notice is given. -/
def State.notify (s : State) (n : Notice) : State := { s with notices := s.notices ++ [n] }

/-- Several notices are given. -/
def State.notifyAll (s : State) (ns : List Notice) : State := { s with notices := s.notices ++ ns }

/-- The path of a notice: the block it is given to, or the clock's. -/
def Notice.block : Notice → Block
  | .mxJudge => .matrix
  | .routeRf _ => .route
  | .routeSafe => .route
  | .routeLeft _ => .route
  | .routeSettled => .route
  | .slewPower => .slew
  | .slewAllowed => .slew
  | .slewInvalid _ => .slew
  | .slewSettled => .slew
  | .txRf _ => .supervisor
  | .txSettled => .supervisor
  | .lockRf _ => .lockout
  | .lockSw _ _ _ => .lockout
  | .lockTask _ => .lockout
  | .lockAsk _ => .lockout
  | .lockSettled => .lockout
  | .hallRf _ => .hall
  | .boundary _ => .clock
  | .step _ => .clock
  | .runBoundary _ => .run
  | .runStep _ => .run
  | .runEdit _ _ => .run
  | .runChangeover _ _ => .run
  | .runTask _ => .run
  | .runSlew _ _ _ => .run
  | .runOrder _ _ _ => .run
  | .runFinalTrip _ _ => .run
  | .runLockout _ => .run
  | .runTx _ => .run
  | .runHall => .run
  | .runSelFault _ => .run
  | .runSlot _ _ => .run
  | .runJudge => .run
  | .runHeld _ => .run
  | .runSettled => .run

/-- One free choice among `count` possibilities (log entry 2); nothing is drawn where there is one only. -/
def State.choose (s : State) (count : Nat) : Nat × State :=
  if count ≤ 1 then (0, s)
  else (Config.choice s.choices % count, { s with choices := s.choices + 1 })

/-- The members of a list in a freely chosen order. -/
def State.arrangeAux {α : Type} : Nat → List α → State → List α × State
  | 0, xs, s => (xs, s)
  | _ + 1, [], s => ([], s)
  | fuel + 1, x :: xs, s =>
    let (i, s1) := s.choose (xs.length + 1)
    let y := (x :: xs).getD i x
    let (ys, s2) := State.arrangeAux fuel ((x :: xs).eraseIdx i) s1
    (y :: ys, s2)

/-- The members of a list in a freely chosen order. -/
def State.arrange {α : Type} (s : State) (xs : List α) : List α × State := State.arrangeAux xs.length xs s

/-- Run one operation for every member of a list, in order. -/
def forAll {α : Type} (xs : List α) (f : α → State → State) (s : State) : State := xs.foldl (fun s x => f x s) s

/-! ## Attention -/

/-- The place of a class (R194). -/
def Attn.place : Attn → Nat
  | .route => 0
  | .switch => 1
  | .slew => 2
  | .rotator => 3
  | .transmitter => 4
  | .trip => 5
  | .run => 6
  | .schedule => 7
  | .lockout => 8
  | .hall => 9
  | .clock => 10
  | .config => 11

/-- The set holding one class. -/
def Attn.bit (a : Attn) : BitVec 12 := 1#12 <<< a.place

/-- A class is set on one link; a class newly set and subscribed makes an attention frame due (R194). -/
def Link.raise (l : Link) (a : Attn) : Link :=
  { l with attn := l.attn ||| a.bit,
           due := l.due || ((l.attn &&& a.bit == 0) && !(l.sub &&& a.bit == 0)) }

/-- Attention of a class is raised: the class is set in every desk's set (R194). -/
def State.raise (s : State) (a : Attn) : State :=
  { s with links := #v[s.links[0].raise a, s.links[1].raise a, s.links[2].raise a] }

/-- Attention is raised where a condition holds. -/
def State.raiseIf (s : State) (c : Bool) (a : Attn) : State := if c then s.raise a else s

/-! ## Record access -/

/-- One transmitter record changed. -/
def State.modTx (s : State) (n : Tx) (f : TxRec → TxRec) : State := { s with tx := s.tx.set n (f s.tx[n]) }

/-- One permit record changed. -/
def State.modPermit (s : State) (n : Tx) (f : PermitRec → PermitRec) : State :=
  { s with permit := s.permit.set n (f s.permit[n]) }

/-- One slew record changed. -/
def State.modSlew (s : State) (k : Rot) (f : SlewRec → SlewRec) : State := { s with slew := s.slew.set k (f s.slew[k]) }

/-- One rotator position record changed. -/
def State.modRot (s : State) (k : Rot) (f : RotRec → RotRec) : State := { s with rot := s.rot.set k (f s.rot[k]) }

/-- One link record changed. -/
def State.modLink (s : State) (d : Desk) (f : Link → Link) : State :=
  { s with links := s.links.set d.index (f s.links[d.index]) }

/-- The link record of a desk. -/
def State.link (s : State) (d : Desk) : Link := s.links[d.index]

/-- The forces of a transmitter's permit record changed (R44). -/
def State.modForces (s : State) (n : Tx) (f : Forces → Forces) : State :=
  s.modPermit n fun p => { p with forces := f p.forces }

/-- The holds on a TRIP line changed (R50). -/
def State.modHolds (s : State) (n : Tx) (f : Holds → Holds) : State :=
  s.modPermit n fun p => { p with holds := f p.holds }

/-- A lockout stands on a target (R166). -/
def State.locked (s : State) (t : Target) : Bool := s.locks.records.any fun r => r.target == t

/-- A member removed from a list. -/
def without {α : Type} [BEq α] (xs : List α) (x : α) : List α := xs.filter fun y => !(y == x)

end Sys2Proof.Machine
end

