-- ==== Sys2Proof/Machine/Azimuth.lean ====
section
/-! DEFINITION. The azimuth unit (chapter 3): the vernier computation, validity, calibration and configuration changes. -/

namespace Sys2Proof

/-! ## The vernier computation (section 3.3) -/

/-- The corrected fine phase φF′ (R55). -/
def RotParams.fine (p : RotParams) (phiF : Nat) : Nat := (((phiF : Int) - p.offF) % 4096).toNat

/-- The corrected vernier phase φV′ (R55). -/
def RotParams.vernier (p : RotParams) (phiV : Nat) : Nat := (((phiV : Int) - p.offV) % 4096).toNat

/-- The difference D (R55). -/
def RotParams.difference (p : RotParams) (phiF phiV : Nat) : Nat :=
  (((p.fine phiF : Int) - p.vernier phiV) % 4096).toNat

/-- The product X = D·P − φF′ (R56). -/
def RotParams.product (p : RotParams) (phiF phiV : Nat) : Int :=
  (p.difference phiF phiV : Int) * p.periods - p.fine phiF

/-- The nearest multiple k0 = floor((X + 2048) / 4096) (R56). -/
def RotParams.nearest (p : RotParams) (phiF phiV : Nat) : Int := (p.product phiF phiV + 2048) / 4096

/-- The residual e = X − 4096·k0 (R56). -/
def RotParams.residual (p : RotParams) (phiF phiV : Nat) : Int :=
  p.product phiF phiV - 4096 * p.nearest phiF phiV

/-- The period index k = k0 mod P (R56). -/
def RotParams.periodIndex (p : RotParams) (phiF phiV : Nat) : Nat := (p.nearest phiF phiV % p.periods).toNat

/-- The frame is good: |e| ≤ T (R57). -/
def RotParams.isGood (p : RotParams) (phiF phiV : Nat) : Bool := decide ((p.residual phiF phiV).natAbs ≤ p.tol)

/-- The fine count A = 4096·k + φF′ (R58). -/
def RotParams.fineCount (p : RotParams) (phiF phiV : Nat) : Nat := 4096 * p.periodIndex phiF phiV + p.fine phiF

/-- The sensor bearing of a fine count, rounded half up, 3600 written as 0 (R58). -/
def RotParams.bearing (p : RotParams) (a : Nat) : Nat := ((a * 3600 + 2048 * p.periods) / (4096 * p.periods)) % 3600

/-- The parameters of the computation other than Z differ (R68). -/
def RotParams.computesOtherwise (a b : RotParams) : Bool :=
  a.periods != b.periods || a.offF != b.offF || a.offV != b.offV || a.tol != b.tol

/-- The azimuth of a sensor bearing (R59). -/
def azimuthOf (sensor zeroBearing : Nat) : Nat := (sensor + zeroBearing) % 3600

end Sys2Proof

namespace Sys2Proof.Machine

/-- The parameters of a rotator in force (R54, R72). -/
def State.params (s : State) (k : Rot) : RotParams := s.cfg.active.rot[k]

/-- A good frame taken into a record (R59, R60). -/
def RotRec.good (r : RotRec) (p : RotParams) (phiF phiV now : Nat) : RotRec :=
  let a := p.fineCount phiF phiV
  { r with validity := .valid, badCount := 0, residual := some (p.residual phiF phiV), azimuth := some (azimuthOf (p.bearing a) p.zero),
           sensor := some (p.bearing a), fine := some a, period := some (p.periodIndex phiF phiV), goodTime := some now }

/-- A bad frame taken into a record (R61). -/
def RotRec.bad (r : RotRec) (why : BadReason) : RotRec :=
  match r.validity with
  | .invalid => { r with badCount := 3, lastBad := some why }
  | _ =>
    if r.badCount + 1 ≥ 3 then { r with validity := .invalid, badCount := 3, lastBad := some why }
    else { r with validity := .suspect, badCount := r.badCount + 1, lastBad := some why }

/-- An accepted frame is good: its flag is set and its residual is within the tolerance (R53, R57). -/
def frameGood (p : RotParams) (f : SensorFrame) : Bool := f.sensorOk && p.isGood f.phiF.toNat f.phiV.toNat

/-- An accepted frame taken into a record: raw phases, frame timer, then the judgement (R53 to R61). -/
def RotRec.take (r : RotRec) (p : RotParams) (f : SensorFrame) (now : Nat) : RotRec :=
  let r := { r with rawF := some f.phiF.toNat, rawV := some f.phiV.toNat, frameTimer := .running (now + 100) }
  if !f.sensorOk then r.bad .sensorNotOk
  else if p.isGood f.phiF.toNat f.phiV.toNat then r.good p f.phiF.toNat f.phiV.toNat now
  else { r with residual := some (p.residual f.phiF.toNat f.phiV.toNat) }.bad .residual

/-- A change of validity that raises attention ROTATOR: into INVALID, and out of INVALID (R60, R61, R62). -/
def validityRaises (before after : Validity) : Bool := (before == .invalid) != (after == .invalid)

/-- An accepted frame of rotator k, with its attention (R53, R60, R61). -/
def State.takeFrame (s : State) (k : Rot) (f : SensorFrame) : State :=
  let r := s.rot[k]
  let r' := r.take (s.params k) f s.timebase
  (s.modRot k fun _ => r').raiseIf (validityRaises r.validity r'.validity) .rotator

/-- The frame timer of a record has run out (R62). -/
def RotRec.timedOut (r : RotRec) : RotRec :=
  { r with validity := .invalid, badCount := 3, lastBad := some .timeout, frameTimer := .idle }

/-- The zero bearing that an accepted calibration sets (R66). -/
def calibratedZero (bearing sensor : Nat) : Nat := (((bearing : Int) - sensor) % 3600).toNat

/-- The zero bearing of a rotator in the active configuration is set. -/
def ConfigStore.setZero (c : ConfigStore) (k : Rot) (z : Nat) : ConfigStore :=
  { c with active := { c.active with rot := c.active.rot.set k { c.active.rot[k] with zero := z } } }

/-- An accepted calibration (R66). -/
def State.calibrate (s : State) (k : Rot) (bearing : Nat) : State :=
  let z := calibratedZero bearing ((s.rot[k]).sensor.getD 0)
  State.raise { s with cfg := s.cfg.setZero k z, rot := s.rot.set k { s.rot[k] with azimuth := some bearing } } .rotator

/-- A rotator record at a configuration close; `before` is the store before the close (R68). DEDUCED (log 64): a change
of P, offF, offV or T keeps the good-frame time and the last raw phases, of which its row says nothing. -/
def State.rotReconfigOne (before : ConfigStore) (s : State) (k : Rot) : State :=
  let r := s.rot[k]
  let p := before.active.rot[k]
  let q := s.params k
  match before.rotAnt k, s.cfg.rotAnt k with
  | _, none => s.modRot k fun _ => RotRec.powerUp
  | none, some _ => s.modRot k fun _ => RotRec.powerUp
  | some _, some _ =>
    if p.computesOtherwise q then
      (s.modRot k fun r => { r with validity := .invalid, azimuth := none, sensor := none, fine := none, period := none,
                                    residual := none, badCount := 0, lastBad := none }).raiseIf
        (r.validity != .invalid) .rotator
    else if p.zero != q.zero then
      (s.modRot k fun r => { r with azimuth := r.sensor.map fun b => azimuthOf b q.zero }).raise .rotator
    else s

/-- Every rotator record at a configuration close (R68). -/
def State.rotReconfig (before : ConfigStore) (s : State) : State :=
  forAll allRot (fun k s => s.rotReconfigOne before k) s

/-- Every equipped rotator record at a warm restart (R70). -/
def State.rotRestart (s : State) : State :=
  forAll allRot (fun k s =>
    if s.cfg.rotOk k then
      s.modRot k fun r => { r with validity := .invalid, badCount := 3, frameTimer := s.startTimer 100 }
    else s) s

end Sys2Proof.Machine
end

