-- ==== Sys2Proof/Machine/Matrix.lean ====
section
/-! DEFINITION. The matrix controller (chapter 1): switch records, the move queue, drive permission and grants, commands,
admissions and withdrawals, reports from the drive boards, stops, and the power-up report window. -/

namespace Sys2Proof

/-- A position of the switch's kind (R1). -/
def Sw.takes : Sw → Pos → Bool
  | .sel _, .earth => true
  | .sel _, .bus _ => true
  | .out _, .antenna => true
  | .out _, .dummy => true
  | _, _ => false

/-- The position of an unequipped switch, and of every switch at power-up: EARTH or DUMMY (R2, R22). -/
def Sw.home : Sw → Pos
  | .sel _ => .earth
  | .out _ => .dummy

end Sys2Proof

namespace Sys2Proof.Machine

/-! ## Switch records -/

/-- The record of a switch (R1). -/
def Matrix.get (x : Matrix) : Sw → SwRec
  | .sel m => x.sel[m]
  | .out n => x.out[n]

/-- One record of the matrix written. -/
def Matrix.put (x : Matrix) (w : Sw) (r : SwRec) : Matrix :=
  match w with
  | .sel m => { x with sel := x.sel.set m r }
  | .out n => { x with out := x.out.set n r }

/-- The record of a switch (R1). -/
def State.sw (s : State) (w : Sw) : SwRec := s.mx.get w

/-- A switch record written. -/
def State.setSw (s : State) (w : Sw) (r : SwRec) : State := { s with mx := s.mx.put w r }

/-- A report of the matrix controller to the route controller (R15, R36). -/
def State.report (s : State) (r : MxReport) : State := { s with mx := { s.mx with reports := s.mx.reports ++ [r] } }

/-- A switch is confirmed at a position, not BETWEEN or UNKNOWN. -/
def Confirmed.pos : Confirmed → Option Pos
  | .stands p => some p
  | _ => none

/-- The confirmed position a report gives (R4). -/
def Confirmed.ofReading : Reading → Confirmed
  | .stands p => .stands p
  | .between => .between

/-- The record's commanded and confirmed positions are equal. -/
def SwRec.inPlace (r : SwRec) : Bool := r.confirmed == .stands r.commanded

/-- A switch leaves the power-up safety list (R24). -/
def State.leaveSafety (s : State) (w : Sw) : State := { s with mx := { s.mx with safety := without s.mx.safety w } }

/-- The record becomes STEADY with no move. -/
def SwRec.steady (r : SwRec) : SwRec :=
  { r with state := .steady, cls := none, arrival := none, grantTime := none, travelDue := none, fault := none }

/-- The record becomes FAULT for a reason. -/
def SwRec.faulted (r : SwRec) (f : SwFault) : SwRec :=
  { r with state := .fault, cls := none, arrival := none, grantTime := none, travelDue := none, fault := some f }

/-- A switch becomes STEADY in place and its move completes (R15). -/
def State.swComplete (s : State) (w : Sw) : State := (s.setSw w (s.sw w).steady).report (.completion w)

/-- The run scheduler sees in the switch record of a selector that it has entered FAULT (R210). -/
def faultSeen (r : SwRec) : Sw → List Notice
  | .sel m => if r.state == .fault then [] else [.runSelFault m]
  | .out _ => []

/-- A switch enters FAULT: the fault is reported and attention SWITCH raised (R15). The run scheduler sees the entry of a selector in
its record (R210), and so before the end of a task that the fault fails. DEDUCED (log 51): and so before a final trip that the guard
then makes of the fault (R42, R104). -/
def State.swFault (s : State) (w : Sw) (f : SwFault) : State :=
  ((((s.setSw w ((s.sw w).faulted f)).report (.fault w)).notifyAll (faultSeen (s.sw w) w))).raise .switch

/-! ## The move queue and the grants -/

/-- The order of move classes, most urgent first (R9). -/
def MoveClass.rank : MoveClass → Nat
  | .safety => 0
  | .schedule => 1
  | .manual => 2

/-- The higher of two classes (R6). -/
def MoveClass.higher (a b : MoveClass) : MoveClass := if a.rank ≤ b.rank then a else b

/-- The class after a further admission of class `c` (R6). -/
def higherClass (present : Option MoveClass) (c : MoveClass) : Option MoveClass :=
  match present with
  | none => some c
  | some p => some (p.higher c)

/-- The place of a PENDING record in the queue: class first, arrival number second (R9). -/
def SwRec.queueKey (r : SwRec) : Option (Nat × Nat) :=
  if r.state == .pending then some ((r.cls.map MoveClass.rank).getD 2, r.arrival.getD 0) else none

/-- One place is ahead of another (R9). -/
def queueBefore (a b : Nat × Nat) : Bool := a.1 < b.1 || (a.1 == b.1 && a.2 < b.2)

/-- The head of the move queue (R9). -/
def Matrix.head (x : Matrix) : Option Sw :=
  (allSw.foldl (fun best w =>
    match (x.get w).queueKey, best with
    | none, _ => best
    | some k, none => some (w, k)
    | some k, some (v, j) => if queueBefore k j then some (w, k) else some (v, j)) none).map Prod.fst

/-- The place of a PENDING switch in the queue, counted from 1 at the head (R1). -/
def Matrix.place (x : Matrix) (w : Sw) : Option Nat :=
  (x.get w).queueKey.map fun k =>
    (allSw.filter fun v => match (x.get v).queueKey with | some j => queueBefore j k | none => false).length + 1

/-- The number of MOVING switches, which are the grants held (R11). -/
def Matrix.movingCount (x : Matrix) : Nat := (allSw.filter fun w => (x.get w).state == .moving).length

/-- The five conditions of drive permission (R10). -/
def State.drivesPermitted (s : State) : Bool :=
  s.mx.supplyHeld && s.hall.state == .normal && !s.isOpen && s.cfg.configured && !s.isSettling

/-- The travel timeout of a switch, in milliseconds (R12). -/
def ConfigStore.travelMs (c : ConfigStore) : Sw → Nat
  | .sel _ => 1000 * c.active.selTravel
  | .out _ => 1000 * c.active.outTravel

/-- One grant: the switch becomes MOVING, its timeout is fixed and MOVE is sent (R12). -/
def State.grant (s : State) (w : Sw) : State :=
  let r := s.sw w
  ((s.setSw w { r with state := .moving, arrival := none, grantTime := some s.timebase,
                       travelDue := some (s.timebase + s.cfg.travelMs w) }).send (.move w r.commanded)).report (.granted w)

/-- Granting repeats until no grant is free or the queue is empty (R11). `fuel` bounds the repetition by the 32 switches. -/
def State.grantLoop : Nat → State → State
  | 0, s => s
  | fuel + 1, s =>
    if s.mx.permitted && s.drivesPermitted && decide (s.mx.movingCount < s.cfg.active.grantLimit) then
      match s.mx.head with
      | none => s
      | some w => State.grantLoop fuel (s.grant w)
    else s

/-- The test for grants of R11. -/
def State.grants (s : State) : State := State.grantLoop 32 s

/-! ## Commands, admissions, withdrawals -/

/-- The effect of a command on one switch, which is not MOVING (R5, R24). -/
def State.commandOne (s : State) (w : Sw) (p : Pos) : State :=
  let r := s.sw w
  let s := if r.commanded == p then s else s.leaveSafety w
  let s := s.setSw w { r with commanded := p }
  if (r.state == .pending || r.state == .stopped) && r.confirmed == .stands p then s.swComplete w else s

/-- A command: the whole list as one act, or refused whole (R2, R5). -/
def State.command (s : State) (ws : List (Sw × Pos)) : Status × State :=
  if ws.any fun x => !s.cfg.swOk x.1 then (.notConfigured, s)
  else if ws.any fun x => (s.sw x.1).state == .moving then (.busy, s)
  else (.done, ws.foldl (fun s x => s.commandOne x.1 x.2) s)

/-- An admission that finds the switch STEADY, or FAULT with the retry indication: it completes in place, or joins the queue
with a fresh arrival (R6, R7). No grant is made here. -/
def State.joinQueue (s : State) (w : Sw) (c : MoveClass) : State :=
  let r := s.sw w
  if r.inPlace then s.swComplete w
  else
    let s1 := s.setSw w { r with state := .pending, cls := some c, arrival := some s.mx.nextArrival, fault := none }
    { s1 with mx := { s1.mx with nextArrival := s1.mx.nextArrival + 1 } }

/-- The effect of an admission on an equipped switch, before the test for grants (R6, R7). -/
def State.admitCore (s : State) (w : Sw) (c : MoveClass) (retry : Bool) : Status × State :=
  let r := s.sw w
  match r.state with
  | .steady => (.done, s.joinQueue w c)
  | .pending => (.done, s.setSw w { r with cls := higherClass r.cls c })
  | .stopped => (.done, s.setSw w { r with cls := higherClass r.cls c })
  | .moving => (.busy, s)
  | .fault => if retry then (.done, s.joinQueue w c) else (.switchFault, s)

/-- An admission by the route controller (R2, R6, R7, R11, R24). -/
def State.admitMove (s : State) (w : Sw) (c : MoveClass) (retry : Bool) : Status × State :=
  if !s.cfg.swOk w then (.notConfigured, s)
  else
    match s.admitCore w c retry with
    | (.done, s1) => (.done, (s1.leaveSafety w).grants)
    | (a, s1) => (a, s1)

/-- A withdrawal of this switch would take its commanded position off a bus (R8). -/
def State.wouldLeave (s : State) (w : Sw) (n : Tx) : Bool :=
  s.cfg.swOk w && (s.sw w).state != .moving &&
    match (s.sw w).confirmed.pos with
    | some p => p != .bus n
    | none => false

/-- Another selector is commanded to a bus (R8), and is not one of `rest`, whose own withdrawal in the same act takes it off that
bus (R35; log entry 12). -/
def State.busTaken (s : State) (rest : List Sw) (m : Ant) (n : Tx) : Bool :=
  allAnt.any fun j => j != m && (s.sw (.sel j)).commanded == .bus n &&
    !(rest.contains (.sel j) && s.wouldLeave (.sel j) n)

/-- The exception of R8 holds for a switch standing at `p`. -/
def State.sharedBus (s : State) (rest : List Sw) : Sw → Pos → Bool
  | .sel m, .bus n => s.busTaken rest m n
  | _, _ => false

/-- The exception of R8: commanded EARTH, and admitted with class SAFETY and without the retry indication unless FAULT. -/
def State.withdrawToEarth (s : State) (w : Sw) : State :=
  let r := s.sw w
  let s := s.setSw w { r with commanded := .earth }
  if r.state == .fault then s else (s.admitCore w .safety false).2.grants

/-- A withdrawal (R2, R8); `rest` are the switches whose withdrawals follow it in the same act. -/
def State.withdraw (s : State) (w : Sw) (rest : List Sw) : Status × State :=
  let r := s.sw w
  if !s.cfg.swOk w then (.notConfigured, s)
  else if r.state == .moving then (.busy, s)
  else
    match r.confirmed.pos with
    | none => (.busy, s)
    | some p =>
      if s.sharedBus rest w p then (.done, s.withdrawToEarth w)
      else
        let s := s.setSw w { r with commanded := p }
        match r.state with
        | .pending => (.done, s.swComplete w)
        | .stopped => (.done, s.swComplete w)
        | _ => (.done, s)

/-! ## Drive permission -/

/-- One MOVING switch is stopped (R20). -/
def State.stopSw (s : State) (w : Sw) : State :=
  let r := s.sw w
  (s.setSw w { r with state := .stopped, confirmed := .unknown, grantTime := none, travelDue := none }).send (.stop w)

/-- Every MOVING switch is stopped (R20). DESIGN CHOICE (log 62): where there are several, STOP is sent in record order. -/
def State.stopAll (s : State) : State :=
  forAll allSw (fun w s => if (s.sw w).state == .moving then s.stopSw w else s) s

/-- A STOPPED switch re-enters the queue with its class and a fresh arrival number (R21). -/
def State.requeue (s : State) (w : Sw) : State :=
  let s1 := s.setSw w { s.sw w with state := .pending, arrival := some s.mx.nextArrival }
  State.report { s1 with mx := { s1.mx with nextArrival := s1.mx.nextArrival + 1 } } (.requeued w)

/-- Every STOPPED switch re-enters the queue, in record order (R21). -/
def State.requeueAll (s : State) : State :=
  forAll allSw (fun w s => if (s.sw w).state == .stopped then s.requeue w else s) s

/-- Every switch on the power-up safety list is admitted SAFETY with the retry indication, in record order; the list is then
empty (R24). The admission of an unequipped one is refused (R2). -/
def State.admitSafety (s : State) : State :=
  let s1 := forAll allSw (fun w s => if s.mx.safety.contains w && s.cfg.swOk w then (s.admitCore w .safety true).2 else s) s
  { s1 with mx := { s1.mx with safety := [] } }

/-- The matrix controller judges drive permission: at the moments when drives become permitted and cease to be
(R10, R20, R21, R24, R11). -/
def State.mxJudge (s : State) : State :=
  if s.drivesPermitted then
    if s.mx.permitted then s
    else (State.admitSafety (State.requeueAll { s with mx := { s.mx with permitted := true } })).grants
  else
    if s.mx.permitted then State.stopAll { s with mx := { s.mx with permitted := false } } else s

/-! ## Reports from the drive boards -/

/-- A report for a MOVING switch (R13, R24). -/
def State.movingReport (s : State) (w : Sw) (x : Confirmed) : State :=
  let r := s.sw w
  let s := s.setSw w { r with confirmed := x }
  if x == .stands r.commanded then ((s.leaveSafety w).swComplete w).grants
  else if x == .between then s
  else (s.swFault w .wrongPosition).grants

/-- A report for a STEADY switch (R16, R22, R24). DEDUCED (log 56): the report that fills the record of a newly equipped switch (R2) is
one of a switch confirmed UNKNOWN, and sets the confirmed position alone. -/
def State.steadyReport (s : State) (w : Sw) (x : Confirmed) : State :=
  let r := s.sw w
  if x == r.confirmed then s
  else
    let s1 := s.setSw w { r with confirmed := x }
    let s2 := if x == .stands r.commanded then s1.leaveSafety w else s1
    if s.mx.reportWindow.isRunning || r.confirmed == .unknown then s2 else s2.swFault w .uncommanded

/-- A report for a PENDING switch (R17, R24). -/
def State.pendingReport (s : State) (w : Sw) (x : Confirmed) : State :=
  let r := s.sw w
  if x == r.confirmed then s
  else
    let s1 := s.setSw w { r with confirmed := x }
    if x == .stands r.commanded then (s1.leaveSafety w).swComplete w
    else if r.confirmed.pos.isSome then s1.swFault w .uncommanded
    else s1

/-- A report for a STOPPED switch (R18, R24). -/
def State.stoppedReport (s : State) (w : Sw) (x : Confirmed) : State :=
  let r := s.sw w
  let s1 := s.setSw w { r with confirmed := x }
  if x == .stands r.commanded then (s1.leaveSafety w).swComplete w else s1

/-- A report for a FAULT switch (R19). DEDUCED (log 41): a repeat of the confirmed position changes nothing (R4), also where
R19's exception for CONFLICT would read on it. -/
def State.faultReport (s : State) (w : Sw) (x : Confirmed) : State :=
  let r := s.sw w
  let s1 := s.setSw w { r with confirmed := x }
  if x == r.confirmed then s
  else if r.fault == some .conflict && x == .stands .earth && r.commanded == .earth then (s1.leaveSafety w).swComplete w
  else if x == .stands r.commanded then s1.leaveSafety w
  else s1

/-- A report that names an equipped switch and a reading of its kind is taken into the record by its state; every other
report is discarded (R2, R4). -/
def State.takeReport (s : State) (w : Sw) (x : Confirmed) : State :=
  match (s.sw w).state with
  | .moving => s.movingReport w x
  | .steady => s.steadyReport w x
  | .pending => s.pendingReport w x
  | .stopped => s.stoppedReport w x
  | .fault => s.faultReport w x

/-- A reading fits the kind of a switch (R4). -/
def readingFits (w : Sw) : Reading → Bool
  | .stands p => w.takes p
  | .between => true

/-! ## Timeouts, window, restart -/

/-- The travel timeout of a MOVING switch (R14). -/
def State.travelExpired (s : State) (w : Sw) : State :=
  let r := s.sw w
  (((s.send (.stop w)).setSw w { r with confirmed := .unknown }).swFault w .travelTimeout).grants

/-- The number of selectors confirmed at a bus. -/
def Matrix.busConfirmed (x : Matrix) (n : Tx) : List Ant :=
  allAnt.filter fun m => (x.get (.sel m)).confirmed == .stands (.bus n)

/-- What the end of the report window finds of a switch (R23). -/
inductive Found where
  | conflict
  | atPosition (p : Pos)
  | lost
  deriving DecidableEq, Repr

/-- What the end of the report window finds of a switch (R23). -/
def Matrix.found (x : Matrix) (w : Sw) : Found :=
  match (x.get w).confirmed, w with
  | .stands (.bus n), .sel _ => if (x.busConfirmed n).length ≥ 2 then .conflict else .atPosition (.bus n)
  | .stands p, _ => .atPosition p
  | _, _ => .lost

/-- One switch at the end of the report window; `found` is what the window found before anything was set (R23). -/
def State.windowOne (s : State) (found : Found) (w : Sw) : State :=
  let add (s : State) : State := { s with mx := { s.mx with safety := s.mx.safety ++ [w] } }
  match found with
  | .conflict => add ((s.setSw w { s.sw w with commanded := .earth }).swFault w .conflict)
  | .atPosition p => s.setSw w { s.sw w with commanded := p }
  | .lost => add (s.setSw w { s.sw w with commanded := w.home })

/-- The end of the power-up report window (R23, R24). Where drives are permitted already, the list is admitted now (log 34). DEDUCED
(log 53): an unequipped switch, which R2 keeps confirmed UNKNOWN, joins the list by the same table, which excepts none. -/
def State.windowEnd (s : State) : State :=
  let x := s.mx
  let s := { s with mx := { s.mx with reportWindow := .idle } }
  let s := forAll allSw (fun w s => s.windowOne (x.found w) w) s
  if !s.cfg.configured then { s with mx := { s.mx with safety := [] } }
  else if s.mx.permitted && s.drivesPermitted then s.admitSafety.grants
  else s

/-- The accepted level of the supply input has changed, or been taken for the first time: the hold timer is started or
cancelled and attention HALL raised (R10). -/
def State.supplyJudge (s : State) : State :=
  let s :=
    if s.supplyGood then { s with mx := { s.mx with supplyHold := s.startTimer 2000, supplyHeld := false } }
    else { s with mx := { s.mx with supplyHold := .idle, supplyHeld := false } }
  s.raise .hall

/-- The supply hold timer has expired (R10). -/
def State.supplyHeldNow (s : State) : State := { s with mx := { s.mx with supplyHold := .idle, supplyHeld := true } }

/-- A switch made unequipped takes the unequipped values and is reported as a completion (R2). -/
def State.unequip (s : State) (w : Sw) : State :=
  ((s.leaveSafety w).setSw w (SwRec.powerUp w.home)).report (.completion w)

/-- A configuration close: switches that were equipped and no longer are (R2). DESIGN CHOICE (log 66): reported in record order. -/
def State.mxReconfig (before : ConfigStore) (s : State) : State :=
  forAll allSw (fun w s => if before.swOk w && !s.cfg.swOk w then s.unequip w else s) s

/-- The matrix of R22, as power-up and the first close give it: REPORT-ALL is sent and the report window opened. The supply
hold is `hold` and `held`. -/
def State.mxFresh (s : State) (hold : Timer) (held : Bool) : State :=
  State.send { s with mx := { Matrix.powerUp with supplyHold := hold, supplyHeld := held,
                                                  reportWindow := s.startTimer 1000 } } .reportAll

/-- A warm restart: MOVING switches are stopped and REPORT-ALL is sent (R25). Drives are not permitted while settling. DESIGN CHOICE
(log 44): a power-up report window still running runs on. -/
def State.mxRestart (s : State) : State :=
  let s := State.stopAll s
  State.send { s with mx := { s.mx with permitted := false } } .reportAll

end Sys2Proof.Machine
end

