-- ==== Sys2Proof/Machine/Routes.lean ====
section
/-! DEFINITION. The route controller (sections 2.1 to 2.4): paths and the route map, the checks and acceptance of route
requests, and the running of route tasks. -/

namespace Sys2Proof.Machine

/-! ## Paths and the route map -/

/-- A switch lies on the path of a transmitter: its output switch, or a selector whose commanded or confirmed position is its
bus (Terms, R30). -/
def Matrix.onPath (x : Matrix) (n : Tx) : Sw → Bool
  | .out j => j == n
  | .sel m => (x.sel[m]).commanded == .bus n || (x.sel[m]).confirmed == .stands (.bus n)

/-- Every switch of a transmitter's path, in record order. -/
def Matrix.path (x : Matrix) (n : Tx) : List Sw := allSw.filter (x.onPath n)

/-- A route map entry (R40). -/
inductive RouteMap where
  | antenna (m : Ant)
  | dummy
  | nothing
  | conflict (ms : List Ant)
  | unknown
  deriving DecidableEq, Repr

/-- The route map of a transmitter, derived from the confirmed positions (R40). -/
def Matrix.routeMap (x : Matrix) (n : Tx) : RouteMap :=
  match (x.out[n]).confirmed with
  | .stands .dummy => .dummy
  | .stands .antenna =>
    match x.busConfirmed n with
    | [] => .nothing
    | [m] => .antenna m
    | ms => .conflict ms
  | _ => .unknown

/-- The antenna a transmitter feeds (R48). -/
def Matrix.feeds (x : Matrix) (n : Tx) : Option Ant :=
  match x.routeMap n with
  | .antenna m => some m
  | _ => none

/-! ## Run records as the route controller reads them -/

/-- A record is PREPARING, READY or ON_AIR. -/
def RunState.using : RunState → Bool
  | .preparing => true
  | .ready => true
  | .onAir => true
  | _ => false

/-- Every run record in a slot. -/
def RunTable.all (t : RunTable) : List RunRec := allTx.filterMap (fun n => t.cur[n]) ++ allTx.filterMap (fun n => t.nxt[n])

/-- The records whose antenna in use is Am, in PREPARING, READY or ON_AIR (R29). -/
def RunTable.usersOf (t : RunTable) (m : Ant) : List RunRec :=
  t.all.filter fun r => r.state.using && r.inUse == some m

/-- The CURRENT record of a transmitter is PREPARING, READY or ON_AIR (R30). -/
def RunTable.curUsing (t : RunTable) (n : Tx) : Bool :=
  match t.cur[n] with
  | none => false
  | some r => r.state.using

/-! ## Tasks -/

/-- A task is in progress (R26). -/
def TaskState.inProgress : TaskState → Bool
  | .dropRf => true
  | .tripWait => true
  | .moving => true
  | _ => false

/-- A task is in progress (R26). -/
def Task.inProgress (t : Task) : Bool := t.state.inProgress

/-- A task is unstarted (R26): before MOVING, or in MOVING with no switch of its set ever marked GRANTED. -/
def Task.unstarted (t : Task) : Bool := t.state == .dropRf || t.state == .tripWait || (t.state == .moving && !t.started)

/-- A switch of the task's set. -/
def Task.holds (t : Task) (w : Sw) : Bool := t.set.any fun x => x.sw == w

/-- The mark of a switch of the set. -/
def Task.mark (t : Task) (w : Sw) : Option Mark := (t.set.find? fun x => x.sw == w).map SwMark.mark

/-- The mark of a switch of the set changed. -/
def Task.setMark (t : Task) (w : Sw) (k : Mark) : Task :=
  { t with set := t.set.map fun x => if x.sw == w then { x with mark := k } else x }

/-- The task record of a transmitter written. -/
def State.setTask (s : State) (n : Tx) (t : Option Task) : State := { s with tasks := s.tasks.set n t }

/-- A task of the transmitter is in progress. -/
def State.taskRunning (s : State) (n : Tx) : Bool :=
  match s.tasks[n] with
  | none => false
  | some t => t.inProgress

/-- The class of a task's admissions, fixed by its origin (R27). -/
def RouteOrigin.moveClass : RouteOrigin → MoveClass
  | .desk _ => .manual
  | .schedule _ => .schedule
  | .lockout _ => .safety

/-- The retry indication of a task's admissions (R27). -/
def RouteOrigin.retry : RouteOrigin → Bool
  | .schedule _ => false
  | _ => true

/-- RF is present on an affected transmitter of the task. -/
def State.taskRf (s : State) (t : Task) : Bool := t.affected.any s.rfPresent

/-- Who is told of a task's end: the run scheduler where the task is its own (R39), and the lockout table, which reads every task
record (R169). -/
def TaskEnd.notices (e : TaskEnd) : List Notice :=
  match e.origin with
  | .schedule _ => [.lockTask e, .runTask e]
  | _ => [.lockTask e]

/-- A task reaches DONE or FAILED: attention ROUTE, and the end is reported (R39). -/
def State.endTask (s : State) (n : Tx) (failure : Option TaskFail) (byReplacement ownCancel : Bool) : State :=
  match s.tasks[n] with
  | none => s
  | some t =>
    let e : TaskEnd := { tx := n, origin := t.origin, dest := t.dest, failure := failure,
                         byReplacement := byReplacement, ownCancel := ownCancel }
    let t' := { t with state := if failure.isNone then .done else .failed, timer := .idle, failure := failure }
    ((s.setTask n (some t')).raise .route).notifyAll e.notices

/-- The transmitters whose task in progress holds a switch in its set. -/
def State.tasksWith (s : State) (w : Sw) : List Tx :=
  allTx.filter fun n => match s.tasks[n] with | some t => t.inProgress && t.holds w | none => false

/-- Switches withdrawn one after the other (R35). -/
def State.withdrawAll : List Sw → State → State
  | [], s => s
  | w :: rest, s => State.withdrawAll rest (s.withdraw w rest).2

/-- The withdrawal of every switch of a set, in record order (R35). -/
def State.withdrawSet (s : State) (t : Task) : State := State.withdrawAll (t.set.map SwMark.sw) s

/-- A task before MOVING, or an unstarted one, fails and its switches are withdrawn (R35, R36, R37, R38). -/
def State.failAndWithdraw (s : State) (n : Tx) (f : TaskFail) (ownCancel : Bool) : State :=
  match s.tasks[n] with
  | none => s
  | some t => (s.endTask n (some f) false ownCancel).withdrawSet t

/-- One report of the matrix controller taken by one task (R36). -/
def State.taskTake (s : State) (r : MxReport) (n : Tx) : State :=
  match s.tasks[n] with
  | none => s
  | some t =>
    match r with
    | .completion w =>
      -- before MOVING only a switch made unequipped by a close is marked (R2)
      if t.state == .moving || !s.cfg.swOk w then
        let t' := t.setMark w .inPlace
        let s := s.setTask n (some t')
        if t.state == .moving && t'.set.all fun x => x.mark == .inPlace then s.endTask n none false false else s
      else s
    | .granted w =>
      if t.state == .moving then s.setTask n (some { t.setMark w .granted with started := true }) else s
    | .requeued w =>
      if t.state == .moving && t.mark w == some .granted then s.setTask n (some (t.setMark w .admitted)) else s
    | .fault w =>
      let s := s.setTask n (some (t.setMark w .faulted))
      if t.state == .moving then s.endTask n (some .switchFault) false false
      else s.failAndWithdraw n .switchFault false

/-- The switch a report names. -/
def MxReport.sw : MxReport → Sw
  | .completion w => w
  | .fault w => w
  | .granted w => w
  | .requeued w => w

/-- The route controller takes the matrix controller's reports, oldest first; a withdrawal it makes may bring more (R36). -/
def State.absorb : Nat → State → State
  | 0, s => s
  | fuel + 1, s =>
    match s.mx.reports with
    | [] => s
    | r :: rest =>
      let s1 := { s with mx := { s.mx with reports := rest } }
      let (ns, s2) := s1.arrange (s1.tasksWith r.sw)
      State.absorb fuel (forAll ns (fun n s => s.taskTake r n) s2)

/-- The bound on the reports of one act. -/
def reportFuel : Nat := 1024

/-- All reports taken. -/
def State.absorbAll (s : State) : State := State.absorb reportFuel s

/-- The admission of one switch of a task in MOVING (R33). A switch made unequipped keeps the mark that its completion gave it (R2). -/
def State.admitFor (s : State) (n : Tx) (w : Sw) : State :=
  match s.tasks[n] with
  | none => s
  | some t =>
    if t.state == .moving then
      match s.admitMove w t.origin.moveClass t.origin.retry with
      | (.done, s1) =>
        -- the mark is ADMITTED before the grant or completion that the admission brought is taken
        (s1.setTask n (some (t.setMark w .admitted))).absorbAll
      | (.switchFault, s1) => ((s1.setTask n (some (t.setMark w .faulted))).endTask n (some .switchFault) false false)
      | (_, s1) => s1
    else s

/-- A task enters MOVING: its timer is cancelled and every switch of its set is admitted, in record order (R33). -/
def State.enterMoving (s : State) (n : Tx) : State :=
  match s.tasks[n] with
  | none => s
  | some t =>
    forAll (t.set.map SwMark.sw) (fun w s => s.admitFor n w)
      (s.setTask n (some { t with state := .moving, timer := .idle }))

/-! ## Requests -/

/-- The source of a route request (R27). -/
inductive RouteSource where
  | desk (d : Desk)
  | schedule (run : Nat)
  | earthDesk (d : Desk)
  | earthLock (m : Ant)
  deriving DecidableEq, Repr

/-- The origin of the task a source brings (R27). -/
def RouteSource.origin : RouteSource → RouteOrigin
  | .desk d => .desk d
  | .schedule r => .schedule r
  | .earthDesk d => .desk d
  | .earthLock m => .lockout m

/-- Transmitter u is active (R30). -/
def State.txActive (s : State) (u : Tx) : Bool :=
  (s.permit[u]).output != .off || s.taskRunning u || s.run.curUsing u

/-- The antenna conflict of R30: ASm on the path of an active transmitter other than n. -/
def State.antennaConflict (s : State) (n : Tx) (m : Ant) : Bool :=
  allTx.any fun u => u != n && s.mx.onPath u (.sel m) && s.txActive u

/-- The command of R32, each position included only where it differs from the present commanded one; `earthed` is the antenna of an
earthing. DEDUCED (log 42): its selector is commanded to EARTH also where it is commanded to another bus than n's. -/
def State.routeCommand (s : State) (n : Tx) (dest : Dest) (earthed : Option Ant) : List (Sw × Pos) :=
  let wanted : Sw → Option Pos := fun w =>
    match dest, w with
    | .antenna m, .sel j =>
      if j == m then some (.bus n) else if (s.mx.sel[j]).commanded == .bus n then some .earth else none
    | .antenna _, .out u => if u == n then some .antenna else none
    | .dummy, .out u => if u == n then some .dummy else none
    | .nothing, .sel j => if (s.mx.sel[j]).commanded == .bus n || earthed == some j then some .earth else none
    | .nothing, .out u => if u == n then some .dummy else none
    | .dummy, .sel _ => none
  allSw.filterMap fun w =>
    match wanted w with
    | none => none
    | some p => if (s.sw w).commanded == p then none else some (w, p)

/-- A switch of the transmitter's task in progress that is not at rest, which R31 has in the set of a task that replaces it. -/
def State.replacedHolds (s : State) (n : Tx) (w : Sw) : Bool :=
  (s.sw w).state != .steady && match s.tasks[n] with | some t => t.inProgress && t.holds w | none => false

/-- The switch set of R32 with that of R31, in record order; `earthed` is the antenna of an earthing. -/
def State.routeSet (s : State) (n : Tx) (dest : Dest) (earthed : Option Ant) : List Sw :=
  allSw.filter fun w =>
    s.replacedHolds n w ||
      match w with
      | .out u => u == n
      | .sel j => s.mx.onPath n (.sel j) || dest == .antenna j || earthed == some j

/-- The antenna that check 8 of R29 looks at. -/
def usedAntenna (dest : Dest) (earthed : Option Ant) : Option Ant :=
  match earthed, dest with
  | some m, _ => some m
  | none, .antenna m => some m
  | none, _ => none

/-- Check 8 of R29: Am is the antenna in use of a run record that counts for the source. -/
def State.usedByOther (s : State) (src : RouteSource) (n : Tx) (m : Ant) : Bool :=
  (s.run.usersOf m).any fun r =>
    match src with
    | .desk _ => r.tx != n
    | .schedule run => r.tx != n && r.num != run
    | .earthDesk _ => true
    | .earthLock _ => false

/-- Check 5 or 6 of R29: who may ask while the holder is `h`. -/
def holderCheck (src : RouteSource) (h : Option Desk) : Option Status :=
  match src, h with
  | .desk _, none => some .notInHand
  | .desk d, some e => if d == e then none else some .heldByOther
  | .schedule _, none => none
  | .schedule _, some _ => some .heldByOther
  | .earthDesk _, none => none
  | .earthDesk d, some e => if d == e then none else some .heldByOther
  | .earthLock _, _ => none

/-- The source is the lockout table. -/
def RouteSource.isLock : RouteSource → Bool
  | .earthLock _ => true
  | _ => false

/-- Check 9 of R29. -/
def State.conflictCheck (s : State) (src : RouteSource) (n : Tx) (dest : Dest) : Bool :=
  match src with
  | .desk _ => match dest with | .antenna m => s.antennaConflict n m | _ => false
  | .schedule _ => match dest with | .antenna m => s.antennaConflict n m | _ => false
  | .earthDesk d => s.txActive n && (s.tx[n]).holder != some d
  | .earthLock _ => false

/-- Check 7 of R29. -/
def State.lockCheck (s : State) (src : RouteSource) (n : Tx) (dest : Dest) : Bool :=
  let hit := match dest with | .antenna m => s.locked (.ant m) || s.locked (.tx n) | _ => false
  match src with
  | .desk _ => hit
  | .schedule _ => hit
  | _ => false

/-- Checks 4 and 8 and 12 apply by source. -/
def RouteSource.isDesk : RouteSource → Bool
  | .desk _ => true
  | .earthDesk _ => true
  | _ => false

/-- Check 10 of R29: the transmitter's task is in progress and not unstarted (R31). -/
def State.taskStarted (s : State) (n : Tx) : Bool :=
  match s.tasks[n] with
  | some t => t.inProgress && !t.unstarted
  | none => false

/-- Check 12 of R29. -/
def State.faultCheck (s : State) (src : RouteSource) (n : Tx) (dest : Dest) (earthed : Option Ant) : Bool :=
  match src with
  | .schedule _ => (s.routeSet n dest earthed).any fun w => (s.sw w).state == .fault
  | _ => false

/-- Checks 2 to 12 of R29 in their order; check 1 is the form of the arguments. Before all of them the route controller
refuses every request BUSY while the report window runs (R41). -/
def State.routeRefusal (s : State) (src : RouteSource) (n : Tx) (dest : Dest) (earthed : Option Ant) : Option Status :=
  let antOk := match usedAntenna dest earthed with | some m => s.cfg.antOk m | none => true
  let used := match usedAntenna dest earthed with | some m => s.usedByOther src n m | none => false
  let cmd := s.routeCommand n dest earthed
  if s.mx.reportWindow.isRunning then some .busy
  else if !(s.cfg.txOk n && antOk) then some .notConfigured
  else if s.isOpen && !src.isLock then some .configOpen
  else if s.hallSafe && src.isDesk then some .hallSafe
  else match holderCheck src (s.tx[n]).holder with
  | some e => some e
  | none =>
    if s.lockCheck src n dest then some .lockedOut
    else if used then some .inUse
    else if s.conflictCheck src n dest then some .antennaConflict
    else if s.taskStarted n then some .busy
    else if cmd.any fun x => (s.sw x.1).state == .moving then some .busy
    else if s.faultCheck src n dest earthed then some .switchFault
    else none

/-- The request needs no task: nothing to command and every switch of the set STEADY in place (R32). -/
def State.routeInPlace (s : State) (n : Tx) (dest : Dest) (earthed : Option Ant) : Bool :=
  (s.routeCommand n dest earthed).isEmpty &&
    (s.routeSet n dest earthed).all fun w => (s.sw w).state == .steady && (s.sw w).inPlace

/-- The RF drop timeout in milliseconds (R33). -/
def State.dropMs (s : State) : Nat := 1000 * s.cfg.active.rfDrop

/-- An accepted request starts its task (R31, R32). DESIGN CHOICE (log 45): the affected transmitters are those whose paths hold a
switch of the set once the command has set the commanded positions; the confirmed positions are the same before and after. -/
def State.startTask (s : State) (src : RouteSource) (n : Tx) (dest : Dest) (earthed : Option Ant) : State :=
  let set := s.routeSet n dest earthed
  let cmd := s.routeCommand n dest earthed
  let s := if s.taskRunning n then s.endTask n (some .cancelled) true false else s
  let s := if cmd.isEmpty then s else (s.command cmd).2
  let s := s.absorbAll
  let affected := allTx.filter fun u => u == n || set.any (s.mx.onPath u)
  let t : Task := { dest := dest, origin := src.origin, state := .dropRf, set := set.map fun w => ⟨w, .waiting⟩,
                    affected := affected, timer := s.startTimer s.dropMs, failure := none, started := false }
  let s := s.setTask n (some t)
  if s.taskRf t then (if s.isSettling then s.setTask n (some { t with timer := .stopped }) else s) else s.enterMoving n

/-- A route request: checked, then answered DONE where it needs no task, else ACCEPTED (R27, R29, R31, R32). -/
def State.routeRequest (s : State) (src : RouteSource) (n : Tx) (dest : Dest) (earthed : Option Ant) : Status × State :=
  match s.routeRefusal src n dest earthed with
  | some e => (e, s)
  | none =>
    if s.routeInPlace n dest earthed then (.done, s)
    else (.accepted, s.startTask src n dest earthed)

/-- Where an earthing goes (R28): a transmitter whose bus holds the selector, or none for a loose earthing. -/
def State.earthingOf (s : State) (m : Ant) : Option Tx :=
  match (s.mx.sel[m]).commanded, (s.mx.sel[m]).confirmed with
  | .bus n, _ => some n
  | _, .stands (.bus n) => some n
  | _, _ => none

/-- The checks of a loose earthing (R28). -/
def State.looseRefusal (s : State) (src : RouteSource) (m : Ant) : Option Status :=
  if s.mx.reportWindow.isRunning then some .busy
  else if !s.cfg.antOk m then some .notConfigured
  else if src.isDesk && s.isOpen then some .configOpen
  else if src.isDesk && s.hallSafe then some .hallSafe
  else if src.isDesk && !(s.run.usersOf m).isEmpty then some .inUse
  else none

/-- A loose earthing: ASm is admitted with the source's class and retry indication (R28). -/
def State.looseEarth (s : State) (src : RouteSource) (m : Ant) : Status × State :=
  match s.looseRefusal src m with
  | some e => (e, s)
  | none =>
    let (a, s1) := s.admitMove (.sel m) src.origin.moveClass src.origin.retry
    (a, s1.absorbAll)

/-- An earthing request, turned into a request for a transmitter or a loose earthing (R28). -/
def State.earthRequest (s : State) (src : RouteSource) (m : Ant) : Status × State :=
  match s.earthingOf m with
  | some n => s.routeRequest src n .nothing (some m)
  | none => s.looseEarth src m

/-- The earthing of a new lockout on the destination antenna of a task of Tn: a request for Tn with destination NONE, which R37 has
end in a task of Tn of origin LOCKOUT. DEDUCED (log 42): whatever the switches of the set show. -/
def State.earthTask (s : State) (m : Ant) (n : Tx) : Status × State :=
  match s.routeRefusal (.earthLock m) n .nothing (some m) with
  | some e => (e, s)
  | none => (.accepted, s.startTask (.earthLock m) n .nothing (some m))

/-! ## Running tasks -/

/-- A route trip hold is placed or released (R34, R50). -/
def State.setRouteTrip (s : State) (n : Tx) (b : Bool) : State := s.modHolds n fun h => { h with routeTrip := b }

/-- The RF drop timer of a task expires (R34). -/
def State.dropExpired (s : State) (n : Tx) : State :=
  match s.tasks[n] with
  | none => s
  | some t =>
    if t.state == .dropRf && t.timer.isRunning then
      let s := s.atExpiry t.timer
      let s := forAll t.affected (fun u s => if s.rfPresent u then s.setRouteTrip u true else s) s
      s.setTask n (some { t with state := .tripWait, timer := s.startTimer 2000 })
    else s

/-- The trip wait of a task expires (R35). -/
def State.tripExpired (s : State) (n : Tx) : State :=
  match s.tasks[n] with
  | none => s
  | some t =>
    if t.state == .tripWait && t.timer.isRunning then (s.atExpiry t.timer).failAndWithdraw n .rfStuck false else s

/-- A task waits for RF to leave. -/
def Task.waitsRf (t : Task) : Bool := t.state == .dropRf || t.state == .tripWait

/-- RFSn has changed: a route trip hold is released at absence, and a task all of whose affected transmitters are without RF
enters MOVING (R33, R34). -/
def State.routeRf (s : State) (n : Tx) : State :=
  if s.rfPresent n then s
  else
    let s := s.setRouteTrip n false
    let (ns, s) := s.arrange (allTx.filter fun u => match s.tasks[u] with | some t => t.waitsRf && !s.taskRf t | none => false)
    (forAll ns (fun u s =>
      match s.tasks[u] with
      | some t => if t.waitsRf && !s.taskRf t then s.enterMoving u else s
      | none => s) s).absorbAll

/-- A task of origin DESK or SCHEDULE. -/
def RouteOrigin.notLock : RouteOrigin → Bool
  | .lockout _ => false
  | _ => true

/-- The hall has become SAFE (R38). DESIGN CHOICE (log 66): the tasks fail in the order of their transmitters. -/
def State.routeHallSafe (s : State) : State :=
  (forAll allTx (fun n s =>
    match s.tasks[n] with
    | some t => if t.waitsRf && t.origin.notLock then s.failAndWithdraw n .hall false else s
    | none => s) s).absorbAll

/-- A switch has left MOVING: tasks in MOVING whose mark for it is WAITING ask for its admission again (R33). -/
def State.routeLeft (s : State) (w : Sw) : State :=
  let (ns, s) := s.arrange (allTx.filter fun n =>
    match s.tasks[n] with | some t => t.state == .moving && t.mark w == some .waiting | none => false)
  (forAll ns (fun n s => s.admitFor n w) s).absorbAll

/-- A lockout has been placed (R37). DESIGN CHOICE (log 66): the tasks fail in the order of their transmitters. -/
def State.routeLocked (s : State) (g : Target) : State :=
  (forAll allTx (fun n s =>
    match s.tasks[n] with
    | some t =>
      let hit := match g, t.dest with
        | .tx u, .antenna _ => u == n
        | .ant m, .antenna j => j == m
        | _, _ => false
      if hit && t.inProgress && t.unstarted then s.failAndWithdraw n .lockedOut false else s
    | none => s) s).absorbAll

/-- A cancellation by the source of the task; the lockout table's names its antenna, the run scheduler's its run record
(R38). -/
def State.cancelTask (s : State) (n : Tx) (o : RouteOrigin) : Status × State :=
  match s.tasks[n] with
  | none => (.done, s)
  | some t =>
    if !t.inProgress then (.done, s)
    else if t.unstarted && t.origin == o then (.done, (s.failAndWithdraw n .cancelled true).absorbAll)
    else (.busy, s)

/-- A configuration close empties the task records of transmitters no longer configured (R41). -/
def State.routeReconfig (before : ConfigStore) (s : State) : State :=
  forAll allTx (fun n s =>
    if before.txOk n && !s.cfg.txOk n then (s.setTask n none).setRouteTrip n false else s) s

/-- A warm restart stops the timers of tasks, to be started anew at the end of settling (R41). -/
def State.routeRestart (s : State) : State :=
  forAll allTx (fun n s =>
    match s.tasks[n] with
    | some t => s.setTask n (some { t with timer := t.timer.halt })
    | none => s) s

/-- The end of settling: task timers start anew from their full values (R41). -/
def State.routeSettled (s : State) : State :=
  forAll allTx (fun n s =>
    match s.tasks[n] with
    | some t =>
      let full := if t.state == .tripWait then 2000 else s.dropMs
      s.setTask n (some { t with timer := t.timer.resume s.timebase full })
    | none => s) s

end Sys2Proof.Machine
end

