-- ==== Sys2Proof/Machine/Slew.lean ====
section
/-! DEFINITION. The slew controller (chapter 4): the travel coordinate and paths, targets, drive permission, the power
wait, driving, settling and holding, faults, and what is reported. -/

namespace Sys2Proof

/-- The travel coordinate of an azimuth (R73). -/
def RotParams.travel (p : RotParams) (a : Nat) : Nat := (((a : Int) - p.stop) % 3600).toNat

/-- The hold band in use: the larger of H and E + 1 (R72). -/
def RotParams.holdBand (p : RotParams) : Nat := max p.hold (p.stopTol + 1)

/-- A sector slot is in use. -/
def Sector.used (x : Sector) : Bool := !(x.fromB == 65535 || x.toB == 65535)

/-- An azimuth lies inside a sector: on the half-open arc clockwise from its first bearing to its second (R72). -/
def Sector.inside (x : Sector) (a : Nat) : Bool :=
  x.used && (if x.fromB < x.toB then decide (x.fromB ≤ a ∧ a < x.toB) else decide (x.fromB ≤ a ∨ a < x.toB))

/-- An azimuth lies inside a keep-out sector of the rotator (R72). -/
def RotParams.keepOut (p : RotParams) (a : Nat) : Bool := p.sectors.toList.any fun x => x.inside a

/-- The travel coordinates `lo` to `hi`, both ends included, meet a sector. In travel coordinates a sector is the arc of
`len` coordinates from `a`, going on past 3599 where the stop bearing lies inside it (R73). -/
def Sector.meets (x : Sector) (p : RotParams) (lo hi : Nat) : Bool :=
  let a := p.travel x.fromB
  let len := (((x.toB : Int) - x.fromB) % 3600).toNat
  x.used && (decide (a ≤ hi ∧ lo < a + len) || decide (lo + 3600 < a + len))

/-- The path from one azimuth to another crosses a keep-out sector (R73). -/
def RotParams.pathCrosses (p : RotParams) (a b : Nat) : Bool :=
  let lo := min (p.travel a) (p.travel b)
  let hi := max (p.travel a) (p.travel b)
  p.sectors.toList.any fun x => x.meets p lo hi

end Sys2Proof

namespace Sys2Proof.Machine

/-- A record is slewing (R71). -/
def SlewState.slewing : SlewState → Bool
  | .awaitPower => true
  | .drive => true
  | .reverseDwell => true
  | .settle => true
  | _ => false

/-- The other direction. -/
def Dir.opposite : Dir → Dir
  | .cw => .ccw
  | .ccw => .cw

/-- Rotator drives are allowed (R77). -/
def State.drivesAllowed (s : State) : Bool := s.hall.state == .normal && !s.isOpen && s.cfg.configured

/-- The held azimuth of a rotator, where its position is not INVALID (R73). -/
def State.heldAzimuth (s : State) (k : Rot) : Option Nat :=
  if (s.rot[k]).validity == .invalid then none else (s.rot[k]).azimuth

/-- The error: the travel coordinate of the target less that of the held azimuth (R73). -/
def State.slewError (s : State) (k : Rot) : Option Int :=
  match (s.slew[k]).target, s.heldAzimuth k with
  | some t, some a => some (((s.params k).travel t : Int) - (s.params k).travel a)
  | _, _ => none

/-- The direction of an error; CW where it is 0 (R73, R89). -/
def dirOf (e : Int) : Dir := if e < 0 then .ccw else .cw

/-- The cap of the path from the held azimuth to the target (R79). -/
def State.slewCap (s : State) (k : Rot) : Level :=
  match (s.slew[k]).target, s.heldAzimuth k with
  | some t, some a => if (s.params k).pathCrosses a t then .off else .low
  | _, _ => .low

/-- The drive goes off: its time and direction are recorded if the record is in DRIVE (R78). -/
def SlewRec.driveOff (r : SlewRec) (now : Nat) : SlewRec :=
  match r.state, r.dir with
  | .drive, some d => { r with lastOff := some ⟨now, d⟩ }
  | _, _ => r

/-- The timers that belong to the drive, cancelled. -/
def SlewRec.noDrive (r : SlewRec) : SlewRec :=
  { r with speed := none, powerWait := .idle, dwell := .idle, stallWindow := .idle, stallRef := none, furthest := none }

/-- The record leaves the slewing states: every timer is cancelled and cap, direction and start time are gone. -/
def SlewRec.rest (r : SlewRec) (now : Nat) (st : SlewState) : SlewRec :=
  { (r.driveOff now).noDrive with state := st, dir := none, cap := none, startTime := none, slewTimer := .idle, settleCount := 0 }

/-- The record without target (R74, R75). -/
def SlewRec.cleared (r : SlewRec) (now : Nat) : SlewRec :=
  { r.rest now .idle with target := none, origin := none, fault := none, reported := false }

/-- A report to the run record that a SCHEDULE target names (R86). -/
def State.slewReport (s : State) (k : Rot) (x : SlewReport) : State :=
  match (s.slew[k]).origin with
  | some (.schedule run) => s.notify (.runSlew run k x)
  | _ => s

/-- Entry into FAULT (R84). -/
def State.slewFault (s : State) (k : Rot) (f : SlewFault) : State :=
  ((s.modSlew k fun r => { r.rest s.timebase .fault with fault := some f }).raise .slew).slewReport k (.fault f)

/-- Entry into IN_POSITION. The completion is reported once for a target; `attention` is false where R85 names none, `report`
where the answer to the request stands as the completion (R76, R81, R85, R86). -/
def State.enterInPosition (s : State) (k : Rot) (attention report : Bool) : State :=
  let told := (s.slew[k]).reported
  let s := s.modSlew k fun r => { r.rest s.timebase .inPosition with reported := true }
  let s := s.raiseIf attention .slew
  if report && !told then s.slewReport k .completion else s

/-- The antenna's bus transmitter (R79). -/
def State.busTx (s : State) (k : Rot) : Option Tx :=
  match s.cfg.rotAnt k with
  | none => none
  | some m =>
    match (s.sw (.sel m)).confirmed with
    | .stands (.bus n) => some n
    | _ => none

/-- The power condition (R79). -/
def State.powerOk (s : State) (k : Rot) : Bool :=
  match s.busTx k with
  | none => true
  | some n =>
    !s.rfPresent n ||
      ((s.slew[k]).cap == some .low && (s.tx[n]).state != .offline &&
        ((s.tx[n]).rfLevel == some .low || (s.tx[n]).rfLevel == some .off))

/-- The speed of a drive (R80). -/
def speedFor (p : RotParams) (e : Int) : Speed := if e.natAbs > p.creep then .fast else .creep

/-- The drive lines of a rotator, true where asserted. -/
structure DriveLines where
  cw : Bool
  ccw : Bool
  fastCreep : Bool
  deriving DecidableEq, Repr

/-- The drive lines that a slew record gives: released in every state but DRIVE (R80). -/
def SlewRec.lines (r : SlewRec) : DriveLines :=
  match r.state with
  | .drive => ⟨r.dir == some .cw, r.dir == some .ccw, r.speed == some .fast⟩
  | _ => ⟨false, false, false⟩

/-- The drive lines of a rotator as the part presents them (R80). -/
def State.driveLines (s : State) (k : Rot) : DriveLines := SlewRec.lines s.slew[k]

/-- The stall window of a speed, in milliseconds (R82). -/
def Speed.windowMs : Speed → Nat
  | .fast => 2000
  | .creep => 4000

/-- Entry into SETTLE (R80). -/
def State.enterSettle (s : State) (k : Rot) : State :=
  s.modSlew k fun r => { (r.driveOff s.timebase).noDrive with state := .settle, dir := none, settleCount := 0 }

/-- Entry into DRIVE (R80, R82, R83). DEDUCED (log 67): the direction is not formed anew, also where the sign of the error has changed in
AWAIT_POWER. -/
def State.enterDrive (s : State) (k : Rot) : State :=
  match s.slewError k, s.heldAzimuth k with
  | some e, some a =>
    if e.natAbs ≤ (s.params k).stopTol then s.enterSettle k
    else
      let v := speedFor (s.params k) e
      s.modSlew k fun r => { r with state := .drive, speed := some v, powerWait := .idle, dwell := .idle,
                                    stallWindow := s.startTimer v.windowMs, stallRef := some a,
                                    furthest := some ((s.params k).travel a) }
  | _, _ => s

/-- The power condition judged in AWAIT_POWER; no drive starts while settling (R79, R89). -/
def State.judgePower (s : State) (k : Rot) : State :=
  if (s.slew[k]).state == .awaitPower && !s.isSettling && s.powerOk k then
    if (s.rot[k]).validity == .invalid then s.slewFault k .positionInvalid else s.enterDrive k
  else s

/-- Entry into AWAIT_POWER, with the power wait of 5 s from now (R79). -/
def State.enterAwait (s : State) (k : Rot) : State :=
  State.judgePower (s.modSlew k fun r => { r.noDrive with state := .awaitPower, powerWait := s.startTimer 5000 }) k

/-- What is left of the reversal dwell for a direction: its end, where the last drive off was opposite and less than 1 s ago
(R78). -/
def SlewRec.dwellEnd (r : SlewRec) (d : Dir) (now : Nat) : Option Nat :=
  match r.lastOff with
  | some o => if o.dir == d.opposite && now < o.at_ + 1000 then some (o.at_ + 1000) else none
  | none => none

/-- The record takes a direction: REVERSE_DWELL within the dwell of the opposite one, else AWAIT_POWER (R78). -/
def State.dwellOrAwait (s : State) (k : Rot) (d : Dir) : State :=
  let s := s.modSlew k fun r => { r with dir := some d, settleCount := 0 }
  match (s.slew[k]).dwellEnd d s.timebase with
  | some due => s.modSlew k fun r => { r.noDrive with state := .reverseDwell, dwell := .running due }
  | none => s.enterAwait k

/-- The start of a drive, with a cap formed from its path (R78, R79). -/
def State.startDrive (s : State) (k : Rot) (e : Int) : State :=
  let c := s.slewCap k
  State.dwellOrAwait (s.modSlew k fun r => { r with cap := some c }) k (dirOf e)

/-- A drive turned round: it goes off, and REVERSE_DWELL follows with a cap for the new path (R76, R80). DEDUCED (log 46): at an
overshoot, which R80 handles as such a retarget, the target is the old one, so no new start time is taken and the slew timer runs
on (R84). -/
def State.reverseDrive (s : State) (k : Rot) (e : Int) : State :=
  let c := s.slewCap k
  State.dwellOrAwait (s.modSlew k fun r => { (r.driveOff s.timebase).noDrive with cap := some c }) k (dirOf e)

/-- A new start time, from which the slew timer runs (R84). -/
def State.restartSlew (s : State) (k : Rot) : State :=
  s.modSlew k fun r => { r with startTime := some s.timebase, slewTimer := s.startTimer (1000 * (s.params k).maxSlew) }

/-- The error points against the drive. DESIGN CHOICE (log 46): an error of 0, to which R73 gives no direction, does not: a retarget
(R76) or frame with it is in the same direction in DRIVE, while a direction formed anew is CW, as R89 says (`dirOf`). -/
def against (d : Option Dir) (e : Int) : Bool :=
  match d with
  | some .cw => decide (e < 0)
  | some .ccw => decide (0 < e)
  | none => false

/-- The speed judged against an error in DRIVE; a change of speed restarts the stall watch (R80, R82). -/
def State.judgeSpeed (s : State) (k : Rot) (e : Int) : State :=
  let v := speedFor (s.params k) e
  if (s.slew[k]).speed == some v then s
  else s.modSlew k fun r => { r with speed := some v, stallWindow := s.startTimer v.windowMs, stallRef := s.heldAzimuth k }

/-- A target in force goes on from IDLE, FAULT or IN_POSITION (R76, R77). -/
def State.pursue (s : State) (k : Rot) (attention report : Bool) : State :=
  match s.slewError k with
  | none => s
  | some e =>
    if e.natAbs ≤ (s.params k).stopTol then s.enterInPosition k attention report
    else (s.restartSlew k).startDrive k e

/-- A target replaced by another origin's is reported to the run record it displaces (R86). -/
def State.displace (s : State) (k : Rot) (o : Origin) : State :=
  if (s.slew[k]).target.isSome && (s.slew[k]).origin != some o then s.slewReport k .cancelled else s

/-- An accepted target (R76). -/
def State.takeTarget (s : State) (k : Rot) (az : Nat) (o : Origin) : State :=
  let before := (s.slew[k]).state
  let s := s.displace k o
  let s := s.modSlew k fun r =>
    { r with target := some az, origin := some o, fault := none, settleCount := 0, reported := false,
             state := if before == .fault then .idle else before }
  match s.slewError k with
  | none => s
  | some e =>
    let near := decide (e.natAbs ≤ (s.params k).stopTol)
    match before with
    | .idle => if s.drivesAllowed then s.pursue k true false else s
    | .fault => if s.drivesAllowed then s.pursue k true false else s
    | .inPosition =>
      if near then s.modSlew k fun r => { r with reported := true }
      else if s.drivesAllowed then s.pursue k true false
      else s.modSlew k fun r => { r with state := .idle }
    | .awaitPower => ((s.restartSlew k).startDrive k e)
    | .reverseDwell =>
      let c := s.slewCap k
      (s.restartSlew k).modSlew k fun r => { r with dir := some (dirOf e), cap := some c }
    | .drive =>
      let s := s.restartSlew k
      if against (s.slew[k]).dir e then s.reverseDrive k e
      else
        let c := s.slewCap k
        let was := (s.slew[k]).cap
        if c == .off && was == some .low then
          (s.modSlew k fun r => { r.driveOff s.timebase with cap := some c }).enterAwait k
        else (s.modSlew k fun r => { r with cap := some c }).judgeSpeed k e
    | .settle => if near then s.restartSlew k else (s.restartSlew k).startDrive k e

/-- Checks 1 to 9 of R74 after the form of the arguments. -/
def State.slewRefusal (s : State) (d : Desk) (m : Ant) (az : Nat) : Option Status :=
  if az ≥ 3600 then some .badArgument
  else match s.cfg.antRot m with
  | none => some .notConfigured
  | some k =>
    if s.isOpen then some .configOpen
    else if s.hallSafe then some .hallSafe
    else if s.locked (.ant m) then some .lockedOut
    else if !(s.run.usersOf m).isEmpty then some .inUse
    else if allTx.any fun n => s.mx.onPath n (.sel m) && (s.tx[n]).holder.isSome && (s.tx[n]).holder != some d then
      some .heldByOther
    else if (s.params k).keepOut az then some .keepOut
    else if (s.rot[k]).validity == .invalid then some .positionInvalid
    else none

/-- Checks 1, 2, 3, 6 and 7 of R74, for STOP_SLEW. -/
def State.stopRefusal (s : State) (d : Desk) (m : Ant) : Option Status :=
  match s.cfg.antRot m with
  | none => some .notConfigured
  | some _ =>
    if s.isOpen then some .configOpen
    else if !(s.run.usersOf m).isEmpty then some .inUse
    else if allTx.any fun n => s.mx.onPath n (.sel m) && (s.tx[n]).holder.isSome && (s.tx[n]).holder != some d then
      some .heldByOther
    else none

/-- The answer to an accepted target: DONE when the record is IN_POSITION after the act (R76). -/
def State.slewAnswer (s : State) (k : Rot) : Status := if (s.slew[k]).state == .inPosition then .done else .accepted

/-- A desk's SLEW (R74, R76). -/
def State.slewRequest (s : State) (d : Desk) (m : Ant) (az : Nat) : Status × State :=
  match s.slewRefusal d m az, s.cfg.antRot m with
  | some e, _ => (e, s)
  | none, none => (.notConfigured, s)
  | none, some k => let s' := s.takeTarget k az (.desk d); (s'.slewAnswer k, s')

/-- A desk's STOP_SLEW (R74, R86). -/
def State.slewStop (s : State) (d : Desk) (m : Ant) : Status × State :=
  match s.stopRefusal d m, s.cfg.antRot m with
  | some e, _ => (e, s)
  | none, none => (.notConfigured, s)
  | none, some k =>
    let s := if (s.slew[k]).target.isSome then s.slewReport k .cancelled else s
    (.done, s.modSlew k fun r => r.cleared s.timebase)

/-- The run scheduler's slew request: checks 1, 2, 3, 5, 8 and 9 of R74 (R75). -/
def State.slewSchedule (s : State) (run : Nat) (m : Ant) (az : Nat) : Status × State :=
  match s.cfg.antRot m with
  | none => (.notConfigured, s)
  | some k =>
    if az ≥ 3600 then (.badArgument, s)
    else if s.isOpen then (.configOpen, s)
    else if s.locked (.ant m) then (.lockedOut, s)
    else if (s.params k).keepOut az then (.keepOut, s)
    else if (s.rot[k]).validity == .invalid then (.positionInvalid, s)
    else
      let s := s.takeTarget k az (.schedule run)
      let s := if (s.slew[k]).state == .inPosition then s.modSlew k fun r => { r with reported := true } else s
      (s.slewAnswer k, s)

/-- The run scheduler withdraws its own target, wherever it stands (R75). -/
def State.slewWithdraw (s : State) (run : Nat) : State :=
  forAll allRot (fun k s =>
    if (s.slew[k]).target.isSome && (s.slew[k]).origin == some (.schedule run) then
      s.modSlew k fun r => r.cleared s.timebase
    else s) s

/-- A lockout on Am clears its rotator's record (R75, R85, R86). -/
def State.slewLocked (s : State) (m : Ant) : State :=
  match s.cfg.antRot m with
  | none => s
  | some k =>
    let s := if (s.slew[k]).target.isSome then (s.raise .slew).slewReport k .cancelledLockedOut else s
    s.modSlew k fun r => r.cleared s.timebase

/-- Drives cease to be allowed: slewing records go IDLE holding their targets (R77). -/
def State.slewHalt (s : State) : State :=
  forAll allRot (fun k s =>
    if (s.slew[k]).state.slewing then s.modSlew k fun r => r.rest s.timebase .idle else s) s

/-- A record IDLE and holding a target resumes where drives are allowed and the position is VALID or SUSPECT (R77). DEDUCED (log 57):
while settling, when no drive starts (R89), it does not resume at all, not even to IN_POSITION, and does so at the end. -/
def State.slewResume (s : State) (k : Rot) : State :=
  if (s.slew[k]).state == .idle && (s.slew[k]).target.isSome && s.drivesAllowed && !s.isSettling then s.pursue k false true
  else s

/-- Every held target resumes where it can (R77). DESIGN CHOICE (log 66): by rising rotator, and so the reports of arrival. -/
def State.slewResumeAll (s : State) : State := forAll allRot (fun k s => s.slewResume k) s

/-- The slew controller judges drive permission (R77). -/
def State.slewJudge (s : State) : State := if s.drivesAllowed then s.slewResumeAll else s.slewHalt

/-- The inputs of the power condition have changed (R79). DESIGN CHOICE (log 66): by rising rotator, and so the reports of failure. -/
def State.slewPower (s : State) : State := forAll allRot (fun k s => s.judgePower k) s

/-- The position of rotator k has become INVALID (R84); set aside while settling (R89). -/
def State.slewInvalid (s : State) (k : Rot) : State :=
  if (s.slew[k]).state.slewing && !s.isSettling then s.slewFault k .positionInvalid else s

/-- How far travel coordinate `t` lies ahead of `u` in a drive direction. -/
def ahead (d : Option Dir) (t u : Nat) : Int :=
  match d with
  | some .ccw => (u : Int) - t
  | _ => (t : Int) - u

/-- The stall and direction references moved by a good frame (R82, R83). -/
def State.moveRefs (s : State) (k : Rot) (a : Nat) : State :=
  let p := s.params k
  s.modSlew k fun r =>
    let r := match r.furthest with
      | some u => if ahead r.dir (p.travel a) u > 0 then { r with furthest := some (p.travel a) } else r
      | none => r
    match r.stallRef, r.speed with
    | some b, some v =>
      if ahead r.dir (p.travel a) (p.travel b) ≥ 2 then { r with stallRef := some a, stallWindow := s.startTimer v.windowMs }
      else r
    | _, _ => r

/-- A good frame in DRIVE: the direction watch, then arrival, overshoot or speed (R80, R82, R83). -/
def State.driveFrame (s : State) (k : Rot) (a : Nat) (e : Int) : State :=
  let r := s.slew[k]
  let wrong := match r.furthest with
    | some u => decide (ahead r.dir ((s.params k).travel a) u ≤ -10)
    | none => false
  if wrong then s.slewFault k .wrongDirection
  else if e.natAbs ≤ (s.params k).stopTol then s.enterSettle k
  else if against r.dir e then s.reverseDrive k e
  else (s.moveRefs k a).judgeSpeed k e

/-- A good frame in SETTLE (R81). -/
def State.settleFrame (s : State) (k : Rot) (e : Int) : State :=
  let p := s.params k
  if e.natAbs ≤ p.stopTol then
    if (s.slew[k]).settleCount + 1 ≥ 3 then s.enterInPosition k true true
    else s.modSlew k fun r => { r with settleCount := r.settleCount + 1 }
  else if e.natAbs ≤ p.holdBand then s.modSlew k fun r => { r with settleCount := 0 }
  else s.startDrive k e

/-- A good frame in REVERSE_DWELL (R78). -/
def State.dwellFrame (s : State) (k : Rot) (e : Int) : State :=
  if e.natAbs ≤ (s.params k).stopTol then s.enterSettle k
  else if against (s.slew[k]).dir e then
    let c := s.slewCap k
    s.modSlew k fun r => { r with dir := some (dirOf e), cap := some c }
  else s

/-- A good frame in IN_POSITION: a correction outside the hold band (R81). -/
def State.holdFrame (s : State) (k : Rot) (e : Int) : State :=
  if e.natAbs > (s.params k).holdBand && s.drivesAllowed && !s.isSettling then
    ((s.restartSlew k).startDrive k e).raise .slew
  else s

/-- A frame event (R63): a good frame taken by the slew record. -/
def State.slewGood (s : State) (k : Rot) : State :=
  match s.slewError k, s.heldAzimuth k with
  | some e, some a =>
    match (s.slew[k]).state with
    | .idle => s.slewResume k
    | .drive => s.driveFrame k a e
    | .settle => s.settleFrame k e
    | .reverseDwell => s.dwellFrame k e
    | .inPosition => s.holdFrame k e
    | .awaitPower => s
    | .fault => s
  | _, _ => s

/-- A frame event (R63): a bad frame taken by the slew record (R81, R84). -/
def State.slewBad (s : State) (k : Rot) : State :=
  let s := if (s.slew[k]).state == .settle then s.modSlew k fun r => { r with settleCount := 0 } else s
  if (s.rot[k]).validity == .invalid then s.slewInvalid k else s

/-- The end of the reversal dwell (R78). -/
def State.dwellExpired (s : State) (k : Rot) : State :=
  let r := s.slew[k]
  if r.state == .reverseDwell && r.dwell.isRunning then (s.atExpiry r.dwell).enterAwait k else s

/-- A slew record at a configuration close (R87). -/
def State.slewReconfigOne (before : ConfigStore) (s : State) (k : Rot) : State :=
  let r := s.slew[k]
  match before.rotAnt k, s.cfg.rotAnt k with
  | none, some _ => s.modSlew k fun _ => SlewRec.powerUp
  | none, none => s
  | some a, b =>
    if b != some a then
      let s := if r.target.isSome then (s.raise .slew).slewReport k (.cancelledNotConfigured a) else s
      s.modSlew k fun r => r.cleared s.timebase
    else
      match r.target with
      | some t =>
        if (s.params k).keepOut t then
          ((s.raise .slew).slewReport k .keepOut).modSlew k fun r => r.cleared s.timebase
        else s
      | none => s

/-- Every slew record at a configuration close (R87). DESIGN CHOICE (log 66): by rising rotator, and so the reports. -/
def State.slewReconfig (before : ConfigStore) (s : State) : State :=
  forAll allRot (fun k s => s.slewReconfigOne before k) s

/-- Every slew record at a warm restart (R89). -/
def State.slewRestart (s : State) : State :=
  forAll allRot (fun k s =>
    if (s.slew[k]).state.slewing then
      s.modSlew k fun r => { (r.driveOff s.timebase).noDrive with
        state := .awaitPower, startTime := none, powerWait := .stopped, slewTimer := .stopped, settleCount := 0 }
    else s) s

/-- A record in AWAIT_POWER at the end of settling (R89). -/
def State.slewSettledOne (s : State) (k : Rot) : State :=
  if (s.slew[k]).state == .awaitPower then
    if (s.rot[k]).validity == .invalid then s.slewFault k .positionInvalid
    else
      match s.slewError k with
      | none => s
      | some e => (s.restartSlew k).dwellOrAwait k (dirOf e)
  else s.slewResume k

/-- The end of settling (R89). DESIGN CHOICE (log 66): the records are judged by rising rotator, and so the reports of failure come. -/
def State.slewSettled (s : State) : State := forAll allRot (fun k s => s.slewSettledOne k) s

end Sys2Proof.Machine
end

