-- ==== Sys2Proof/Machine/Supervisor.lean ====
section
/-! DEFINITION. The transmitter supervisor (chapter 5): reports, states, orders, trips, recycle, the RF watch, guard trips,
fault marks, hand-mode holders, and configuration changes. -/

namespace Sys2Proof.Machine

/-- A timer of the supervisor started for `dur` milliseconds; while settling it is stopped (R111). -/
def State.superTimer (s : State) (dur : Nat) : Timer := if s.isSettling then .stopped else s.startTimer dur

/-- A frequency within 2300 to 26100 kHz and a multiple of 5. -/
def freqOk (f : Nat) : Bool := decide (2300 ≤ f ∧ f ≤ 26100) && f % 5 == 0

/-- A programme feed, 1 to 16. -/
def feedOk (f : Nat) : Bool := decide (1 ≤ f ∧ f ≤ 16)

/-- The tuned frequency a READY report gives (R93). -/
def tunedOf (f : Option Nat) : Option Nat :=
  match f with
  | some x => if freqOk x then some x else none
  | none => none

/-- The record follows a condition other than TRIPPED, at a frequency; READY becomes RADIATING where R93 gives it. -/
def TxRec.follow (r : TxRec) (c : TxCond) (f : Option Nat) : TxRec :=
  match c with
  | .standby => { r with state := .standby, tuned := none }
  | .tuning => { r with state := .tuning, tuned := none }
  | .ready => { r with state := .ready, tuned := tunedOf f }
  | .tripped => r

/-- The record follows its last reported condition (R97, R102). -/
def TxRec.followLast (r : TxRec) : TxRec :=
  match r.lastCond with
  | some c => r.follow c r.lastFreq
  | none => { r with state := .offline, tuned := none }

/-- The kind of an order. -/
def Order.kind : Order → OrderKind
  | .tune .. => .tune
  | .feed .. => .feed

/-- The origin of an order. -/
def Order.origin : Order → Origin
  | .tune _ _ o _ _ => o
  | .feed _ o _ => o

/-- A TUNE order stands. -/
def TxRec.hasTune (r : TxRec) : Bool :=
  match r.order with
  | some (.tune ..) => true
  | _ => false

/-- The end of the standing order is recorded and reported to its origin (R97, R99). -/
def State.endOrder (s : State) (n : Tx) (failure : Option OrderFail) : State :=
  match (s.tx[n]).order with
  | none => s
  | some o =>
    let s := s.modTx n fun r => { r with order := none, lastEnd := some ⟨o.kind, o.origin, failure⟩ }
    match o.origin with
    | .schedule run => s.notify (.runOrder run o.kind failure)
    | .desk _ => s.raise .transmitter

/-- The standing order fails, and behind a TUNE order, whatever its phase, the record follows its last reported condition (R97): so
a record that an earlier order held in TUNING does not stay there. -/
def State.failOrder (s : State) (n : Tx) (f : OrderFail) : State :=
  let tune := (s.tx[n]).hasTune
  let s := s.endOrder n (some f)
  if tune then s.modTx n TxRec.followLast else s

/-! ## Trips -/

/-- The times of the history younger than the recycle window, in seconds (R101, R109). -/
def youngTrips (history : List Nat) (now window : Nat) : List Nat := history.filter fun t => decide (now < t + 1000 * window)

/-- A final trip (R101, R105). -/
def State.finalTrip (s : State) (n : Tx) (cause : TripCause) : State :=
  let mark := if cause == .reflected then s.mx.feeds n else none
  let s := s.modTx n fun r => { r with state := .tripped, recycleTimer := .idle, clearPending := false }
  let s := s.modForces n fun f => { f with trip := true }
  let s := match mark with
    | some m => { s with faultMark := s.faultMark.set m true }
    | none => s
  s.notify (.runFinalTrip n mark)

/-- A trip that is not final: RECYCLE (R101). -/
def State.recycleTrip (s : State) (n : Tx) : State :=
  s.modTx n fun r => { r with state := .recycle, recycleTimer := s.superTimer (1000 * s.cfg.active.recycleDelay) }

/-- The newest times of a history, no more than the trip limit (R92, R109). -/
def newestTrips (history : List Nat) (limit : Nat) : List Nat := history.drop (history.length - limit)

/-- A counted trip (R101). The history then holds no more times than the limit, which a close may have lowered (R92). -/
def State.countTrip (s : State) (n : Tx) (cause : TripCause) : State :=
  let s := s.endOrder n (some .tripped)
  let young := youngTrips (s.tx[n]).history s.timebase s.cfg.active.recycleWindow
  let history := newestTrips (young ++ [s.timebase]) s.cfg.active.tripLimit
  let s := s.modTx n fun r => { r with lastCause := some cause, history := history, rfWatch := .idle, tuned := none }
  let s := if history.length ≥ s.cfg.active.tripLimit then s.finalTrip n cause else s.recycleTrip n
  s.raise .trip

/-- A guard trip (R104). DEDUCED (log 14): the record of an unconfigured transmitter keeps the values that R92 gives it. -/
def State.guardTrip (s : State) (n : Tx) : State :=
  if s.cfg.txOk n then
    let was := (s.tx[n]).state
    let s := s.endOrder n (some .tripped)
    let s := s.modTx n fun r => { r with state := .tripped, lastCause := some .hotSwitch, tuned := none, rfWatch := .idle,
                                         recycleTimer := .idle, clearPending := false }
    let s := if was == .tripped then s else s.modForces n fun f => { f with trip := true }
    s.notify (.runFinalTrip n none)
  else s

/-! ## Reports -/

/-- A report is accepted (R91): sound, with a condition, feed and level within their values, from a configured transmitter. -/
def State.statusOk (s : State) (n : Tx) (r : StatusReport) : Bool :=
  r.sound && r.cond.isSome && feedOk r.feed && r.level.isSome && s.cfg.txOk n

/-- A report with condition TRIPPED counts a trip: the condition before it was other, and the record is not TRIPPED (R100,
R102). -/
def TxRec.countsTrip (r : TxRec) (prev : Option TxCond) : Bool := prev != some .tripped && r.state != .tripped

/-- A report other than TRIPPED taken by the state rules (R93, R97, R102, R106). -/
def State.stateReport (s : State) (n : Tx) (c : TxCond) (r : StatusReport) : State :=
  let x := s.tx[n]
  match x.state, x.order with
  | .tripped, _ =>
    if x.clearPending then
      State.raise (s.modTx n fun x => { x.follow c (some r.freq) with clearPending := false }) .transmitter
    else s
  | .recycle, _ => if x.recycleTimer == .idle then s.modTx n fun x => x.follow c (some r.freq) else s
  | .tuning, some (.tune f d _ true _) =>
    if c == .ready && r.freq == f && r.feed == d then (s.endOrder n none).modTx n fun x => x.follow c (some r.freq)
    else s
  | _, _ => s.modTx n fun x => x.follow c (some r.freq)

/-- A FEED order completes on the first report of its feed (R98). -/
def State.feedReport (s : State) (n : Tx) (feed : Nat) : State :=
  match (s.tx[n]).order with
  | some (.feed f _ _) => if f == feed then s.endOrder n none else s
  | _ => s

/-- The cause a report TRIPPED is taken with: OTHER where it gives none of REFLECTED, OVERLOAD, OTHER (R91). -/
def causeOf : Option TripCause → TripCause
  | some .reflected => .reflected
  | some .overload => .overload
  | _ => .other

/-- The fields an accepted report sets (R91). -/
def TxRec.fields (x : TxRec) (r : StatusReport) (silence : Timer) : TxRec :=
  { x with reporting := true, silence := silence, lastCond := r.cond, feed := some r.feed, rfLevel := r.level,
           warning := r.warning, lastFreq := some r.freq }

/-- An accepted report, as one act (R91, R93, R94, R100, R108). -/
def State.takeStatus (s : State) (n : Tx) (r : StatusReport) : State :=
  match r.cond with
  | none => s
  | some c =>
    let x := s.tx[n]
    let prev := if x.reporting then x.lastCond else none
    let s := s.modTx n fun x => x.fields r (s.superTimer 3000)
    let s := s.raiseIf (!x.reporting) .transmitter
    let s := s.raiseIf (r.warning && !x.warning) .transmitter
    let s :=
      if c == .tripped then
        if (s.tx[n]).countsTrip prev then s.countTrip n (causeOf r.cause) else s
      else s.stateReport n c r
    s.feedReport n r.feed

/-- The silence timer expires (R94). -/
def State.silenceExpired (s : State) (n : Tx) : State :=
  let s := s.modTx n fun r => { r with reporting := false, silence := .idle, rfLevel := none, tuned := none, warning := false,
                                       rfWatch := .idle, state := if r.state == .tripped then .tripped else .offline }
  State.raise (s.endOrder n (some .offline)) .transmitter

/-! ## Orders -/

/-- A TUNE order in phase WAITING_RF is sent when RFSn shows RF absent; not while settling (R96, R111). -/
def State.sendTune (s : State) (n : Tx) : State :=
  match (s.tx[n]).order with
  | some (.tune f d o false t) =>
    if s.rfPresent n || s.isSettling then s
    else
      (s.modTx n fun r => { r with order := some (.tune f d o true t), state := .tuning, tuned := none }).send
        (.tuneOrder n f d)
  | _ => s

/-- A FEED order is taken and sent at once (R98). -/
def State.takeFeed (s : State) (n : Tx) (feed : Nat) (o : Origin) : State :=
  let s := s.endOrder n (some .cancelled)
  (s.modTx n fun r => { r with order := some (.feed feed o (s.superTimer 10000)) }).send (.feedOrder n feed)

/-- A TUNE order is taken (R96). -/
def State.takeTune (s : State) (n : Tx) (freq feed : Nat) (o : Origin) : State :=
  let s := s.endOrder n (some .cancelled)
  State.sendTune
    (s.modTx n fun r => { r with order := some (.tune freq feed o false (s.superTimer (1000 * s.cfg.active.tuneTimeout))) }) n

/-- The record is READY or RADIATING. -/
def TxState.isReady : TxState → Bool
  | .ready => true
  | .radiating => true
  | _ => false

/-- An accepted TUNE request (R96). -/
def State.acceptTune (s : State) (n : Tx) (freq feed : Nat) (o : Origin) : Status × State :=
  let r := s.tx[n]
  if r.state.isReady && r.tuned == some freq && r.feed == some feed && r.order.isNone then (.done, s)
  else if r.state.isReady && r.tuned == some freq && r.feed != some feed then (.accepted, s.takeFeed n feed o)
  else (.accepted, s.takeTune n freq feed o)

/-- Checks 4 and 5 of R95: who may ask while the holder is `h`. -/
def orderHolder (o : Origin) (h : Option Desk) : Option Status :=
  match o, h with
  | .desk _, none => some .notInHand
  | .desk d, some e => if d == e then none else some .heldByOther
  | .schedule _, none => none
  | .schedule _, some _ => some .heldByOther

/-- Checks 2 to 8 of R95, with the ranges of check 1. -/
def State.tuneRefusal (s : State) (n : Tx) (freq feed : Nat) (o : Origin) : Option Status :=
  if !(freqOk freq && feedOk feed) then some .badArgument
  else if !s.cfg.txOk n then some .notConfigured
  else if s.isOpen then some .configOpen
  else match orderHolder o (s.tx[n]).holder with
  | some e => some e
  | none =>
    if s.locked (.tx n) then some .lockedOut
    else if (s.tx[n]).state == .offline || (s.tx[n]).state == .tripped then some .notPermitted
    else if (s.tx[n]).state == .recycle then some .busy
    else none

/-- A TUNE request (R95, R96). -/
def State.tuneRequest (s : State) (n : Tx) (freq feed : Nat) (o : Origin) : Status × State :=
  match s.tuneRefusal n freq feed o with
  | some e => (e, s)
  | none => s.acceptTune n freq feed o

/-- A FEED request from the run scheduler (R98). -/
def State.feedRequest (s : State) (n : Tx) (feed run : Nat) : Status × State :=
  if !feedOk feed then (.badArgument, s)
  else if !s.cfg.txOk n then (.notConfigured, s)
  else if s.isOpen then (.configOpen, s)
  else if (s.tx[n]).holder.isSome then (.heldByOther, s)
  else if s.locked (.tx n) then (.lockedOut, s)
  else if !(s.tx[n]).state.isReady then (.notPermitted, s)
  else if (s.tx[n]).hasTune then (.busy, s)
  else (.accepted, s.takeFeed n feed (.schedule run))

/-- A cancellation by the run scheduler of its own order, wherever it stands (R97). -/
def State.cancelOrder (s : State) (n : Tx) (run : Nat) : State :=
  match (s.tx[n]).order with
  | some o => if o.origin == .schedule run then s.failOrder n .cancelled else s
  | none => s

/-- The tune timer expires (R97). -/
def State.tuneExpired (s : State) (n : Tx) : State :=
  match (s.tx[n]).order with
  | some (.tune _ _ _ _ (.running due)) => (s.atExpiry (.running due)).failOrder n .tuneTimeout
  | _ => s

/-- The feed timer expires (R98). -/
def State.feedExpired (s : State) (n : Tx) : State :=
  match (s.tx[n]).order with
  | some (.feed _ _ (.running due)) => (s.atExpiry (.running due)).failOrder n .feedTimeout
  | _ => s

/-- The recycle timer expires: the force is lifted, and RECYCLE follows the last reported condition unless that is TRIPPED
(R102). -/
def State.recycleExpired (s : State) (n : Tx) : State :=
  s.modTx n fun r =>
    let r := { r with recycleTimer := .idle }
    if r.state == .recycle && r.lastCond != some .tripped then r.followLast else r

/-- RFSn has changed: a waiting TUNE order is sent at absence (R96). -/
def State.txRf (s : State) (n : Tx) : State := s.sendTune n

/-- A lockout placed on the transmitter fails a standing order (R97, R168). -/
def State.txLocked (s : State) (n : Tx) : State := s.failOrder n .lockedOut

/-- A standing order of an origin fails with reason HAND (R97, R174, R175). -/
def State.failHand (s : State) (n : Tx) (is : Origin → Bool) : State :=
  match (s.tx[n]).order with
  | some o => if is o.origin then s.failOrder n .hand else s
  | none => s

/-- The timer of an order, changed. -/
def Order.mapTimer (o : Order) (f : Timer → Timer) : Order :=
  match o with
  | .tune a b c d t => .tune a b c d (f t)
  | .feed a b t => .feed a b (f t)

/-- One transmitter record at a configuration close (R109). -/
def State.txReconfigOne (before : ConfigStore) (s : State) (n : Tx) : State :=
  if before.txOk n && !s.cfg.txOk n then
    (State.modTx (s.endOrder n (some .notConfigured)) n fun _ => TxRec.powerUp).modForces n fun f => { f with trip := false }
  else if s.cfg.txOk n then
    s.modTx n fun r =>
      { r with history := newestTrips (youngTrips r.history s.timebase s.cfg.active.recycleWindow) s.cfg.active.tripLimit }
  else s

/-- Every transmitter record at a configuration close (R109). DESIGN CHOICE (log 66): T1 to T8, and so the ends of their orders. -/
def State.txReconfig (before : ConfigStore) (s : State) : State :=
  forAll allTx (fun n s => s.txReconfigOne before n) s

/-- Fault marks at a configuration close (R105). -/
def State.marksReconfig (s : State) : State :=
  forAll allAnt (fun m s => if s.cfg.antOk m then s else { s with faultMark := s.faultMark.set m false }) s

/-- The timers of a record stopped at a warm restart; the RF watch is judged afresh at the end of settling (R111). -/
def TxRec.haltTimers (r : TxRec) : TxRec :=
  { r with silence := r.silence.halt, recycleTimer := r.recycleTimer.halt, rfWatch := .idle,
           order := r.order.map fun o => o.mapTimer Timer.halt }

/-- Every record at a warm restart (R111). -/
def State.txRestart (s : State) : State := forAll allTx (fun n s => s.modTx n TxRec.haltTimers) s

/-- The full time of an order's timer in milliseconds. -/
def orderMs (c : Configuration) : Order → Nat
  | .tune .. => 1000 * c.tuneTimeout
  | .feed .. => 10000

/-- The stopped timers of a record start anew from their full values (R111). -/
def TxRec.resumeTimers (r : TxRec) (c : Configuration) (now : Nat) : TxRec :=
  { r with silence := r.silence.resume now 3000, recycleTimer := r.recycleTimer.resume now (1000 * c.recycleDelay),
           order := r.order.map fun o => o.mapTimer fun t => t.resume now (orderMs c o) }

/-- The end of settling (R111). DESIGN CHOICE (log 66): TUNE is sent for T1 to T8 in this order. -/
def State.txSettled (s : State) : State :=
  forAll allTx (fun n s => (s.modTx n fun r => r.resumeTimers s.cfg.active s.timebase).sendTune n) s

end Sys2Proof.Machine
end

