-- ==== Sys2Proof/Machine/Permit.lean ====
section
/-! DEFINITION. The hot-switch guard (section 2.5) and the permit logic (section 2.6), and the judgements that follow the
permit: READY and RADIATING (R93) and the RF watch (R103). -/

namespace Sys2Proof.Machine

/-! ## The guard -/

/-- A switch of the path is not STEADY. -/
def Matrix.pathMoving (x : Matrix) (n : Tx) : Bool := (x.path n).any fun w => (x.get w).state != .steady

/-- The condition of R42, which asks for no configured transmitter. -/
def State.guardCondition (s : State) (n : Tx) : Bool := s.rfPresent n && s.mx.pathMoving n

/-- The guard acts on a transmitter (R42). -/
def State.guardAct (s : State) (n : Tx) : State :=
  ((s.modHolds n fun h => { h with guard := true }).guardTrip n).raise .trip

/-- The guard's judgement of one transmitter: it acts while no guard hold stands and its condition holds; a hold is released
with RF absent and every switch of the path STEADY, which is judged afresh at the end of settling (R42, R43). -/
def State.guardOne (s : State) (n : Tx) : State :=
  if ((s.permit[n]).holds).guard then
    if !s.rfPresent n && !s.mx.pathMoving n && !s.isSettling then s.modHolds n fun h => { h with guard := false } else s
  else if s.guardCondition n then s.guardAct n else s

/-- The guard's judgement of every transmitter (R42). DESIGN CHOICE (log 66): T1 to T8, where one change makes it act on several. -/
def State.guardSync (s : State) : State := forAll allTx (fun n s => s.guardOne n) s

/-! ## The permit -/

/-- A band slot holds a frequency (R48, R204): in use, and low ≤ f ≤ high. -/
def slotHolds (c : Configuration) (i : Fin 16) (f : Nat) : Bool :=
  c.bandHigh[i] != 0 && decide (c.bandLow[i] ≤ f ∧ f ≤ c.bandHigh[i])

/-- The 16 band slots. -/
def allSlot : List (Fin 16) := [0, 1, 2, 3, 4, 5, 6, 7, 8, 9, 10, 11, 12, 13, 14, 15]

/-- The band slot of a frequency. -/
def slotOf (c : Configuration) (f : Nat) : Option (Fin 16) := allSlot.find? fun i => slotHolds c i f

/-- A frequency lies in a band slot of a mask. -/
def inMask (c : Configuration) (mask : Word16) (f : Nat) : Bool :=
  match slotOf c f with
  | some i => mask.getLsbD i.val
  | none => false

/-- The requester (R45). -/
def State.requesterOf (s : State) (n : Tx) : Requester :=
  match (s.tx[n]).holder, s.run.cur[n] with
  | some d, _ => .hand d
  | none, some r => if r.state == .onAir then .schedule else .nobody
  | none, none => .nobody

/-- The requested level (R45): the last accepted SET_RF of the same holder, the power of the record ON_AIR, or OFF. -/
def State.requestedOf (s : State) (n : Tx) : Level :=
  match s.requesterOf n with
  | .hand d => if (s.permit[n]).requester == .hand d then (s.permit[n]).requested else .off
  | .schedule => match s.run.cur[n] with | some r => r.power | none => .off
  | .nobody => .off

/-- The forces (R44): ROUTE, TUNE and RECYCLE stand while their causes do; TRIP is placed and lifted by trips and
CLEAR_TRIP. -/
def State.forcesOf (s : State) (n : Tx) : Forces :=
  { route := s.taskRunning n, tune := (s.tx[n]).hasTune, recycle := (s.tx[n]).recycleTimer != .idle,
    trip := ((s.permit[n]).forces).trip }

/-- Any force stands. -/
def Forces.some_ (f : Forces) : Bool := f.route || f.tune || f.recycle || f.trip

/-- A switch of the path is not STEADY, or is STEADY out of place (R47). -/
def Matrix.pathUnsettled (x : Matrix) (n : Tx) : Bool :=
  (x.path n).any fun w => (x.get w).state != .steady || !(x.get w).inPlace

/-- The output switch is confirmed BETWEEN or UNKNOWN, or is FAULT (R47). -/
def Matrix.outputBad (x : Matrix) (n : Tx) : Bool :=
  (x.out[n]).confirmed == .between || (x.out[n]).confirmed == .unknown || (x.out[n]).state == .fault

/-- The output switch is confirmed at ANTENNA and the selectors confirmed at the bus are not exactly one (R47). -/
def Matrix.busCountBad (x : Matrix) (n : Tx) : Bool :=
  (x.out[n]).confirmed == .stands .antenna && (x.busConfirmed n).length != 1

/-- No blocking reason. -/
def Reasons.none_ : Reasons :=
  ⟨false, false, false, false, false, false, false, false, false, false, false, false, false, false⟩

/-- Some blocking reason stands. -/
def Reasons.some_ (r : Reasons) : Bool :=
  r.hall || r.configOpen || r.txLockout || r.txState || r.forced || r.pathUnsettled || r.outputSwitch || r.busCount ||
    r.antLockout || r.band || r.rotatorInvalid || r.keepOut || r.slewCapOff || r.notConfigured

/-- The slew cap standing on a rotator: that of a slewing record (R48). -/
def State.capOf (s : State) (k : Rot) : Option Level := if (s.slew[k]).state.slewing then (s.slew[k]).cap else none

/-- The tuned frequency lies in a band slot of the antenna's enabled mask (R48). -/
def State.bandOk (s : State) (n : Tx) (m : Ant) : Bool :=
  match (s.tx[n]).tuned with
  | some f => inMask s.cfg.active s.enabled[m] f
  | none => false

/-- The azimuth held for the antenna's rotator lies inside a keep-out sector (R48). -/
def State.insideKeepOut (s : State) (k : Rot) : Bool :=
  match s.heldAzimuth k with
  | some a => (s.params k).keepOut a
  | none => false

/-- The blocking reasons of R47. -/
def State.reasons47 (s : State) (n : Tx) : Reasons :=
  { Reasons.none_ with
    hall := s.hall.state != .normal, configOpen := s.isOpen, txLockout := s.locked (.tx n),
    txState := !(s.tx[n]).state.isReady && !s.isSettling, forced := (s.forcesOf n).some_,
    pathUnsettled := s.mx.pathUnsettled n, outputSwitch := s.mx.outputBad n, busCount := s.mx.busCountBad n }

/-- The blocking reasons of R48 added for the antenna fed; TX_STATE and ROTATOR_INVALID are set aside while settling (R51). -/
def State.reasons48 (s : State) (n : Tx) (m : Ant) (r : Reasons) : Reasons :=
  let r := { r with antLockout := s.locked (.ant m), band := !s.bandOk n m }
  match s.cfg.antRot m with
  | none => r
  | some k => { r with rotatorInvalid := (s.rot[k]).validity == .invalid && !s.isSettling, keepOut := s.insideKeepOut k,
                       slewCapOff := s.capOf k == some .off }

/-- The blocking reasons of a transmitter (R44, R47, R48). DEDUCED (log 63): an unconfigured one has NOT_CONFIGURED alone. -/
def State.reasonsOf (s : State) (n : Tx) : Reasons :=
  if !s.cfg.txOk n then { Reasons.none_ with notConfigured := true }
  else
    match s.mx.feeds n with
    | none => s.reasons47 n
    | some m => s.reasons48 n m (s.reasons47 n)

/-- The caps of a transmitter (R48). -/
def State.capsOf (s : State) (n : Tx) : Caps :=
  match s.cfg.txOk n, s.mx.feeds n with
  | true, some m =>
    { slewLow := match s.cfg.antRot m with | some k => s.capOf k == some .low | none => false, faultMark := s.faultMark[m] }
  | _, _ => ⟨false, false⟩

/-- The allowed level (R47, R48). -/
def allowedOf (r : Reasons) (c : Caps) : Level :=
  if r.some_ then .off else if c.slewLow || c.faultMark then .low else .full

/-- The ceiling of a transmitter's output while settling (R51). -/
def State.heldLevel (s : State) (n : Tx) : Level :=
  match s.cfg.settling with
  | some x => x.held[n]
  | none => .full

/-- The permit record as everything the permit logic reads gives it (R44 to R49, R51). -/
def State.permitOf (s : State) (n : Tx) : PermitRec :=
  let allowed := allowedOf (s.reasonsOf n) (s.capsOf n)
  { requester := s.requesterOf n, requested := s.requestedOf n, forces := s.forcesOf n, allowed := allowed,
    reasons := s.reasonsOf n, caps := s.capsOf n,
    output := (s.heldLevel n).min ((s.requestedOf n).min allowed), holds := (s.permit[n]).holds }

/-- The two PERMIT lines of a transmitter, true where asserted. -/
structure PermitLines where
  a : Bool
  b : Bool
  deriving DecidableEq, Repr

/-- The PERMIT lines of an output level (R49). -/
def Level.permitLines : Level → PermitLines
  | .off => ⟨false, false⟩
  | .low => ⟨true, false⟩
  | .full => ⟨true, true⟩

/-- The PERMIT lines as the part presents them (R49). -/
def State.permitLines (s : State) (n : Tx) : PermitLines := Level.permitLines (s.permit[n]).output

/-- The TRIP line that holds give: asserted while any stands (R50). -/
def Holds.line (h : Holds) : Bool := h.routeTrip || h.guard || h.hall

/-- The TRIP line of a transmitter as the part presents it, true where asserted (R50). -/
def State.tripLine (s : State) (n : Tx) : Bool := Holds.line (s.permit[n]).holds

/-- Every permit record recomputed; while settling an output that falls does not rise again (R49, R51). -/
def State.permitSync (s : State) : State :=
  let p := #v[s.permitOf 0, s.permitOf 1, s.permitOf 2, s.permitOf 3, s.permitOf 4, s.permitOf 5, s.permitOf 6, s.permitOf 7]
  let held := #v[(p[0]).output, (p[1]).output, (p[2]).output, (p[3]).output, (p[4]).output, (p[5]).output, (p[6]).output,
    (p[7]).output]
  { s with permit := p, cfg := { s.cfg with settling := s.cfg.settling.map fun x => { x with held := held } } }

/-! ## What follows the permit -/

/-- READY becomes RADIATING with RF present and the output above OFF, and RADIATING becomes READY when either ceases (R93). -/
def State.radiateOne (s : State) (n : Tx) : State :=
  let on := s.rfPresent n && (s.permit[n]).output != .off
  match (s.tx[n]).state with
  | .ready => if on then s.modTx n fun r => { r with state := .radiating } else s
  | .radiating => if on then s else s.modTx n fun r => { r with state := .ready }
  | _ => s

/-- The RF watch runs while the output is above OFF and RFSn shows RF absent (R103); it is stopped through settling (R111). -/
def State.watchOne (s : State) (n : Tx) : State :=
  if s.isSettling then s
  else if (s.permit[n]).output != .off && !s.rfPresent n then
    if (s.tx[n]).rfWatch == .idle then s.modTx n fun r => { r with rfWatch := s.startTimer 15000 } else s
  else s.modTx n fun r => { r with rfWatch := .idle }

/-- Everything that follows at once from the state of the hall: reports to the route controller, the guard, the permit, READY
and RADIATING, and the RF watch. -/
def State.sync (s : State) : State :=
  forAll allTx (fun n s => (s.radiateOne n).watchOne n) (s.absorbAll.guardSync).permitSync

end Sys2Proof.Machine
end

