-- ==== Sys2Proof/Machine/Season.lean ====
section
/-! DEFINITION. The season store (chapter 6): entries and their checks, table order, edits, arming, the changeover, and the
re-check at a configuration close. -/

namespace Sys2Proof.Machine

/-- Two bytes as a number, most significant byte first. -/
def word2 (a b : Byte) : Nat := 256 * a.toNat + b.toNat

/-- The other table. -/
def TableId.other : TableId → TableId
  | .a => .b
  | .b => .a

/-- The entries of a table. -/
def Season.table (x : Season) : TableId → List Entry
  | .a => x.tableA
  | .b => x.tableB

/-- The entries of a table, written. -/
def Season.setTable (x : Season) (t : TableId) (es : List Entry) : Season :=
  match t with
  | .a => { x with tableA := es }
  | .b => { x with tableB := es }

/-- The edit number of a table. -/
def Season.edit (x : Season) : TableId → Nat
  | .a => x.editA
  | .b => x.editB

/-- The edit number of a table rises by one, wrapping from 65535 to 0 (R124). -/
def Season.raiseEdit (x : Season) : TableId → Season
  | .a => { x with editA := (x.editA + 1) % 65536 }
  | .b => { x with editB := (x.editB + 1) % 65536 }

/-- The entry of an id. -/
def entryOf (es : List Entry) (id : Nat) : Option Entry := es.find? fun e => e.id == id

/-- Table order (R114). -/
def Entry.before (a b : Entry) : Bool :=
  a.start < b.start || (a.start == b.start && (a.tx.val < b.tx.val || (a.tx.val == b.tx.val && a.id < b.id)))

/-- An entry joins a table at its place in table order (R114). -/
def insertEntry (e : Entry) : List Entry → List Entry
  | [] => [e]
  | x :: xs => if e.before x then e :: x :: xs else x :: insertEntry e xs

/-- A table without the entry of an id. -/
def removeEntry (es : List Entry) (id : Nat) : List Entry := es.filter fun e => e.id != id

/-- An entry written: it replaces one of its id, and takes its place in table order (R114). -/
def putEntry (es : List Entry) (e : Entry) : List Entry := insertEntry e (removeEntry es e.id)

/-- The seven weekdays, Monday first. -/
def allWeekday : List Nat := [0, 1, 2, 3, 4, 5, 6]

/-- The weekday of a day number (R115). -/
def weekday (d : Nat) : Nat := (d + 5) % 7

/-- The starts of an entry's weekly intervals (R116). -/
def Entry.weekly (e : Entry) : List Nat :=
  (allWeekday.filter fun w => e.days.getLsbD w).map fun w => w * 1440 + e.start

/-- Two weekly intervals overlap on the circle of 10080 minutes (R116). -/
def intervalsOverlap (a p b q : Nat) : Bool :=
  decide (((b : Int) - a) % 10080 < p) || decide (((a : Int) - b) % 10080 < q)

/-- Two entries overlap (R116). -/
def Entry.overlaps (x y : Entry) : Bool :=
  x.weekly.any fun a => y.weekly.any fun b => intervalsOverlap a x.dur b y.dur

/-- A band slot holding the frequency is set in a mask (R119). -/
def Entry.bandIn (e : Entry) (c : ConfigStore) (m : Ant) : Bool := inMask c.active c.active.supported[m] e.freq

/-- The azimuth lies inside a keep-out sector of an antenna's rotator, where it has one (R118). -/
def azKeptOut (c : ConfigStore) (m : Ant) (az : Nat) : Bool :=
  match c.antRot m with
  | some k => (c.active.rot[k]).keepOut az
  | none => false

/-- Checks 2 to 5 of R118, which depend on the configuration (R129). -/
def Entry.configCheck (e : Entry) (c : ConfigStore) : Option Status :=
  let alts := e.alt.toList
  if !(c.txOk e.tx && c.antOk e.primary && alts.all c.antOk) then some .notConfigured
  else if !(e.bandIn c e.primary && alts.all fun m => e.bandIn c m) then some .bandMismatch
  else match e.az with
  | none => none
  | some z =>
    if (c.antRot e.primary).isNone then some .badArgument
    else if azKeptOut c e.primary z || alts.any fun m => azKeptOut c m z then some .keepOut
    else none

/-- An entry of a table is in use (R121): the source of its own transmitter's CURRENT record in PREPARING, READY or ON_AIR. -/
def RunTable.inUse (r : RunTable) (t : TableId) (e : Entry) : Bool :=
  match r.cur[e.tx] with
  | some x => x.state.using && x.table == t && x.entry == e.id
  | none => false

/-- Checks 2 to 9 of R118 for an entry of sound form. -/
def State.entryCheck (s : State) (t : TableId) (e : Entry) : Status :=
  let es := s.season.table t
  let rest := removeEntry es e.id
  match e.configCheck s.cfg with
  | some x => x
  | none =>
    if rest.any fun x => x.tx == e.tx && x.overlaps e then .overlap
    else if rest.any fun x => x.tx != e.tx && x.primary == e.primary && x.overlaps e then .antennaConflict
    else if (entryOf es e.id).isNone && es.length ≥ 320 then .tableFull
    else if (entryOf es e.id).any (s.run.inUse t) then .inUse
    else .done

/-- One byte of an entry record. -/
def recByte (b : List Byte) (i : Nat) : Nat := (b.getD i 0).toNat

/-- Two bytes of an entry record. -/
def recWord (b : List Byte) (i : Nat) : Nat := word2 (b.getD i 0) (b.getD (i + 1) 0)

/-- A power of an entry record: 1 LOW, 2 FULL (R184). -/
def powerOf : Nat → Option Level
  | 1 => some .low
  | 2 => some .full
  | _ => none

/-- The entry an entry record of 16 bytes carries; none where a value is neither within its range nor its absence value, the
day mask is empty, or the alternate equals the primary: check 1 of R118 (R113, R184). -/
def entryOfRecord (b : List Byte) : Option Entry :=
  let id := recWord b 0
  let days := recByte b 3
  let start := recWord b 4
  let dur := recWord b 6
  let freq := recWord b 8
  let alt := recByte b 11
  let az := recWord b 12
  let feed := recByte b 15
  match txOf (recByte b 2), antOf (recByte b 10), powerOf (recByte b 14) with
  | some n, some m, some p =>
    if decide (1 ≤ id ∧ id ≤ 9999) && decide (1 ≤ days ∧ days < 128) && decide (start < 1440) &&
        decide (1 ≤ dur ∧ dur ≤ 1440) && freqOk freq && feedOk feed && (decide (az < 3600) || az == 65535) &&
        (alt == 0 || ((antOf alt).isSome && antOf alt != some m)) then
      some { id := id, tx := n, days := BitVec.ofNat 7 days, start := start, dur := dur, freq := freq, primary := m,
             alt := antOf alt, az := if az == 65535 then none else some az, power := p, feed := feed, failed := none }
    else none
  | _, _, _ => none

/-- One entry record of a WRITE_ENTRIES list: checked, and written where accepted (R117, R118). -/
def State.writeOne (s : State) (t : TableId) (b : List Byte) : Status × State :=
  match entryOfRecord b with
  | none => (.badArgument, s)
  | some e =>
    match s.entryCheck t e with
    | .done => (.done, { s with season := s.season.setTable t (putEntry (s.season.table t) e) })
    | x => (x, s)

/-- The effects of an edit (R124). -/
def State.edited (s : State) (t : TableId) : State :=
  let x := s.season.raiseEdit t
  let x := if t == x.active then x else { x with armed := false }
  let s := State.raise { s with season := x } .schedule
  if t == x.active then s.notify (.runEdit t false) else s

/-- Every entry record of a list, in order. -/
def State.writeAll (s : State) (t : TableId) : List (List Byte) → List Status × State
  | [] => ([], s)
  | b :: bs =>
    let (x, s1) := s.writeOne t b
    let (xs, s2) := State.writeAll s1 t bs
    (x :: xs, s2)

/-- A list cut into records of 16 bytes. -/
def records16 : Nat → List Byte → List (List Byte)
  | 0, _ => []
  | n + 1, b => b.take 16 :: records16 n (b.drop 16)

/-- The site minute of a moment (R115). -/
def DayMinute.site (m : DayMinute) : Nat := m.day * 1440 + m.minute

/-- The changeover falls due at a site minute: a record stands, and the minute is not earlier than its moment (R127). -/
def Season.changeoverDue (x : Season) (now : Nat) : Bool :=
  match x.changeover with
  | some m => decide (m.site ≤ now)
  | none => false

/-- The season store after a changeover made, taken or skipped as the STANDBY table is armed or not (R128). DEDUCED (log 48): the
last changeover takes the moment of the record, as R128 words it, also where a step makes it later, which R112 calls the moment at
which it was made. -/
def Season.changeOver (x : Season) : Season :=
  { x with active := if x.armed then x.active.other else x.active, armed := false, changeover := none,
           last := x.changeover.map fun m => ⟨x.armed, m⟩ }

/-- The changeover record judged at a site minute (R127, R128). -/
def State.judgeChangeover (s : State) (now : Nat) : State :=
  if s.season.changeoverDue now then State.raise { s with season := s.season.changeOver } .schedule else s

/-- The table that a changeover notice names, where a changeover judged at a site minute is taken (R128). -/
def Season.notice (x : Season) (now : Nat) : Option TableId :=
  if x.changeoverDue now && x.armed then some x.active.other else none

/-- An entry with its flag as a configuration gives it (R129). -/
def Entry.recheck (c : ConfigStore) (e : Entry) : Entry := { e with failed := e.configCheck c }

/-- A re-check changed the flag of some entry of a table (R129). DEDUCED (log 58): an entry flagged before and after has kept its flag,
though with another failed check. -/
def flagsChanged (c : ConfigStore) (es : List Entry) : Bool := es.any fun e => e.failed.isSome != (e.configCheck c).isSome

/-- The re-check of every entry at a configuration close (R129). -/
def State.seasonReconfig (s : State) : State :=
  let x := s.season
  let changed := flagsChanged s.cfg x.tableA || flagsChanged s.cfg x.tableB
  let active := flagsChanged s.cfg (x.table x.active)
  let s := { s with season := { x with tableA := x.tableA.map (Entry.recheck s.cfg), tableB := x.tableB.map (Entry.recheck s.cfg) } }
  let s := s.raiseIf changed .schedule
  if active then s.notify (.runEdit x.active true) else s

end Sys2Proof.Machine
end

