-- ==== Sys2Proof/Machine/Clock.lean ====
section
/-! DEFINITION. The site clock (chapter 8): pulses, ticks, advances, TIME messages, steps and the setting of the clock. -/

namespace Sys2Proof.Machine

/-- The site minute of a time (R156). -/
def Civil.site (t : Civil) : Nat := t.day * 1440 + t.minute

/-- The site second of a time (R156). -/
def Civil.siteSecond (t : Civil) : Nat := t.day * 86400 + t.minute * 60 + t.second

/-- The present site minute; absent in UNSET. -/
def State.siteMinute (s : State) : Option Nat := s.clock.now.map Civil.site

/-- The clock is RUNNING or HOLDOVER. -/
def State.clockSet (s : State) : Bool := s.clock.now.isSome && s.clock.state != .unset

/-- One field of the clock record or more, changed. -/
def State.modClock (s : State) (f : Clock → Clock) : State := { s with clock := f s.clock }

/-- The next second (R158); a wrap past day 36524 gives none. -/
def Civil.next (t : Civil) : Option Civil :=
  if t.second + 1 < 60 then some { t with second := t.second + 1 }
  else if t.minute + 1 < 1440 then some { t with minute := t.minute + 1, second := 0 }
  else if t.day + 1 ≤ 36524 then some ⟨t.day + 1, 0, 0⟩
  else none

/-- A minute-boundary event, delivered to the season store and the run scheduler (R158). -/
def State.boundary (s : State) (minute : Nat) : State := s.notify (.boundary minute)

/-- The minutes after `a`, up to `a + n`. -/
def minutesAfter (a : Nat) : Nat → List Nat
  | 0 => []
  | n + 1 => minutesAfter a n ++ [a + n + 1]

/-- A step to a new time (R162). -/
def State.stepClock (s : State) (kind : StepKind) (old : Option Civil) (new : Civil) : State :=
  let rec_ : StepRec := { kind := kind, size := old.map fun o => (new.siteSecond : Int) - o.siteSecond,
                          before := old.map Civil.site, after := new.site }
  let s := s.modClock fun c => { c with now := some new, owed := false, lastStep := some rec_ }
  let s :=
    match kind, old with
    | .smallForward, some o => forAll (minutesAfter o.site (new.site - o.site)) (fun m s => s.boundary m) s
    | _, _ => s
  (s.notify (.step ⟨kind, old.map Civil.site, new.site⟩)).raise .clock

/-- An advance of one second, or its withholding where a second is owed (R158). -/
def State.advance (s : State) : State :=
  match s.clock.now with
  | none => s
  | some t =>
    if s.clock.owed then s.modClock fun c => { c with owed := false }
    else
      match t.next with
      | none => s.stepClock .backward (some t) ⟨0, 0, 0⟩
      | some u =>
        let s := s.modClock fun c => { c with now := some u }
        if u.second == 0 then s.boundary u.site else s

/-- A mark: its moment becomes the last mark and the tick is rearmed at 1 s from it (R157). -/
def State.markClock (s : State) : State :=
  s.modClock fun c => { c with lastMark := some s.timebase, tick := s.startTimer 1000 }

/-- Less than 0.5 s have passed since a moment. -/
def withinHalf (now : Nat) (since : Option Nat) : Bool :=
  match since with
  | some t => decide (now < t + 500)
  | none => false

/-- A pulse of the time input (R157, R159). -/
def State.pulse (s : State) : State :=
  match s.clock.state with
  | .unset => s.modClock fun c => { c with lastPulse := some s.timebase }
  | _ =>
    if withinHalf s.timebase s.clock.lastPulse then s
    else
      let was := s.clock.state
      let counted := withinHalf s.timebase s.clock.lastCounted
      let s := s.markClock.modClock fun c => { c with lastPulse := some s.timebase, missed := 0, state := .running }
      let s := s.raiseIf (was == .holdover) .clock
      if counted then s else s.advance

/-- The expiry of the tick (R157, R159). -/
def State.tickExpired (s : State) : State :=
  let was := s.clock.state
  let missed := min 2 (s.clock.missed + 1)
  let s := s.markClock.modClock fun c => { c with lastCounted := some s.timebase, missed := missed }
  let s := if was == .running && missed == 2 then (s.modClock fun c => { c with state := .holdover }).raise .clock else s
  s.advance

/-- The setting of an UNSET clock (R160, R163). -/
def State.firstSet (s : State) (t : Civil) : State :=
  let s := s.markClock.modClock fun c => { c with state := .running, missed := 0, owed := false }
  s.stepClock .firstSet none t

/-- The comparison of a time with the clock (R161). -/
def State.compareClock (s : State) (t : Civil) : State :=
  match s.clock.now with
  | none => s
  | some c =>
    let d := (t.siteSecond : Int) - c.siteSecond
    if d == 0 then s
    else if d == 1 then
      (s.modClock fun c => { c with lastCounted := some s.timebase, lastMark := some s.timebase }).advance
    else if d == -1 then s.modClock fun c => { c with owed := true }
    else if d < 0 then s.stepClock .backward (some c) t
    else if d ≤ 300 then s.stepClock .smallForward (some c) t
    else s.stepClock .largeForward (some c) t

/-- A time within the ranges of R156. -/
def Civil.ok (t : Civil) : Bool := decide (t.day ≤ 36524 ∧ t.minute < 1440 ∧ t.second < 60)

/-- A time given to the clock: it sets an UNSET clock, and is compared with a set one (R160, R163). -/
def State.giveTime (s : State) (t : Civil) : State :=
  match s.clock.state with
  | .unset => s.firstSet t
  | _ => s.compareClock t

end Sys2Proof.Machine
end

