-- ==== Sys2Proof/Machine/Run.lean ====
section
/-! DEFINITION. The run scheduler (chapter 7 and section 12.1): slots, choosing, preparation, the checklist and what the
steps report, start, grace, end and run-through, lockouts, trips and hand, drops, edits, changeovers and clock steps. -/

namespace Sys2Proof.Machine

/-! ## Slots and records -/

/-- The record of a slot. -/
def State.slot (s : State) (n : Tx) : Slot → Option RunRec
  | .cur => s.run.cur[n]
  | .nxt => s.run.nxt[n]

/-- A slot written. -/
def State.setSlot (s : State) (n : Tx) (k : Slot) (r : Option RunRec) : State :=
  match k with
  | .cur => { s with run := { s.run with cur := s.run.cur.set n r } }
  | .nxt => { s with run := { s.run with nxt := s.run.nxt.set n r } }

/-- A slot that holds a run number. -/
def State.holdsRun (s : State) (num : Nat) (n : Tx) (k : Slot) : Bool :=
  match s.slot n k with
  | some r => r.num == num
  | none => false

/-- The slot that holds a run number. -/
def State.whereRun (s : State) (num : Nat) : Option (Tx × Slot) :=
  (allTx.map (fun n => (n, Slot.cur)) ++ allTx.map (fun n => (n, Slot.nxt))).find? fun p => s.holdsRun num p.1 p.2

/-- The record of a run number, with its slot. -/
def State.findRun (s : State) (num : Nat) : Option (Tx × Slot × RunRec) :=
  match s.whereRun num with
  | none => none
  | some (n, k) => (s.slot n k).map fun r => (n, k, r)

/-- The record of a run number changed, wherever it stands. -/
def State.modRun (s : State) (num : Nat) (f : RunRec → RunRec) : State :=
  match s.findRun num with
  | none => s
  | some (n, k, r) => s.setSlot n k (some (f r))

/-- The present site minute as the run scheduler reads it outside a boundary. -/
def State.nowMinute (s : State) : Nat := s.siteMinute.getD 0

/-- The site minute at which the run scheduler acts, and whether it acts in the act of that minute's boundary. -/
structure RunNow where
  minute : Nat
  edge : Bool

/-- A record of start `x` that goes on air now is LATE: unless it does so in the act of its start boundary (R144). DEDUCED (log 16):
later in its start minute is late too, as the worked case of 12.3 shows. -/
def RunNow.late (t : RunNow) (x : Nat) : Bool := !t.edge || decide (x < t.minute)

/-- The done mark after a record of table `t` ending at `e` is closed (R134). -/
def markAfter (m : Option DoneMark) (t : TableId) (e : Nat) : Option DoneMark :=
  match m with
  | some d => if d.table == t then some ⟨max d.minute e, t⟩ else some ⟨e, t⟩
  | none => some ⟨e, t⟩

/-- A terminal record moves the done mark, unless it is ABORTED, HAND (R134). -/
def movesMark (st : RunState) (reason : Option RunReason) : Bool := !(st == .aborted && reason == some .hand)

/-- A terminal record is placed at the head of the outcome list; its mark moves; attention RUN (R133, R134, R154). -/
def State.writeOutcome (s : State) (r : RunRec) (st : RunState) (reason : Option RunReason) (now : Nat) : State :=
  let r' := { r with state := st, reason := reason, closedAt := some now, deferred := none }
  let marks := if movesMark st reason then s.run.marks.set r.tx (markAfter s.run.marks[r.tx] r.table r.stop) else s.run.marks
  State.raise { s with run := { s.run with outcomes := (r' :: s.run.outcomes).take 32, marks := marks } } .run

/-- A record takes back what it has asked for, each where the matching item is IN_PROGRESS (R142). -/
def State.takeBack (s : State) (r : RunRec) : State :=
  let s := if r.route == .inProgress then (s.cancelTask r.tx (.schedule r.num)).2 else s
  let s := if r.tune == .inProgress then s.cancelOrder r.tx r.num else s
  if r.slew == .inProgress then s.slewWithdraw r.num else s

/-- A record leaves its slot at site minute `now`; an emptied CURRENT slot is seen by NEXT as of that minute (R139, R144, R152). -/
def State.leaveSlot (s : State) (n : Tx) (k : Slot) (now : Nat) : State :=
  let s := s.setSlot n k none
  if k == .cur then s.notify (.runSlot n now) else s

/-- A record in a slot becomes terminal: it leaves its slot, takes back its requests and its slew target, and is written to the
outcome list (R133, R142). -/
def State.closeRun (s : State) (n : Tx) (k : Slot) (r : RunRec) (st : RunState) (reason : Option RunReason) (now : Nat) : State :=
  let s := (s.leaveSlot n k now).takeBack r
  ((s.slewWithdraw r.num).writeOutcome r st reason now).permitSync

/-- The record becomes MISSED. -/
def State.missRun (s : State) (n : Tx) (k : Slot) (r : RunRec) (reason : RunReason) (now : Nat) : State :=
  s.closeRun n k r .missed (some reason) now

/-- The record becomes ENDED, with RF_HELD where `held`. -/
def State.endRun (s : State) (n : Tx) (k : Slot) (r : RunRec) (held : Bool) (now : Nat) : State :=
  s.closeRun n k { r with held := r.held || held } .ended none now

/-- A record is dropped (R149). -/
def State.dropRun (s : State) (n : Tx) (k : Slot) (reason : RunReason) (now : Nat) : State :=
  match s.slot n k with
  | none => s
  | some r =>
    if r.state == .waiting then s.leaveSlot n k now
    else if r.aired then s.endRun n k r true now
    else s.missRun n k r reason now

/-! ## Antennas -/

/-- A transmitter other than `n` that holds the antenna's selector on its path and is held in hand or active (R138). -/
def State.pathTaken (s : State) (n : Tx) (m : Ant) : Bool :=
  allTx.any fun u => u != n && s.mx.onPath u (.sel m) && ((s.tx[u]).holder.isSome || s.txActive u)

/-- The antenna tests of R138. -/
def State.antPasses (s : State) (n : Tx) (freq : Nat) (m : Ant) : Bool :=
  s.cfg.antOk m && !s.locked (.ant m) && !s.faultMark[m] && (s.mx.sel[m]).state != .fault &&
    inMask s.cfg.active s.enabled[m] freq && !((s.run.usersOf m).any fun r => r.tx != n) && !s.pathTaken n m

/-- The antenna chosen for a record, and whether it is the alternate (R138). -/
def State.chooseAntenna (s : State) (r : RunRec) : Option (Ant × Bool) :=
  if s.antPasses r.tx r.freq r.primary then some (r.primary, false)
  else match r.alt with
    | some m => if s.antPasses r.tx r.freq m then some (m, true) else none
    | none => none

/-- The slew item on entry to PREPARING (R139). -/
def State.slewItem (s : State) (r : RunRec) (m : Ant) : Item :=
  if r.az.isNone || (s.cfg.antRot m).isNone then .notNeeded else .waiting

/-! ## On air -/

/-- An item is DONE or NOT_NEEDED. -/
def Item.ok : Item → Bool
  | .done => true
  | .notNeeded => true
  | _ => false

/-- Entry into ON_AIR (R144). -/
def State.goOnAir (s : State) (num : Nat) (late : Bool) : State :=
  ((s.modRun num fun r => { r with state := .onAir, aired := true, late := r.late || late }).permitSync).raise .run

/-- A PREPARING record whose items are all DONE or NOT_NEEDED becomes READY, and ON_AIR where it is CURRENT, with LATE after its start
boundary (R139, R144). -/
def State.readyCheck (s : State) (num : Nat) (t : RunNow) : State :=
  match s.findRun num with
  | none => s
  | some (n, k, r) =>
    if r.state == .preparing && r.route.ok && r.tune.ok && r.slew.ok then
      let s := s.setSlot n k (some { r with state := .ready })
      if k == .cur then s.goOnAir num (t.late r.start) else s
    else s

/-! ## The checklist -/

/-- The items of a checklist. -/
inductive ItemKind where
  | route | tune | slew
  deriving DecidableEq, Repr

/-- An item of a record. -/
def RunRec.item (r : RunRec) : ItemKind → Item
  | .route => r.route
  | .tune => r.tune
  | .slew => r.slew

/-- An item of a record set. -/
def RunRec.setItem (r : RunRec) (i : ItemKind) (x : Item) : RunRec :=
  match i with
  | .route => { r with route := x }
  | .tune => { r with tune := x }
  | .slew => { r with slew := x }

/-- An item set; a record that was READY and has an item to be done again is PREPARING. -/
def State.setItem (s : State) (num : Nat) (i : ItemKind) (x : Item) : State :=
  s.modRun num fun r =>
    let r' := r.setItem i x
    { r' with state := if r.state == .ready && !x.ok then .preparing else r.state }

/-- An antenna is in use of a run record other than `num` in PREPARING, READY or ON_AIR (R138). -/
def State.usedByOtherRun (s : State) (num : Nat) (m : Ant) : Bool := (s.run.usersOf m).any fun r => r.num != num

/-- A record that cannot go on with its antenna goes to its alternate (R143). `req` requests its items. Answers whether it
went. DEDUCED (log 43): an alternate that another record has in use, its own transmitter's other slot among them, does not pass,
since no antenna is in use of two records (R138). -/
def State.goAlternate (req : Nat → State → State) (s : State) (num : Nat) : Bool × State :=
  match s.findRun num with
  | none => (false, s)
  | some (_, _, r) =>
    match r.alt with
    | none => (false, s)
    | some m =>
      if !r.alternate && s.antPasses r.tx r.freq m && !s.usedByOtherRun num m then
        let s := s.takeBack { r with tune := .notNeeded }
        let item := s.slewItem r m
        let s := s.modRun num fun r =>
          { r with inUse := some m, alternate := true, state := .preparing, route := .waiting, slew := item }
        (true, (req num s).raise .run)
      else (false, s)

/-- A route or slew item fails: alternate, or MISSED (R140, R141). -/
def State.itemFailed (req : Nat → State → State) (s : State) (num : Nat) (i : ItemKind) (reason : RunReason) (now : Nat) :
    State :=
  let s := s.setItem num i .failed
  let (went, s) := s.goAlternate req num
  if went then s
  else match s.findRun num with
    | some (n, k, r) => s.missRun n k r reason now
    | none => s

/-- A lockout on the antenna in use of a record in PREPARING or READY (R147). -/
def State.antLockedRun (req : Nat → State → State) (s : State) (num : Nat) (now : Nat) : State :=
  let (went, s) := s.goAlternate req num
  if went then s
  else match s.findRun num with
    | some (n, k, r) =>
      if r.aired then s.closeRun n k r .aborted (some .lockedOut) now else s.missRun n k r .lockedOut now
    | none => s

/-- A lockout on the transmitter of a record in a slot (R147). -/
def State.txLockedRun (s : State) (n : Tx) (k : Slot) (now : Nat) : State :=
  match s.slot n k, k with
  | some r, .cur => s.closeRun n .cur r .aborted (some .lockedOut) now
  | some r, .nxt => if r.state == .waiting then s else s.missRun n .nxt r .lockedOut now
  | none, _ => s

/-- A refusal or failure LOCKED_OUT: a lockout on the transmitter or on the antenna in use, whichever stands (R140). -/
def State.lockedRun (req : Nat → State → State) (s : State) (num : Nat) (now : Nat) : State :=
  match s.findRun num with
  | none => s
  | some (n, k, _) => if s.locked (.tx n) then s.txLockedRun n k now else s.antLockedRun req num now

/-- The slots of a transmitter in hand are cleared: CURRENT ABORTED, then NEXT dropped (R148; the order of the two is log 66). -/
def State.handRun (s : State) (n : Tx) (now : Nat) : State :=
  let s := match s.run.cur[n] with
    | some r => s.closeRun n .cur r .aborted (some .hand) now
    | none => s
  s.dropRun n .nxt .hand now

/-- A record taken as hand (R140, R141). -/
def State.handOf (s : State) (num : Nat) (now : Nat) : State :=
  match s.findRun num with
  | some (n, _, _) => s.handRun n now
  | none => s

/-- The record becomes MISSED for a reason. -/
def State.missOf (s : State) (num : Nat) (reason : RunReason) (now : Nat) : State :=
  match s.findRun num with
  | some (n, k, r) => s.missRun n k r reason now
  | none => s

/-- An answer to an item's request acts on the record (R140, R141). -/
def State.answerItem (req : Nat → State → State) (s : State) (num : Nat) (i : ItemKind) (a : Status) (t : RunNow) : State :=
  let now := t.minute
  match a, i with
  | .done, _ => (s.setItem num i .done).readyCheck num t
  | .doneClamped, _ => (s.setItem num i .done).readyCheck num t
  | .accepted, _ => s.setItem num i .inProgress
  | .busy, _ => s.setItem num i .waiting
  | .notConfigured, _ => s.missOf num .notConfigured now
  | .heldByOther, _ => s.handOf num now
  | .lockedOut, _ => s.lockedRun req num now
  | .inUse, .route => s.itemFailed req num .route .routeFault now
  | .antennaConflict, .route => s.itemFailed req num .route .routeFault now
  | .switchFault, .route => s.itemFailed req num .route .routeFault now
  | .keepOut, .slew => s.itemFailed req num .slew .slewFault now
  | .positionInvalid, .slew => s.itemFailed req num .slew .slewFault now
  | .notPermitted, .tune =>
    match s.findRun num with
    | some (n, k, r) => s.missRun n k r (if (s.tx[n]).state == .tripped then .txTripped else .txOffline) now
    | none => s
  | _, _ => s

/-- One item is asked for: the answer and the state after. -/
def State.askItem (s : State) (r : RunRec) (i : ItemKind) : Status × State :=
  match i, r.inUse with
  | .route, some m => s.routeRequest (.schedule r.num) r.tx (.antenna m) none
  | .tune, _ => s.tuneRequest r.tx r.freq r.feed (.schedule r.num)
  | .slew, some m => s.slewSchedule r.num m (r.az.getD 0)
  | _, none => (.busy, s)

/-- An item is due to be requested: the slew at once, route and tune while CURRENT is empty or the record itself (R139). -/
def State.itemDue (s : State) (n : Tx) (k : Slot) (i : ItemKind) : Bool :=
  i == .slew || k == .cur || (s.run.cur[n]).isNone

/-- One WAITING item of a PREPARING record is requested where it is due and no configuration is open (R139, R153). -/
def State.requestItem (req : Nat → State → State) (s : State) (num : Nat) (i : ItemKind) (t : RunNow) : State :=
  match s.findRun num with
  | none => s
  | some (n, k, r) =>
    if r.state == .preparing && r.item i == .waiting && s.itemDue n k i && !s.isOpen then
      let (a, s) := s.askItem r i
      s.answerItem req num i a t
    else s

/-- The WAITING items of a record are requested, in any order (R139). `fuel` bounds the return to this rule through the
alternate, which happens once. -/
def State.requestItems : Nat → RunNow → Nat → State → State
  | 0, _, _, s => s
  | fuel + 1, t, num, s =>
    let (items, s) := s.arrange [ItemKind.route, .tune, .slew]
    let s := forAll items (fun i s => s.requestItem (fun num s => State.requestItems fuel t num s) num i t) s
    s.readyCheck num t

/-- The WAITING items of a record are requested. -/
def State.request (s : State) (num : Nat) (t : RunNow) : State := State.requestItems 3 t num s

/-- `goAlternate` with the requests of R139. -/
def State.alternate (s : State) (num : Nat) (t : RunNow) : Bool × State := s.goAlternate (fun num s => s.request num t) num

/-- The items that wait in PREPARING records, as run number and item. -/
def State.waitingItems (s : State) : List (Nat × ItemKind) :=
  s.run.all.flatMap fun r =>
    if r.state == .preparing then ([ItemKind.route, .tune, .slew].filter fun i => r.item i == .waiting).map fun i => (r.num, i)
    else []

/-- Items are requested again, in any order (R139). -/
def State.askAgain (s : State) (xs : List (Nat × ItemKind)) (t : RunNow) : State :=
  let (xs, s) := s.arrange xs
  forAll xs (fun x s => s.requestItem (fun num s => s.request num t) x.1 x.2 t) s

/-! ## Preparation -/

/-- The transmitter tests of R137. -/
def State.txTest (s : State) (n : Tx) : Option RunReason :=
  if (s.tx[n]).state == .tripped then some .txTripped
  else if (s.tx[n]).state == .offline then some .txOffline
  else if s.locked (.tx n) then some .lockedOut
  else none

/-- The antenna in use of the transmitter's CURRENT record. -/
def State.curAntenna (s : State) (n : Tx) : Option Ant :=
  match s.run.cur[n] with
  | some r => r.inUse
  | none => none

/-- A due WAITING NEXT record is taken into preparation: tested, deferred, or PREPARING with its checklist (R137, R138, R139). DEDUCED
(log 60): a record deferred on its alternate takes no antenna, and so has ALTERNATE clear. -/
def State.prepare (s : State) (n : Tx) (now : Nat) : State :=
  match s.run.nxt[n] with
  | none => s
  | some r =>
    if r.state == .waiting && !s.isOpen then
      let r := { r with deferred := none }
      match s.txTest n with
      | some why => s.missRun n .nxt r why now
      | none =>
        match s.chooseAntenna r with
        | none => s.missRun n .nxt r .noAntenna now
        | some (m, alt) =>
          if s.curAntenna n == some m then s.setSlot n .nxt (some { r with deferred := some m })
          else
            let r := { r with inUse := some m, alternate := alt, state := .preparing, route := .waiting, tune := .waiting,
                              slew := s.slewItem r m }
            -- a NEXT record does not go on air, so its requests need no boundary
            (s.setSlot n .nxt (some r)).request r.num ⟨now, false⟩
    else s

/-- A NEXT record whose start has come passes to an empty CURRENT slot, in PREPARING or READY (R144). -/
def State.passToCurrent (s : State) (n : Tx) (t : RunNow) : State :=
  match s.run.cur[n], s.run.nxt[n] with
  | none, some r =>
    if r.start ≤ t.minute && (r.state == .preparing || r.state == .ready) then
      let s := (s.setSlot n .nxt none).setSlot n .cur (some r)
      if r.state == .ready then s.goOnAir r.num (t.late r.start) else s.request r.num t
    else s
  | _, _ => s

/-- The start of a NEXT record (R144): a WAITING one is judged first. -/
def State.startRun (s : State) (n : Tx) (now : Nat) : State :=
  match s.run.cur[n], s.run.nxt[n] with
  | none, some r =>
    if r.start ≤ now then
      let s := if r.state == .waiting then s.prepare n now else s
      s.passToCurrent n ⟨now, true⟩
    else s
  | _, _ => s

/-- A record due for preparation: now is not earlier than its start less the lead (R137). A deferred record is judged only when
CURRENT leaves its slot, or at the close where a configuration was open then. -/
def State.dueRun (s : State) (n : Tx) (now : Nat) : Bool :=
  match s.run.nxt[n] with
  | some r => r.state == .waiting && (r.deferred.isNone || (s.run.cur[n]).isNone) && decide (r.start ≤ now + s.cfg.active.lead)
  | none => false

/-- A due record is prepared, and passes to CURRENT where its start has passed (R137, R144). -/
def State.prepareDue (s : State) (n : Tx) (t : RunNow) : State :=
  if s.dueRun n t.minute then (s.prepare n t.minute).passToCurrent n t else s

/-! ## Choosing -/

/-- An occurrence: an entry and its start (R115). -/
structure Occ where
  entry : Entry
  start : Nat

/-- The end of an occurrence (R115). -/
def Occ.stop (o : Occ) : Nat := o.start + o.entry.dur

/-- The occurrences of an entry on a day, none or one (R115). -/
def occOn (e : Entry) (day : Nat) : List Occ :=
  if day ≤ 36524 && e.days.getLsbD (weekday day) then [⟨e, day * 1440 + e.start⟩] else []

/-- The days whose occurrences can matter at a site minute: yesterday, today and tomorrow. -/
def daysAround (now : Nat) : List Nat :=
  let d := now / 1440
  if d == 0 then [d, d + 1] else [d - 1, d, d + 1]

/-- The candidates of R136. -/
def State.candidates (s : State) (n : Tx) (now : Nat) : List Occ :=
  let x := s.season
  ((x.table x.active).filter fun e => e.tx == n && e.failed.isNone).flatMap (fun e => (daysAround now).flatMap (occOn e)) |>.filter
    fun o => decide (o.start < now + 1440) &&
      match s.run.marks[n] with
      | some m => m.table != x.active || decide (m.minute ≤ o.start)
      | none => true

/-- The earliest occurrence by start. -/
def earliest : List Occ → Option Occ
  | [] => none
  | o :: os => match earliest os with
    | none => some o
    | some p => if p.start < o.start then some p else some o

/-- A record made from an occurrence (R132, R136). DESIGN CHOICE (log 49): the three checklist items, which R139 forms on entry to
PREPARING, hold WAITING before it, and in records made only to be written MISSED. -/
def makeRec (o : Occ) (t : TableId) (num : Nat) (late : Bool) (base : Nat) : RunRec :=
  { num := num, tx := o.entry.tx, table := t, entry := o.entry.id, start := o.start, stop := o.stop, freq := o.entry.freq,
    feed := o.entry.feed, power := o.entry.power, primary := o.entry.primary, alt := o.entry.alt, az := o.entry.az,
    inUse := none, deferred := none, state := .waiting, route := .waiting, tune := .waiting, slew := .waiting, late := late,
    held := false, alternate := false, aired := false, graceBase := base, reason := none, closedAt := none }

/-- A run number is drawn (R133). -/
def State.drawNum (s : State) : Nat × State :=
  (s.run.nextNum, { s with run := { s.run with nextNum := if s.run.nextNum == 65535 then 1 else s.run.nextNum + 1 } })

/-- An occurrence becomes NEXT, WAITING (R136). -/
def State.takeNext (s : State) (n : Tx) (o : Occ) (late : Bool) (base : Nat) : State :=
  let (num, s) := s.drawNum
  s.setSlot n .nxt (some (makeRec o s.season.active num late base))

/-- An occurrence is written at once to the outcome list as MISSED (R136). DESIGN CHOICE (log 49): its record has LATE clear and its
start as grace base, of which R136 gives neither. -/
def State.missOcc (s : State) (o : Occ) (reason : RunReason) (now : Nat) : State :=
  let (num, s) := s.drawNum
  s.writeOutcome (makeRec o s.season.active num false o.start) .missed (some reason) now

/-- Choosing with CURRENT empty (R136); `fuel` bounds the occurrences passed over as TOO_LATE. -/
def State.chooseEmpty : Nat → Tx → Nat → State → State
  | 0, _, _, s => s
  | fuel + 1, n, now, s =>
    match earliest ((s.candidates n now).filter fun o => decide (now ≤ o.start) || decide (now < o.stop)) with
    | none => s
    | some o =>
      if now ≤ o.start then s.takeNext n o false o.start
      else if now + 2 ≤ o.stop then s.takeNext n o true now
      else State.chooseEmpty fuel n now (s.missOcc o .tooLate now)

/-- The occurrences that collide with a carried record are written MISSED, earliest first (R136). -/
def State.missCarried : Nat → Tx → Nat → Nat → State → State
  | 0, _, _, _, s => s
  | fuel + 1, n, stop, now, s =>
    match earliest ((s.candidates n now).filter fun o => decide (now < o.stop) && decide (o.start < stop)) with
    | none => s
    | some o => State.missCarried fuel n stop now (s.missOcc o .carryOverlap now)

/-- Choosing with a record in CURRENT (R136). -/
def State.chooseAfter (s : State) (n : Tx) (r : RunRec) (now : Nat) : State :=
  let s := if r.table == s.season.active then s
    else State.missCarried (s.candidates n now).length n r.stop now s
  match earliest ((s.candidates n now).filter fun o => decide (r.stop ≤ o.start)) with
  | none => s
  | some o => s.takeNext n o false o.start

/-- The conditions of R135. -/
def State.mayChoose (s : State) (n : Tx) : Bool :=
  s.cfg.txOk n && (s.tx[n]).holder.isNone && (s.run.nxt[n]).isNone && s.clockSet && !s.isOpen

/-- A late join is due when it is chosen; another record when its lead has come (R137). -/
def State.dueAtChoosing (s : State) (n : Tx) (now : Nat) : Bool :=
  match s.run.nxt[n] with
  | some r => r.state == .waiting && (r.late || decide (r.start ≤ now + s.cfg.active.lead))
  | none => false

/-- Choosing for one transmitter (R135, R136, R137). -/
def State.chooseFor (s : State) (n : Tx) (t : RunNow) : State :=
  let now := t.minute
  if s.mayChoose n then
    let s := match s.run.cur[n] with
      | none => State.chooseEmpty ((s.candidates n now).length + 1) n now s
      | some r => s.chooseAfter n r now
    if s.dueAtChoosing n now then (s.prepare n now).passToCurrent n t else s
  else s

/-- Choosing for every transmitter, in no fixed order (R135). -/
def State.chooseAll (s : State) (t : RunNow) : State :=
  let (ns, s) := s.arrange (allTx.filter s.mayChoose)
  forAll ns (fun n s => s.chooseFor n t) s

/-! ## End and run-through -/

/-- The slew condition of a run-through (R146). -/
def State.slewCarries (s : State) (m : Ant) (a b : Option Nat) : Bool :=
  match a, b with
  | none, none => true
  | some x, some y =>
    x == y &&
      match s.cfg.antRot m with
      | some k => (s.slew[k]).target == some x && (s.slew[k]).state != .fault
      | none => false
  | _, _ => false

/-- A switch is STEADY in place at a position. -/
def State.standsAt (s : State) (w : Sw) (p : Pos) : Bool :=
  let r := s.sw w
  r.state == .steady && r.commanded == p && r.confirmed == .stands p

/-- The conditions of a run-through on antenna m (R146). -/
def State.runsThrough (s : State) (n : Tx) (c r : RunRec) (m : Ant) (now : Nat) : Bool :=
  c.state == .onAir && c.inUse == some m && r.start == now && r.state == .waiting && r.deferred == some m &&
    s.antPasses n r.freq m && c.freq == r.freq && s.slewCarries m c.az r.az && s.standsAt (.out n) .antenna &&
    s.standsAt (.sel m) (.bus n) && (s.tx[n]).state.isReady && (s.tx[n]).tuned == some r.freq

/-- A run-through (R146). -/
def State.runThrough (s : State) (n : Tx) (c r : RunRec) (m : Ant) (now : Nat) : State :=
  let item := if s.slewItem r m == .notNeeded then Item.notNeeded else Item.done
  let r' := { r with state := .onAir, aired := true, inUse := some m, deferred := none, alternate := m != r.primary,
                     route := .done, tune := .done, slew := item }
  let s := (s.setSlot n .nxt none).setSlot n .cur (some r')
  let s := ((s.writeOutcome c .ended none now).permitSync).raise .run
  let s := match r.az with
    | some z => (s.slewSchedule r.num m z).2
    | none => s
  let s :=
    if c.feed == r.feed then s
    else
      let (a, s) := s.feedRequest n r.feed r.num
      if a == .accepted then s else s.raise .run
  s.slewWithdraw c.num

/-- The reason of a record that misses its grace (R145). -/
def State.graceReason (s : State) : RunReason := if s.hall.state == .normal then .graceExpired else .hall

/-- A record in PREPARING or READY at its end or the end of its grace (R145). -/
def State.lateEnd (s : State) (n : Tx) (r : RunRec) (now : Nat) : State :=
  if r.aired then s.endRun n .cur r true now else s.missRun n .cur r s.graceReason now

/-- The end of a CURRENT record (R145, R146). -/
def State.endPhase (s : State) (n : Tx) (now : Nat) : State :=
  match s.run.cur[n] with
  | none => s
  | some c =>
    if now < c.stop then s
    else
      match s.run.nxt[n], c.inUse with
      | some r, some m =>
        if s.runsThrough n c r m now then s.runThrough n c r m now
        else if c.state == .onAir then s.endRun n .cur c false now else s.lateEnd n c now
      | _, _ => if c.state == .onAir then s.endRun n .cur c false now else s.lateEnd n c now

/-- A record that is not ON_AIR at the end of its grace (R145). -/
def State.graceOver (s : State) (c : RunRec) (now : Nat) : Bool :=
  c.state != .onAir && decide (c.graceBase + s.cfg.active.grace ≤ now)

/-- The end of the grace of a CURRENT record (R145). -/
def State.gracePhase (s : State) (n : Tx) (now : Nat) : State :=
  match s.run.cur[n] with
  | none => s
  | some c => if s.graceOver c now then s.lateEnd n c now else s

/-- The CURRENT records at the end of their grace, the transmitters in a freely chosen order: those that have passed to CURRENT at this
boundary with a grace of 0 (R145). -/
def State.newGraces (s : State) (now : Nat) : State :=
  let (ns, s) := s.arrange (allTx.filter fun n => match s.run.cur[n] with | some c => s.graceOver c now | none => false)
  forAll ns (fun n s => s.gracePhase n now) s

/-- A minute boundary (R144, R145, R139, R137, R135): ends, then starts, then graces, then requests again, then due records, then
choosing, the transmitters in one freely chosen order, then the graces of the records that became CURRENT on the way (log 15). -/
def State.runBoundary (s : State) (now : Nat) : State :=
  let waiting := s.waitingItems
  let (ns, s) := s.arrange (allTx.filter fun n => (s.run.cur[n]).isSome || (s.run.nxt[n]).isSome)
  let s := forAll ns (fun n s => s.endPhase n now) s
  let s := forAll ns (fun n s => s.startRun n now) s
  let s := forAll ns (fun n s => s.gracePhase n now) s
  let s := s.askAgain waiting ⟨now, true⟩
  let s := forAll ns (fun n s => s.prepareDue n ⟨now, true⟩) s
  (s.chooseAll ⟨now, true⟩).newGraces now

/-! ## Reports and notices -/

/-- The end of a route task acts on the record it names (R140). -/
def State.routeEnd (s : State) (e : TaskEnd) (run : Nat) (now : Nat) : State :=
  let req := fun num s => State.request s num ⟨now, false⟩
  match s.findRun run with
  | none => s
  | some (_, _, r) =>
    if e.ownCancel || r.route != .inProgress || r.inUse.map Dest.antenna != some e.dest then s
    else match e.failure with
      | none => (s.setItem run .route .done).readyCheck run ⟨now, false⟩
      | some .rfStuck => s.itemFailed req run .route .routeFault now
      | some .switchFault => s.itemFailed req run .route .routeFault now
      | some .hall => s.setItem run .route .waiting
      | some .cancelled => s.setItem run .route .waiting
      | some .lockedOut => (s.setItem run .route .waiting).lockedRun req run now

/-- A route task of the run scheduler has ended: its record takes the end, and every item then waiting is requested again (R139, R140).
The ends of other tasks are not reported to the run scheduler (R39). DESIGN CHOICE (log 59): an end that no record takes is an occasion
to request again too. -/
def State.runTask (s : State) (e : TaskEnd) : State :=
  match e.origin with
  | .schedule run =>
    let now := s.nowMinute
    let waiting := s.waitingItems
    (s.routeEnd e run now).askAgain waiting ⟨now, false⟩
  | _ => s

/-- A report of the slew controller acts on the record it names (R141). DEDUCED (log 70): one of a rotator that the record has set aside,
having gone to its alternate, does not. -/
def State.slewEnd (s : State) (run : Nat) (k : Rot) (x : SlewReport) (now : Nat) : State :=
  let req := fun num s => State.request s num ⟨now, false⟩
  match s.findRun run with
  | none => s
  | some (_, _, r) =>
    let mine := match r.inUse with | some m => s.cfg.antRot m == some k | none => false
    let prep := r.state == .preparing || r.state == .ready
    if !prep || !(r.slew == .inProgress || r.slew == .done) then s
    else match x with
      | .completion => if mine then (s.setItem run .slew .done).readyCheck run ⟨now, false⟩ else s
      | .fault _ => if mine then s.itemFailed req run .slew .slewFault now else s
      | .keepOut => if mine then s.itemFailed req run .slew .slewFault now else s
      | .cancelledLockedOut => if mine then s.antLockedRun req run now else s
      | .cancelledNotConfigured m => if r.inUse == some m then s.missOf run .notConfigured now else s
      | .cancelled => if mine then s.setItem run .slew .waiting else s

/-- A report of the slew controller (R139, R141). DESIGN CHOICE (log 59): one that no record takes is an occasion to request again too. -/
def State.runSlew (s : State) (run : Nat) (k : Rot) (x : SlewReport) : State :=
  let now := s.nowMinute
  let waiting := s.waitingItems
  (s.slewEnd run k x now).askAgain waiting ⟨now, false⟩

/-- The end of an order acts on the record it names: on its tune item where that is IN_PROGRESS (R141), and else it is the end of the FEED
of its run-through, whose failure raises RUN, also where a lockout has since taken the record off the air (R146, R147, R154). -/
def State.orderEnd (s : State) (run : Nat) (kind : OrderKind) (f : Option OrderFail) (now : Nat) : State :=
  match s.findRun run with
  | none => s
  | some (n, k, r) =>
    if r.state == .onAir || r.tune != .inProgress then s.raiseIf (kind == .feed && f.isSome) .run
    else match f with
      | none => (s.setItem run .tune .done).readyCheck run ⟨now, false⟩
      | some .tuneTimeout => s.missRun n k r .tuneTimeout now
      | some .feedTimeout => s.missRun n k r .tuneTimeout now
      | some .tripped => s.setItem run .tune .waiting
      | some .cancelled => s.setItem run .tune .waiting
      | some .offline => s.missRun n k r .txOffline now
      | some .lockedOut => s.txLockedRun n k now
      | some .hand => s.handRun n now
      | some .notConfigured => s.missRun n k r .notConfigured now

/-- The end of an order (R139, R141). DESIGN CHOICE (log 59): one that no record takes is an occasion to request again too. -/
def State.runOrder (s : State) (run : Nat) (kind : OrderKind) (f : Option OrderFail) : State :=
  let now := s.nowMinute
  let waiting := s.waitingItems
  (s.orderEnd run kind f now).askAgain waiting ⟨now, false⟩

/-- The records of a set of slots, as run numbers. -/
def State.runsWhere (s : State) (p : RunRec → Bool) : List Nat := (s.run.all.filter p).map RunRec.num

/-- A record is PREPARING or READY. -/
def RunRec.preparing (r : RunRec) : Bool := r.state == .preparing || r.state == .ready

/-- A final trip fails the record of the transmitter's CURRENT slot (R148). -/
def State.tripCur (s : State) (n : Tx) (now : Nat) : State :=
  match s.run.cur[n] with
  | some r => s.closeRun n .cur r .failed (some .txTripped) now
  | none => s

/-- A final trip misses the transmitter's NEXT record in preparation (R148). -/
def State.tripNxt (s : State) (n : Tx) (now : Nat) : State :=
  match s.run.nxt[n] with
  | some r => if r.preparing then s.missRun n .nxt r .txTripped now else s
  | none => s

/-- The records of other transmitters in preparation on a newly marked antenna go to their alternates (R209). -/
def State.leaveMarked (s : State) (n : Tx) (m : Ant) (now : Nat) : State :=
  let (xs, s) := s.arrange (s.runsWhere fun r => r.tx != n && r.preparing && r.inUse == some m)
  forAll xs (fun num s => (s.alternate num ⟨now, false⟩).2) s

/-- A final trip acts on the transmitter's own records, CURRENT before NEXT (R148; their order is log 66). -/
def State.tripOwn (s : State) (n : Tx) (now : Nat) : State := (s.tripCur n now).tripNxt n now

/-- A final trip, with the fault mark it placed (R148, R209). No rule says whether the tripped transmitter's own records are taken
before or after the others on the marked antenna: a free choice (log 2). -/
def State.runFinalTrip (s : State) (n : Tx) (mark : Option Ant) : State :=
  let now := s.nowMinute
  match mark with
  | none => s.tripOwn n now
  | some m =>
    let (i, s) := s.choose 2
    if i == 0 then (s.tripOwn n now).leaveMarked n m now else (s.leaveMarked n m now).tripOwn n now

/-- A record ON_AIR whose antenna is locked out (R147). -/
def State.onAirLocked (s : State) (num : Nat) (now : Nat) : State :=
  let s := (s.modRun num fun r => { r with state := .preparing, late := true, graceBase := now }).permitSync
  let (went, s) := s.alternate num ⟨now, false⟩
  if went then s
  else match s.findRun num with
    | some (n, k, r) => s.closeRun n k r .aborted (some .lockedOut) now
    | none => s

/-- A new lockout is taken (R147). DESIGN CHOICE (log 66): of a transmitter's records, CURRENT before NEXT. -/
def State.runLockout (s : State) (t : Target) : State :=
  let now := s.nowMinute
  match t with
  | .tx n => (s.txLockedRun n .cur now).txLockedRun n .nxt now
  | .ant m =>
    let (xs, s) := s.arrange (s.runsWhere fun r => r.inUse == some m && r.state.using)
    forAll xs (fun num s =>
      match s.findRun num with
      | some (_, _, r) =>
        if r.state == .onAir then s.onAirLocked num now
        else s.antLockedRun (fun num s => s.request num ⟨now, false⟩) num now
      | none => s) s

/-- The selector of an antenna in use has entered FAULT (R210). -/
def State.runSelFault (s : State) (m : Ant) : State :=
  let now := s.nowMinute
  let (xs, s) := s.arrange
    (s.runsWhere fun r => r.preparing && r.inUse == some m && (r.route == .done || r.route == .waiting))
  forAll xs (fun num s =>
    let (went, s) := s.alternate num ⟨now, false⟩
    if went then s
    else match s.findRun num with
      | some (n, k, r) => if r.aired then s.endRun n k r true now else s.missRun n k r .routeFault now
      | none => s) s

/-- The CURRENT slot of a transmitter has emptied at site minute `now`: a deferred NEXT is judged again, and the items of a PREPARING
one are requested (R137, R139); while a configuration is open it stays deferred, to be judged at the close. After a boundary that a
small forward step delivers, the minute is that boundary's (R152). -/
def State.runSlot (s : State) (n : Tx) (now : Nat) : State :=
  match s.run.cur[n], s.run.nxt[n] with
  | none, some r =>
    let s :=
      if r.state == .waiting then
        if r.deferred.isSome then s.prepare n now else s
      else s.request r.num ⟨now, false⟩
    s.passToCurrent n ⟨now, false⟩
  | _, _ => s

/-- Waiting items are requested again: a change of transmitter state or of hall state (R139). -/
def State.runAgain (s : State) : State := s.askAgain s.waitingItems ⟨s.nowMinute, false⟩

/-- Due records are taken and choosing is made, as at the end of an open configuration (R137, R204, R205). -/
def State.runJudge (s : State) : State :=
  let now := s.nowMinute
  if s.clockSet && !s.isOpen then
    let (ns, s) := s.arrange (allTx.filter fun n => s.dueRun n now)
    (forAll ns (fun n s => s.prepareDue n ⟨now, false⟩) s).chooseAll ⟨now, false⟩
  else s

/-- The source entry of a record is flagged. -/
def State.sourceFlagged (s : State) (r : RunRec) : Bool :=
  match entryOf (s.season.table r.table) r.entry with
  | some e => e.failed.isSome
  | none => false

/-- An edit notice (R150). DESIGN CHOICE (log 66): the records are dropped in the order T1 to T8. -/
def State.runEdit (s : State) (_t : TableId) (fromClose : Bool) : State :=
  let now := s.nowMinute
  let s := forAll allTx (fun n s =>
    match s.run.nxt[n] with
    | some r =>
      if r.state == .waiting then s.dropRun n .nxt .dropped now
      else if fromClose && s.sourceFlagged r then s.dropRun n .nxt .notConfigured now
      else s
    | none => s) s
  s.chooseAll ⟨now, false⟩

/-- A changeover notice, at the site minute at which the changeover was made (R151). DESIGN CHOICE (log 66): the records are dropped in
the order T1 to T8. -/
def State.runChangeover (s : State) (t : TableId) (now : Nat) : State :=
  let s := forAll allTx (fun n s =>
    match s.run.nxt[n] with
    | some r => if r.table == t || (r.state != .waiting && r.start == now) then s else s.dropRun n .nxt .dropped now
    | none => s) s
  s.chooseAll ⟨now, true⟩

/-- A CURRENT record at a large or backward step (R152). -/
def State.stepCurrent (s : State) (n : Tx) (now : Nat) : State :=
  match s.run.cur[n] with
  | none => s
  | some r =>
    if r.state != .onAir then s.dropRun n .cur .dropped now
    else if r.stop ≤ now then s.endRun n .cur r false now
    else s

/-- A step event, whose minute after is now (R152, R162). DESIGN CHOICE (log 66): T1 to T8, each its NEXT record before its CURRENT. -/
def State.runStep (s : State) (e : StepEvent) : State :=
  let now := e.after
  match e.kind with
  | .smallForward => s.chooseAll ⟨now, false⟩
  | _ =>
    let s := forAll allTx (fun n s => (s.dropRun n .nxt .dropped now).stepCurrent n now) s
    let s := if e.kind == .backward then
        { s with run := { s.run with marks := allTx.foldl (fun v (n : Tx) =>
            v.set n ((v[n]).map fun d => { d with minute := min d.minute now })) s.run.marks } }
      else s
    s.chooseAll ⟨now, false⟩

/-- Transmitters that cease to be configured at a close (R153). DESIGN CHOICE (log 66): T1 to T8, each its CURRENT record before its
NEXT. -/
def State.runReconfig (before : ConfigStore) (s : State) : State :=
  forAll allTx (fun n s =>
    if before.txOk n && !s.cfg.txOk n then
      let now := s.nowMinute
      let s := match s.run.cur[n] with
        | some r => s.closeRun n .cur r .aborted (some .notConfigured) now
        | none => s
      let s := s.dropRun n .nxt .notConfigured now
      { s with run := { s.run with marks := s.run.marks.set n none } }
    else s) s

/-- The ON_AIR record of a transmitter whose output is below its requested level and which has no RF_HELD yet (R147). -/
def State.heldDue (s : State) (n : Tx) : Option Nat :=
  match s.run.cur[n] with
  | none => none
  | some r =>
    if r.state == .onAir && !r.held && (s.permit[n]).output.rank < (s.permit[n]).requested.rank then some r.num else none

/-- Such a record takes RF_HELD, and its first setting raises RUN (R147). -/
def State.heldOne (s : State) (n : Tx) : State :=
  match s.run.cur[n], s.heldDue n with
  | some r, some _ => (s.setSlot n .cur (some { r with held := true })).raise .run
  | _, _ => s

/-- The end of settling: RF_HELD is set where the output stays below the requested level, and waiting items are requested
(R155). -/
def State.runSettled (s : State) : State := (forAll allTx (fun n s => s.heldOne n) s).runAgain

end Sys2Proof.Machine
end

