-- ==== Sys2Proof/Machine/Lockouts.lean ====
section
/-! DEFINITION. The lockout table (sections 9.1 to 9.5): placing, the safe conditions, earthing, releasing, and configuration
changes. -/

namespace Sys2Proof.Machine

/-- The lockout table changed. -/
def State.modLocks (s : State) (f : LockTable → LockTable) : State := { s with locks := f s.locks }

/-- The earthing record of an antenna written. -/
def State.setEarth (s : State) (m : Ant) (e : Option EarthRec) : State :=
  s.modLocks fun t => { t with earth := t.earth.set m e }

/-- ASm is confirmed at EARTH (R170). -/
def State.earthed (s : State) (m : Ant) : Bool := (s.mx.sel[m]).confirmed == .stands .earth

/-- The safe condition of a target (R168, R170). -/
def State.safeNow (s : State) : Target → Bool
  | .tx n => !s.rfPresent n
  | .ant m => s.earthed m

/-- Every lockout on a target takes a state; a change raises LOCKOUT (R168, R170). -/
def State.setEffective (s : State) (g : Target) (b : Bool) : State :=
  let changed := s.locks.records.any fun r => r.target == g && r.effective != b
  if changed then
    (s.modLocks fun t =>
      { t with records := t.records.map fun r => if r.target == g then { r with effective := b } else r }).raise .lockout
  else s

/-- The target lies within the configured counts. -/
def ConfigStore.targetOk (c : ConfigStore) : Target → Bool
  | .tx n => c.txOk n
  | .ant m => c.antOk m

/-- The lockout of a desk on a target. -/
def State.lockOf (s : State) (g : Target) (d : Desk) : Option LockRec :=
  s.locks.records.find? fun r => r.target == g && r.desk == d

/-- Checks 2 and 3 of R167. -/
def State.lockRefusal (s : State) (g : Target) (d : Desk) : Option Status :=
  if !s.cfg.targetOk g then some .notConfigured
  else if (s.lockOf g d).isNone && s.locks.records.length ≥ 32 then some .tableFull
  else none

/-! ## Earthing -/

/-- A route task in progress holds ASm in its set with ASm commanded to EARTH (R169). -/
def State.taskEarths (s : State) (m : Ant) : Bool :=
  (s.mx.sel[m]).commanded == .earth && !(s.tasksWith (.sel m)).isEmpty

/-- The earthing record after the answer to an asking (R169). -/
def earthAfter (a : Status) (atEarth loose : Bool) : EarthRec :=
  match a with
  | .accepted => { state := .running, failure := none, loose := false }
  | .done => if atEarth then { state := .done, failure := none, loose := false }
             else { state := .running, failure := none, loose := loose }
  | _ => { state := .waiting, failure := none, loose := false }

/-- An earthing may be asked for: it is WAITING, and no task in progress already earths the selector (R169). -/
def State.mayAskEarth (s : State) (m : Ant) : Bool :=
  !s.taskEarths m && match s.locks.earth[m] with | some e => e.state == .waiting | none => false

/-- A WAITING earthing is asked of the route controller (R169). -/
def State.askEarth (s : State) (m : Ant) : State :=
  if s.mayAskEarth m then
    let loose := (s.earthingOf m).isNone
    let (a, s) := s.earthRequest (.earthLock m) m
    s.setEarth m (some (earthAfter a (s.earthed m) loose))
  else s

/-- An earthing may be asked for again at the end of a route task: it is WAITING, and its selector is not then confirmed at EARTH (R169).
DEDUCED (log 69): so at the end of every task, since the confirmed position makes the earthing DONE (R170). -/
def State.earthWaits (s : State) (m : Ant) : Bool :=
  !s.earthed m && match s.locks.earth[m] with | some e => e.state == .waiting | none => false

/-- Every WAITING earthing but that of `except` is asked again at the end of a route task, in any order (R169). -/
def State.askEarths (s : State) (except : Option Ant) : State :=
  let (ms, s) := s.arrange (allAnt.filter fun m => except != some m && s.earthWaits m)
  forAll ms (fun m s => s.askEarth m) s

/-- The earthing record becomes FAILED, with attention LOCKOUT (R170). -/
def State.earthFailed (s : State) (m : Ant) (f : EarthFail) : State :=
  (s.setEarth m (some { state := .failed, failure := some f, loose := false })).raise .lockout

/-- The earthing record becomes DONE. -/
def State.earthDone (s : State) (m : Ant) : State := s.setEarth m (some { state := .done, failure := none, loose := false })

/-- The safe condition of an antenna judged: by the confirmed position of its selector (R170). -/
def State.judgeAnt (s : State) (m : Ant) : State :=
  match s.locks.earth[m] with
  | none => s
  | some e =>
    if s.earthed m then (s.setEffective (.ant m) true).earthDone m
    else
      let s := s.setEffective (.ant m) false
      if e.state == .done then s.earthFailed m .switchFault else s

/-- ASm has changed: its safe condition is judged, a loose earthing fails where ASm has entered FAULT, and a WAITING earthing is
asked where ASm has left MOVING (R169, R170). While settling the table stands as it is (R166). -/
def State.lockSw (s : State) (m : Ant) (leftMoving intoFault : Bool) : State :=
  if s.isSettling then s
  else
    let s := s.judgeAnt m
    let s := match s.locks.earth[m] with
      | some e => if intoFault && e.state == .running && e.loose then s.earthFailed m .switchFault else s
      | none => s
    if leftMoving then s.askEarth m else s

/-- RFSn has changed (R168). While settling the table stands as it is (R166). -/
def State.lockRf (s : State) (n : Tx) : State := if s.isSettling then s else s.setEffective (.tx n) (!s.rfPresent n)

/-- The end of a task of origin LOCKOUT sets the earthing record (R170). A record DONE with ASm at EARTH stays DONE. -/
def State.earthEnd (s : State) (m : Ant) (e : TaskEnd) : State :=
  match s.locks.earth[m] with
  | none => s
  | some r =>
    if e.ownCancel || (r.state == .done && s.earthed m) then s
    else match e.failure with
      | none => s.earthDone m
      | some .rfStuck => s.earthFailed m .rfStuck
      | some .switchFault => if s.earthed m then s.earthDone m else s.earthFailed m .switchFault
      | some _ => s.setEarth m (some { state := .waiting, failure := none, loose := false })

/-- The antenna of a LOCKOUT origin. -/
def RouteOrigin.lockAnt : RouteOrigin → Option Ant
  | .lockout m => some m
  | _ => none

/-- A route task has ended (R169, R170). The end of an earthing's own task by replacement is no occasion to ask for it. -/
def State.lockTask (s : State) (e : TaskEnd) : State :=
  let s := match e.origin.lockAnt with
    | some m => s.earthEnd m e
    | none => s
  s.askEarths (if e.byReplacement then e.origin.lockAnt else none)

/-! ## Placing and releasing -/

/-- The present site minute and second. -/
def State.placedNow (s : State) : Option (Nat × Nat) := s.clock.now.map fun t => (t.site, t.second)

/-- The earthing record after a placing or an update: made WAITING where there is none or it is FAILED (R166, R169). -/
def earthPlaced (e : Option EarthRec) : EarthRec :=
  match e with
  | none => { state := .waiting, failure := none, loose := false }
  | some r => if r.state == .failed then { state := .waiting, failure := none, loose := false } else r

/-- The transmitter whose task in progress is unstarted and has antenna m as its destination (R37). -/
def State.routesTo (s : State) (m : Ant) : Option Tx :=
  allTx.find? fun n => match s.tasks[n] with | some t => t.inProgress && t.unstarted && t.dest == .antenna m | none => false

/-- The earthing of an antenna is asked as a request for Tn (R37, R169). -/
def State.askEarthTask (s : State) (m : Ant) (n : Tx) : State :=
  let (a, s) := s.earthTask m n
  s.setEarth m (some (earthAfter a (s.earthed m) false))

/-- A new lockout on the destination antenna of an unstarted task of Tn: the route controller takes the lockout, which fails the task,
and the earthing, which is a request for Tn with destination NONE, in either order (R37, log 2). DEDUCED (log 42): the earthing is
asked where it may be asked at the placing, and goes to Tn in both orders, also where the failure has withdrawn the selector from
Tn's bus or the selector is at EARTH, so that Tn ends under the LOCKOUT task that R37 gives it. -/
def State.lockTaskAnt (s : State) (m : Ant) (n : Tx) : State :=
  if s.mayAskEarth m then
    let (i, s) := s.choose 2
    if i == 0 then (s.askEarthTask m n).routeLocked (.ant m) else (s.routeLocked (.ant m)).askEarthTask m n
  else s.routeLocked (.ant m)

/-- A new lockout's effects on its target (R168, R169). -/
def State.placeEffects (s : State) : Target → State
  | .tx n => (s.txLocked n).routeLocked (.tx n)
  | .ant m =>
    let s := (s.setEarth m (some (earthPlaced s.locks.earth[m]))).slewLocked m
    match s.routesTo m with
    | some n => (s.lockTaskAnt m n).judgeAnt m
    | none => (s.judgeAnt m).notify (.lockAsk m)

/-- A new lockout (R167, R168, R169). -/
def State.placeNew (s : State) (g : Target) (d : Desk) (reason : Nat) : Status × State :=
  let r : LockRec := { target := g, desk := d, reason := reason, effective := s.safeNow g, placed := s.placedNow }
  let s := (s.modLocks fun t => { t with records := t.records ++ [r] }).raise .lockout
  let s := (s.placeEffects g).notify (.runLockout g)
  (if r.effective then .done else .accepted, s)

/-- An update of a desk's own lockout (R167). -/
def State.placeUpdate (s : State) (g : Target) (d : Desk) (reason : Nat) : Status × State :=
  let s := (s.modLocks fun t =>
    { t with records := t.records.map fun r => if r.target == g && r.desk == d then { r with reason := reason } else r }).raise
      .lockout
  match g with
  | .tx _ => (.done, s)
  | .ant m =>
    match s.locks.earth[m] with
    | some e =>
      if e.state == .failed then (.done, (s.setEarth m (some (earthPlaced (some e)))).notify (.lockAsk m)) else (.done, s)
    | none => (.done, s)

/-- PLACE_LOCKOUT on a target (R167). -/
def State.placeLock (s : State) (g : Target) (d : Desk) (reason : Nat) : Status × State :=
  match s.lockRefusal g d with
  | some e => (e, s)
  | none => if (s.lockOf g d).isSome then s.placeUpdate g d reason else s.placeNew g d reason

/-- An antenna's earthing record removed where no lockout is left on it (R166). -/
def State.dropEarth (s : State) (g : Target) : State :=
  match g with
  | .tx _ => s
  | .ant m => if s.locked (.ant m) then s else s.setEarth m none

/-- RELEASE_LOCKOUT of a desk's lockout on a target (R171). -/
def State.releaseLock (s : State) (g : Target) (d : Desk) : State :=
  if (s.lockOf g d).isNone then s
  else
    State.dropEarth ((s.modLocks fun t =>
      { t with records := t.records.filter fun r => !(r.target == g && r.desk == d) }).raise .lockout) g

/-- The end of settling: every safe condition is judged afresh (R166). DEDUCED (log 52): every WAITING earthing is asked then, since
none was asked while settling, whatever occasion of R169 came. DESIGN CHOICE (log 66): by rising antenna. -/
def State.lockSettled (s : State) : State :=
  let s := forAll allTx (fun n s => s.lockRf n) s
  forAll allAnt (fun m s => s.lockSw m true ((s.mx.sel[m]).state == .fault)) s

/-- The lockouts whose target lies beyond the new counts leave the table (R173). DESIGN CHOICE (log 66): the earthing tasks are cancelled
by rising antenna. -/
def State.lockReconfig (s : State) : State :=
  let gone := s.locks.records.any fun r => !s.cfg.targetOk r.target
  let s := s.modLocks fun t => { t with records := t.records.filter fun r => s.cfg.targetOk r.target }
  let s := s.raiseIf gone .lockout
  let s := forAll allAnt (fun m s =>
    if (s.locks.earth[m]).isSome && !s.locked (.ant m) then
      forAll allTx (fun n s => (s.cancelTask n (.lockout m)).2) (s.setEarth m none)
    else s) s
  let s := forAll allTx (fun n s => s.lockRf n) s
  forAll allAnt (fun m s => s.lockSw m false false) s

end Sys2Proof.Machine
end

