-- ==== Sys2Proof/Machine/Hall.lean ====
section
/-! DEFINITION. The hall monitor (sections 9.7 to 9.9): the input filters, the hall states, and what their changes bring. -/

namespace Sys2Proof.Machine

/-- A sample taken by a filter (R176, R177). -/
def Filter.take {α : Type} [DecidableEq α] (f : Filter α) (x : α) : Filter α :=
  match f.accepted with
  | none =>
    if f.firstSample = some x then { accepted := some x, candidate := false, firstSample := none }
    else { f with firstSample := some x }
  | some a =>
    if a = x then { f with candidate := false }
    else if f.candidate then { f with accepted := some x, candidate := false }
    else { f with candidate := true }

/-- A level accepted outright, as the row of a change of accepted level gives it. -/
def Filter.accept {α : Type} (x : α) : Filter α := { accepted := some x, candidate := false, firstSample := none }

/-- One field of the hall monitor or more, changed. -/
def State.modHall (s : State) (f : Hall → Hall) : State := { s with hall := f s.hall }

/-- A hall trip hold placed or released (R50, R179). -/
def State.setHallTrip (s : State) (n : Tx) (b : Bool) : State := s.modHolds n fun h => { h with hall := b }

/-- Entry into SAFE (R178, R179). `raises` is false for a first state that was SAFE already. -/
def State.enterSafe (s : State) (raises : Bool) : State :=
  let s := s.modHall fun h => { h with state := .safe, closed := .idle, closedRunOut := false, closedStart := none }
  let s := s.raiseIf raises .hall
  let s := forAll allTx (fun n s => if s.cfg.txOk n && s.rfPresent n then s.setHallTrip n true else s) s
  s.notifyAll [.mxJudge, .slewAllowed, .routeSafe, .runHall]

/-- SAFE becomes RESTORED_WAIT and the closed timer is started (R178). -/
def State.enterRestored (s : State) : State :=
  (s.modHall fun h => { h with state := .restoredWait, closed := s.startTimer 60000, closedRunOut := false,
                               closedStart := some s.timebase }).raise .hall

/-- RESTORED_WAIT becomes NORMAL: held slew targets resume in the same act, and the matrix controller and the run scheduler take
the entry (R77, R178, R181). -/
def State.enterNormal (s : State) : State :=
  (((s.modHall fun h => { h with state := .normal }).raise .hall).slewResumeAll).notifyAll [.mxJudge, .runHall]

/-- The accepted level of the access input has become `l`; `was` is the level before (R177, R178). -/
def State.accessTaken (s : State) (was : Option AccessLevel) (l : AccessLevel) : State :=
  if was == some l then s
  else match l with
    | .opened => s.enterSafe (s.hall.state != .safe)
    | .closed => if s.hall.state == .safe then s.enterRestored else s

/-- The accepted level of the supply input has become `l`. It counted as LOW before any was accepted (R10, R177). -/
def State.supplyTaken (s : State) (was : Option SupplyLevel) : State :=
  if (was == some .good) == s.supplyGood then s
  else (s.supplyJudge).notify .mxJudge

/-- The blocks that act on a change of RFSn (R176). -/
def rfReaders (n : Tx) : List Notice := [.routeRf n, .slewPower, .txRf n, .lockRf n, .hallRf n]

/-- The accepted level of RFSn has become `l`. It counted as PRESENT before any was accepted (R176, R177). -/
def State.rfTaken (s : State) (n : Tx) (was : Option RfLevel) : State :=
  if (was != some .absent) == s.rfPresent n then s else s.notifyAll (rfReaders n)

/-- A change of RFSn as the hall monitor takes it: in SAFE an input becoming PRESENT takes a hold on its transmitter, configured or
not (R177, R179). -/
def State.hallRf (s : State) (n : Tx) : State :=
  if s.rfPresent n then
    if s.hallSafe && s.hall.access.accepted.isSome then s.setHallTrip n true else s
  else s.setHallTrip n false

/-- The filters' candidate marks are cleared for the groups whose sampling interval changes at a close (R177). -/
def State.hallReconfig (before : ConfigStore) (s : State) : State :=
  let a := before.active
  let b := s.cfg.active
  let s := if a.accessInterval == b.accessInterval then s
    else s.modHall fun h => { h with access := { h.access with candidate := false } }
  let s := if a.supplyInterval == b.supplyInterval then s
    else s.modHall fun h => { h with supply := { h.supply with candidate := false } }
  if a.rfInterval == b.rfInterval then s
  else forAll allTx (fun n s => s.modHall fun h =>
    { h with rf := h.rf.set n { h.rf[n] with candidate := false } }) s

end Sys2Proof.Machine
end

