-- ==== Sys2Proof/Machine/Operands.lean ====
section
/-! DEFINITION. Byte encodings: numbers of 2 and 4 bytes, the CRC-16 of R184, and the arguments of a request (R190). -/

namespace Sys2Proof.Machine

/-! ## Numbers -/

/-- A 16-bit value, most significant byte first (R184). -/
def bytes2 (w : Word16) : List Byte := [w.extractLsb' 8 8, w.extractLsb' 0 8]

/-- A number in 2 bytes; one that two bytes cannot hold is a free value (log entry 3). DESIGN CHOICE (log 54): a count or a place that a
reply shows is such a number (R188), and does not take the 1 byte that R190 gives the arguments count and place. -/
def num2 (n : Nat) : List Byte := bytes2 (if n < 65536 then BitVec.ofNat 16 n else Config.overWord n)

/-- A signed number in 2 bytes; one that two bytes cannot hold is a free value (log entry 3). DESIGN CHOICE (log 54): two's complement,
as R188 states no coding of a sign. -/
def int2 (n : Int) : List Byte :=
  bytes2 (if -32768 ≤ n ∧ n < 32768 then BitVec.ofInt 16 n else Config.overWord n)

/-- A number in 1 byte. -/
def num1 (n : Nat) : List Byte := [BitVec.ofNat 8 n]

/-- A site minute or site second in 4 bytes (R188). -/
def num4 (n : Nat) : List Byte :=
  let w := BitVec.ofNat 32 n
  [w.extractLsb' 24 8, w.extractLsb' 16 8, w.extractLsb' 8 8, w.extractLsb' 0 8]

/-- A number capped at 65535 in 2 bytes, where its rule says that 65535 stands for any greater value. -/
def age2 (n : Nat) : List Byte := num2 (min n 65535)

/-- A truth in 1 byte: 1 or 0 (log entry 9). -/
def bool1 (b : Bool) : List Byte := [if b then 1 else 0]

/-! ## The frame check -/

/-- One bit step of the CRC-16 with polynomial 0x1021. -/
def crcStep (c : Word16) : Word16 := if c.getLsbD 15 then (c <<< 1) ^^^ 0x1021 else c <<< 1

/-- One byte taken into the CRC-16, most significant bit first (R184). -/
def crcByte (c : Word16) (b : Byte) : Word16 :=
  let c := c ^^^ ((b.setWidth 16) <<< 8)
  crcStep (crcStep (crcStep (crcStep (crcStep (crcStep (crcStep (crcStep c)))))))

/-- The CRC-16 with initial value 0xFFFF and no final inversion (R184). -/
def crc16 (bs : List Byte) : Word16 := bs.foldl crcByte 0xFFFF

/-! ## Arguments -/

/-- A number from bytes, most significant first. -/
def numOf (bs : List Byte) : Nat := bs.foldl (fun n b => 256 * n + b.toNat) 0

/-- The arguments of a payload by their sizes; none where the length differs from the sum of the sizes (R190). -/
def args : List Nat → List Byte → Option (List Nat)
  | [], [] => some []
  | [], _ => none
  | n :: ns, bs => if bs.length < n then none else (args ns (bs.drop n)).map fun xs => numOf (bs.take n) :: xs

/-- A level argument (R190). -/
def levelOf : Nat → Option Level
  | 0 => some .off
  | 1 => some .low
  | 2 => some .full
  | _ => none

/-- A table argument (R190). -/
def tableOf : Nat → Option TableId
  | 1 => some .a
  | 2 => some .b
  | _ => none

/-- A lockout target argument: kind and number (R190). -/
def targetOf (kind num : Nat) : Option Target :=
  match kind with
  | 1 => (txOf num).map Target.tx
  | 2 => (antOf num).map Target.ant
  | _ => none

/-- A destination argument: kind, then the antenna number, 0 unless the kind is ANTENNA (R190). -/
def destOf (kind num : Nat) : Option Dest :=
  match kind with
  | 0 => (antOf num).map Dest.antenna
  | 1 => if num = 0 then some .dummy else none
  | 2 => if num = 0 then some .nothing else none
  | _ => none

end Sys2Proof.Machine
end

