-- ==== Sys2Proof/Machine/Items.lean ====
section
/-! DEFINITION. The items of a configuration (R199): identifiers, ranges, values, the item rules of R203 and the close checks
of R204. -/

namespace Sys2Proof

/-- An item of the item table of R199. -/
inductive CfgItem where
  | txCount | antCount | grantLimit | selTravel | outTravel | rfDrop | tuneTimeout | recycleWindow | tripLimit | recycleDelay
  | lead | grace | accessInterval | supplyInterval | rfInterval
  | bandLow (i : Fin 16)
  | bandHigh (i : Fin 16)
  | supported (m : Ant)
  | rotatorOf (m : Ant)
  | rotParam (k : Rot) (p : Fin 10)
  | sectorFrom (k : Rot) (j : Fin 4)
  | sectorTo (k : Rot) (j : Fin 4)
  deriving DecidableEq, Repr

/-- The item of an identifier (R199). -/
def CfgItem.ofId (id : Nat) : Option CfgItem :=
  let low := id % 256
  match id / 256 with
  | 1 => ([CfgItem.txCount, .antCount, .grantLimit, .selTravel, .outTravel, .rfDrop, .tuneTimeout, .recycleWindow, .tripLimit,
      .recycleDelay, .lead, .grace, .accessInterval, .supplyInterval, .rfInterval])[low]?
  | 2 => if 1 ≤ low then (if h : low - 1 < 16 then some (.bandLow ⟨low - 1, h⟩) else none) else none
  | 3 => if 1 ≤ low then (if h : low - 1 < 16 then some (.bandHigh ⟨low - 1, h⟩) else none) else none
  | 4 => if 1 ≤ low then (if h : low - 1 < 24 then some (.supported ⟨low - 1, h⟩) else none) else none
  | 5 => if 1 ≤ low then (if h : low - 1 < 24 then some (.rotatorOf ⟨low - 1, h⟩) else none) else none
  | 6 =>
    if h : low / 16 < 4 then (if g : low % 16 < 10 then some (.rotParam ⟨low / 16, h⟩ ⟨low % 16, g⟩) else none) else none
  | 7 =>
    if h : low / 8 < 4 then
      let j : Fin 4 := ⟨low % 8 / 2, by omega⟩
      if low % 2 = 0 then some (.sectorFrom ⟨low / 8, h⟩ j) else some (.sectorTo ⟨low / 8, h⟩ j)
    else none
  | _ => none

/-- The identifier of an item (R199). -/
def CfgItem.id : CfgItem → Nat
  | .txCount => 0x0100
  | .antCount => 0x0101
  | .grantLimit => 0x0102
  | .selTravel => 0x0103
  | .outTravel => 0x0104
  | .rfDrop => 0x0105
  | .tuneTimeout => 0x0106
  | .recycleWindow => 0x0107
  | .tripLimit => 0x0108
  | .recycleDelay => 0x0109
  | .lead => 0x010A
  | .grace => 0x010B
  | .accessInterval => 0x010C
  | .supplyInterval => 0x010D
  | .rfInterval => 0x010E
  | .bandLow i => 0x0201 + i.val
  | .bandHigh i => 0x0301 + i.val
  | .supported m => 0x0401 + m.val
  | .rotatorOf m => 0x0501 + m.val
  | .rotParam k p => 0x0600 + 16 * k.val + p.val
  | .sectorFrom k j => 0x0700 + 8 * k.val + 2 * j.val
  | .sectorTo k j => 0x0700 + 8 * k.val + 2 * j.val + 1

/-- The range of parameter p of a rotator (R54, R72). -/
def rotParamRange : Nat → Nat × Nat
  | 0 => (16, 64)
  | 1 => (0, 4095)
  | 2 => (0, 4095)
  | 3 => (0, 3599)
  | 4 => (256, 2047)
  | 5 => (0, 3599)
  | 6 => (10, 300)
  | 7 => (2, 20)
  | 8 => (5, 100)
  | _ => (30, 600)

/-- A value lies within bounds, both included. -/
def between (lo hi v : Nat) : Bool := decide (lo ≤ v ∧ v ≤ hi)

/-- A bound of a band slot: 0, or 2300 to 26100 in multiples of 5. -/
def bandBound (v : Nat) : Bool := v == 0 || (between 2300 26100 v && v % 5 == 0)

/-- A value lies within its item's range (R199). -/
def CfgItem.inRange (v : Nat) : CfgItem → Bool
  | .txCount => between 1 8 v
  | .antCount => between 1 24 v
  | .grantLimit => between 1 4 v
  | .selTravel => between 4 30 v
  | .outTravel => between 1 10 v
  | .rfDrop => between 1 10 v
  | .tuneTimeout => between 10 180 v
  | .recycleWindow => between 10 300 v
  | .tripLimit => between 1 5 v
  | .recycleDelay => between 2 30 v
  | .lead => between 1 15 v
  | .grace => between 0 10 v
  | .accessInterval => v == 1 || v == 8
  | .supplyInterval => v == 1 || v == 8
  | .rfInterval => v == 1 || v == 8
  | .bandLow _ => bandBound v
  | .bandHigh _ => bandBound v
  | .supported _ => between 0 65535 v
  | .rotatorOf _ => between 0 4 v
  | .rotParam _ p => between (rotParamRange p.val).1 (rotParamRange p.val).2 v
  | .sectorFrom _ _ => between 0 3599 v || v == 65535
  | .sectorTo _ _ => between 0 3599 v || v == 65535

/-- Parameter p of a rotator. -/
def RotParams.get (r : RotParams) : Nat → Nat
  | 0 => r.periods
  | 1 => r.offF
  | 2 => r.offV
  | 3 => r.zero
  | 4 => r.tol
  | 5 => r.stop
  | 6 => r.creep
  | 7 => r.stopTol
  | 8 => r.hold
  | _ => r.maxSlew

/-- Parameter p of a rotator written. -/
def RotParams.put (r : RotParams) (p v : Nat) : RotParams :=
  match p with
  | 0 => { r with periods := v }
  | 1 => { r with offF := v }
  | 2 => { r with offV := v }
  | 3 => { r with zero := v }
  | 4 => { r with tol := v }
  | 5 => { r with stop := v }
  | 6 => { r with creep := v }
  | 7 => { r with stopTol := v }
  | 8 => { r with hold := v }
  | _ => { r with maxSlew := v }

/-- The value of an item. -/
def Configuration.get (c : Configuration) : CfgItem → Nat
  | .txCount => c.txCount
  | .antCount => c.antCount
  | .grantLimit => c.grantLimit
  | .selTravel => c.selTravel
  | .outTravel => c.outTravel
  | .rfDrop => c.rfDrop
  | .tuneTimeout => c.tuneTimeout
  | .recycleWindow => c.recycleWindow
  | .tripLimit => c.tripLimit
  | .recycleDelay => c.recycleDelay
  | .lead => c.lead
  | .grace => c.grace
  | .accessInterval => c.accessInterval
  | .supplyInterval => c.supplyInterval
  | .rfInterval => c.rfInterval
  | .bandLow i => c.bandLow[i]
  | .bandHigh i => c.bandHigh[i]
  | .supported m => (c.supported[m]).toNat
  | .rotatorOf m => c.rotatorOf[m]
  | .rotParam k p => (c.rot[k]).get p.val
  | .sectorFrom k j => ((c.rot[k]).sectors[j]).fromB
  | .sectorTo k j => ((c.rot[k]).sectors[j]).toB

/-- The value of an item written. -/
def Configuration.put (c : Configuration) (i : CfgItem) (v : Nat) : Configuration :=
  match i with
  | .txCount => { c with txCount := v }
  | .antCount => { c with antCount := v }
  | .grantLimit => { c with grantLimit := v }
  | .selTravel => { c with selTravel := v }
  | .outTravel => { c with outTravel := v }
  | .rfDrop => { c with rfDrop := v }
  | .tuneTimeout => { c with tuneTimeout := v }
  | .recycleWindow => { c with recycleWindow := v }
  | .tripLimit => { c with tripLimit := v }
  | .recycleDelay => { c with recycleDelay := v }
  | .lead => { c with lead := v }
  | .grace => { c with grace := v }
  | .accessInterval => { c with accessInterval := v }
  | .supplyInterval => { c with supplyInterval := v }
  | .rfInterval => { c with rfInterval := v }
  | .bandLow i => { c with bandLow := c.bandLow.set i v }
  | .bandHigh i => { c with bandHigh := c.bandHigh.set i v }
  | .supported m => { c with supported := c.supported.set m (BitVec.ofNat 16 v) }
  | .rotatorOf m => { c with rotatorOf := c.rotatorOf.set m v }
  | .rotParam k p => { c with rot := c.rot.set k ((c.rot[k]).put p.val v) }
  | .sectorFrom k j =>
    let r := c.rot[k]
    { c with rot := c.rot.set k { r with sectors := r.sectors.set j { r.sectors[j] with fromB := v } } }
  | .sectorTo k j =>
    let r := c.rot[k]
    { c with rot := c.rot.set k { r with sectors := r.sectors.set j { r.sectors[j] with toB := v } } }

/-- A sector whose bearings are equal while both are other than 0xFFFF (R203). -/
def Sector.degenerate (x : Sector) : Bool := x.fromB == x.toB && x.fromB != 65535

/-- An item would make its sector's bearings equal (R203). -/
def Configuration.degenerateAt (c : Configuration) : CfgItem → Bool
  | .sectorFrom k j => ((c.rot[k]).sectors[j]).degenerate
  | .sectorTo k j => ((c.rot[k]).sectors[j]).degenerate
  | _ => false

/-- One item written into a configuration, or refused by the item rules (R203). -/
def Configuration.apply (c : Configuration) (id v : Nat) : Option Configuration :=
  match CfgItem.ofId id with
  | none => none
  | some i => if i.inRange v && !(c.put i v).degenerateAt i then some (c.put i v) else none

end Sys2Proof

namespace Sys2Proof.Machine

/-- The ten parameters of a rotator. -/
def allParam : List (Fin 10) := [0, 1, 2, 3, 4, 5, 6, 7, 8, 9]

/-- The four sectors of a rotator. -/
def allSector : List (Fin 4) := [0, 1, 2, 3]

/-- The 16 places of the band table. -/
def allBand : List (Fin 16) := [0, 1, 2, 3, 4, 5, 6, 7, 8, 9, 10, 11, 12, 13, 14, 15]

/-- Every item, in ascending order of identifier (R200). -/
def allItems : List CfgItem :=
  [CfgItem.txCount, .antCount, .grantLimit, .selTravel, .outTravel, .rfDrop, .tuneTimeout, .recycleWindow, .tripLimit,
    .recycleDelay, .lead, .grace, .accessInterval, .supplyInterval, .rfInterval]
  ++ allBand.map CfgItem.bandLow ++ allBand.map CfgItem.bandHigh ++ allAnt.map CfgItem.supported ++ allAnt.map CfgItem.rotatorOf
  ++ allRot.flatMap (fun k => allParam.map (CfgItem.rotParam k))
  ++ allRot.flatMap (fun k => allSector.flatMap fun j => [CfgItem.sectorFrom k j, CfgItem.sectorTo k j])

/-! ## The close checks (R204) -/

/-- A band slot is unused: both bounds are 0. -/
def slotUnused (c : Configuration) (i : Fin 16) : Bool := c.bandLow[i] == 0 && c.bandHigh[i] == 0

/-- Check 1 of one slot. -/
def slotSound (c : Configuration) (i : Fin 16) : Bool :=
  slotUnused c i || (c.bandLow[i] != 0 && c.bandHigh[i] != 0 && decide (c.bandLow[i] ≤ c.bandHigh[i]))

/-- Two slots in use share a frequency (check 2). -/
def slotsShare (c : Configuration) (i j : Fin 16) : Bool :=
  !slotUnused c i && !slotUnused c j && decide (c.bandLow[i] ≤ c.bandHigh[j]) && decide (c.bandLow[j] ≤ c.bandHigh[i])

/-- An antenna within the count, as a configuration gives it. -/
def antWithin (c : Configuration) (m : Ant) : Bool := decide (m.val < c.antCount)

/-- A supported mask names only slots in use (check 3). -/
def maskSound (c : Configuration) (m : Ant) : Bool :=
  allBand.all fun i => !(c.supported[m]).getLsbD i.val || !slotUnused c i

/-- An earlier antenna within the count names the same rotator (check 4). -/
def rotShared (c : Configuration) (m : Ant) : Bool :=
  c.rotatorOf[m] != 0 && allAnt.any fun j => decide (j.val < m.val) && c.rotatorOf[j] == c.rotatorOf[m]

/-- A rotator named by an antenna within the count. -/
def rotNamed (c : Configuration) (k : Rot) : Bool := allAnt.any fun m => antWithin c m && c.rotatorOf[m] == k.val + 1

/-- The item wanting in a sector with one bearing 0xFFFF (check 5). -/
def sectorWanting (c : Configuration) (k : Rot) (j : Fin 4) : Option CfgItem :=
  let x := (c.rot[k]).sectors[j]
  if x.fromB == 65535 && x.toB != 65535 then some (.sectorFrom k j)
  else if x.fromB != 65535 && x.toB == 65535 then some (.sectorTo k j)
  else none

/-- The first failed check, with the identifier of the first item found wanting (R204, log entry 10). -/
def closeCheck (c : Configuration) : Option (Nat × Nat) :=
  match allBand.find? fun i => !slotSound c i with
  | some i => some (1, (CfgItem.bandLow i).id)
  | none =>
  match allBand.find? fun j => allBand.any fun i => decide (i.val < j.val) && slotsShare c i j with
  | some j => some (2, (CfgItem.bandLow j).id)
  | none =>
  match allAnt.find? fun m => antWithin c m && !maskSound c m with
  | some m => some (3, (CfgItem.supported m).id)
  | none =>
  match allAnt.find? fun m => antWithin c m && rotShared c m with
  | some m => some (4, (CfgItem.rotatorOf m).id)
  | none =>
  match (allRot.filter (rotNamed c)).findSome? fun k => allSector.findSome? (sectorWanting c k) with
  | some i => some (5, i.id)
  | none => none

end Sys2Proof.Machine
end

