-- ==== Sys2Proof/Machine/Memory.lean ====
section
/-! DEFINITION. The 8 KiB configuration memory as a list of (address, byte) pairs in one canonical form: addresses strictly
rising, and no entry equal to what an unlisted address reads as. -/

namespace Sys2Proof.Machine

/-- The size of the configuration memory ("External connections"). -/
def memorySize : Nat := 8192

/-- What an unlisted address reads as. DESIGN CHOICE, unsafe (log entry 8): the spec gives the memory no contents before a
save. -/
def memoryBlank : Byte := 0xFF

/-- The byte at an address. -/
def memRead (mem : List Host.Cell) (a : Nat) : Byte :=
  match mem with
  | [] => memoryBlank
  | (k, b) :: rest => if k = a then b else memRead rest a

/-- An entry put at its place; the blank value is not listed. -/
def memCons (a : Nat) (b : Byte) (rest : List Host.Cell) : List Host.Cell := if b = memoryBlank then rest else (a, b) :: rest

/-- A byte written, keeping the canonical form. -/
def memWrite (mem : List Host.Cell) (a : Nat) (b : Byte) : List Host.Cell :=
  match mem with
  | [] => memCons a b []
  | (k, c) :: rest =>
    if a < k then memCons a b ((k, c) :: rest)
    else if a = k then memCons a b rest
    else (k, c) :: memWrite rest a b

/-- Bytes written from an address on. -/
def memWriteAll (mem : List Host.Cell) (a : Nat) : List Byte → List Host.Cell
  | [] => mem
  | b :: bs => memWriteAll (memWrite mem a b) (a + 1) bs

/-- Single bytes written at their addresses. -/
def memPatch (mem : List Host.Cell) (faults : List (Nat × Byte)) : List Host.Cell :=
  faults.foldl (fun m f => memWrite m f.1 f.2) mem

/-- The bytes of `n` addresses from `a` on. -/
def memBytes (mem : List Host.Cell) (a : Nat) : Nat → List Byte
  | 0 => []
  | n + 1 => memRead mem a :: memBytes mem (a + 1) n

/-- Every address of a list is greater than `a`. -/
def memAbove (a : Nat) (mem : List Host.Cell) : Bool := mem.all fun c => decide (a < c.1)

/-- The canonical form: addresses strictly rising, inside the memory, and no entry equal to the blank value. -/
def Memory.wf : List Host.Cell → Bool
  | [] => true
  | (k, b) :: rest => decide (k < memorySize) && !(b == memoryBlank) && memAbove k rest && Memory.wf rest

end Sys2Proof.Machine
end

