-- ==== Sys2Proof/Machine/Store.lean ====
section
/-! DEFINITION. The configuration store (chapter 11): the image and its checks, opening, closing, abandoning and saving, the
power-up load, and the warm restart with its settling. -/

namespace Sys2Proof.Machine

/-! ## The image (R200, R201) -/

/-- The marker of an image. -/
def imageMarker : Word16 := 0x4C56

/-- The items of a configuration as an image holds them. -/
def itemBytes (c : Configuration) : List Byte :=
  allItems.flatMap fun i => bytes2 (BitVec.ofNat 16 i.id) ++ bytes2 (BitVec.ofNat 16 (c.get i))

/-- The image of a configuration (R200). -/
def imageBytes (c : Configuration) : List Byte :=
  let body := bytes2 imageMarker ++ bytes2 (BitVec.ofNat 16 (4 * allItems.length)) ++ itemBytes c
  body ++ bytes2 (crc16 body)

/-- The items of an item area as identifier and value. -/
def itemPairs : Nat → List Byte → List (Nat × Nat)
  | 0, _ => []
  | n + 1, bs => (numOf (bs.take 2), numOf ((bs.drop 2).take 2)) :: itemPairs n (bs.drop 4)

/-- Items applied one by one to a configuration by the item rules of R203; none where one is refused. -/
def applyItems (c : Configuration) : List (Nat × Nat) → Option Configuration
  | [] => some c
  | (id, v) :: rest =>
    match c.apply id v with
    | none => none
    | some c' => applyItems c' rest

/-- No identifier appears twice. -/
def idsDistinct : List (Nat × Nat) → Bool
  | [] => true
  | x :: xs => xs.all (fun y => y.1 != x.1) && idsDistinct xs

/-- The configuration of an image that meets the first six conditions of R201. -/
def readImage (mem : List Host.Cell) : Option Configuration :=
  let lc := numOf (memBytes mem 2 2)
  if numOf (memBytes mem 0 2) == imageMarker.toNat && lc % 4 == 0 && decide (lc ≤ 8184) &&
      numOf (memBytes mem (4 + lc) 2) == (crc16 (memBytes mem 0 (4 + lc))).toNat then
    let items := itemPairs (lc / 4) (memBytes mem 4 lc)
    if idsDistinct items then applyItems Configuration.default items else none
  else none

/-- The configuration of a valid image: the six conditions and the close checks (R201). -/
def loadImage (mem : List Host.Cell) : Option Configuration :=
  match readImage mem with
  | none => none
  | some c => if (closeCheck c).isNone then some c else none

/-! ## Enabled masks (R192) -/

/-- The enabled masks at power-up: those of configured antennas equal their supported masks (R192). -/
def maskPowerUp (c : ConfigStore) : Vector Word16 24 :=
  allAnt.foldl (fun v (m : Ant) => v.set m (if c.antOk m then c.active.supported[m] else 0)) (Vector.replicate 24 0)

/-- The enabled mask of an antenna after a close (R192). -/
def maskAfter (before after : ConfigStore) (m : Ant) (now : Word16) : Word16 :=
  let old := before.active.supported[m]
  let new := after.active.supported[m]
  if !after.antOk m then 0
  else if before.antOk m then (now &&& new) ||| (new &&& ~~~old)
  else new

/-- Every enabled mask at a close (R192). -/
def State.maskReconfig (before : ConfigStore) (s : State) : State :=
  { s with enabled := allAnt.foldl (fun v (m : Ant) => v.set m (maskAfter before s.cfg m v[m])) s.enabled }

/-! ## Power-up -/

/-- The store after the load of R201. -/
def storePowerUp (image : List Host.Cell) : ConfigStore :=
  match loadImage image with
  | some c => { ConfigStore.powerUp with configured := true, active := c, memoryValid := true, image := image }
  | none => { ConfigStore.powerUp with image := image }

/-- Power-up (R201): every block takes its power-up values with the loaded configuration; REPORT-ALL is sent and the report
window opened (R22). -/
def State.powerUp (s : State) : State :=
  let c := storePowerUp s.cfg.image
  State.permitSync
    { State.reset with pending := s.pending, choices := s.choices, sent := s.sent ++ [.reportAll], cfg := c,
                       enabled := maskPowerUp c }

/-! ## Editing -/

/-- The store changed. -/
def State.modCfg (s : State) (f : ConfigStore → ConfigStore) : State := { s with cfg := f s.cfg }

/-- Something moves or radiates, which refuses OPEN_CONFIG (R202). -/
def State.hallBusy (s : State) : Bool :=
  allTx.any (fun n => (s.permit[n]).output != .off) || allSw.any (fun w => (s.sw w).state == .moving) ||
    allRot.any fun k => (s.slew[k]).state.slewing

/-- OPEN_CONFIG taken (R202). -/
def State.openConfig (s : State) (d : Desk) : State :=
  let w := if s.cfg.configured then s.cfg.active else Configuration.default
  ((s.modCfg fun c => { c with openDesk := some d, workspace := some w }).raise .config).notifyAll [.mxJudge, .slewAllowed]

/-- The items of a CONFIGURE taken one by one into a workspace, each with its status (R203). -/
def configureItems (c : Configuration) : List (Nat × Nat) → List Status × Configuration
  | [] => ([], c)
  | (id, v) :: rest =>
    match c.apply id v with
    | none =>
      let (xs, c') := configureItems c rest
      (.badArgument :: xs, c')
    | some c1 =>
      let (xs, c') := configureItems c1 rest
      (.done :: xs, c')

/-- The blocks brought into line with a newly applied configuration (R204). DESIGN CHOICE (log 65): the slew controller's reports reach
the run scheduler before the edit notice of a re-check, and behind them the ends of orders come before it. DEDUCED (log 65): the slots
of a transmitter that ceases to be configured are removed before any of these is taken. -/
def State.bringIntoLine (before : ConfigStore) (s : State) : State :=
  let s := if before.configured then s.mxReconfig before else s.mxFresh s.mx.supplyHold s.mx.supplyHeld
  let s := (s.routeReconfig before).absorbAll
  let s := (s.rotReconfig before).slewReconfig before
  let s := ((s.txReconfig before).marksReconfig).maskReconfig before
  let s := (s.seasonReconfig.runReconfig before).lockReconfig
  s.hallReconfig before

/-- What an open configuration held back is judged: held slew targets resume in the same act, and drive permission, due records
and choosing follow (R77, R204, R205). -/
def State.closeJudged (s : State) : State := ((s.raise .config).slewResumeAll).notifyAll [.mxJudge, .runJudge]

/-- The workspace applied as the active configuration (R204). -/
def State.applyConfig (s : State) (w : Configuration) : State :=
  let before := s.cfg
  let s := s.modCfg fun c =>
    { c with active := w, openDesk := none, workspace := none, configured := true, lastClose := some .done }
  (s.bringIntoLine before).closeJudged

/-- The open configuration discarded (R205). -/
def State.abandonConfig (s : State) : State :=
  (s.modCfg fun c => { c with openDesk := none, workspace := none }).closeJudged

/-! ## Saving -/

/-- SAVE_CONFIG taken: the marker's place is zeroed and the image is held for writing (R200, R206). -/
def State.startSave (s : State) : State :=
  s.modCfg fun c => { c with saving := some (imageBytes c.active), image := memWriteAll c.image 0 [0, 0] }

/-- The end of a save: what the memory then holds is read back and judged (R206). -/
def State.endSave (s : State) (bytes : List Byte) (answered : Bool) (faults : List (Nat × Byte)) : State :=
  let written := if answered then memWriteAll s.cfg.image 0 bytes else s.cfg.image
  let image := memPatch written faults
  let ok := answered && (readImage image).isSome
  (s.modCfg fun c => { c with saving := none, image := image, lastSave := some ok, memoryValid := ok }).raise .config

/-! ## Warm restart and settling -/

/-- A reply stands behind an attention frame whose sending began before. -/
def Link.replyBehind (l : Link) : Bool :=
  match l.queue with
  | .attnSending _ _ :: .reply _ _ _ _ :: _ => true
  | _ => false

/-- The frames of a link that a warm restart sends to their end: the one whose sending has begun (R198). It stands at the head, and an
attention frame there that still waits has not begun; `left` says that an attention frame there has been sent already, so that the
reply behind it has begun. -/
def Link.begun (l : Link) (left : Bool) : List Frame :=
  match l.queue with
  | [] => []
  | .attnWaiting :: _ => []
  | .attnSending t c :: .reply g st p b :: _ => if left then [.reply g st p b] else [.attnSending t c]
  | f :: _ => [f]

/-- A link at a warm restart, with the frames that it sends to their end (R198). -/
def Link.restart (l : Link) (begun : List Frame) : Link :=
  { l with rx := [], byteGap := .idle, inProgress := none, queue := begun, attn := 0, due := false }

/-- One link at a warm restart (R198). On the link that asked, the restart is one act with the last byte of the answer to RESTART, so
no frame behind that answer has begun. Whether an attention frame sent before a reply has left the line is a free choice (log 21). -/
def State.linkRestartOne (s : State) (asked : Option Desk) (d : Desk) : State :=
  if asked == some d then s.modLink d fun l => l.restart []
  else
    let (i, s) := s.choose (if (s.link d).replyBehind then 2 else 1)
    s.modLink d fun l => l.restart (l.begun (i == 1))

/-- Every link at a warm restart (R198); `asked` is the desk whose RESTART it answers. -/
def State.linkRestart (s : State) (asked : Option Desk) : State := forAll allDesk (fun d s => s.linkRestartOne asked d) s

/-- The open configuration abandoned by a warm restart, its attention raised into the emptied sets; the run scheduler keeps the
end of the open configuration (R155, R205, R208). -/
def State.restartAbandons (s : State) : State :=
  if s.isOpen then
    let s := (s.modCfg fun c => { c with openDesk := none, workspace := none }).raise .config
    { s with run := { s.run with kept := s.run.kept ++ [.runJudge] } }
  else s

/-- The settling record formed at a warm restart (R208). -/
def State.settlingRecord (s : State) : Settling :=
  { timer := s.startTimer 1000, waitTx := allTx.filter s.cfg.txOk, waitRot := allRot.filter s.cfg.rotOk,
    waitSw := allSw.filter s.cfg.swOk,
    held := #v[(s.permit[0]).output, (s.permit[1]).output, (s.permit[2]).output, (s.permit[3]).output, (s.permit[4]).output,
      (s.permit[5]).output, (s.permit[6]).output, (s.permit[7]).output] }

/-- The end of settling, given to every block; the run scheduler then takes what it kept, and behind it what the act that ends
settling gave it, in the order of their arrival (R155, R208). -/
def State.settleEnd (s : State) : State :=
  let s := s.modCfg fun c => { c with settling := none }
  let ends := [Notice.mxJudge, .routeSettled, .slewSettled, .txSettled, .lockSettled]
  let late := s.notices.filter fun x => x.block == .run
  { s with run := { s.run with kept := [] },
           notices := s.notices.filter (fun x => x.block != .run) ++ ends ++ s.run.kept ++ late ++ [.runSettled] }

/-- Settling ends when no wait is left (R208). -/
def State.settleCheck (s : State) : State :=
  match s.cfg.settling with
  | some x => if x.waitTx.isEmpty && x.waitRot.isEmpty && x.waitSw.isEmpty then s.settleEnd else s
  | none => s

/-- A change of the settling waits. -/
def State.modSettling (s : State) (f : Settling → Settling) : State :=
  (s.modCfg fun c => { c with settling := c.settling.map f }).settleCheck

/-- A transmitter's first accepted report after the restart (R111). -/
def State.meetTx (s : State) (n : Tx) : State := s.modSettling fun x => { x with waitTx := without x.waitTx n }

/-- A rotator's first accepted frame after the restart (R70). -/
def State.meetRot (s : State) (k : Rot) : State := s.modSettling fun x => { x with waitRot := without x.waitRot k }

/-- A switch's first report after the restart (R208). -/
def State.meetSw (s : State) (w : Sw) : State := s.modSettling fun x => { x with waitSw := without x.waitSw w }

/-- The hall state at a warm restart: SAFE where the access input is OPEN, else kept (R178). -/
def State.hallRestart (s : State) : State :=
  if s.hall.access.accepted == some .opened then s.modHall fun h => { h with state := .safe } else s

/-- A warm restart; ignored while settling (R208). `asked` is the desk whose RESTART it answers, if one did. -/
def State.restart (s : State) (asked : Option Desk) : State :=
  if s.isSettling then s
  else
    let x := s.settlingRecord
    let s := (s.linkRestart asked).restartAbandons
    let s := (((s.mxRestart.routeRestart).rotRestart).slewRestart).txRestart.hallRestart
    (s.modCfg fun c => { c with settling := some x }).settleCheck

end Sys2Proof.Machine
end

