-- ==== Sys2Proof/Machine/Cascade.lean ====
section
/-! DEFINITION. How one act runs to its end: what follows at once from a changed hall, the changes the other blocks see, and
the notices that the blocks then take, in a freely chosen order between blocks and in the order given to each block. -/

namespace Sys2Proof.Machine

/-! ## The next notice -/

/-- The blocks with a notice waiting, in the order of their oldest. -/
def waitingBlocks (ns : List Notice) : List Block :=
  ns.foldl (fun acc n => if acc.contains n.block then acc else acc ++ [n.block]) []

/-- The next notice taken: a freely chosen block among those with one waiting, and its oldest. -/
def State.takeNotice (s : State) : Option (Notice × State) :=
  match s.notices with
  | [] => none
  | n0 :: _ =>
    let blocks := waitingBlocks s.notices
    let (i, s1) := s.choose blocks.length
    let b := blocks.getD i n0.block
    let n := (s.notices.find? fun n => n.block == b).getD n0
    some (n, { s1 with notices := s1.notices.eraseP fun n => n.block == b })

/-! ## Taking a notice -/

/-- The run scheduler takes what it is given, or keeps it while settling (R155). -/
def State.toRun (s : State) (x : Notice) (act : State → State) : State :=
  if s.isSettling then { s with run := { s.run with kept := s.run.kept ++ [x] } } else act s

/-- The season store judges its changeover record at a site minute, and the run scheduler takes the notice of a changeover taken as
one with it (R127, R128, R151). -/
def State.seasonMinute (s : State) (minute : Nat) : State :=
  match s.season.notice minute with
  | some t => (s.judgeChangeover minute).toRun (.runChangeover t minute) fun s => s.runChangeover t minute
  | none => s.judgeChangeover minute

/-- A boundary or step event of the clock, given to the season store and the run scheduler, which take it in either order (R158, R162);
the order matters where it brings a changeover, whose notice then comes before or after the event (R128, R151). DEDUCED (log 50):
while settling the run scheduler keeps the notice before the event. -/
def State.clockGives (s : State) (minute : Nat) (x : Notice) (act : State → State) : State :=
  let (i, s) := s.choose (if (s.season.notice minute).isSome && !s.isSettling then 2 else 1)
  if i == 0 then (s.seasonMinute minute).toRun x act else State.seasonMinute (s.toRun x act) minute

/-- A WAITING earthing newly placed is asked for (R169); while settling the table stands as it is (R166). -/
def State.lockAsk (s : State) (m : Ant) : State := if s.isSettling then s else s.askEarth m

/-- The end of a route task as the lockout table takes it; while settling it is taken, and nothing is asked again (R166, R170). -/
def State.lockTaskNow (s : State) (e : TaskEnd) : State :=
  if s.isSettling then
    match e.origin.lockAnt with
    | some m => s.earthEnd m e
    | none => s
  else s.lockTask e

/-- A notice taken by its block. -/
def State.takeOne (s : State) : Notice → State
  | .mxJudge => s.mxJudge.absorbAll
  | .routeRf n => s.routeRf n
  | .routeSafe => s.routeHallSafe
  | .routeLeft w => s.routeLeft w
  | .routeSettled => s.routeSettled
  | .slewPower => s.slewPower
  | .slewAllowed => s.slewJudge
  | .slewInvalid k => s.slewInvalid k
  | .slewSettled => s.slewSettled
  | .txRf n => s.txRf n
  | .txSettled => s.txSettled
  | .lockRf n => s.lockRf n
  | .lockSw m a b => s.lockSw m a b
  | .lockTask e => s.lockTaskNow e
  | .lockAsk m => s.lockAsk m
  | .lockSettled => s.lockSettled
  | .hallRf n => s.hallRf n
  | .boundary minute => s.clockGives minute (.runBoundary minute) fun s => s.runBoundary minute
  | .step e => s.clockGives e.after (.runStep e) fun s => s.runStep e
  | .runBoundary minute => s.runBoundary minute
  | .runStep e => s.runStep e
  | .runEdit t c => s.runEdit t c
  | .runChangeover t minute => s.runChangeover t minute
  | .runTask e => s.runTask e
  | .runSlew run k r => s.runSlew run k r
  | .runOrder run kind f => s.runOrder run kind f
  | .runFinalTrip n m => s.runFinalTrip n m
  | .runLockout t => s.runLockout t
  | .runTx _ => s.runAgain
  | .runHall => s.runAgain
  | .runSelFault m => s.runSelFault m
  | .runSlot n now => s.runSlot n now
  | .runJudge => s.runJudge
  | .runHeld n => s.heldOne n
  | .runSettled => s.runSettled

/-- While settling the run scheduler keeps what it is given, in order (R155); every other block takes it. -/
def State.takeOrKeep (s : State) (n : Notice) : State :=
  if n.block == .run then s.toRun n fun s => s.takeOne n else s.takeOne n

/-! ## What the blocks see of each other's records -/

/-- A switch has left MOVING. -/
def State.switchLeft (a b : State) (w : Sw) : Bool := (a.sw w).state == .moving && (b.sw w).state != .moving

/-- A switch has entered FAULT. -/
def State.switchFaulted (a b : State) (w : Sw) : Bool := (a.sw w).state != .fault && (b.sw w).state == .fault

/-- The inputs of the power condition that the RF sense readers do not give (R79): confirmed positions of selectors, states and
reported levels of transmitters. -/
def State.powerInputs (a b : State) : Bool :=
  (allAnt.any fun m => (a.sw (.sel m)).confirmed != (b.sw (.sel m)).confirmed) ||
    allTx.any fun n => (a.tx[n]).state != (b.tx[n]).state || (a.tx[n]).rfLevel != (b.tx[n]).rfLevel

/-- What one selector's changes bring: the lockout table judges it (R169, R170). -/
def State.selectorNotices (a b : State) (m : Ant) : List Notice :=
  let left := State.switchLeft a b (.sel m)
  let fault := State.switchFaulted a b (.sel m)
  if (a.sw (.sel m)).confirmed != (b.sw (.sel m)).confirmed || left || fault then [.lockSw m left fault] else []

/-- The notices that the changes from one state to the next bring (R33, R79, R139, R147, R169, R170). DESIGN CHOICE (log 66): for several
transmitters, selectors or switches in the order of their numbers, and for one block in the order written here. -/
def State.changes (a b : State) : List Notice :=
  (allTx.filterMap fun n => if (a.tx[n]).state != (b.tx[n]).state then some (Notice.runTx n) else none) ++
    (if State.powerInputs a b then [.slewPower] else []) ++ allAnt.flatMap (State.selectorNotices a b) ++
    (allSw.filterMap fun w => if State.switchLeft a b w then some (Notice.routeLeft w) else none) ++
    allTx.filterMap fun n =>
      if (b.heldDue n).isSome && b.heldDue n != a.heldDue n then some (Notice.runHeld n) else none

/-- A changed state brought into line, with the notices that its changes from `before` bring. -/
def State.observe (before s : State) : State :=
  let s := s.sync
  s.notifyAll (State.changes before s)

/-- Notices are taken until none waits. `fuel` bounds their number. -/
def State.drain : Nat → State → State
  | 0, s => s
  | fuel + 1, s =>
    match s.takeNotice with
    | none => s
    | some (n, s1) => State.drain fuel (State.observe s1 (s1.takeOrKeep n))

/-- The bound on the notices of one act (log entry 11). -/
def noticeFuel : Nat := 4096

/-- An act that brought the hall from `before` to `s` runs to its end in every block. -/
def State.cascade (before s : State) : State := State.drain noticeFuel (State.observe before s)

end Sys2Proof.Machine
end

