-- ==== Sys2Proof/Machine/Flags.lean ====
section
/-! DEFINITION. The codes of names and sets in replies (R188): every name by its place in the list of values of its owning
rule, every set with the name of place p in bit p. -/

namespace Sys2Proof.Machine

/-- The code of a reply status (R188). SWITCH_FAULT is never sent to a desk. -/
def Status.code : Status → Nat
  | .done => 0
  | .doneClamped => 1
  | .accepted => 2
  | .busy => 3
  | .unknownCommand => 4
  | .badArgument => 5
  | .lockedOut => 6
  | .heldByOther => 7
  | .notInHand => 8
  | .inUse => 9
  | .antennaConflict => 10
  | .overlap => 11
  | .bandMismatch => 12
  | .keepOut => 13
  | .tableFull => 14
  | .positionInvalid => 15
  | .hallSafe => 16
  | .notConfigured => 17
  | .configOpen => 18
  | .notPermitted => 19
  | .switchFault => 255

/-- A name that may be absent: all bits set where it is (R188). -/
def name1 {α : Type} (code : α → Nat) : Option α → List Byte
  | some x => num1 (code x)
  | none => [0xFF]

/-- The first of two named values by place 0, the second by place 1: "Set, clear", "Present or absent", "Running or idle". -/
def flag1 (b : Bool) : List Byte := [if b then 0 else 1]

/-- A number 1 and up in 1 byte, 0 where absent. -/
def opt1 : Option Nat → List Byte
  | some n => num1 n
  | none => [0]

/-- A number 1 and up in 2 bytes, 0 where absent. -/
def opt2 : Option Nat → List Byte
  | some n => num2 n
  | none => [0, 0]

/-- A number in 2 bytes, all bits set where absent. -/
def ones2 : Option Nat → List Byte
  | some n => num2 n
  | none => [0xFF, 0xFF]

/-- A capped age in 2 bytes, all bits set where absent. -/
def onesAge : Option Nat → List Byte
  | some n => age2 n
  | none => [0xFF, 0xFF]

/-- A site minute in 4 bytes, all bits set where absent. -/
def ones4 : Option Nat → List Byte
  | some n => num4 n
  | none => [0xFF, 0xFF, 0xFF, 0xFF]

/-- A list: a 1-byte count, then the members (R188). -/
def listOf {α : Type} (f : α → List Byte) (xs : List α) : List Byte := num1 xs.length ++ xs.flatMap f

/-- A set in 2 bytes from its members in the order of their places. -/
def set2 (bs : List Bool) : List Byte :=
  num2 ((bs.zipIdx.map fun p => if p.1 then 2 ^ p.2 else 0).sum)

/-! ## Places of names -/

/-- The places of the values of level, from 0 (R188). -/
def levelCode : Level → Nat
  | .off => 0
  | .low => 1
  | .full => 2

/-- The places of the values of SwState, from 0 (R188). -/
def SwState.code : SwState → Nat
  | .steady => 0
  | .pending => 1
  | .moving => 2
  | .stopped => 3
  | .fault => 4

/-- The places of the values of MoveClass, from 0 (R188). -/
def MoveClass.code : MoveClass → Nat
  | .safety => 0
  | .schedule => 1
  | .manual => 2

/-- The places of the values of SwFault, from 0 (R188). -/
def SwFault.code : SwFault → Nat
  | .travelTimeout => 0
  | .uncommanded => 1
  | .wrongPosition => 2
  | .conflict => 3

/-- The places of the values of TaskState, from 0 (R188). -/
def TaskState.code : TaskState → Nat
  | .dropRf => 0
  | .tripWait => 1
  | .moving => 2
  | .done => 3
  | .failed => 4

/-- The places of the values of Mark, from 0 (R188). -/
def Mark.code : Mark → Nat
  | .waiting => 0
  | .admitted => 1
  | .granted => 2
  | .inPlace => 3
  | .faulted => 4

/-- The places of the values of TaskFail, from 0 (R188). -/
def TaskFail.code : TaskFail → Nat
  | .rfStuck => 0
  | .switchFault => 1
  | .lockedOut => 2
  | .hall => 3
  | .cancelled => 4

/-- The places of the values of Validity, from 0 (R188). -/
def Validity.code : Validity → Nat
  | .valid => 0
  | .suspect => 1
  | .invalid => 2

/-- The places of the values of BadReason, from 0 (R188). -/
def BadReason.code : BadReason → Nat
  | .residual => 0
  | .sensorNotOk => 1
  | .timeout => 2

/-- The places of the values of SlewState, from 0 (R188). -/
def SlewState.code : SlewState → Nat
  | .idle => 0
  | .awaitPower => 1
  | .drive => 2
  | .reverseDwell => 3
  | .settle => 4
  | .inPosition => 5
  | .fault => 6

/-- The places of the values of Dir, from 0 (R188). -/
def Dir.code : Dir → Nat
  | .cw => 0
  | .ccw => 1

/-- The places of the values of Speed, from 0 (R188). -/
def Speed.code : Speed → Nat
  | .fast => 0
  | .creep => 1

/-- The places of the values of SlewFault, from 0 (R188). -/
def SlewFault.code : SlewFault → Nat
  | .stall => 0
  | .wrongDirection => 1
  | .slewTimeout => 2
  | .positionInvalid => 3
  | .powerNotReduced => 4

/-- The places of the values of TxState, from 0 (R188). -/
def TxState.code : TxState → Nat
  | .offline => 0
  | .standby => 1
  | .tuning => 2
  | .ready => 3
  | .radiating => 4
  | .recycle => 5
  | .tripped => 6

/-- The places of the values of txCond, from 0 (R188). -/
def txCondCode : TxCond → Nat
  | .standby => 0
  | .tuning => 1
  | .ready => 2
  | .tripped => 3

/-- The places of the values of tripCause, from 0 (R188). -/
def tripCauseCode : TripCause → Nat
  | .reflected => 0
  | .overload => 1
  | .other => 2
  | .hotSwitch => 3

/-- The places of the values of OrderKind, from 0 (R188). -/
def OrderKind.code : OrderKind → Nat
  | .tune => 0
  | .feed => 1

/-- The places of the values of OrderFail, from 0 (R188). DESIGN CHOICE (log 9): FEED_TIMEOUT, which R98 names outside every table,
stands behind the reasons of R97's table. -/
def OrderFail.code : OrderFail → Nat
  | .tuneTimeout => 0
  | .tripped => 1
  | .offline => 2
  | .lockedOut => 3
  | .hand => 4
  | .cancelled => 5
  | .notConfigured => 6
  | .feedTimeout => 7

/-- The places of the values of RunState, from 0 (R188). -/
def RunState.code : RunState → Nat
  | .waiting => 0
  | .preparing => 1
  | .ready => 2
  | .onAir => 3
  | .ended => 4
  | .missed => 5
  | .failed => 6
  | .aborted => 7

/-- The places of the values of Item, from 0 (R188). -/
def Item.code : Item → Nat
  | .notNeeded => 0
  | .waiting => 1
  | .inProgress => 2
  | .done => 3
  | .failed => 4

/-- The places of the values of RunReason, from 0 (R188). -/
def RunReason.code : RunReason → Nat
  | .routeFault => 0
  | .slewFault => 1
  | .tuneTimeout => 2
  | .txTripped => 3
  | .txOffline => 4
  | .lockedOut => 5
  | .hand => 6
  | .noAntenna => 7
  | .tooLate => 8
  | .graceExpired => 9
  | .carryOverlap => 10
  | .hall => 11
  | .dropped => 12
  | .notConfigured => 13

/-- The places of the values of ClockState, from 0 (R188). -/
def ClockState.code : ClockState → Nat
  | .unset => 0
  | .running => 1
  | .holdover => 2

/-- The places of the values of StepKind, from 0 (R188). -/
def StepKind.code : StepKind → Nat
  | .firstSet => 0
  | .smallForward => 1
  | .largeForward => 2
  | .backward => 3

/-- The places of the values of EarthState, from 0 (R188). -/
def EarthState.code : EarthState → Nat
  | .waiting => 0
  | .running => 1
  | .done => 2
  | .failed => 3

/-- The places of the values of EarthFail, from 0 (R188). -/
def EarthFail.code : EarthFail → Nat
  | .rfStuck => 0
  | .switchFault => 1

/-- The places of the values of HallState, from 0 (R188). -/
def HallState.code : HallState → Nat
  | .safe => 0
  | .restoredWait => 1
  | .normal => 2

/-- The places of the values of accessLevel, from 0 (R188). -/
def accessLevelCode : AccessLevel → Nat
  | .closed => 0
  | .opened => 1

/-- The places of the values of supplyLevel, from 0 (R188). -/
def supplyLevelCode : SupplyLevel → Nat
  | .good => 0
  | .low => 1

/-- The places of the values of rfLevel, from 0 (R188). -/
def rfLevelCode : RfLevel → Nat
  | .present => 0
  | .absent => 1

/-- The places of the values of TableId, from 0 (R188). -/
def TableId.code : TableId → Nat
  | .a => 1
  | .b => 2

/-- A switch by its place in the list of identities (R1). -/
def swCode : Sw → Nat
  | .sel m => m.val
  | .out n => 24 + n.val

/-- A switch position: 0 EARTH or ANTENNA, n BUS n, 9 DUMMY (R188). -/
def posCode : Pos → Nat
  | .earth => 0
  | .antenna => 0
  | .bus n => n.val + 1
  | .dummy => 9

/-- A confirmed position: 10 BETWEEN, 11 UNKNOWN (R188). -/
def Confirmed.code : Confirmed → Nat
  | .stands p => posCode p
  | .between => 10
  | .unknown => 11

end Sys2Proof.Machine
end

