-- ==== Sys2Proof/Machine/Replies.lean ====
section
/-! DEFINITION. The payloads of replies (R188): what the queries return, in the order their owning rules list it. Choices of
layout that R188 leaves open are those of log entry 9. -/

namespace Sys2Proof.Machine

/-- Absent origins, names and numbers of mixed fields. -/
def noOrigin : List Byte := [0xFF, 0, 0, 0]

/-- An origin: kind, desk, run number or antenna (log entry 9). -/
def routeOriginBytes : RouteOrigin → List Byte
  | .desk d => num1 0 ++ num1 d.number ++ num2 0
  | .schedule r => num1 1 ++ num1 0 ++ num2 r
  | .lockout m => num1 2 ++ num1 0 ++ num2 (m.val + 1)

/-- An origin of a slew or an order: kind, desk, run number (log entry 9). -/
def originBytes : Origin → List Byte
  | .desk d => num1 0 ++ num1 d.number ++ num2 0
  | .schedule r => num1 1 ++ num1 0 ++ num2 r

/-- A desk that may be absent (R190). -/
def deskByte (d : Option Desk) : List Byte := opt1 (d.map Desk.number)

/-- The whole seconds since a moment of the internal timebase. DESIGN CHOICE (log 47): a fraction of a second is dropped. -/
def secondsSince (now t : Nat) : Nat := (now - t) / 1000

/-- The whole seconds left before a timer's expiry; absent where it does not run. DESIGN CHOICE (log 47): a fraction of a second is
dropped, and a timer stopped through settling shows none. -/
def Timer.secondsLeft (now : Nat) : Timer → Option Nat
  | .running due => some ((due - now) / 1000)
  | _ => none

/-! ## Switches, routes -/

/-- A switch record (R1): the arrival as the place in the queue, the grant time as the travel time in tenths of a second. DESIGN
CHOICE: the fraction of a tenth is dropped (log 47), and the place is sent in 2 bytes (log 54). -/
def State.swBytes (s : State) (w : Sw) : List Byte :=
  let r := s.sw w
  let kind := match w with | .sel _ => 0 | .out _ => 1
  num1 (swCode w) ++ num1 kind ++ num1 (posCode r.commanded) ++ num1 r.confirmed.code ++ num1 r.state.code ++
    name1 MoveClass.code r.cls ++ opt2 (s.mx.place w) ++ ones2 (r.grantTime.map fun t => (s.timebase - t) / 100) ++
    name1 SwFault.code r.fault

/-- A route map entry (R40): its kind by place, the antenna, and the selectors of a CONFLICT. -/
def routeMapBytes : RouteMap → List Byte
  | .dummy => num1 0 ++ [0] ++ listOf (fun m : Ant => num1 (m.val + 1)) []
  | .nothing => num1 1 ++ [0] ++ listOf (fun m : Ant => num1 (m.val + 1)) []
  | .antenna m => num1 2 ++ num1 (m.val + 1) ++ listOf (fun m : Ant => num1 (m.val + 1)) []
  | .conflict ms => num1 3 ++ [0] ++ listOf (fun m : Ant => num1 (m.val + 1)) ms
  | .unknown => num1 4 ++ [0] ++ listOf (fun m : Ant => num1 (m.val + 1)) []

/-- A destination (R190). -/
def destBytes : Dest → List Byte
  | .antenna m => num1 0 ++ num1 (m.val + 1)
  | .dummy => num1 1 ++ [0]
  | .nothing => num1 2 ++ [0]

/-- A route task record (R26); an empty one with its state absent. -/
def State.taskBytes (s : State) (n : Tx) : List Byte :=
  let mark := fun x : SwMark => num1 (swCode x.sw) ++ num1 x.mark.code
  num1 (n.val + 1) ++
    match s.tasks[n] with
    | none => [0xFF, 0xFF] ++ noOrigin ++ [0xFF] ++ listOf mark [] ++ flag1 false ++ [0xFF]
    | some t => destBytes t.dest ++ routeOriginBytes t.origin ++ num1 t.state.code ++ listOf mark t.set ++
        flag1 t.timer.isRunning ++ name1 TaskFail.code t.failure

/-- READ_ROUTES (R40). -/
def State.routesBytes (s : State) : List Byte :=
  let ns := allTx.filter s.cfg.txOk
  listOf (fun n => routeMapBytes (s.mx.routeMap n)) ns ++ listOf s.swBytes allSw ++ listOf s.taskBytes ns

/-! ## Transmitters -/

/-- The standing order of a record: kind, frequency, feed, origin, phase, seconds left (R92). DESIGN CHOICE (log 9): the phase WAITING_RF is
0 and SENT is 1. -/
def orderBytes (now : Nat) : Option Order → List Byte
  | none => [0xFF, 0, 0, 0] ++ noOrigin ++ [0xFF] ++ ones2 none
  | some (.tune f d o sent t) => num1 0 ++ num2 f ++ num1 d ++ originBytes o ++ num1 (if sent then 1 else 0) ++
      ones2 (t.secondsLeft now)
  | some (.feed d o t) => num1 1 ++ [0, 0] ++ num1 d ++ originBytes o ++ [0xFF] ++ ones2 (t.secondsLeft now)

/-- The last order end: kind, origin, completed or failed, reason (R92, R99). -/
def orderEndBytes : Option OrderEnd → List Byte
  | none => [0xFF] ++ noOrigin ++ [0xFF, 0xFF]
  | some e => num1 e.kind.code ++ originBytes e.origin ++ num1 (if e.failure.isNone then 0 else 1) ++
      name1 OrderFail.code e.failure

/-- A transmitter record (R92). DESIGN CHOICE (log 47): a timer stopped through settling is shown as one that does not run: the order's
seconds left absent, the recycle timer idle, though its force stands. -/
def State.txBytes (s : State) (n : Tx) : List Byte :=
  let r := s.tx[n]
  num1 (n.val + 1) ++ num1 r.state.code ++ num1 (if r.reporting then 0 else 1) ++ name1 txCondCode r.lastCond ++
    opt2 r.tuned ++ opt1 r.feed ++ name1 levelCode r.rfLevel ++ deskByte r.holder ++
    listOf (fun t => num2 (secondsSince s.timebase t)) r.history ++ name1 tripCauseCode r.lastCause ++ flag1 r.warning ++
    orderBytes s.timebase r.order ++ orderEndBytes r.lastEnd ++ flag1 r.recycleTimer.isRunning ++ flag1 r.clearPending ++
    flag1 r.rfWatch.isRunning

/-- The requester: its kind by place, and the desk of HAND (R44). -/
def requesterBytes : Requester → List Byte
  | .hand d => num1 0 ++ num1 d.number
  | .schedule => num1 1 ++ [0]
  | .nobody => num1 2 ++ [0]

/-- The blocking reasons in the order of R47 and R48, with NOT_CONFIGURED last (R44). -/
def Reasons.bits (r : Reasons) : List Bool :=
  [r.hall, r.configOpen, r.txLockout, r.txState, r.forced, r.pathUnsettled, r.outputSwitch, r.busCount, r.antLockout, r.band,
    r.rotatorInvalid, r.keepOut, r.slewCapOff, r.notConfigured]

/-- A permit record (R44). -/
def permitBytes (p : PermitRec) : List Byte :=
  requesterBytes p.requester ++ num1 (levelCode p.requested) ++
    set2 [p.forces.route, p.forces.tune, p.forces.recycle, p.forces.trip] ++ num1 (levelCode p.allowed) ++ set2 p.reasons.bits ++
    set2 [p.caps.slewLow, p.caps.faultMark] ++ num1 (levelCode p.output) ++
    set2 [p.holds.routeTrip, p.holds.guard, p.holds.hall]

/-! ## Hall, lockouts, antennas -/

/-- Whether the closed timer is running, run out or idle (R182). -/
def Hall.closedCode (h : Hall) : Nat := if h.closed.isRunning then 0 else if h.closedRunOut then 1 else 2

/-- The seconds that the closed timer has run: no more than its 60 s, all of them where it has run out, and none shown where it is idle
(R178, R182). -/
def Hall.closedSeconds (h : Hall) (now : Nat) : Option Nat :=
  if h.closed.isRunning then h.closedStart.map fun t => min 60 (secondsSince now t)
  else if h.closedRunOut then some 60
  else none

/-- READ_HALL (R182). -/
def State.hallBytes (s : State) : List Byte :=
  num1 s.hall.state.code ++ name1 accessLevelCode s.hall.access.accepted ++ num1 s.hall.closedCode ++
    ones2 (s.hall.closedSeconds s.timebase) ++ name1 supplyLevelCode s.hall.supply.accepted ++
    bool1 s.mx.supplyHeld ++ bool1 s.drivesPermitted ++ bool1 s.drivesAllowed ++
    listOf (fun n : Tx => name1 rfLevelCode (s.hall.rf[n]).accepted ++ bool1 ((s.permit[n]).holds).hall) allTx ++
    num2 s.cfg.active.accessInterval ++ num2 s.cfg.active.supplyInterval ++ num2 s.cfg.active.rfInterval ++
    bool1 s.isOpen ++ deskByte s.cfg.openDesk ++ bool1 (!s.cfg.configured)

/-- A lockout target (R190). -/
def targetBytes : Target → List Byte
  | .tx n => num1 1 ++ num1 (n.val + 1)
  | .ant m => num1 2 ++ num1 (m.val + 1)

/-- The present site second; 0 in UNSET. -/
def State.siteSecondNow (s : State) : Nat := (s.clock.now.map Civil.siteSecond).getD 0

/-- The age of a lockout in seconds, up to 65535; one placed later than the present site second is a free value (log entry
4). -/
def lockAge (now placed : Nat) : Nat := if placed ≤ now then now - placed else Config.futureAge now placed

/-- A lockout record with its placed-at time and age (R166, R172). -/
def State.lockBytes (s : State) (r : LockRec) : List Byte :=
  targetBytes r.target ++ num1 r.desk.number ++ num1 r.reason ++ num1 (if r.effective then 1 else 0) ++
    match r.placed with
    | none => ones4 none ++ [0xFF, 0xFF, 0xFF]
    | some (m, c) => num4 m ++ num1 c ++ age2 (lockAge s.siteSecondNow (m * 60 + c))

/-- An earthing record (R166). -/
def earthBytes (m : Ant) (e : EarthRec) : List Byte :=
  num1 (m.val + 1) ++ num1 e.state.code ++ name1 EarthFail.code e.failure

/-- The antennas with an earthing record. DESIGN CHOICE (log 55): READ_LOCKOUTS lists them by rising antenna number. -/
def State.earthAnts (s : State) : List (Ant × EarthRec) := allAnt.filterMap fun m => (s.locks.earth[m]).map fun e => (m, e)

/-- READ_LOCKOUTS (R172). DESIGN CHOICE (log 55): the count of records is the count byte of their list. -/
def State.lockoutsBytes (s : State) : List Byte :=
  listOf s.lockBytes s.locks.records ++ listOf (fun x : Ant × EarthRec => earthBytes x.1 x.2) s.earthAnts

/-- The transmitter that feeds an antenna by the route map (R193). -/
def State.feeder (s : State) (m : Ant) : Option Tx := allTx.find? fun n => s.cfg.txOk n && s.mx.feeds n == some m

/-- The use of an antenna by a run record: transmitter, slot, run number, state (R193). DESIGN CHOICE (log 9): the slot is 0 for CURRENT
and 1 for NEXT, the order in which R133 names the two. -/
def State.useBytes (s : State) (m : Ant) : List Byte :=
  match s.run.usersOf m with
  | [] => [0, 0xFF, 0, 0, 0xFF]
  | r :: _ =>
    let cur : Bool := match s.run.cur[r.tx] with | some x => x.num == r.num | none => false
    num1 (r.tx.val + 1) ++ num1 (bif cur then 0 else 1) ++ num2 r.num ++ num1 r.state.code

/-- READ_ANTENNA (R193). -/
def State.antennaBytes (s : State) (m : Ant) : List Byte :=
  let r := s.mx.sel[m]
  bytes2 s.cfg.active.supported[m] ++ bytes2 s.enabled[m] ++ flag1 s.faultMark[m] ++ num1 s.cfg.active.rotatorOf[m] ++
    num1 (posCode r.commanded) ++ num1 r.confirmed.code ++ num1 r.state.code ++
    opt1 ((s.feeder m).map fun n => n.val + 1) ++
    listOf s.lockBytes (s.locks.records.filter fun x => x.target == .ant m) ++
    (match s.locks.earth[m] with | some e => earthBytes m e | none => [0, 0xFF, 0xFF]) ++ s.useBytes m

/-! ## Rotators -/

/-- A rotator position record (R52), the good-frame time as its age in milliseconds (R64). DESIGN CHOICE (log 54): the bad count is
sent in 2 bytes, and the last residual as `int2` has it. -/
def State.rotBytes (s : State) (k : Rot) : List Byte :=
  let r := s.rot[k]
  num1 (k.val + 1) ++ opt1 ((s.cfg.rotAnt k).map fun m => m.val + 1) ++ num1 r.validity.code ++ ones2 r.azimuth ++
    ones2 r.sensor ++ ones2 r.fine ++ ones2 r.period ++ (match r.residual with | some e => int2 e | none => [0xFF, 0xFF]) ++
    num2 r.badCount ++ name1 BadReason.code r.lastBad ++ ones2 r.rawF ++ ones2 r.rawV ++
    onesAge (r.goodTime.map fun t => s.timebase - t) ++ flag1 r.frameTimer.isRunning

/-- A slew record as READ_ROTATOR presents it (R85). DESIGN CHOICE: the hold band in use stands last, behind the parameters of R72, the
fraction of a tenth of a second is dropped (log 47), and the settle count is sent in 2 bytes (log 54). -/
def State.slewBytes (s : State) (k : Rot) : List Byte :=
  let r := s.slew[k]
  let p := s.params k
  num1 r.state.code ++ ones2 r.target ++ name1 Dir.code r.dir ++ name1 Speed.code r.speed ++ name1 levelCode r.cap ++
    (match r.origin with | some o => originBytes o | none => noOrigin) ++
    onesAge (r.startTime.map fun t => (s.timebase - t) / 100) ++ num2 r.settleCount ++ name1 SlewFault.code r.fault ++
    num2 p.stop ++ listOf (fun x : Sector => num2 x.fromB ++ num2 x.toB) (p.sectors.toList.filter Sector.used) ++
    num2 p.creep ++ num2 p.stopTol ++ num2 p.hold ++ num2 p.maxSlew ++ num2 p.holdBand

/-- READ_ROTATOR (R64). -/
def State.rotatorBytes (s : State) (k : Rot) : List Byte :=
  let p := s.params k
  s.rotBytes k ++ num2 p.periods ++ num2 p.offF ++ num2 p.offV ++ num2 p.zero ++ num2 p.tol ++ s.slewBytes k

/-! ## Season tables, runs -/

/-- An entry record of 17 bytes (R184). -/
def entryBytes (e : Entry) : List Byte :=
  num2 e.id ++ num1 (e.tx.val + 1) ++ [e.days.setWidth 8] ++ num2 e.start ++ num2 e.dur ++ num2 e.freq ++
    num1 (e.primary.val + 1) ++ opt1 (e.alt.map fun m => m.val + 1) ++ ones2 e.az ++ num1 (levelCode e.power) ++ num1 e.feed ++
    opt1 (e.failed.map Status.code)

/-- The entries of a table from a starting id on; 0 starts at the first (R130). -/
def entriesFrom (es : List Entry) (id : Nat) : List Entry := if id = 0 then es else es.dropWhile fun e => e.id != id

/-- READ_ENTRIES (R130). DESIGN CHOICE: the arming of the ACTIVE table, which is never armed, is sent as clear (log 47), and the counts
of entries are sent in 2 bytes (log 54). -/
def State.entriesBytes (s : State) (t : TableId) (start count : Nat) : List Byte :=
  let x := s.season
  let es := x.table t
  let from_ := entriesFrom es start
  let standby := t != x.active
  num1 (if standby then 1 else 0) ++ flag1 (standby && x.armed) ++ num2 es.length ++
    num2 (es.filter fun e => e.failed.isSome).length ++ num2 (x.edit t) ++
    ones2 (x.changeover.map DayMinute.day) ++ ones2 (x.changeover.map DayMinute.minute) ++
    (match x.last with
      | none => [0xFF] ++ ones2 none ++ ones2 none
      | some l => num1 (if l.taken then 0 else 1) ++ num2 l.moment.day ++ num2 l.moment.minute) ++
    listOf entryBytes (from_.take count) ++ opt2 (((from_.drop count).head?).map Entry.id)

/-- A run record (R132). -/
def runBytes (r : RunRec) : List Byte :=
  num2 r.num ++ num1 (r.tx.val + 1) ++ num1 r.table.code ++ num2 r.entry ++ num4 r.start ++ num4 r.stop ++ num2 r.freq ++
    num1 r.feed ++ num1 (levelCode r.power) ++ num1 (r.primary.val + 1) ++ opt1 (r.alt.map fun m => m.val + 1) ++ ones2 r.az ++
    opt1 (r.inUse.map fun m => m.val + 1) ++ opt1 (r.deferred.map fun m => m.val + 1) ++ num1 r.state.code ++
    num1 r.route.code ++ num1 r.tune.code ++ num1 r.slew.code ++ set2 [r.late, r.held, r.alternate, r.aired] ++
    num4 r.graceBase ++ name1 RunReason.code r.reason ++ ones4 r.closedAt

/-- A run record that may be absent: run number 0 alone where it is (log entry 9). -/
def runOptBytes : Option RunRec → List Byte
  | some r => runBytes r
  | none => [0, 0]

/-- READ_RUN (R154). -/
def State.readRunBytes (s : State) (n : Tx) : List Byte :=
  runOptBytes s.run.cur[n] ++ runOptBytes s.run.nxt[n] ++
    (match s.run.marks[n] with
      | some m => num4 m.minute ++ num1 m.table.code
      | none => ones4 none ++ [0]) ++
    bool1 (s.tx[n]).holder.isSome ++ bool1 (decide ((s.permit[n]).output.rank < (s.permit[n]).requested.rank))

/-- READ_OUTCOMES (R154). DESIGN CHOICE (log 54): the length of the list is sent in 2 bytes. -/
def State.outcomesBytes (s : State) (place count : Nat) : List Byte :=
  num2 s.run.outcomes.length ++ listOf runBytes ((s.run.outcomes.drop (place - 1)).take count)

/-! ## Clock, store -/

/-- READ_CLOCK (R164). DESIGN CHOICE: the fraction of a tenth of a second is dropped (log 47), the absent size of a first setting or
of an absent step is sent as all bits set, and a size as `int2` has it (log 54). -/
def State.clockBytes (s : State) : List Byte :=
  let c := s.clock
  num1 c.state.code ++ ones2 (c.now.map Civil.day) ++ ones2 (c.now.map Civil.minute) ++
    (match c.now with | some t => num1 t.second | none => [0xFF]) ++ ones2 (c.now.map fun t => weekday t.day) ++
    onesAge (c.lastPulse.map fun t => (s.timebase - t) / 100) ++
    (match c.lastRef with
      | some r => num2 r.civil.day ++ num2 r.civil.minute ++ num1 r.civil.second ++ age2 (secondsSince s.timebase r.moment)
      | none => ones2 none ++ ones2 none ++ [0xFF] ++ onesAge none) ++
    (match c.lastStep with
      | some x => num1 x.kind.code ++ (match x.size with | some n => int2 n | none => [0xFF, 0xFF]) ++ ones4 x.before ++
          num4 x.after
      | none => [0xFF, 0xFF, 0xFF] ++ ones4 none ++ ones4 none) ++
    flag1 c.owed

/-- The number of equipped rotators. -/
def ConfigStore.rotCount (c : ConfigStore) : Nat := (allRot.filter c.rotOk).length

/-- DESCRIBE (R207). DESIGN CHOICE (log 54): the configured counts are sent in 2 bytes. -/
def State.identityBytes (s : State) : List Byte :=
  let c := s.cfg
  num2 0x0824 ++ num2 1 ++ num2 8 ++ num2 24 ++ num2 4 ++ num2 32 ++ num2 16 ++ num2 320 ++ num2 32 ++ num2 32 ++ num2 4 ++
    num1 (if c.configured then 0 else 1) ++ num2 (if c.configured then c.active.txCount else 0) ++
    num2 (if c.configured then c.active.antCount else 0) ++ num2 c.rotCount ++ flag1 c.memoryValid ++ deskByte c.openDesk ++
    num1 (if c.saving.isSome then 1 else 0) ++ name1 (fun b : Bool => if b then 0 else 1) c.lastSave ++
    (match c.lastClose with
      | none => [0xFF] ++ opt2 none ++ opt2 none
      | some .done => num1 0 ++ opt2 none ++ opt2 none
      | some (.failed k i) => num1 1 ++ num2 k ++ num2 i) ++
    bool1 s.isSettling

end Sys2Proof.Machine
end

