-- ==== Sys2Proof/Machine/Links.lean ====
section
/-! DEFINITION. The desk links (sections 10.1 to 10.6): frames, the receiver, the request in progress, the send queue and the
attention frames. -/

namespace Sys2Proof.Machine

/-! ## Frames (R184, R188) -/

/-- The sync byte. -/
def syncByte : Byte := 0xA5

/-- A frame on a desk link: sync, kind, tag, code, length, payload, check (R184). -/
def frameBytes (kind tag code : Byte) (payload : List Byte) : List Byte :=
  let body := [kind, tag, code, BitVec.ofNat 8 payload.length] ++ payload
  syncByte :: body ++ bytes2 (crc16 body)

/-- The payloads of the frames of a reply longer than 240 bytes: 240 bytes each, and the last the rest (R188). -/
def longPayloads : Nat → List Byte → List (List Byte)
  | 0, bs => [bs]
  | fuel + 1, bs => if bs.length < 240 then [bs] else bs.take 240 :: longPayloads fuel (bs.drop 240)

/-- The payloads of the frames of a reply (R188). -/
def replyPayloads (bs : List Byte) : List (List Byte) := if bs.length ≤ 240 then [bs] else longPayloads bs.length bs

/-- The frames of a reply: kind 2, the request's tag, the status code (R188). -/
def replyFrames (tag : Byte) (st : Status) (payload : List Byte) : List (List Byte) :=
  (replyPayloads payload).map fun p => frameBytes 2 tag (BitVec.ofNat 8 st.code) p

/-- An attention frame: kind 3, the attention count as its tag, code 0, the classes in two bytes (R184, R195). -/
def attentionBytes (tag : Byte) (content : BitVec 12) : List Byte := frameBytes 3 tag 0 (bytes2 (content.setWidth 16))

/-! ## The send queue (R186, R187, R195) -/

/-- A BUSY reply of the link itself. -/
def Frame.isLinkBusy : Frame → Bool
  | .reply _ _ _ b => b
  | _ => false

/-- The reply of a request that was taken. -/
def Frame.isTaken : Frame → Bool
  | .reply _ _ _ b => !b
  | _ => false

/-- An attention frame that waits unsent. -/
def Frame.isWaiting : Frame → Bool
  | .attnWaiting => true
  | _ => false

/-- A frame joins the end of the queue (R187). -/
def Link.push (l : Link) (f : Frame) : Link := { l with queue := l.queue ++ [f] }

/-- The BUSY reply to a request that is not taken; with 14 waiting the request is discarded (R186). -/
def Link.refuseBusy (l : Link) (tag : Byte) : Link :=
  if (l.queue.filter Frame.isLinkBusy).length ≥ 14 then l else l.push (.reply tag .busy [] true)

/-- An attention frame that is due joins the queue unless one waits there already (R195). -/
def Link.flush (l : Link) : Link :=
  let l' := { l with due := false }
  if l.due && !(l.queue.any Frame.isWaiting) then l'.push .attnWaiting else l'

/-- The due attention frames of every link join their queues, behind the replies of the same act (R187, R195). -/
def State.flush (s : State) : State :=
  { s with links := #v[s.links[0].flush, s.links[1].flush, s.links[2].flush] }

/-- An attention frame being sent has left the link once anything behind it is sent. -/
def Link.dropSent (l : Link) : Link :=
  match l.queue with
  | .attnSending _ _ :: rest => { l with queue := rest }
  | _ => l

/-! ## Taking a request (R186) -/

/-- What the owner of a command answers: a status, a payload, and the state after its act. -/
structure Answer where
  status : Status
  payload : List Byte
  state : State

/-- The status is of a request that was taken up (R188). -/
def Status.good : Status → Bool
  | .done => true
  | .doneClamped => true
  | .accepted => true
  | _ => false

/-- A refusal: nothing changes. -/
def State.refuse (s : State) (e : Status) : Answer := ⟨e, [], s⟩

/-- An answer DONE with a payload that changes nothing. -/
def State.tell (s : State) (payload : List Byte) : Answer := ⟨.done, payload, s⟩

/-- An act of one block that runs to its end in all of them. -/
def State.answer (s : State) (st : Status) (payload : List Byte) (s' : State) : Answer := ⟨st, payload, State.cascade s s'⟩

/-- The answer of a block: a refusal changes nothing, and an act runs to its end. -/
def State.answerOf (s : State) (a : Status × State) : Answer := if a.1.good then s.answer a.1 [] a.2 else s.refuse a.1

/-- The queries of R189 and READ_ATTENTION, which settling does not refuse (R208). -/
def isQuery (code : Byte) : Bool := decide (1 ≤ code.toNat ∧ code.toNat ≤ 12)

/-- The owner's act, unless settling refuses the request BUSY (R208). -/
def State.ownerActs (s : State) (code : Byte) (act : State → Answer) : Answer :=
  if s.isSettling && !isQuery code then s.refuse .busy else act s

/-- A request handed on: taken and answered as one act with its owner, or refused BUSY by the link (R186, R187). -/
def State.handOn (s : State) (d : Desk) (tag code : Byte) (act : State → Answer) : State :=
  if (s.link d).inProgress.isSome then s.modLink d fun l => l.refuseBusy tag
  else
    let a := (s.modLink d fun l => { l with inProgress := some (tag, code) }).ownerActs code act
    (a.state.modLink d fun l => l.push (.reply tag a.status a.payload false)).flush

/-- The receiver of a link returns to HUNTING (R185). -/
def State.hunt (s : State) (d : Desk) : State := s.modLink d fun l => { l with rx := [], byteGap := .idle }

/-- A desk command: a sound request, handed on as one act with the arrival of its last byte (R185, R186). -/
def State.request_ (s : State) (d : Desk) (tag code : Byte) (act : State → Answer) : State :=
  (s.hunt d).handOn d tag code act

/-! ## The receiver (R185) -/

/-- A sound request read from a link. -/
structure Request where
  tag : Byte
  code : Byte
  payload : List Byte
  deriving DecidableEq, Repr

/-- What a receiver makes of the bytes it holds: the sound requests among them, and the frame begun. -/
structure Scanned where
  requests : List Request
  rest : List Byte
  deriving DecidableEq, Repr

/-- The check of a whole frame matches (R184). -/
def frameSound (frame : List Byte) (len : Nat) : Bool :=
  numOf ((frame.drop (5 + len)).take 2) == (crc16 ((frame.drop 1).take (4 + len))).toNat

/-- The bytes held are examined for frames, oldest first: a byte other than sync is passed over; a length above 240 or a wrong
check lets hunting resume behind the sync byte; a sound frame of another kind is passed over whole (R185). -/
def scan : Nat → List Byte → Scanned
  | 0, bs => ⟨[], bs⟩
  | _ + 1, [] => ⟨[], []⟩
  | fuel + 1, b :: bs =>
    if b != syncByte then scan fuel bs
    else if bs.length < 4 then ⟨[], b :: bs⟩
    else
      let len := (bs.getD 3 0).toNat
      if len > 240 then scan fuel bs
      else if bs.length < 6 + len then ⟨[], b :: bs⟩
      else if !frameSound (b :: bs) len then scan fuel bs
      else
        let r := scan fuel (bs.drop (6 + len))
        if bs.getD 0 0 == 1 then ⟨⟨bs.getD 1 0, bs.getD 2 0, (bs.drop 4).take len⟩ :: r.requests, r.rest⟩ else r

/-- The bytes of a receiver examined. -/
def scanAll (bs : List Byte) : Scanned := scan (bs.length + 1) bs

end Sys2Proof.Machine
end

