-- ==== Sys2Proof/Machine/Starts.lean ====
section
/-! DEFINITION. POWER_UP, WARM_RESTART, SETTLING_TIMEOUT and SAVE_COMPLETE. -/

namespace Sys2Proof.Machine

/-- An event outside the desk links: an act that runs to its end, and the attention frames it makes due. -/
def State.event (before s : State) : State := (State.cascade before s).flush

/-- POWER_UP (R201). -/
def execPowerUp (s : State) : Host.Outcome State Fault Refusal := .next s.powerUp

/-- WARM_RESTART (R208): a falling edge of the restart input, ignored while settling. -/
def execWarmRestart (s : State) : Host.Outcome State Fault Refusal :=
  .next (if s.isSettling then s else State.event s (s.restart none))

/-- The settling timer runs. -/
def State.settlingTimer (s : State) : Timer :=
  match s.cfg.settling with
  | some x => x.timer
  | none => .idle

/-- SETTLING_TIMEOUT (R208): the waits outstanding are dropped and settling ends. -/
def execSettlingTimeout (s : State) : Host.Outcome State Fault Refusal :=
  .next <|
    if s.settlingTimer.isRunning then
      let s1 := s.atExpiry s.settlingTimer
      State.event s1 s1.settleEnd
    else s

/-- The faults of a save name bytes of the memory. -/
def faultsInside (faults : List (Nat × Byte)) : Bool := faults.all fun f => decide (f.1 < memorySize)

/-- SAVE_COMPLETE (R206): the write and the read-back have ended. A byte outside the memory does not exist. -/
def execSaveComplete (answered : Bool) (faults : List (Nat × Byte)) (s : State) : Host.Outcome State Fault Refusal :=
  match s.cfg.saving with
  | none => .next s
  | some bytes =>
    if faultsInside faults then .next (s.endSave bytes answered faults).flush else .fault .memoryOutside

end Sys2Proof.Machine
end

