-- ==== Sys2Proof/Machine/Field.lean ====
section
/-! DEFINITION. The events of the switch field: POSITION, TRAVEL_TIMEOUT, REPORT_WINDOW_END, SUPPLY_HOLD_EXPIRY,
RF_DROP_TIMEOUT and TRIP_WAIT_EXPIRY. -/

namespace Sys2Proof.Machine

/-- A POSITION report as its fields give it, where it names an equipped switch and a reading of its kind (R2, R4). -/
def State.reportOk (s : State) (w : Option Sw) (r : Option Reading) : Option (Sw × Confirmed) :=
  match w, r with
  | some w, some r => if s.cfg.swOk w && readingFits w r then some (w, Confirmed.ofReading r) else none
  | _, _ => none

/-- POSITION (R4): every other report is discarded. The first report of a switch in settling meets its wait (R208);
where that is the last, settling ends behind the report (log 68). -/
def execPosition (w : Option Sw) (r : Option Reading) (s : State) : Host.Outcome State Fault Refusal :=
  .next <|
    match s.reportOk w r with
    | none => s
    | some (w, x) => State.event s (((s.takeReport w x).absorbAll).meetSw w)

/-- The moment at which a MOVING switch's travel timeout expires. -/
def SwRec.timeout (r : SwRec) : Timer :=
  match r.state, r.travelDue with
  | .moving, some due => .running due
  | _, _ => .idle

/-- TRAVEL_TIMEOUT (R14). -/
def execTravelTimeout (w : Sw) (s : State) : Host.Outcome State Fault Refusal :=
  .next <|
    if (s.sw w).timeout.isRunning then
      let s1 := s.atExpiry (s.sw w).timeout
      State.event s1 ((s1.travelExpired w).absorbAll)
    else s

/-- REPORT_WINDOW_END (R23, R24). -/
def execReportWindowEnd (s : State) : Host.Outcome State Fault Refusal :=
  .next <|
    if s.mx.reportWindow.isRunning then
      let s1 := s.atExpiry s.mx.reportWindow
      State.event s1 s1.windowEnd.absorbAll
    else s

/-- SUPPLY_HOLD_EXPIRY (R10): drive permission is judged as one act with it. -/
def execSupplyHoldExpiry (s : State) : Host.Outcome State Fault Refusal :=
  .next <|
    if s.mx.supplyHold.isRunning then
      let s1 := s.atExpiry s.mx.supplyHold
      State.event s1 s1.supplyHeldNow.mxJudge.absorbAll
    else s

/-- RF_DROP_TIMEOUT (R34). -/
def execRfDropTimeout (n : Tx) (s : State) : Host.Outcome State Fault Refusal := .next (State.event s (s.dropExpired n))

/-- TRIP_WAIT_EXPIRY (R35). -/
def execTripWaitExpiry (n : Tx) (s : State) : Host.Outcome State Fault Refusal :=
  .next (State.event s (s.tripExpired n).absorbAll)

end Sys2Proof.Machine
end

