-- ==== Sys2Proof/Machine/Inputs.lean ====
section
/-! DEFINITION. The time input and the hall inputs: TIME_PULSE, TICK, TIME, ACCESS_CHANGE, CLOSED_TIMER_EXPIRY, SUPPLY_CHANGE,
RF_SENSE_CHANGE and INPUT_SAMPLE. -/

namespace Sys2Proof.Machine

/-! ## The time input -/

/-- TIME_PULSE (R157). -/
def execTimePulse (s : State) : Host.Outcome State Fault Refusal := .next (State.event s s.pulse)

/-- TICK (R157): none is armed in UNSET. -/
def execTick (s : State) : Host.Outcome State Fault Refusal :=
  .next <|
    if s.clock.state != .unset && s.clock.tick.isRunning then
      let s1 := s.atExpiry s.clock.tick
      State.event s1 s1.tickExpired
    else s

/-- The time that a TIME message gives. -/
def timeOf (m : TimeMessage) : Civil := ⟨m.day, m.minute, m.second⟩

/-- A TIME message taken (R160). -/
def State.takeTime (s : State) (t : Civil) : State :=
  (s.modClock fun c => { c with lastRef := some ⟨t, s.timebase⟩ }).giveTime t

/-- TIME (R160): a message that fails its check is discarded, one out of range ignored. -/
def execTime (m : TimeMessage) (s : State) : Host.Outcome State Fault Refusal :=
  .next (if m.sound && (timeOf m).ok then State.event s (s.takeTime (timeOf m)) else s)

/-! ## The hall inputs -/

/-- The access filter written, and what a change of its accepted level brings (R177, R178). -/
def State.setAccess (s : State) (f : Filter AccessLevel) : State :=
  let was := s.hall.access.accepted
  let s := s.modHall fun h => { h with access := f }
  match f.accepted with
  | some l => s.accessTaken was l
  | none => s

/-- The supply filter written, and what a change of its accepted level brings (R10). -/
def State.setSupply (s : State) (f : Filter SupplyLevel) : State :=
  let was := s.hall.supply.accepted
  (s.modHall fun h => { h with supply := f }).supplyTaken was

/-- An RF sense filter written, and what a change of its accepted level brings (R176). -/
def State.setRfSense (s : State) (n : Tx) (f : Filter RfLevel) : State :=
  let was := (s.hall.rf[n]).accepted
  (s.modHall fun h => { h with rf := h.rf.set n f }).rfTaken n was

/-- ACCESS_CHANGE (R178). -/
def execAccessChange (l : AccessLevel) (s : State) : Host.Outcome State Fault Refusal :=
  .next (State.event s (s.setAccess (Filter.accept l)))

/-- CLOSED_TIMER_EXPIRY (R178): in RESTORED_WAIT the timer is marked run out. -/
def execClosedTimerExpiry (s : State) : Host.Outcome State Fault Refusal :=
  .next <|
    if s.hall.closed.isRunning then
      (s.atExpiry s.hall.closed).modHall fun h =>
        { h with closed := .idle, closedRunOut := h.closedRunOut || h.state == .restoredWait }
    else s

/-- SUPPLY_CHANGE (R10). -/
def execSupplyChange (l : SupplyLevel) (s : State) : Host.Outcome State Fault Refusal :=
  .next (State.event s (s.setSupply (Filter.accept l)))

/-- RF_SENSE_CHANGE (R176). -/
def execRfSenseChange (n : Tx) (l : RfLevel) (s : State) : Host.Outcome State Fault Refusal :=
  .next (State.event s (s.setRfSense n (Filter.accept l)))

/-- INPUT_SAMPLE (R176, R177). -/
def execInputSample (x : Sample) (s : State) : Host.Outcome State Fault Refusal :=
  .next <|
    State.event s <|
      match x with
      | .access l => s.setAccess (s.hall.access.take l)
      | .supply l => s.setSupply (s.hall.supply.take l)
      | .rf n l => s.setRfSense n ((s.hall.rf[n]).take l)

end Sys2Proof.Machine
end

