-- ==== Sys2Proof/Machine/Rotators.lean ====
section
/-! DEFINITION. The events of the rotators: SENSOR_FRAME, FRAME_TIMEOUT, REVERSE_DWELL_END, POWER_WAIT_EXPIRY,
STALL_WINDOW_EXPIRY and SLEW_TIMER_EXPIRY. -/

namespace Sys2Proof.Machine

/-- An accepted frame: taken by the azimuth unit and given to the slew controller; in settling it meets the rotator's wait (R53,
R63, R70, R208). DESIGN CHOICE (log 68): the frame that meets the last wait is taken by the slew controller before settling ends. -/
def State.acceptFrame (s : State) (k : Rot) (f : SensorFrame) : State :=
  let s1 := s.takeFrame k f
  (if frameGood (s.params k) f then s1.slewGood k else s1.slewBad k).meetRot k

/-- SENSOR_FRAME (R53): a frame that fails the line's check, or for an unequipped rotator, is discarded. -/
def execSensorFrame (k : Rot) (f : SensorFrame) (s : State) : Host.Outcome State Fault Refusal :=
  .next (if f.sound && s.cfg.rotOk k then State.event s (s.acceptFrame k f) else s)

/-- The frame timer of rotator k has expired (R62, R84). -/
def State.frameExpired (s : State) (k : Rot) : State :=
  let was := (s.rot[k]).validity
  let s := (s.modRot k RotRec.timedOut).raiseIf (was != .invalid) .rotator
  if was != .invalid then s.slewInvalid k else s

/-- FRAME_TIMEOUT (R62). -/
def execFrameTimeout (k : Rot) (s : State) : Host.Outcome State Fault Refusal :=
  .next <|
    if (s.rot[k]).frameTimer.isRunning then
      let s1 := s.atExpiry (s.rot[k]).frameTimer
      State.event s1 (s1.frameExpired k)
    else s

/-- REVERSE_DWELL_END (R78). -/
def execReverseDwellEnd (k : Rot) (s : State) : Host.Outcome State Fault Refusal := .next (State.event s (s.dwellExpired k))

/-- POWER_WAIT_EXPIRY (R79). -/
def execPowerWaitExpiry (k : Rot) (s : State) : Host.Outcome State Fault Refusal :=
  .next <|
    if (s.slew[k]).state == .awaitPower && (s.slew[k]).powerWait.isRunning then
      let s1 := s.atExpiry (s.slew[k]).powerWait
      State.event s1 (s1.slewFault k .powerNotReduced)
    else s

/-- STALL_WINDOW_EXPIRY (R82). -/
def execStallWindowExpiry (k : Rot) (s : State) : Host.Outcome State Fault Refusal :=
  .next <|
    if (s.slew[k]).state == .drive && (s.slew[k]).stallWindow.isRunning then
      let s1 := s.atExpiry (s.slew[k]).stallWindow
      State.event s1 (s1.slewFault k .stall)
    else s

/-- SLEW_TIMER_EXPIRY (R84). -/
def execSlewTimerExpiry (k : Rot) (s : State) : Host.Outcome State Fault Refusal :=
  .next <|
    if (s.slew[k]).state.slewing && (s.slew[k]).slewTimer.isRunning then
      let s1 := s.atExpiry (s.slew[k]).slewTimer
      State.event s1 (s1.slewFault k .slewTimeout)
    else s

end Sys2Proof.Machine
end

