-- ==== Sys2Proof/Machine/Hand.lean ====
section
/-! DEFINITION. The hand commands of a transmitter and its antennas: TAKE_HAND, RETURN_HAND, SET_RF, TUNE, CLEAR_TRIP,
CLEAR_ANTENNA_FAULT and SET_ENABLED_BANDS. -/

namespace Sys2Proof.Machine

/-! ## Holders -/

/-- The holder of a transmitter written. -/
def State.setHolder (s : State) (n : Tx) (d : Option Desk) : State := s.modTx n fun r => { r with holder := d }

/-- An order of origin SCHEDULE. -/
def Origin.isSchedule : Origin → Bool
  | .schedule _ => true
  | .desk _ => false

/-- Hand taken from an absent holder (R148, R174). -/
def State.takeFree (s : State) (n : Tx) (d : Desk) : State :=
  (((s.setHolder n (some d)).failHand n Origin.isSchedule).handRun n s.nowMinute).raise .transmitter

/-- A takeover by DL3 (R174). -/
def State.takeOver (s : State) (n : Tx) (d before : Desk) : State :=
  ((s.setHolder n (some d)).failHand n fun o => o == .desk before).raise .transmitter

/-- TAKE_HAND (R174). -/
def actTakeHand (d : Desk) (payload : List Byte) (s : State) : Answer :=
  match args [1] payload with
  | some [n] =>
    match txOf n with
    | none => s.refuse .badArgument
    | some n =>
      if !s.cfg.txOk n then s.refuse .notConfigured
      else
        match (s.tx[n]).holder with
        | none => s.answer .done [] (s.takeFree n d)
        | some e =>
          if e == d then s.tell []
          else if d == .dl3 then s.answer .done [] (s.takeOver n d e)
          else s.refuse .heldByOther
  | _ => s.refuse .badArgument

/-- Hand returned by, or from, its holder (R175). -/
def State.giveBack (s : State) (n : Tx) (holder : Desk) : State :=
  ((s.setHolder n none).failHand n fun o => o == .desk holder).raise .transmitter

/-- RETURN_HAND (R175). -/
def actReturnHand (d : Desk) (payload : List Byte) (s : State) : Answer :=
  match args [1] payload with
  | some [n] =>
    match txOf n with
    | none => s.refuse .badArgument
    | some n =>
      if !s.cfg.txOk n then s.refuse .notConfigured
      else
        match (s.tx[n]).holder with
        | none => s.refuse .notInHand
        | some e => if e == d || d == .dl3 then s.answer .done [] (s.giveBack n e) else s.refuse .heldByOther
  | _ => s.refuse .badArgument

/-! ## The requested level -/

/-- A lockout stands on the transmitter, or on the antenna it feeds (R46). -/
def State.lockedPath (s : State) (n : Tx) : Bool :=
  s.locked (.tx n) || match s.mx.feeds n with | some m => s.locked (.ant m) | none => false

/-- The antenna fed carries a fault mark (R46). -/
def State.fedMarked (s : State) (n : Tx) : Bool :=
  match s.mx.feeds n with
  | some m => s.faultMark[m]
  | none => false

/-- Checks 2 to 6 of R46. -/
def State.rfRefusal (s : State) (d : Desk) (n : Tx) (l : Level) : Option Status :=
  if !s.cfg.txOk n then some .notConfigured
  else match (s.tx[n]).holder with
  | none => some .notInHand
  | some e =>
    if e != d then some .heldByOther
    else if s.hallSafe && l != .off then some .hallSafe
    else if s.lockedPath n && l != .off then some .lockedOut
    else none

/-- The requested level set (R45, R46). -/
def State.setRequested (s : State) (n : Tx) (l : Level) : State := s.modPermit n fun p => { p with requested := l }

/-- SET_RF (R46). -/
def actSetRf (d : Desk) (payload : List Byte) (s : State) : Answer :=
  match args [1, 1] payload with
  | some [n, l] =>
    match txOf n, levelOf l with
    | some n, some l =>
      match s.rfRefusal d n l with
      | some e => s.refuse e
      | none => s.answer (if l == .full && s.fedMarked n then .doneClamped else .done) [] (s.setRequested n l)
    | _, _ => s.refuse .badArgument
  | _ => s.refuse .badArgument

/-! ## Orders, trips, marks, masks -/

/-- TUNE (R95, R96). -/
def actTune (d : Desk) (payload : List Byte) (s : State) : Answer :=
  match args [1, 2, 1] payload with
  | some [n, f, feed] =>
    match txOf n with
    | some n => s.answerOf (s.tuneRequest n f feed (.desk d))
    | none => s.refuse .badArgument
  | _ => s.refuse .badArgument

/-- The refusals of CLEAR_TRIP after the form of its argument (R106). -/
def State.clearRefusal (s : State) (d : Desk) (n : Tx) : Option Status :=
  let r := s.tx[n]
  if !s.cfg.txOk n then some .notConfigured
  else if r.holder.isSome && r.holder != some d then some .notPermitted
  else if r.state == .recycle && r.recycleTimer != .idle then some .notPermitted
  else none

/-- CLEAR_TRIP taken (R106). -/
def State.clearTrip (s : State) (n : Tx) : State :=
  if (s.tx[n]).state == .tripped then
    (s.modTx n fun r => { r with history := [], clearPending := true }).modForces n fun f => { f with trip := false }
  else s.modTx n fun r => { r with history := [] }

/-- CLEAR_TRIP (R106). -/
def actClearTrip (d : Desk) (payload : List Byte) (s : State) : Answer :=
  match args [1] payload with
  | some [n] =>
    match txOf n with
    | none => s.refuse .badArgument
    | some n =>
      match s.clearRefusal d n with
      | some e => s.refuse e
      | none => s.answer .done [] (s.clearTrip n)
  | _ => s.refuse .badArgument

/-- A fault mark removed (R107). -/
def State.clearMark (s : State) (m : Ant) : State := State.raise { s with faultMark := s.faultMark.set m false } .transmitter

/-- CLEAR_ANTENNA_FAULT (R107). -/
def actClearAntennaFault (payload : List Byte) (s : State) : Answer :=
  match args [1] payload with
  | some [m] =>
    match antOf m with
    | none => s.refuse .badArgument
    | some m =>
      if !s.cfg.antOk m then s.refuse .notConfigured
      else if s.faultMark[m] then s.answer .done [] (s.clearMark m)
      else s.tell []
  | _ => s.refuse .badArgument

/-- SET_ENABLED_BANDS (R191). -/
def actSetEnabledBands (payload : List Byte) (s : State) : Answer :=
  match args [1, 2] payload with
  | some [m, mask] =>
    match antOf m with
    | none => s.refuse .badArgument
    | some m =>
      if !s.cfg.antOk m then s.refuse .notConfigured
      else
        let asked := BitVec.ofNat 16 mask
        let now := asked &&& s.cfg.active.supported[m]
        s.answer (if now == asked then .done else .doneClamped) (bytes2 now) { s with enabled := s.enabled.set m now }
  | _ => s.refuse .badArgument

/-! ## The meanings -/

/-- TAKE_HAND (R174). -/
def execTakeHand (d : Desk) (tag : Byte) (payload : List Byte) (s : State) : Host.Outcome State Fault Refusal :=
  .next (s.request_ d tag 0x20 (actTakeHand d payload))

/-- RETURN_HAND (R175). -/
def execReturnHand (d : Desk) (tag : Byte) (payload : List Byte) (s : State) : Host.Outcome State Fault Refusal :=
  .next (s.request_ d tag 0x21 (actReturnHand d payload))

/-- SET_RF (R46). -/
def execSetRf (d : Desk) (tag : Byte) (payload : List Byte) (s : State) : Host.Outcome State Fault Refusal :=
  .next (s.request_ d tag 0x24 (actSetRf d payload))

/-- TUNE (R95, R96). -/
def execTune (d : Desk) (tag : Byte) (payload : List Byte) (s : State) : Host.Outcome State Fault Refusal :=
  .next (s.request_ d tag 0x25 (actTune d payload))

/-- CLEAR_TRIP (R106). -/
def execClearTrip (d : Desk) (tag : Byte) (payload : List Byte) (s : State) : Host.Outcome State Fault Refusal :=
  .next (s.request_ d tag 0x29 (actClearTrip d payload))

/-- CLEAR_ANTENNA_FAULT (R107). -/
def execClearAntennaFault (d : Desk) (tag : Byte) (payload : List Byte) (s : State) : Host.Outcome State Fault Refusal :=
  .next (s.request_ d tag 0x2A (actClearAntennaFault payload))

/-- SET_ENABLED_BANDS (R191). -/
def execSetEnabledBands (d : Desk) (tag : Byte) (payload : List Byte) (s : State) : Host.Outcome State Fault Refusal :=
  .next (s.request_ d tag 0x2B (actSetEnabledBands payload))

end Sys2Proof.Machine
end

