-- ==== Sys2Proof/Machine/Moves.lean ====
section
/-! DEFINITION. The commands that move the hall: ROUTE, UNROUTE, SLEW, STOP_SLEW and CALIBRATE_ROTATOR. -/

namespace Sys2Proof.Machine

/-- ROUTE (R27, R29). -/
def actRoute (d : Desk) (payload : List Byte) (s : State) : Answer :=
  match args [1, 1, 1] payload with
  | some [n, kind, num] =>
    match txOf n, destOf kind num with
    | some n, some dest => s.answerOf (s.routeRequest (.desk d) n dest none)
    | _, _ => s.refuse .badArgument
  | _ => s.refuse .badArgument

/-- UNROUTE (R27, R28). -/
def actUnroute (d : Desk) (payload : List Byte) (s : State) : Answer :=
  match args [1] payload with
  | some [m] =>
    match antOf m with
    | some m => s.answerOf (s.earthRequest (.earthDesk d) m)
    | none => s.refuse .badArgument
  | _ => s.refuse .badArgument

/-- SLEW (R74, R76). -/
def actSlew (d : Desk) (payload : List Byte) (s : State) : Answer :=
  match args [1, 2] payload with
  | some [m, az] =>
    match antOf m with
    | some m => s.answerOf (s.slewRequest d m az)
    | none => s.refuse .badArgument
  | _ => s.refuse .badArgument

/-- STOP_SLEW (R74). -/
def actStopSlew (d : Desk) (payload : List Byte) (s : State) : Answer :=
  match args [1] payload with
  | some [m] =>
    match antOf m with
    | some m => s.answerOf (s.slewStop d m)
    | none => s.refuse .badArgument
  | _ => s.refuse .badArgument

/-- Checks 2 to 5 of R65. -/
def State.calibrateRefusal (s : State) (k : Rot) : Option Status :=
  let st := (s.slew[k]).state
  if !s.cfg.rotOk k then some .notConfigured
  else if s.isOpen then some .configOpen
  else if (s.rot[k]).validity != .valid then some .positionInvalid
  else if st != .idle && st != .inPosition then some .busy
  else none

/-- CALIBRATE_ROTATOR (R65, R66): the reply carries the new zero bearing. -/
def actCalibrateRotator (payload : List Byte) (s : State) : Answer :=
  match args [1, 2] payload with
  | some [k, b] =>
    match rotOf k, decide (b < 3600) with
    | some k, true =>
      match s.calibrateRefusal k with
      | some e => s.refuse e
      | none =>
        let s' := s.calibrate k b
        s.answer .done (num2 (s'.params k).zero) s'
    | _, _ => s.refuse .badArgument
  | _ => s.refuse .badArgument

/-! ## The meanings -/

/-- ROUTE (R29). -/
def execRoute (d : Desk) (tag : Byte) (payload : List Byte) (s : State) : Host.Outcome State Fault Refusal :=
  .next (s.request_ d tag 0x22 (actRoute d payload))

/-- UNROUTE (R28). -/
def execUnroute (d : Desk) (tag : Byte) (payload : List Byte) (s : State) : Host.Outcome State Fault Refusal :=
  .next (s.request_ d tag 0x23 (actUnroute d payload))

/-- SLEW (R74). -/
def execSlew (d : Desk) (tag : Byte) (payload : List Byte) (s : State) : Host.Outcome State Fault Refusal :=
  .next (s.request_ d tag 0x26 (actSlew d payload))

/-- STOP_SLEW (R74). -/
def execStopSlew (d : Desk) (tag : Byte) (payload : List Byte) (s : State) : Host.Outcome State Fault Refusal :=
  .next (s.request_ d tag 0x27 (actStopSlew d payload))

/-- CALIBRATE_ROTATOR (R66). -/
def execCalibrateRotator (d : Desk) (tag : Byte) (payload : List Byte) (s : State) : Host.Outcome State Fault Refusal :=
  .next (s.request_ d tag 0x28 (actCalibrateRotator payload))

end Sys2Proof.Machine
end

