-- ==== Sys2Proof/Machine/Queries.lean ====
section
/-! DEFINITION. The queries of the desks: DESCRIBE, the READ commands and READ_ATTENTION. A query describes one moment and
changes nothing but the link, and READ_ATTENTION the sender's attention set. -/

namespace Sys2Proof.Machine

/-- DESCRIBE (R207). -/
def actDescribe (payload : List Byte) (s : State) : Answer :=
  match args [] payload with
  | some [] => s.tell s.identityBytes
  | _ => s.refuse .badArgument

/-- READ_HALL (R182). -/
def actReadHall (payload : List Byte) (s : State) : Answer :=
  match args [] payload with
  | some [] => s.tell s.hallBytes
  | _ => s.refuse .badArgument

/-- READ_TRANSMITTER (R44, R92): the transmitter record beside the permit record, configured or not. -/
def actReadTransmitter (payload : List Byte) (s : State) : Answer :=
  match args [1] payload with
  | some [n] =>
    match txOf n with
    | some n => s.tell (s.txBytes n ++ permitBytes s.permit[n])
    | none => s.refuse .badArgument
  | _ => s.refuse .badArgument

/-- READ_ANTENNA (R193). -/
def actReadAntenna (payload : List Byte) (s : State) : Answer :=
  match args [1] payload with
  | some [m] =>
    match antOf m with
    | some m => if s.cfg.antOk m then s.tell (s.antennaBytes m) else s.refuse .notConfigured
    | none => s.refuse .badArgument
  | _ => s.refuse .badArgument

/-- READ_ROTATOR (R64). -/
def actReadRotator (payload : List Byte) (s : State) : Answer :=
  match args [1] payload with
  | some [k] =>
    match rotOf k with
    | some k => if s.cfg.rotOk k then s.tell (s.rotatorBytes k) else s.refuse .notConfigured
    | none => s.refuse .badArgument
  | _ => s.refuse .badArgument

/-- READ_ROUTES (R40). -/
def actReadRoutes (payload : List Byte) (s : State) : Answer :=
  match args [] payload with
  | some [] => s.tell s.routesBytes
  | _ => s.refuse .badArgument

/-- READ_ENTRIES (R130). -/
def actReadEntries (payload : List Byte) (s : State) : Answer :=
  match args [1, 2, 1] payload with
  | some [t, start, count] =>
    match tableOf t with
    | some t =>
      if decide (1 ≤ count ∧ count ≤ 8) && decide (start ≤ 9999) &&
          (start == 0 || (entryOf (s.season.table t) start).isSome) then
        s.tell (s.entriesBytes t start count)
      else s.refuse .badArgument
    | none => s.refuse .badArgument
  | _ => s.refuse .badArgument

/-- READ_RUN (R154). -/
def actReadRun (payload : List Byte) (s : State) : Answer :=
  match args [1] payload with
  | some [n] =>
    match txOf n with
    | some n => if s.cfg.txOk n then s.tell (s.readRunBytes n) else s.refuse .notConfigured
    | none => s.refuse .badArgument
  | _ => s.refuse .badArgument

/-- READ_OUTCOMES (R154). -/
def actReadOutcomes (payload : List Byte) (s : State) : Answer :=
  match args [1, 1] payload with
  | some [place, count] =>
    if decide (1 ≤ place ∧ place ≤ 32) && decide (1 ≤ count ∧ count ≤ 8) then s.tell (s.outcomesBytes place count)
    else s.refuse .badArgument
  | _ => s.refuse .badArgument

/-- READ_LOCKOUTS (R172). -/
def actReadLockouts (payload : List Byte) (s : State) : Answer :=
  match args [] payload with
  | some [] => s.tell s.lockoutsBytes
  | _ => s.refuse .badArgument

/-- READ_ATTENTION (R196): the sender's classes that it subscribes to, removed from its set. -/
def actReadAttention (d : Desk) (payload : List Byte) (s : State) : Answer :=
  match args [] payload with
  | some [] =>
    let l := s.link d
    ⟨.done, bytes2 ((l.attn &&& l.sub).setWidth 16), s.modLink d fun l => { l with attn := l.attn &&& ~~~l.sub }⟩
  | _ => s.refuse .badArgument

/-- READ_CLOCK (R164). -/
def actReadClock (payload : List Byte) (s : State) : Answer :=
  match args [] payload with
  | some [] => s.tell s.clockBytes
  | _ => s.refuse .badArgument

/-! ## The meanings -/

/-- DESCRIBE (R207). -/
def execDescribe (d : Desk) (tag : Byte) (payload : List Byte) (s : State) : Host.Outcome State Fault Refusal :=
  .next (s.request_ d tag 0x01 (actDescribe payload))

/-- READ_HALL (R182). -/
def execReadHall (d : Desk) (tag : Byte) (payload : List Byte) (s : State) : Host.Outcome State Fault Refusal :=
  .next (s.request_ d tag 0x02 (actReadHall payload))

/-- READ_TRANSMITTER (R92). -/
def execReadTransmitter (d : Desk) (tag : Byte) (payload : List Byte) (s : State) : Host.Outcome State Fault Refusal :=
  .next (s.request_ d tag 0x03 (actReadTransmitter payload))

/-- READ_ANTENNA (R193). -/
def execReadAntenna (d : Desk) (tag : Byte) (payload : List Byte) (s : State) : Host.Outcome State Fault Refusal :=
  .next (s.request_ d tag 0x04 (actReadAntenna payload))

/-- READ_ROTATOR (R64). -/
def execReadRotator (d : Desk) (tag : Byte) (payload : List Byte) (s : State) : Host.Outcome State Fault Refusal :=
  .next (s.request_ d tag 0x05 (actReadRotator payload))

/-- READ_ROUTES (R40). -/
def execReadRoutes (d : Desk) (tag : Byte) (payload : List Byte) (s : State) : Host.Outcome State Fault Refusal :=
  .next (s.request_ d tag 0x06 (actReadRoutes payload))

/-- READ_ENTRIES (R130). -/
def execReadEntries (d : Desk) (tag : Byte) (payload : List Byte) (s : State) : Host.Outcome State Fault Refusal :=
  .next (s.request_ d tag 0x07 (actReadEntries payload))

/-- READ_RUN (R154). -/
def execReadRun (d : Desk) (tag : Byte) (payload : List Byte) (s : State) : Host.Outcome State Fault Refusal :=
  .next (s.request_ d tag 0x08 (actReadRun payload))

/-- READ_OUTCOMES (R154). -/
def execReadOutcomes (d : Desk) (tag : Byte) (payload : List Byte) (s : State) : Host.Outcome State Fault Refusal :=
  .next (s.request_ d tag 0x09 (actReadOutcomes payload))

/-- READ_LOCKOUTS (R172). -/
def execReadLockouts (d : Desk) (tag : Byte) (payload : List Byte) (s : State) : Host.Outcome State Fault Refusal :=
  .next (s.request_ d tag 0x0A (actReadLockouts payload))

/-- READ_ATTENTION (R196). -/
def execReadAttention (d : Desk) (tag : Byte) (payload : List Byte) (s : State) : Host.Outcome State Fault Refusal :=
  .next (s.request_ d tag 0x0B (actReadAttention d payload))

/-- READ_CLOCK (R164). -/
def execReadClock (d : Desk) (tag : Byte) (payload : List Byte) (s : State) : Host.Outcome State Fault Refusal :=
  .next (s.request_ d tag 0x0C (actReadClock payload))

end Sys2Proof.Machine
end

