-- ==== Sys2Proof/Machine/Safeguards.lean ====
section
/-! DEFINITION. The commands of lockouts and of hall safety: PLACE_LOCKOUT, RELEASE_LOCKOUT and ACK_HALL_SAFE. -/

namespace Sys2Proof.Machine

/-- PLACE_LOCKOUT (R167): a reason code is 1 to 255. -/
def actPlaceLockout (d : Desk) (payload : List Byte) (s : State) : Answer :=
  match args [1, 1, 1] payload with
  | some [kind, num, reason] =>
    match targetOf kind num, decide (1 ≤ reason ∧ reason ≤ 255) with
    | some g, true => s.answerOf (s.placeLock g d reason)
    | _, _ => s.refuse .badArgument
  | _ => s.refuse .badArgument

/-- RELEASE_LOCKOUT (R171). -/
def actReleaseLockout (d : Desk) (payload : List Byte) (s : State) : Answer :=
  match args [1, 1, 1] payload with
  | some [kind, num, e] =>
    match targetOf kind num, deskOf e with
    | some g, some e =>
      if !s.cfg.configured then s.refuse .notConfigured
      else if d != .dl3 && e != d then s.refuse .notPermitted
      else if (s.lockOf g e).isNone then s.tell []
      else s.answer .done [] (s.releaseLock g e)
    | _, _ => s.refuse .badArgument
  | _ => s.refuse .badArgument

/-- ACK_HALL_SAFE (R180). -/
def actAckHallSafe (d : Desk) (payload : List Byte) (s : State) : Answer :=
  match args [] payload with
  | some [] =>
    if !s.cfg.configured then s.refuse .notConfigured
    else
      match s.hall.state with
      | .safe => s.refuse .hallSafe
      | .restoredWait =>
        if d == .dl3 || !s.hall.closed.isRunning then s.answer .done [] s.enterNormal else s.refuse .notPermitted
      | .normal => s.tell []
  | _ => s.refuse .badArgument

/-! ## The meanings -/

/-- PLACE_LOCKOUT (R167). -/
def execPlaceLockout (d : Desk) (tag : Byte) (payload : List Byte) (s : State) : Host.Outcome State Fault Refusal :=
  .next (s.request_ d tag 0x2C (actPlaceLockout d payload))

/-- RELEASE_LOCKOUT (R171). -/
def execReleaseLockout (d : Desk) (tag : Byte) (payload : List Byte) (s : State) : Host.Outcome State Fault Refusal :=
  .next (s.request_ d tag 0x2D (actReleaseLockout d payload))

/-- ACK_HALL_SAFE (R180). -/
def execAckHallSafe (d : Desk) (tag : Byte) (payload : List Byte) (s : State) : Host.Outcome State Fault Refusal :=
  .next (s.request_ d tag 0x2E (actAckHallSafe d payload))

end Sys2Proof.Machine
end

