-- ==== Sys2Proof/Machine/Settings.lean ====
section
/-! DEFINITION. SET_SUBSCRIPTION, SET_CLOCK, the configuration commands, RESTART and a request of an unknown code. -/

namespace Sys2Proof.Machine

/-- A new subscription; a class already set and newly subscribed makes an attention frame due (R197). -/
def Link.subscribe (l : Link) (mask : BitVec 12) : Link :=
  { l with sub := mask, due := l.due || !(l.attn &&& mask &&& ~~~l.sub == 0) }

/-- SET_SUBSCRIPTION (R197). -/
def actSetSubscription (d : Desk) (payload : List Byte) (s : State) : Answer :=
  match args [2] payload with
  | some [mask] =>
    if mask ≥ 4096 then s.refuse .badArgument
    else if !s.cfg.configured then s.refuse .notConfigured
    else ⟨.done, [], s.modLink d fun l => l.subscribe (BitVec.ofNat 12 mask)⟩
  | _ => s.refuse .badArgument

/-- SET_CLOCK (R163). -/
def actSetClock (payload : List Byte) (s : State) : Answer :=
  match args [2, 2, 1] payload with
  | some [day, minute, second] =>
    let t : Civil := ⟨day, minute, second⟩
    if !t.ok then s.refuse .badArgument
    else if !s.cfg.configured then s.refuse .notConfigured
    else if s.clock.state == .running then s.refuse .busy
    else s.answer .done [] (s.giveTime t)
  | _ => s.refuse .badArgument

/-- OPEN_CONFIG (R202). -/
def actOpenConfig (d : Desk) (payload : List Byte) (s : State) : Answer :=
  match args [] payload with
  | some [] =>
    match s.cfg.openDesk with
    | some e => if e == d then s.tell [] else s.refuse .configOpen
    | none => if s.hallBusy then s.refuse .busy else s.answer .done [] (s.openConfig d)
  | _ => s.refuse .badArgument

/-- The items of a CONFIGURE list. -/
def configureList (n : Nat) (bs : List Byte) : List (Nat × Nat) := itemPairs n bs

/-- CONFIGURE (R203). -/
def actConfigure (d : Desk) (payload : List Byte) (s : State) : Answer :=
  match payload with
  | n :: rest =>
    if !decide (1 ≤ n.toNat ∧ n.toNat ≤ 59 ∧ rest.length = 4 * n.toNat) then s.refuse .badArgument
    else
      match s.cfg.openDesk, s.cfg.workspace with
      | some e, some w =>
        if e != d then s.refuse .configOpen
        else
          let (xs, w') := configureItems w (configureList n.toNat rest)
          ⟨.done, listOf (fun x : Status => num1 x.code) xs, s.modCfg fun c => { c with workspace := some w' }⟩
      | _, _ => s.refuse .notPermitted
  | [] => s.refuse .badArgument

/-- CLOSE_CONFIG (R204). -/
def actCloseConfig (d : Desk) (payload : List Byte) (s : State) : Answer :=
  match args [] payload with
  | some [] =>
    match s.cfg.openDesk, s.cfg.workspace with
    | some e, some w =>
      if e != d then s.refuse .configOpen
      else
        match closeCheck w with
        | some (k, i) => ⟨.badArgument, [], s.modCfg fun c => { c with lastClose := some (.failed k i) }⟩
        | none => s.answer .done [] (s.applyConfig w)
    | _, _ => s.refuse .notPermitted
  | _ => s.refuse .badArgument

/-- ABANDON_CONFIG (R205). -/
def actAbandonConfig (d : Desk) (payload : List Byte) (s : State) : Answer :=
  match args [] payload with
  | some [] =>
    match s.cfg.openDesk with
    | none => s.tell []
    | some e => if e == d then s.answer .done [] s.abandonConfig else s.refuse .configOpen
  | _ => s.refuse .badArgument

/-- SAVE_CONFIG (R206). -/
def actSaveConfig (payload : List Byte) (s : State) : Answer :=
  match args [] payload with
  | some [] =>
    if !s.cfg.configured then s.refuse .notPermitted
    else if s.cfg.saving.isSome then s.refuse .busy
    else ⟨.accepted, [], s.startSave⟩
  | _ => s.refuse .badArgument

/-- RESTART: answered DONE; the restart is taken when that reply has been sent to its end (R198, R208). -/
def actRestart (payload : List Byte) (s : State) : Answer :=
  match args [] payload with
  | some [] => s.tell []
  | _ => s.refuse .badArgument

/-- A request whose code is not in the table (R189). -/
def actUnknown (s : State) : Answer := s.refuse .unknownCommand

/-! ## The meanings -/

/-- SET_SUBSCRIPTION (R197). -/
def execSetSubscription (d : Desk) (tag : Byte) (payload : List Byte) (s : State) : Host.Outcome State Fault Refusal :=
  .next (s.request_ d tag 0x60 (actSetSubscription d payload))

/-- SET_CLOCK (R163). -/
def execSetClock (d : Desk) (tag : Byte) (payload : List Byte) (s : State) : Host.Outcome State Fault Refusal :=
  .next (s.request_ d tag 0x61 (actSetClock payload))

/-- OPEN_CONFIG (R202). -/
def execOpenConfig (d : Desk) (tag : Byte) (payload : List Byte) (s : State) : Host.Outcome State Fault Refusal :=
  .next (s.request_ d tag 0x62 (actOpenConfig d payload))

/-- CONFIGURE (R203). -/
def execConfigure (d : Desk) (tag : Byte) (payload : List Byte) (s : State) : Host.Outcome State Fault Refusal :=
  .next (s.request_ d tag 0x63 (actConfigure d payload))

/-- CLOSE_CONFIG (R204). -/
def execCloseConfig (d : Desk) (tag : Byte) (payload : List Byte) (s : State) : Host.Outcome State Fault Refusal :=
  .next (s.request_ d tag 0x64 (actCloseConfig d payload))

/-- ABANDON_CONFIG (R205). -/
def execAbandonConfig (d : Desk) (tag : Byte) (payload : List Byte) (s : State) : Host.Outcome State Fault Refusal :=
  .next (s.request_ d tag 0x65 (actAbandonConfig d payload))

/-- SAVE_CONFIG (R206). -/
def execSaveConfig (d : Desk) (tag : Byte) (payload : List Byte) (s : State) : Host.Outcome State Fault Refusal :=
  .next (s.request_ d tag 0x66 (actSaveConfig payload))

/-- RESTART (R208). -/
def execRestart (d : Desk) (tag : Byte) (payload : List Byte) (s : State) : Host.Outcome State Fault Refusal :=
  .next (s.request_ d tag 0x67 (actRestart payload))

/-- UNKNOWN_COMMAND (R189): a code outside the table. -/
def execUnknownCommand (d : Desk) (tag code : Byte) (_payload : List Byte) (s : State) : Host.Outcome State Fault Refusal :=
  .next (s.request_ d tag code actUnknown)

end Sys2Proof.Machine
end

