-- ==== Sys2Proof/Machine/Tables.lean ====
section
/-! DEFINITION. The commands of the season tables: WRITE_ENTRIES, DELETE_ENTRY, CLEAR_SEASON, SET_CHANGEOVER, ARM_SEASON and
DISARM. -/

namespace Sys2Proof.Machine

/-- The season store changed. -/
def State.modSeason (s : State) (f : Season → Season) : State := { s with season := f s.season }

/-- The number of flagged entries of a table (R126, R129). -/
def flaggedCount (es : List Entry) : Nat := (es.filter fun e => e.failed.isSome).length

/-- The list of a WRITE_ENTRIES taken: each entry on its own status, then the effects of an edit where one was accepted (R117,
R124). -/
def State.writeList (s : State) (t : TableId) (records : List (List Byte)) : List Status × State :=
  let (xs, s1) := s.writeAll t records
  (xs, if xs.any fun x => x == .done then s1.edited t else s1)

/-- WRITE_ENTRIES (R117, R184). -/
def actWriteEntries (payload : List Byte) (s : State) : Answer :=
  match payload with
  | t :: n :: rest =>
    match tableOf t.toNat, decide (1 ≤ n.toNat ∧ n.toNat ≤ 8 ∧ rest.length = 16 * n.toNat) with
    | some t, true =>
      if !s.cfg.configured then s.refuse .notConfigured
      else if s.isOpen then s.refuse .configOpen
      else
        let (xs, s') := s.writeList t (records16 n.toNat rest)
        s.answer .done (listOf (fun x : Status => num1 x.code) xs ++ num2 (s'.season.table t).length ++
          num2 (s'.season.edit t)) s'
    | _, _ => s.refuse .badArgument
  | _ => s.refuse .badArgument

/-- An entry deleted, with the effects of an edit (R122, R124). -/
def State.deleteEntry (s : State) (t : TableId) (id : Nat) : State :=
  (s.modSeason fun x => x.setTable t (removeEntry (x.table t) id)).edited t

/-- DELETE_ENTRY (R122). -/
def actDeleteEntry (payload : List Byte) (s : State) : Answer :=
  match args [1, 2] payload with
  | some [t, id] =>
    match tableOf t, decide (1 ≤ id ∧ id ≤ 9999) with
    | some t, true =>
      if !s.cfg.configured then s.refuse .notConfigured
      else
        match entryOf (s.season.table t) id with
        | none => s.tell []
        | some e => if s.run.inUse t e then s.refuse .inUse else s.answer .done [] (s.deleteEntry t id)
    | _, _ => s.refuse .badArgument
  | _ => s.refuse .badArgument

/-- A table cleared, with the effects of an edit (R123, R124). -/
def State.clearTable (s : State) (t : TableId) : State := (s.modSeason fun x => x.setTable t []).edited t

/-- CLEAR_SEASON (R123). -/
def actClearSeason (payload : List Byte) (s : State) : Answer :=
  match args [1] payload with
  | some [t] =>
    match tableOf t with
    | some t =>
      if !s.cfg.configured then s.refuse .notConfigured
      else if (s.season.table t).any (s.run.inUse t) then s.refuse .inUse
      else if (s.season.table t).isEmpty then s.tell []
      else s.answer .done [] (s.clearTable t)
    | none => s.refuse .badArgument
  | _ => s.refuse .badArgument

/-- The refusals of SET_CHANGEOVER (R125). -/
def State.changeoverRefusal (s : State) (m : DayMinute) : Option Status :=
  if !(decide (m.day ≤ 36524) && decide (m.minute < 1440)) then some .badArgument
  else if !s.cfg.configured then some .notConfigured
  else match s.clockSet, s.siteMinute with
  | true, some now => if m.site ≤ now then some .badArgument else none
  | _, _ => some .notPermitted

/-- SET_CHANGEOVER (R125). -/
def actSetChangeover (payload : List Byte) (s : State) : Answer :=
  match args [2, 2] payload with
  | some [day, minute] =>
    match s.changeoverRefusal ⟨day, minute⟩ with
    | some e => s.refuse e
    | none => ⟨.done, [], s.modSeason fun x => { x with changeover := some ⟨day, minute⟩ }⟩
  | _ => s.refuse .badArgument

/-- ARM_SEASON (R126). -/
def actArmSeason (payload : List Byte) (s : State) : Answer :=
  match args [1] payload with
  | some [t] =>
    match tableOf t with
    | some t =>
      if t == s.season.active then s.refuse .badArgument
      else if !s.cfg.configured then s.refuse .notConfigured
      else
        let es := s.season.table t
        ⟨.done, num2 es.length ++ num2 (flaggedCount es), s.modSeason fun x => { x with armed := true }⟩
    | none => s.refuse .badArgument
  | _ => s.refuse .badArgument

/-- DISARM (R126). -/
def actDisarm (payload : List Byte) (s : State) : Answer :=
  match args [] payload with
  | some [] =>
    if !s.cfg.configured then s.refuse .notConfigured
    else ⟨.done, [], (s.modSeason fun x => { x with armed := false }).raiseIf s.season.armed .schedule⟩
  | _ => s.refuse .badArgument

/-! ## The meanings -/

/-- WRITE_ENTRIES (R117). -/
def execWriteEntries (d : Desk) (tag : Byte) (payload : List Byte) (s : State) : Host.Outcome State Fault Refusal :=
  .next (s.request_ d tag 0x40 (actWriteEntries payload))

/-- DELETE_ENTRY (R122). -/
def execDeleteEntry (d : Desk) (tag : Byte) (payload : List Byte) (s : State) : Host.Outcome State Fault Refusal :=
  .next (s.request_ d tag 0x41 (actDeleteEntry payload))

/-- CLEAR_SEASON (R123). -/
def execClearSeason (d : Desk) (tag : Byte) (payload : List Byte) (s : State) : Host.Outcome State Fault Refusal :=
  .next (s.request_ d tag 0x42 (actClearSeason payload))

/-- SET_CHANGEOVER (R125). -/
def execSetChangeover (d : Desk) (tag : Byte) (payload : List Byte) (s : State) : Host.Outcome State Fault Refusal :=
  .next (s.request_ d tag 0x43 (actSetChangeover payload))

/-- ARM_SEASON (R126). -/
def execArmSeason (d : Desk) (tag : Byte) (payload : List Byte) (s : State) : Host.Outcome State Fault Refusal :=
  .next (s.request_ d tag 0x44 (actArmSeason payload))

/-- DISARM (R126). -/
def execDisarm (d : Desk) (tag : Byte) (payload : List Byte) (s : State) : Host.Outcome State Fault Refusal :=
  .next (s.request_ d tag 0x45 (actDisarm payload))

end Sys2Proof.Machine
end

