-- ==== Sys2Proof/Machine/Serial.lean ====
section
/-! DEFINITION. The events of a desk link: DESK_BYTE_ARRIVAL, FRAME_DISCARD, INTER_BYTE_TIMEOUT, REPLY_SENT and
ATTENTION_FRAME. -/

namespace Sys2Proof.Machine

/-- The owner's act for a request that the receiver has read, by its code (R189). -/
def ownerOf (d : Desk) (r : Request) : State → Answer :=
  let p := r.payload
  match r.code.toNat with
  | 0x01 => actDescribe p
  | 0x02 => actReadHall p
  | 0x03 => actReadTransmitter p
  | 0x04 => actReadAntenna p
  | 0x05 => actReadRotator p
  | 0x06 => actReadRoutes p
  | 0x07 => actReadEntries p
  | 0x08 => actReadRun p
  | 0x09 => actReadOutcomes p
  | 0x0A => actReadLockouts p
  | 0x0B => actReadAttention d p
  | 0x0C => actReadClock p
  | 0x20 => actTakeHand d p
  | 0x21 => actReturnHand d p
  | 0x22 => actRoute d p
  | 0x23 => actUnroute d p
  | 0x24 => actSetRf d p
  | 0x25 => actTune d p
  | 0x26 => actSlew d p
  | 0x27 => actStopSlew d p
  | 0x28 => actCalibrateRotator p
  | 0x29 => actClearTrip d p
  | 0x2A => actClearAntennaFault p
  | 0x2B => actSetEnabledBands p
  | 0x2C => actPlaceLockout d p
  | 0x2D => actReleaseLockout d p
  | 0x2E => actAckHallSafe d p
  | 0x40 => actWriteEntries p
  | 0x41 => actDeleteEntry p
  | 0x42 => actClearSeason p
  | 0x43 => actSetChangeover p
  | 0x44 => actArmSeason p
  | 0x45 => actDisarm p
  | 0x60 => actSetSubscription d p
  | 0x61 => actSetClock p
  | 0x62 => actOpenConfig d p
  | 0x63 => actConfigure d p
  | 0x64 => actCloseConfig d p
  | 0x65 => actAbandonConfig d p
  | 0x66 => actSaveConfig p
  | 0x67 => actRestart p
  | _ => actUnknown

/-- The bytes of a receiver are examined, the requests found are handed on in order, and the frame begun is kept with the time
that `gap` gives it (R185). -/
def State.examine (s : State) (d : Desk) (bytes : List Byte) (gap : Timer) : State :=
  let x := scanAll bytes
  let s := s.modLink d fun l => { l with rx := x.rest, byteGap := if x.rest.isEmpty then .idle else gap }
  x.requests.foldl (fun s r => s.handOn d r.tag r.code (ownerOf d r)) s

/-- DESK_BYTE_ARRIVAL (R185): in HUNTING a byte other than sync is passed over; else it is gathered, with 20 ms for the next. -/
def execDeskByteArrival (d : Desk) (b : Byte) (s : State) : Host.Outcome State Fault Refusal :=
  .next (s.examine d ((s.link d).rx ++ [b]) (s.startTimer 20))

/-- FRAME_DISCARD (R185): the byte with which a frame is found wanting arrives; hunting resumes behind its sync byte, or behind
the whole of a sound frame of another kind. -/
def execFrameDiscard (d : Desk) (b : Byte) (s : State) : Host.Outcome State Fault Refusal :=
  .next (s.examine d ((s.link d).rx ++ [b]) (s.startTimer 20))

/-- INTER_BYTE_TIMEOUT (R185): 20 ms have passed since the last byte; the frame is discarded and hunting resumes behind its sync
byte. A frame found to begin there has the same last byte, so its own 20 ms have run out with it. -/
def execInterByteTimeout (d : Desk) (s : State) : Host.Outcome State Fault Refusal :=
  .next <|
    match (s.link d).byteGap with
    | .running due => (s.atExpiry (.running due)).examine d (s.link d).rx.tail (.running due)
    | _ => s

/-- The reply sent was that of the request in progress, which it ends (R186): no other reply of a taken request waits. -/
def endsProgress (f : Frame) (rest : List Frame) : Bool := f.isTaken && !rest.any Frame.isTaken

/-- The reply sent answers a RESTART that is still in progress and was taken (R198, R208). DEDUCED (log 61): where another warm restart
has ended that request while its reply was being sent, no second restart follows the reply. -/
def endsRestart (progress : Option (Byte × Byte)) (st : Status) : Bool :=
  match progress with
  | some (_, code) => code == 0x67 && st == .done
  | none => false

/-- REPLY_SENT (R186, R188, R198): the last byte of the reply at the head of the queue has been sent. Where it answered a
RESTART, the restart is taken. -/
def execReplySent (d : Desk) (s : State) : Host.Outcome State Fault Refusal :=
  .next <|
    let l := (s.link d).dropSent
    match l.queue with
    | .reply tag st payload b :: rest =>
      let ends := endsProgress (.reply tag st payload b) rest
      let s1 := (s.modLink d fun _ =>
        { l with queue := rest, inProgress := if ends then none else l.inProgress }).send
          (.deskFrames d (replyFrames tag st payload))
      if ends && endsRestart l.inProgress st then (State.cascade s1 (s1.restart (some d))).flush else s1
    | _ => s

/-- ATTENTION_FRAME (R195): the sending of the waiting frame at the head of the queue would begin; its content is formed, and it
is sent, or removed where the content is empty. -/
def execAttentionFrame (d : Desk) (s : State) : Host.Outcome State Fault Refusal :=
  .next <|
    let l := (s.link d).dropSent
    match l.queue with
    | .attnWaiting :: rest =>
      let content := l.attn &&& l.sub
      if content == 0 then s.modLink d fun _ => { l with queue := rest }
      else
        (s.modLink d fun _ => { l with queue := .attnSending l.count content :: rest, count := l.count + 1 }).send
          (.deskFrames d [attentionBytes l.count content])
    | _ => s

end Sys2Proof.Machine
end

