-- ==== Sys2Proof/Machine/Transmitters.lean ====
section
/-! DEFINITION. The events of the transmitters: STATUS, SILENCE_TIMEOUT, TUNE_TIMER_EXPIRY, FEED_TIMER_EXPIRY,
RECYCLE_TIMER_EXPIRY and RF_WATCH_EXPIRY. -/

namespace Sys2Proof.Machine

/-- STATUS (R91): a report that is not accepted is discarded. In settling the first accepted one meets the transmitter's wait
(R111, R208); where that is the last, settling ends behind the report (log 68). -/
def execStatus (n : Tx) (r : StatusReport) (s : State) : Host.Outcome State Fault Refusal :=
  .next (if s.statusOk n r then State.event s ((s.takeStatus n r).meetTx n) else s)

/-- SILENCE_TIMEOUT (R94). -/
def execSilenceTimeout (n : Tx) (s : State) : Host.Outcome State Fault Refusal :=
  .next <|
    if (s.tx[n]).silence.isRunning then
      let s1 := s.atExpiry (s.tx[n]).silence
      State.event s1 (s1.silenceExpired n)
    else s

/-- TUNE_TIMER_EXPIRY (R97). -/
def execTuneTimerExpiry (n : Tx) (s : State) : Host.Outcome State Fault Refusal := .next (State.event s (s.tuneExpired n))

/-- FEED_TIMER_EXPIRY (R98). -/
def execFeedTimerExpiry (n : Tx) (s : State) : Host.Outcome State Fault Refusal := .next (State.event s (s.feedExpired n))

/-- RECYCLE_TIMER_EXPIRY (R102). -/
def execRecycleTimerExpiry (n : Tx) (s : State) : Host.Outcome State Fault Refusal :=
  .next <|
    if (s.tx[n]).recycleTimer.isRunning then
      let s1 := s.atExpiry (s.tx[n]).recycleTimer
      State.event s1 (s1.recycleExpired n)
    else s

/-- RF_WATCH_EXPIRY (R103): a trip with cause OTHER is counted. -/
def execRfWatchExpiry (n : Tx) (s : State) : Host.Outcome State Fault Refusal :=
  .next <|
    if (s.tx[n]).rfWatch.isRunning then
      let s1 := s.atExpiry (s.tx[n]).rfWatch
      State.event s1 (s1.countTrip n .other)
    else s

end Sys2Proof.Machine
end

