-- ==== Sys2Proof/Machine/Dispatch.lean ====
section
/-! DEFINITION. The dispatch: one arm for each command, calling its meaning. -/

namespace Sys2Proof.Machine

/-- The effect of a command on everything but the queue. -/
def exec (i : Instr) (s : State) : Host.Outcome State Fault Refusal :=
  match i with
  | .powerUp => Sys2Proof.Machine.execPowerUp s
  | .warmRestart => Sys2Proof.Machine.execWarmRestart s
  | .settlingTimeout => Sys2Proof.Machine.execSettlingTimeout s
  | .describe d tag payload => Sys2Proof.Machine.execDescribe d tag payload s
  | .readHall d tag payload => Sys2Proof.Machine.execReadHall d tag payload s
  | .readTransmitter d tag payload => Sys2Proof.Machine.execReadTransmitter d tag payload s
  | .readAntenna d tag payload => Sys2Proof.Machine.execReadAntenna d tag payload s
  | .readRotator d tag payload => Sys2Proof.Machine.execReadRotator d tag payload s
  | .readRoutes d tag payload => Sys2Proof.Machine.execReadRoutes d tag payload s
  | .readEntries d tag payload => Sys2Proof.Machine.execReadEntries d tag payload s
  | .readRun d tag payload => Sys2Proof.Machine.execReadRun d tag payload s
  | .readOutcomes d tag payload => Sys2Proof.Machine.execReadOutcomes d tag payload s
  | .readLockouts d tag payload => Sys2Proof.Machine.execReadLockouts d tag payload s
  | .readAttention d tag payload => Sys2Proof.Machine.execReadAttention d tag payload s
  | .readClock d tag payload => Sys2Proof.Machine.execReadClock d tag payload s
  | .takeHand d tag payload => Sys2Proof.Machine.execTakeHand d tag payload s
  | .returnHand d tag payload => Sys2Proof.Machine.execReturnHand d tag payload s
  | .route d tag payload => Sys2Proof.Machine.execRoute d tag payload s
  | .unroute d tag payload => Sys2Proof.Machine.execUnroute d tag payload s
  | .setRf d tag payload => Sys2Proof.Machine.execSetRf d tag payload s
  | .tune d tag payload => Sys2Proof.Machine.execTune d tag payload s
  | .slew d tag payload => Sys2Proof.Machine.execSlew d tag payload s
  | .stopSlew d tag payload => Sys2Proof.Machine.execStopSlew d tag payload s
  | .calibrateRotator d tag payload => Sys2Proof.Machine.execCalibrateRotator d tag payload s
  | .clearTrip d tag payload => Sys2Proof.Machine.execClearTrip d tag payload s
  | .clearAntennaFault d tag payload => Sys2Proof.Machine.execClearAntennaFault d tag payload s
  | .setEnabledBands d tag payload => Sys2Proof.Machine.execSetEnabledBands d tag payload s
  | .placeLockout d tag payload => Sys2Proof.Machine.execPlaceLockout d tag payload s
  | .releaseLockout d tag payload => Sys2Proof.Machine.execReleaseLockout d tag payload s
  | .ackHallSafe d tag payload => Sys2Proof.Machine.execAckHallSafe d tag payload s
  | .writeEntries d tag payload => Sys2Proof.Machine.execWriteEntries d tag payload s
  | .deleteEntry d tag payload => Sys2Proof.Machine.execDeleteEntry d tag payload s
  | .clearSeason d tag payload => Sys2Proof.Machine.execClearSeason d tag payload s
  | .setChangeover d tag payload => Sys2Proof.Machine.execSetChangeover d tag payload s
  | .armSeason d tag payload => Sys2Proof.Machine.execArmSeason d tag payload s
  | .disarm d tag payload => Sys2Proof.Machine.execDisarm d tag payload s
  | .setSubscription d tag payload => Sys2Proof.Machine.execSetSubscription d tag payload s
  | .setClock d tag payload => Sys2Proof.Machine.execSetClock d tag payload s
  | .openConfig d tag payload => Sys2Proof.Machine.execOpenConfig d tag payload s
  | .configure d tag payload => Sys2Proof.Machine.execConfigure d tag payload s
  | .closeConfig d tag payload => Sys2Proof.Machine.execCloseConfig d tag payload s
  | .abandonConfig d tag payload => Sys2Proof.Machine.execAbandonConfig d tag payload s
  | .saveConfig d tag payload => Sys2Proof.Machine.execSaveConfig d tag payload s
  | .restart d tag payload => Sys2Proof.Machine.execRestart d tag payload s
  | .unknownCommand d tag code payload => Sys2Proof.Machine.execUnknownCommand d tag code payload s
  | .frameDiscard d b => Sys2Proof.Machine.execFrameDiscard d b s
  | .interByteTimeout d => Sys2Proof.Machine.execInterByteTimeout d s
  | .replySent d => Sys2Proof.Machine.execReplySent d s
  | .attentionFrame d => Sys2Proof.Machine.execAttentionFrame d s
  | .position w r => Sys2Proof.Machine.execPosition w r s
  | .travelTimeout w => Sys2Proof.Machine.execTravelTimeout w s
  | .reportWindowEnd => Sys2Proof.Machine.execReportWindowEnd s
  | .supplyHoldExpiry => Sys2Proof.Machine.execSupplyHoldExpiry s
  | .rfDropTimeout n => Sys2Proof.Machine.execRfDropTimeout n s
  | .tripWaitExpiry n => Sys2Proof.Machine.execTripWaitExpiry n s
  | .sensorFrame k f => Sys2Proof.Machine.execSensorFrame k f s
  | .frameTimeout k => Sys2Proof.Machine.execFrameTimeout k s
  | .reverseDwellEnd k => Sys2Proof.Machine.execReverseDwellEnd k s
  | .powerWaitExpiry k => Sys2Proof.Machine.execPowerWaitExpiry k s
  | .stallWindowExpiry k => Sys2Proof.Machine.execStallWindowExpiry k s
  | .slewTimerExpiry k => Sys2Proof.Machine.execSlewTimerExpiry k s
  | .status n r => Sys2Proof.Machine.execStatus n r s
  | .silenceTimeout n => Sys2Proof.Machine.execSilenceTimeout n s
  | .tuneTimerExpiry n => Sys2Proof.Machine.execTuneTimerExpiry n s
  | .feedTimerExpiry n => Sys2Proof.Machine.execFeedTimerExpiry n s
  | .recycleTimerExpiry n => Sys2Proof.Machine.execRecycleTimerExpiry n s
  | .rfWatchExpiry n => Sys2Proof.Machine.execRfWatchExpiry n s
  | .timePulse => Sys2Proof.Machine.execTimePulse s
  | .tick => Sys2Proof.Machine.execTick s
  | .time m => Sys2Proof.Machine.execTime m s
  | .accessChange l => Sys2Proof.Machine.execAccessChange l s
  | .closedTimerExpiry => Sys2Proof.Machine.execClosedTimerExpiry s
  | .supplyChange l => Sys2Proof.Machine.execSupplyChange l s
  | .rfSenseChange n l => Sys2Proof.Machine.execRfSenseChange n l s
  | .saveComplete answered faults => Sys2Proof.Machine.execSaveComplete answered faults s
  | .inputSample x => Sys2Proof.Machine.execInputSample x s
  | .deskByteArrival d b => Sys2Proof.Machine.execDeskByteArrival d b s

end Sys2Proof.Machine
end

