-- ==== Sys2Proof/Machine/Step.lean ====
section
/-! DEFINITION. One step: the command at the front of the queue, or one millisecond of the internal timebase. -/

namespace Sys2Proof.Machine

/-- A state with nothing commanded: the internal timebase advances by one millisecond. DESIGN CHOICE (log entry 1): the
table has no row for the passing of time. -/
def idle (s : State) : State := { s with timebase := s.timebase + 1 }

/-- One step: the command at the front of the queue acts on the state with the rest of the queue; an empty queue idles. -/
def step (s : State) : Host.Outcome State Fault Refusal :=
  match s.pending with
  | [] => .next (idle s)
  | c :: rest => exec c { s with pending := rest }

/-- The command that a word spells put at the front of the queue; the state unchanged where the word spells none. -/
def State.withFetchWord (s : State) (nbits w : Nat) : State :=
  match Sys2Proof.decodeTableWord nbits w with
  | some c => { s with pending := c :: s.pending }
  | none => s

end Sys2Proof.Machine
end

