-- ==== Sys2Proof/WellFormed.lean ====
section
/-! DEFINITION. Well-formed commands: those that the lines of the part can carry. -/

namespace Sys2Proof

/-- The payload of a sound frame is 0 to 240 bytes long (R184). -/
def payloadOk (payload : List Byte) : Bool := decide (payload.length ≤ 240)

/-- A code of the command table (R189). -/
def codeKnown (code : Byte) : Bool :=
  let c := code.toNat
  decide (0x01 ≤ c ∧ c ≤ 0x0C) || decide (0x20 ≤ c ∧ c ≤ 0x2E) || decide (0x40 ≤ c ∧ c ≤ 0x45) || decide (0x60 ≤ c ∧ c ≤ 0x67)

/-- A transmitter reports no trip cause but REFLECTED, OVERLOAD and OTHER, and one only with TRIPPED (R91). -/
def StatusReport.causeOk (r : StatusReport) : Bool :=
  r.cause != some .hotSwitch && (r.cause.isNone || r.cond == some .tripped)

/-- The bytes that a save left wrong lie inside the 8 KiB of the configuration memory ("External connections"). -/
def faultsOk (faults : List (Nat × Byte)) : Bool := faults.all fun f => decide (f.1 < 8192)

/-- A command that the lines of the part can carry. -/
def Instr.wf : Instr → Bool
  | .powerUp => true
  | .warmRestart => true
  | .settlingTimeout => true
  | .describe _ _ p => payloadOk p
  | .readHall _ _ p => payloadOk p
  | .readTransmitter _ _ p => payloadOk p
  | .readAntenna _ _ p => payloadOk p
  | .readRotator _ _ p => payloadOk p
  | .readRoutes _ _ p => payloadOk p
  | .readEntries _ _ p => payloadOk p
  | .readRun _ _ p => payloadOk p
  | .readOutcomes _ _ p => payloadOk p
  | .readLockouts _ _ p => payloadOk p
  | .readAttention _ _ p => payloadOk p
  | .readClock _ _ p => payloadOk p
  | .takeHand _ _ p => payloadOk p
  | .returnHand _ _ p => payloadOk p
  | .route _ _ p => payloadOk p
  | .unroute _ _ p => payloadOk p
  | .setRf _ _ p => payloadOk p
  | .tune _ _ p => payloadOk p
  | .slew _ _ p => payloadOk p
  | .stopSlew _ _ p => payloadOk p
  | .calibrateRotator _ _ p => payloadOk p
  | .clearTrip _ _ p => payloadOk p
  | .clearAntennaFault _ _ p => payloadOk p
  | .setEnabledBands _ _ p => payloadOk p
  | .placeLockout _ _ p => payloadOk p
  | .releaseLockout _ _ p => payloadOk p
  | .ackHallSafe _ _ p => payloadOk p
  | .writeEntries _ _ p => payloadOk p
  | .deleteEntry _ _ p => payloadOk p
  | .clearSeason _ _ p => payloadOk p
  | .setChangeover _ _ p => payloadOk p
  | .armSeason _ _ p => payloadOk p
  | .disarm _ _ p => payloadOk p
  | .setSubscription _ _ p => payloadOk p
  | .setClock _ _ p => payloadOk p
  | .openConfig _ _ p => payloadOk p
  | .configure _ _ p => payloadOk p
  | .closeConfig _ _ p => payloadOk p
  | .abandonConfig _ _ p => payloadOk p
  | .saveConfig _ _ p => payloadOk p
  | .restart _ _ p => payloadOk p
  | .unknownCommand _ _ code p => !codeKnown code && payloadOk p
  | .frameDiscard _ _ => true
  | .interByteTimeout _ => true
  | .replySent _ => true
  | .attentionFrame _ => true
  | .position _ _ => true
  | .travelTimeout _ => true
  | .reportWindowEnd => true
  | .supplyHoldExpiry => true
  | .rfDropTimeout _ => true
  | .tripWaitExpiry _ => true
  | .sensorFrame _ _ => true
  | .frameTimeout _ => true
  | .reverseDwellEnd _ => true
  | .powerWaitExpiry _ => true
  | .stallWindowExpiry _ => true
  | .slewTimerExpiry _ => true
  | .status _ r => r.causeOk
  | .silenceTimeout _ => true
  | .tuneTimerExpiry _ => true
  | .feedTimerExpiry _ => true
  | .recycleTimerExpiry _ => true
  | .rfWatchExpiry _ => true
  | .timePulse => true
  | .tick => true
  | .time _ => true
  | .accessChange _ => true
  | .closedTimerExpiry => true
  | .supplyChange _ => true
  | .rfSenseChange _ _ => true
  | .saveComplete _ faults => faultsOk faults
  | .inputSample _ => true
  | .deskByteArrival _ _ => true

end Sys2Proof
end

