-- ==== Sys2Proof/Safety.lean ====
section
/-! DEFINITION. What the claims hold a state to: what the consequences of an act leave alone, how a desk command is answered,
permits that are what the permit logic computes, RF kept off a path that is not at rest, the forms that memory and tables
keep, the start of a drive, and the candidates of choosing. -/

namespace Sys2Proof.Machine

/-! ## What consequences leave alone -/

/-- The fields of a transmitter record that no consequence of an act changes. -/
structure KeptTx where
  holder : Option Desk
  reporting : Bool
  lastCond : Option TxCond
  feed : Option Nat
  rfLevel : Option Level
  history : List Nat
  warning : Bool
  lastFreq : Option Nat
  deriving DecidableEq, Repr

/-- The kept fields of a transmitter record. -/
def TxRec.kept (r : TxRec) : KeptTx :=
  { holder := r.holder, reporting := r.reporting, lastCond := r.lastCond, feed := r.feed, rfLevel := r.rfLevel,
    history := r.history, warning := r.warning, lastFreq := r.lastFreq }

/-- The waits of a settling record. -/
structure Waits where
  timer : Timer
  waitTx : List Tx
  waitRot : List Rot
  waitSw : List Sw
  deriving DecidableEq, Repr

/-- The waits of a settling record. -/
def Settling.waits (x : Settling) : Waits := ⟨x.timer, x.waitTx, x.waitRot, x.waitSw⟩

/-- A lockout without its state: target, placing desk, reason, placed-at time. -/
structure KeptLock where
  target : Target
  desk : Desk
  reason : Nat
  placed : Option (Nat × Nat)
  deriving DecidableEq, Repr

/-- A lockout without its state. -/
def LockRec.kept (r : LockRec) : KeptLock := ⟨r.target, r.desk, r.reason, r.placed⟩

/-- Everything that only a command changes itself: the queue of waiting commands, the timebase, the configuration store, the site
clock, the hall monitor, the rotator positions, the enabled masks and fault marks, the entries and edit numbers of the season
tables, what transmitters reported and who holds them, which lockouts stand, the supply hold and the report window. -/
structure Kept where
  pending : List Instr
  timebase : Nat
  cfg : ConfigStore
  waits : Option Waits
  clock : Clock
  hall : Hall
  rot : Vector RotRec 4
  enabled : Vector Word16 24
  faultMark : Vector Bool 24
  tableA : List Entry
  tableB : List Entry
  editA : Nat
  editB : Nat
  tx : Vector KeptTx 8
  locks : List KeptLock
  supplyHold : Timer
  supplyHeld : Bool
  reportWindow : Timer
  deriving DecidableEq, Repr

/-- Everything that only a command changes itself. -/
def State.kept (s : State) : Kept :=
  { pending := s.pending, timebase := s.timebase, cfg := { s.cfg with settling := none }, waits := s.cfg.settling.map Settling.waits,
    clock := s.clock, hall := s.hall, rot := s.rot, enabled := s.enabled, faultMark := s.faultMark,
    tableA := s.season.tableA, tableB := s.season.tableB, editA := s.season.editA, editB := s.season.editB,
    tx := s.tx.map TxRec.kept, locks := s.locks.records.map LockRec.kept, supplyHold := s.mx.supplyHold,
    supplyHeld := s.mx.supplyHeld, reportWindow := s.mx.reportWindow }

/-- A link changed in nothing but its attention set, which may have gained classes, and whether a frame is due (R194). -/
structure LinkCalm (a b : Link) : Prop where
  same : { b with attn := a.attn, due := a.due } = a
  grows : a.attn &&& b.attn = a.attn

/-- The requester and the requested level of a transmitter in hand: as they were, or HAND with its holder, at the level asked for
in that hand, OFF where none was (R45). -/
def HandKept (a b : PermitRec) (d : Desk) : Prop :=
  (b.requester = a.requester ∧ b.requested = a.requested) ∨
    (b.requester = .hand d ∧ b.requested = if a.requester = .hand d then a.requested else .off)

/-- What the consequences of an act do not do: `Kept` stays, the links change in nothing but attention, nothing sent is taken back,
and a transmitter in hand keeps its requested level. -/
structure Calm (a b : State) : Prop where
  kept : b.kept = a.kept
  links : ∀ d : Desk, LinkCalm (a.link d) (b.link d)
  sent : a.sent <+: b.sent
  hand : ∀ (n : Tx) (d : Desk), (a.tx[n]).holder = some d → HandKept a.permit[n] b.permit[n] d

/-! ## Invariants -/

/-- Every permit record is what the permit logic computes from everything it reads (R44 to R49). -/
def PermitsCurrent (s : State) : Prop := ∀ n : Tx, s.permit[n] = s.permitOf n

/-- What R47 asks of an output above OFF: the transmitter configured, the hall NORMAL, no configuration open, no lockout on the
transmitter, its record READY or RADIATING (set aside while settling, R51), no force, no route task, every switch of the path STEADY
in place, the output switch at a position and not FAULT, and exactly one selector at the bus where the output switch is at
ANTENNA. -/
structure PathGuarded (s : State) (n : Tx) : Prop where
  configured : s.cfg.txOk n = true
  hall : s.hall.state = .normal
  closed : s.isOpen = false
  unlocked : s.locked (.tx n) = false
  ready : (s.tx[n]).state.isReady = true ∨ s.isSettling = true
  unforced : (s.permit[n]).forces.some_ = false
  noTask : s.taskRunning n = false
  settled : ∀ w : Sw, s.mx.onPath n w = true → (s.sw w).state = .steady ∧ (s.sw w).confirmed = .stands (s.sw w).commanded
  output : ∃ p : Pos, (s.mx.out[n]).confirmed = .stands p
  oneSelector : (s.mx.out[n]).confirmed = .stands .antenna → ∃ m : Ant, s.mx.feeds n = some m

/-- What R48 asks further where an antenna is fed: no lockout on it, the frequency in its enabled bands, and of its rotator a
position that is not INVALID (set aside while settling, R51), outside the keep-out sectors, and no cap OFF. -/
structure AntennaGuarded (s : State) (n : Tx) (m : Ant) : Prop where
  unlocked : s.locked (.ant m) = false
  band : s.bandOk n m = true
  rotator : ∀ k : Rot, s.cfg.antRot m = some k →
    ((s.rot[k]).validity ≠ .invalid ∨ s.isSettling = true) ∧ s.insideKeepOut k = false ∧ s.capOf k ≠ some .off
  clamped : (s.faultMark[m] = true ∨ ∃ k : Rot, s.cfg.antRot m = some k ∧ s.capOf k = some .low) → (s.permit[n]).output ≠ .full

/-- RF is permitted only where R47 and R48 allow it, and never above the level requested (R49). -/
def OutputsGuarded (s : State) : Prop :=
  ∀ n : Tx, (s.permit[n]).output ≠ .off →
    PathGuarded s n ∧ (∀ m : Ant, s.mx.feeds n = some m → AntennaGuarded s n m) ∧
      (s.permit[n]).output.rank ≤ (s.permit[n]).requested.rank

/-- No more switches are MOVING than the grant limit allows, and none is where a configuration is open or none is in force; none is
while the matrix controller holds drives not permitted, which is so wherever a condition of drive permission fails, unless its
judgement of a change still waits (R10, R11, R20). -/
structure GrantsBounded (s : State) : Prop where
  limit : s.mx.movingCount ≤ s.cfg.active.grantLimit
  closed : (s.isOpen = true ∨ s.cfg.configured = false) → s.mx.movingCount = 0
  permitted : s.mx.permitted = false → s.mx.movingCount = 0
  judged : .mxJudge ∉ s.notices →
    (s.mx.permitted = true ↔ s.mx.supplyHeld = true ∧ s.hall.state = .normal ∧ s.isOpen = false ∧ s.cfg.configured = true ∧
      s.isSettling = false)

/-- The configuration memory is in its canonical form, and what a save is writing fits into it. -/
def MemoryCanonical (s : State) : Prop :=
  Memory.wf s.cfg.image = true ∧ ∀ bytes, s.cfg.saving = some bytes → bytes.length ≤ memorySize

/-- No more than 32 lockouts stand, with no two of one desk on one target (R166); a season table holds no more than 320 entries
(R118), the outcome list no more than 32 records (R133), and a send queue no more than 14 link-BUSY replies (R186) and one waiting
attention frame (R195). -/
structure TablesBounded (s : State) : Prop where
  locks : s.locks.records.length ≤ 32
  distinct : s.locks.records.Pairwise fun a b => ¬(a.target = b.target ∧ a.desk = b.desk)
  seasons : s.season.tableA.length ≤ 320 ∧ s.season.tableB.length ≤ 320
  outcomes : s.run.outcomes.length ≤ 32
  busyReplies : ∀ d : Desk, ((s.link d).queue.filter Frame.isLinkBusy).length ≤ 14
  oneWaiting : ∀ d : Desk, ((s.link d).queue.filter Frame.isWaiting).length ≤ 1

/-- A guard hold stands on every transmitter with RF present and a switch of its path not STEADY (R42), and one stands only
while RF is present, a switch of the path is not STEADY, or the part is settling (R43). -/
def GuardHolds (s : State) : Prop :=
  ∀ n : Tx,
    (s.rfPresent n = true → (∃ w : Sw, s.mx.onPath n w = true ∧ (s.sw w).state ≠ .steady) →
      (s.permit[n]).holds.guard = true) ∧
    ((s.permit[n]).holds.guard = true →
      s.rfPresent n = true ∨ (∃ w : Sw, s.mx.onPath n w = true ∧ (s.sw w).state ≠ .steady) ∨ s.isSettling = true)

/-- A drive started, from the azimuth held toward a target, between a state and the next (R73, R78, R79, R80): the cap is formed from the
path, and the record is in REVERSE_DWELL where the last drive off was in the opposite direction less than 1 s ago; else it is in DRIVE
where power allows, or in SETTLE where it is near already, and in AWAIT_POWER otherwise. -/
def DriveStarted (s u : State) (k : Rot) (held target : Nat) : Prop :=
  let p := s.cfg.active.rot[k]
  let e : Int := (p.travel target : Int) - p.travel held
  let d : Dir := if e < 0 then .ccw else .cw
  let v := u.slew[k]
  v.cap = some (if p.pathCrosses held target then .off else .low) ∧
    match (s.slew[k]).lastOff.filter fun o => o.dir == d.opposite && decide (s.timebase < o.at_ + 1000) with
    | some o => v.state = .reverseDwell ∧ v.dir = some d ∧ v.dwell = .running (o.at_ + 1000)
    | none =>
      if u.powerOk k = false then v.state = .awaitPower ∧ v.dir = some d ∧ v.powerWait = .running (s.timebase + 5000)
      else if e.natAbs ≤ p.stopTol then v.state = .settle ∧ v.settleCount = 0
      else v.state = .drive ∧ v.dir = some d ∧ v.speed = some (if p.creep < e.natAbs then .fast else .creep)

/-- A candidate of choosing (R115, R136): an occurrence of a sound entry of the ACTIVE table for the transmitter, on a day that its day
mask holds, that begins within the 24-hour horizon and not before a done mark of that table. -/
def Candidate (s : State) (n : Tx) (now : Nat) (e : Entry) (start : Nat) : Prop :=
  e ∈ s.season.table s.season.active ∧ e.tx = n ∧ e.failed = none ∧
    (∃ day : Nat, day ≤ 36524 ∧ e.days.getLsbD ((day + 5) % 7) = true ∧ start = day * 1440 + e.start) ∧ start < now + 1440 ∧
    ∀ x : DoneMark, s.run.marks[n] = some x → x.table = s.season.active → x.minute ≤ start

/-- A run record that copies an occurrence of an entry (R132, R136). -/
structure Copies (r : RunRec) (e : Entry) (t : TableId) (start : Nat) : Prop where
  source : r.tx = e.tx ∧ r.table = t ∧ r.entry = e.id
  times : r.start = start ∧ r.stop = start + e.dur
  programme : r.freq = e.freq ∧ r.feed = e.feed ∧ r.power = e.power
  antennas : r.primary = e.primary ∧ r.alt = e.alt ∧ r.az = e.az ∧ r.inUse = none ∧ r.deferred = none

/-- Every enabled mask lies within the supported mask of its antenna (R191). -/
def EnabledWithin (s : State) : Prop := ∀ m : Ant, s.enabled[m] &&& s.cfg.active.supported[m] = s.enabled[m]

/-- The field values that an entry record can carry (R113, R184). -/
structure EntryValid (e : Entry) : Prop where
  id : 1 ≤ e.id ∧ e.id ≤ 9999
  days : e.days ≠ 0
  start : e.start < 1440
  dur : 1 ≤ e.dur ∧ e.dur ≤ 1440
  freq : freqOk e.freq = true
  feed : feedOk e.feed = true
  alt : e.alt ≠ some e.primary
  az : ∀ z, e.az = some z → z < 3600
  power : e.power ≠ .off

/-- The ranges of a rotator's parameters that the azimuth unit reads (R54). -/
structure ParamsValid (p : RotParams) : Prop where
  periods : 16 ≤ p.periods ∧ p.periods ≤ 64
  offF : p.offF ≤ 4095
  offV : p.offV ≤ 4095
  zero : p.zero ≤ 3599
  tol : 256 ≤ p.tol ∧ p.tol ≤ 2047

/-- Every item of a configuration lies within its range, and no keep-out sector has two equal bearings (R199, R203). -/
def ItemsValid (c : Configuration) : Prop :=
  (∀ i ∈ allItems, i.inRange (c.get i) = true) ∧
    ∀ (k : Rot) (j : Fin 4), ((c.rot[k]).sectors[j]).degenerate = false

end Sys2Proof.Machine

namespace Sys2Proof

/-- The desk, tag, command code and payload of the commands that are requests (R184, R189). -/
def Instr.request : Instr → Option (Desk × Byte × Byte × List Byte)
  | .powerUp => none
  | .warmRestart => none
  | .settlingTimeout => none
  | .describe d tag p => some (d, tag, 0x01, p)
  | .readHall d tag p => some (d, tag, 0x02, p)
  | .readTransmitter d tag p => some (d, tag, 0x03, p)
  | .readAntenna d tag p => some (d, tag, 0x04, p)
  | .readRotator d tag p => some (d, tag, 0x05, p)
  | .readRoutes d tag p => some (d, tag, 0x06, p)
  | .readEntries d tag p => some (d, tag, 0x07, p)
  | .readRun d tag p => some (d, tag, 0x08, p)
  | .readOutcomes d tag p => some (d, tag, 0x09, p)
  | .readLockouts d tag p => some (d, tag, 0x0A, p)
  | .readAttention d tag p => some (d, tag, 0x0B, p)
  | .readClock d tag p => some (d, tag, 0x0C, p)
  | .takeHand d tag p => some (d, tag, 0x20, p)
  | .returnHand d tag p => some (d, tag, 0x21, p)
  | .route d tag p => some (d, tag, 0x22, p)
  | .unroute d tag p => some (d, tag, 0x23, p)
  | .setRf d tag p => some (d, tag, 0x24, p)
  | .tune d tag p => some (d, tag, 0x25, p)
  | .slew d tag p => some (d, tag, 0x26, p)
  | .stopSlew d tag p => some (d, tag, 0x27, p)
  | .calibrateRotator d tag p => some (d, tag, 0x28, p)
  | .clearTrip d tag p => some (d, tag, 0x29, p)
  | .clearAntennaFault d tag p => some (d, tag, 0x2A, p)
  | .setEnabledBands d tag p => some (d, tag, 0x2B, p)
  | .placeLockout d tag p => some (d, tag, 0x2C, p)
  | .releaseLockout d tag p => some (d, tag, 0x2D, p)
  | .ackHallSafe d tag p => some (d, tag, 0x2E, p)
  | .writeEntries d tag p => some (d, tag, 0x40, p)
  | .deleteEntry d tag p => some (d, tag, 0x41, p)
  | .clearSeason d tag p => some (d, tag, 0x42, p)
  | .setChangeover d tag p => some (d, tag, 0x43, p)
  | .armSeason d tag p => some (d, tag, 0x44, p)
  | .disarm d tag p => some (d, tag, 0x45, p)
  | .setSubscription d tag p => some (d, tag, 0x60, p)
  | .setClock d tag p => some (d, tag, 0x61, p)
  | .openConfig d tag p => some (d, tag, 0x62, p)
  | .configure d tag p => some (d, tag, 0x63, p)
  | .closeConfig d tag p => some (d, tag, 0x64, p)
  | .abandonConfig d tag p => some (d, tag, 0x65, p)
  | .saveConfig d tag p => some (d, tag, 0x66, p)
  | .restart d tag p => some (d, tag, 0x67, p)
  | .unknownCommand d tag code p => some (d, tag, code, p)
  | .frameDiscard _ _ => none
  | .interByteTimeout _ => none
  | .replySent _ => none
  | .attentionFrame _ => none
  | .position _ _ => none
  | .travelTimeout _ => none
  | .reportWindowEnd => none
  | .supplyHoldExpiry => none
  | .rfDropTimeout _ => none
  | .tripWaitExpiry _ => none
  | .sensorFrame _ _ => none
  | .frameTimeout _ => none
  | .reverseDwellEnd _ => none
  | .powerWaitExpiry _ => none
  | .stallWindowExpiry _ => none
  | .slewTimerExpiry _ => none
  | .status _ _ => none
  | .silenceTimeout _ => none
  | .tuneTimerExpiry _ => none
  | .feedTimerExpiry _ => none
  | .recycleTimerExpiry _ => none
  | .rfWatchExpiry _ => none
  | .timePulse => none
  | .tick => none
  | .time _ => none
  | .accessChange _ => none
  | .closedTimerExpiry => none
  | .supplyChange _ => none
  | .rfSenseChange _ _ => none
  | .saveComplete _ _ => none
  | .inputSample _ => none
  | .deskByteArrival _ _ => none

end Sys2Proof

namespace Sys2Proof.Machine

/-- A number argument of one byte (R190). -/
def numArg (n : Nat) : List Byte := [BitVec.ofNat 8 n]

/-- A number argument of two bytes (R190). -/
def wordArg (n : Nat) : List Byte := bytes2 (BitVec.ofNat 16 n)

/-- A transmitter argument (R190). -/
def txArg (n : Tx) : List Byte := numArg (n.val + 1)

/-- An antenna argument (R190). -/
def antArg (m : Ant) : List Byte := numArg (m.val + 1)

/-- A rotator argument (R190). -/
def rotArg (k : Rot) : List Byte := numArg (k.val + 1)

/-- A level argument (R190). -/
def levelArg (l : Level) : List Byte := numArg (levelCode l)

/-- A table argument (R190). -/
def tableArg (t : TableId) : List Byte := numArg t.code

/-- A lockout target argument (R190). -/
def targetArg : Target → List Byte
  | .tx n => numArg 1 ++ txArg n
  | .ant m => numArg 2 ++ antArg m

/-- A destination argument (R190). -/
def destArg : Dest → List Byte
  | .antenna m => numArg 0 ++ antArg m
  | .dummy => numArg 1 ++ numArg 0
  | .nothing => numArg 2 ++ numArg 0

/-! ## How an event and a desk command are followed -/

/-- A class stands in every desk's attention set (R194). -/
def State.raised (s : State) (a : Attn) : Prop := ∀ d : Desk, (s.link d).attn &&& a.bit = a.bit

/-- What `t` has of `u`, the state that the command itself makes, once every block has taken what follows from it: what only
commands change is as in `u`, nothing sent or raised in `u` is lost, a transmitter in hand keeps its requested level, and the
permits are current. -/
structure Follows (u t : State) : Prop where
  kept : t.kept = u.kept
  sent : u.sent <+: t.sent
  hand : ∀ (n : Tx) (d : Desk), (u.tx[n]).holder = some d → HandKept u.permit[n] t.permit[n] d
  attention : ∀ d : Desk, (u.link d).attn &&& (t.link d).attn = (u.link d).attn
  permits : PermitsCurrent t

/-- A link on which no command has come: at most an attention frame has joined its queue (R195). -/
structure LinkTold (a b : Link) : Prop where
  receiver : b.rx = a.rx ∧ b.byteGap = a.byteGap
  progress : b.inProgress = a.inProgress
  queue : b.queue = a.queue ∨ b.queue = a.queue ++ [.attnWaiting]
  same : b.count = a.count ∧ b.sub = a.sub

/-- An event outside the desk links completes: its own effect makes `u`, which the blocks then run to its end from `a`, the state
they last saw. -/
def EventRuns (c : Instr) (s a u : State) : Prop :=
  ∃ t, exec c s = .next t ∧ t = State.event a u ∧ Follows u t ∧ ∀ d : Desk, LinkTold (s.link d) (t.link d)

/-- A desk's link has taken a request and holds its answer: the reply has joined its queue, before any attention frame that the act
brought (R186, R187). -/
structure LinkAnswered (a b : Link) (tag code : Byte) (st : Status) (payload : List Byte) : Prop where
  receiver : b.rx = [] ∧ b.byteGap = .idle
  progress : b.inProgress = some (tag, code)
  queue : b.queue = a.queue ++ [.reply tag st payload false] ∨
    b.queue = a.queue ++ [.reply tag st payload false, .attnWaiting]
  count : b.count = a.count

/-- The links after an answered desk command (R186, R187). -/
def Answered (s t : State) (d : Desk) (tag code : Byte) (st : Status) (payload : List Byte) : Prop :=
  LinkAnswered (s.link d) (t.link d) tag code st payload ∧ ∀ e : Desk, e ≠ d → LinkTold (s.link e) (t.link e)

/-- The link is free to take a request (R186). -/
def Free (s : State) (d : Desk) : Prop := (s.link d).inProgress = none

/-- A request on the link is taken and given to its owner: none is in progress there, and the part is not settling (R186, R208). -/
def Serves (s : State) (d : Desk) : Prop := Free s d ∧ s.isSettling = false

/-- A request as the link takes it: the receiver hunts and the request is in progress (R185, R186). -/
def State.taken (s : State) (d : Desk) (tag code : Byte) : State :=
  (s.hunt d).modLink d fun l => { l with inProgress := some (tag, code) }

/-- A reply as it joins the queue, and then the attention frames that are due (R186, R187). -/
def State.replied (s : State) (d : Desk) (tag : Byte) (st : Status) (payload : List Byte) : State :=
  (s.modLink d fun l => l.push (.reply tag st payload false)).flush

/-- A desk command completes: its link and its owner make `u` of the state, and the answer joins the queue. No other block is
concerned. -/
def CommandSets (c : Instr) (s : State) (d : Desk) (tag : Byte) (st : Status) (payload : List Byte) (u : State) : Prop :=
  exec c s = .next (u.replied d tag st payload)

/-- A desk command completes with an answer and no other effect than that on its link: a query, a request that finds nothing to do, or
a refusal, which changes nothing. -/
def OnlyAnswered (c : Instr) (s : State) (d : Desk) (tag code : Byte) (st : Status) (payload : List Byte) : Prop :=
  CommandSets c s d tag st payload (s.taken d tag code)

/-- A desk command completes: its link and its owner make `u` of the state, the blocks run what follows from it to its end, and the
answer joins the queue. -/
def CommandRuns (c : Instr) (s : State) (d : Desk) (tag code : Byte) (st : Status) (payload : List Byte) (u : State) : Prop :=
  ∃ t, exec c s = .next t ∧ t = (State.cascade (s.taken d tag code) u).replied d tag st payload ∧ Follows u t ∧
    Answered s t d tag code st payload

/-- The first refusal of a table that applies. -/
def firstOf (table : List (Bool × Status)) : Option Status := (table.find? Prod.fst).map Prod.snd

/-- No attention frame is due: so it is between steps, and after reset. -/
def Quiet (s : State) : Prop := ∀ d : Desk, (s.link d).due = false

end Sys2Proof.Machine
end

