-- ==== Sys2Proof/Certificates/Slice0/Obligations.lean ====
section
/-! DEFINITION. The statements about the HX824: the queue of commands, reset, invariants, encodings, queries, desk commands and
events. Every command of the table has a statement that concludes that it completes. -/

open Sys2Proof Sys2Proof.Machine

/-! ## The machine as a whole -/

/-- A step takes the command at the front of the queue: it is that command on the state with the rest of the queue. The queue is the
model's own (log 1). -/
def Obligations.StepTakesFront : Prop :=
  ∀ (c : Instr) (s : State), step { s with pending := c :: s.pending } = exec c s

/-- No command touches the queue of waiting commands, takes back what has been sent, or sets the internal timebase back, which only
power-up starts anew. The three are the model's own (logs 1 and 5). -/
def Obligations.ExecKeepsQueueAndSent : Prop :=
  ∀ (c : Instr) (s t : State), exec c s = .next t →
    t.pending = s.pending ∧ s.sent <+: t.sent ∧ (c = .powerUp ∨ s.timebase ≤ t.timebase)

/-- The part after power is applied with no image in its memory (R3, R22, R52, R88, R92, R131, R155, R165, R178, R183, R201). -/
def Obligations.ResetState : Prop :=
  let s := State.reset
  s.pending = [] ∧ s.cfg.configured = false ∧ s.cfg.openDesk = none ∧ s.cfg.saving = none ∧ s.sent = [.reportAll] ∧
    s.mx.reportWindow = .running 1000 ∧ s.clock.state = .unset ∧ s.hall.state = .safe ∧ s.season.active = .a ∧
    s.season.tableA = [] ∧ s.season.tableB = [] ∧ s.season.armed = false ∧ s.run.outcomes = [] ∧ s.locks.records = [] ∧
    (∀ w : Sw, (s.sw w).confirmed = .unknown ∧ (s.sw w).state = .steady ∧ (s.sw w).commanded = w.home) ∧
    (∀ n : Tx, s.tasks[n] = none ∧ (s.permit[n]).output = .off ∧ (s.permit[n]).reasons.notConfigured = true ∧
      (s.tx[n]).state = .offline ∧ (s.tx[n]).holder = none ∧ s.run.cur[n] = none ∧ s.run.nxt[n] = none) ∧
    (∀ k : Rot, (s.rot[k]).validity = .invalid ∧ (s.slew[k]).state = .idle ∧ (s.slew[k]).target = none) ∧
    ∀ d : Desk, (s.link d).inProgress = none ∧ (s.link d).queue = [] ∧ (s.link d).attn = 0 ∧ (s.link d).sub = 0

/-- The invariants hold at reset. -/
def Obligations.ResetInvariants : Prop :=
  PermitsCurrent State.reset ∧ OutputsGuarded State.reset ∧ MemoryCanonical State.reset ∧ TablesBounded State.reset ∧
    EnabledWithin State.reset ∧ GrantsBounded State.reset ∧ GuardHolds State.reset ∧ Quiet State.reset

/-- Every step keeps the permits current: each record is what the permit logic computes from everything it reads (R49). -/
def Obligations.PermitsCurrentKept : Prop :=
  ∀ s t : State, PermitsCurrent s → step s = .next t → PermitsCurrent t

/-- Current permits put RF on no path that R47 and R48 do not allow, and never above the requested level. The PERMIT lines carry the output
as R49's table gives, and the TRIP line is asserted while any hold of R50 stands. -/
def Obligations.PermitsGuardOutputs : Prop :=
  (∀ s : State, PermitsCurrent s → OutputsGuarded s) ∧
  ∀ (s : State) (n : Tx),
    ((s.permitLines n).a = true ↔ (s.permit[n]).output ≠ .off) ∧ ((s.permitLines n).b = true ↔ (s.permit[n]).output = .full) ∧
    (s.tripLine n = true ↔
      (s.permit[n]).holds.routeTrip = true ∨ (s.permit[n]).holds.guard = true ∨ (s.permit[n]).holds.hall = true)

/-- Every step keeps the hot-switch guard's holds: one stands wherever RF is present on a path with a switch that is not STEADY, and
none outlives both RF and movement but in settling (R42, R43). -/
def Obligations.GuardHoldsKept : Prop :=
  ∀ s t : State, GuardHolds s → step s = .next t → GuardHolds t

/-- Every step keeps the number of MOVING switches within the grant limit; none moves where a configuration is open or none is in force,
nor, where no judgement of drive permission waits, with the supply not held good for 2 s, the hall not NORMAL or the part settling (R10,
R11, R20). -/
def Obligations.GrantsBoundedKept : Prop :=
  ∀ s t : State, GrantsBounded s → step s = .next t → GrantsBounded t

/-- Every step keeps the configuration memory in its canonical form, which is the model's own (log 8). -/
def Obligations.MemoryCanonicalKept : Prop :=
  ∀ s t : State, MemoryCanonical s → step s = .next t → MemoryCanonical t

/-- A byte of the configuration memory written is read back, and every other byte is as it was. -/
def Obligations.MemoryReadBack : Prop :=
  ∀ (mem : List Host.Cell) (a : Nat) (b : Byte) (c : Nat), Memory.wf mem = true →
    memRead (memWrite mem a b) c = if c = a then b else memRead mem c

/-- Every step keeps the tables within their bounds: 32 lockouts with no two of one desk on one target, 320 entries in a season table,
32 outcomes, 14 link-BUSY replies and one waiting attention frame in a send queue (R118, R133, R166, R186, R195). -/
def Obligations.TablesBoundedKept : Prop :=
  ∀ s t : State, TablesBounded s → step s = .next t → TablesBounded t

/-- Every step keeps each antenna's enabled band mask a subset of its supported band mask (R191, R192). -/
def Obligations.EnabledWithinKept : Prop :=
  ∀ s t : State, EnabledWithin s → step s = .next t → EnabledWithin t

/-! ## Encodings -/

/-- A receiver finds exactly the request that a frame encodes, behind any bytes that hold no sync byte (R184, R185). -/
def Obligations.RequestFrameScanned : Prop :=
  ∀ (before : List Byte) (tag code : Byte) (payload : List Byte), syncByte ∉ before → payload.length ≤ 240 →
    scanAll (before ++ frameBytes 1 tag code payload) = ⟨[⟨tag, code, payload⟩], []⟩

/-- The first 16 bytes of an entry's reply record are the entry record of that entry (R184). -/
def Obligations.EntryRecordRoundTrip : Prop :=
  ∀ e : Entry, EntryValid e → entryOfRecord ((entryBytes e).take 16) = some { e with failed := none }

/-- The image of a configuration, written from the start of the configuration memory, is read back as that configuration (R200, R201,
R203). -/
def Obligations.ImageRoundTrip : Prop :=
  ∀ (mem : List Host.Cell) (c : Configuration), Memory.wf mem = true → ItemsValid c →
    readImage (memWriteAll mem 0 (imageBytes c)) = some c

/-! ## Queries -/

/-- The queries without argument answer DONE with the record of their owner, and change nothing; with an argument they are
BAD_ARGUMENT (R182, R190, R207). Byte layouts that the spec leaves open are the model's choice (logs 9 and 47). -/
def Obligations.WholeRecordQueries : Prop :=
  ∀ (s : State) (d : Desk) (tag : Byte), Free s d →
    OnlyAnswered (.describe d tag []) s d tag 0x01 .done s.identityBytes ∧
    OnlyAnswered (.readHall d tag []) s d tag 0x02 .done s.hallBytes ∧
    OnlyAnswered (.readRoutes d tag []) s d tag 0x06 .done s.routesBytes ∧
    OnlyAnswered (.readLockouts d tag []) s d tag 0x0A .done s.lockoutsBytes ∧
    OnlyAnswered (.readClock d tag []) s d tag 0x0C .done s.clockBytes ∧
    ∀ p : List Byte, p ≠ [] →
      OnlyAnswered (.describe d tag p) s d tag 0x01 .badArgument [] ∧
      OnlyAnswered (.readHall d tag p) s d tag 0x02 .badArgument [] ∧
      OnlyAnswered (.readRoutes d tag p) s d tag 0x06 .badArgument [] ∧
      OnlyAnswered (.readLockouts d tag p) s d tag 0x0A .badArgument [] ∧
      OnlyAnswered (.readClock d tag p) s d tag 0x0C .badArgument []

/-- The queries of one transmitter, antenna, rotator, table or list of outcomes answer DONE with its record, or NOT_CONFIGURED, and
change nothing (R64, R92, R130, R154, R193). Byte layouts that the spec leaves open are the model's choice (logs 9 and 47). -/
def Obligations.ChosenRecordQueries : Prop :=
  ∀ (s : State) (d : Desk) (tag : Byte), Free s d →
    (∀ n : Tx, OnlyAnswered (.readTransmitter d tag (txArg n)) s d tag 0x03 .done (s.txBytes n ++ permitBytes s.permit[n])) ∧
    (∀ m : Ant,
      (s.cfg.antOk m = true → OnlyAnswered (.readAntenna d tag (antArg m)) s d tag 0x04 .done (s.antennaBytes m)) ∧
      (s.cfg.antOk m = false → OnlyAnswered (.readAntenna d tag (antArg m)) s d tag 0x04 .notConfigured [])) ∧
    (∀ k : Rot,
      (s.cfg.rotOk k = true → OnlyAnswered (.readRotator d tag (rotArg k)) s d tag 0x05 .done (s.rotatorBytes k)) ∧
      (s.cfg.rotOk k = false → OnlyAnswered (.readRotator d tag (rotArg k)) s d tag 0x05 .notConfigured [])) ∧
    (∀ n : Tx,
      (s.cfg.txOk n = true → OnlyAnswered (.readRun d tag (txArg n)) s d tag 0x08 .done (s.readRunBytes n)) ∧
      (s.cfg.txOk n = false → OnlyAnswered (.readRun d tag (txArg n)) s d tag 0x08 .notConfigured [])) ∧
    (∀ (x : TableId) (start count : Nat), start ≤ 9999 → 1 ≤ count → count ≤ 8 →
      ((start = 0 ∨ (entryOf (s.season.table x) start).isSome = true) →
        OnlyAnswered (.readEntries d tag (tableArg x ++ wordArg start ++ numArg count)) s d tag 0x07 .done
          (s.entriesBytes x start count)) ∧
      ((start ≠ 0 ∧ entryOf (s.season.table x) start = none) →
        OnlyAnswered (.readEntries d tag (tableArg x ++ wordArg start ++ numArg count)) s d tag 0x07 .badArgument [])) ∧
    ∀ place count : Nat, 1 ≤ place → place ≤ 32 → 1 ≤ count → count ≤ 8 →
      OnlyAnswered (.readOutcomes d tag (numArg place ++ numArg count)) s d tag 0x09 .done (s.outcomesBytes place count)

/-- READ_ATTENTION answers the sender's attention set masked by its subscription and removes those classes from it; other desks' sets
are untouched, and so is everything else (R196). -/
def Obligations.ReadAttentionClears : Prop :=
  ∀ (s : State) (d : Desk) (tag : Byte), Free s d →
    let told := bytes2 (((s.link d).attn &&& (s.link d).sub).setWidth 16)
    CommandSets (.readAttention d tag []) s d tag .done told
      ((s.taken d tag 0x0B).modLink d fun l => { l with attn := l.attn &&& ~~~l.sub }) ∧
    (Quiet s →
      ∃ t, exec (.readAttention d tag []) s = .next t ∧ t.kept = s.kept ∧ t.permit = s.permit ∧ t.sent = s.sent ∧
        LinkAnswered (s.link d) (t.link d) tag 0x0B .done told ∧
        (t.link d).attn = (s.link d).attn &&& ~~~(s.link d).sub ∧ ∀ e : Desk, e ≠ d → t.link e = s.link e)

/-! ## The link of a desk -/

/-- A request handed on while another is in progress has no effect but the link's BUSY reply, and with 14 of them waiting none (R186);
while settling the link's owner answers every request but the queries BUSY (R208), which for codes outside the table and wrong lengths is
the model's reading (log 24), as the hunting receiver of a command row is its choice (log 23). -/
def Obligations.BusyRequestsDoNothing : Prop :=
  ∀ (c : Instr) (s : State) (d : Desk) (tag code : Byte) (p : List Byte), c.request = some (d, tag, code, p) →
    ((s.link d).inProgress ≠ none →
      exec c s = .next (s.modLink d fun l =>
        { l with rx := [], byteGap := .idle,
                 queue := if (l.queue.filter Frame.isLinkBusy).length < 14 then l.queue ++ [.reply tag .busy [] true]
                          else l.queue })) ∧
    (Free s d → s.isSettling = true → isQuery code = false → OnlyAnswered c s d tag code .busy [])

/-- The byte that completes the frame of a request brings what the row of its code brings (R184, R185, R186, R189). That a
command row is the arrival of its last byte, whatever the receiver held, is the model's choice (log 23). -/
def Obligations.ByteArrivalRunsCommand : Prop :=
  ∀ (c : Instr) (s : State) (d : Desk) (tag code b : Byte) (p : List Byte), c.request = some (d, tag, code, p) → c.wf = true →
    (s.link d).rx ++ [b] = frameBytes 1 tag code p → exec (.deskByteArrival d b) s = exec c s

/-- A receiver that hunts passes over every byte but sync, which begins a frame with 20 ms for the next byte. A frame is discarded with
the byte that shows a length above 240, a wrong check or another kind, and with the end of its 20 ms; with
no sync byte in it the receiver then hunts, and nothing else changes (R185). That FRAME_DISCARD is the arrival of
that byte is the model's choice (log 23), and so is that INTER_BYTE_TIMEOUT does nothing where no time runs (log 19). -/
def Obligations.FramesDiscarded : Prop :=
  ∀ (s : State) (d : Desk),
    ((s.link d).rx = [] →
      (∀ b : Byte, b ≠ syncByte →
        exec (.deskByteArrival d b) s = .next (s.modLink d fun l => { l with rx := [], byteGap := .idle })) ∧
      exec (.deskByteArrival d syncByte) s =
        .next (s.modLink d fun l => { l with rx := [syncByte], byteGap := .running (s.timebase + 20) })) ∧
    (∀ kind tag code len : Byte, syncByte ∉ [kind, tag, code, len] → 240 < len.toNat →
      (s.link d).rx = [syncByte, kind, tag, code] →
      exec (.frameDiscard d len) s = .next (s.hunt d)) ∧
    (∀ (kind tag code b : Byte) (p : List Byte), p.length ≤ 240 → kind ≠ 1 →
      (s.link d).rx ++ [b] = frameBytes kind tag code p →
      exec (.frameDiscard d b) s = .next (s.hunt d)) ∧
    (∀ (kind tag code b c1 c2 : Byte) (p : List Byte), p.length ≤ 240 →
      (s.link d).rx ++ [b] = [syncByte, kind, tag, code, BitVec.ofNat 8 p.length] ++ p ++ [c1, c2] →
      bytes2 (crc16 ([kind, tag, code, BitVec.ofNat 8 p.length] ++ p)) ≠ [c1, c2] →
      syncByte ∉ [kind, tag, code, BitVec.ofNat 8 p.length] ++ p ++ [c1, c2] →
      exec (.frameDiscard d b) s = .next (s.hunt d)) ∧
    (∀ (due : Nat) (rest : List Byte), (s.link d).byteGap = .running due → (s.link d).rx = syncByte :: rest → syncByte ∉ rest →
      exec (.interByteTimeout d) s = .next (State.hunt { s with timebase := max s.timebase due } d)) ∧
    ((∀ due : Nat, (s.link d).byteGap ≠ .running due) → exec (.interByteTimeout d) s = .next s)

/-- The last byte of a reply frees its link, and that of a RESTART brings the restart; an attention frame takes its content when its
sending begins, and with nothing to tell it is removed unsent (R186, R188, R195, R198, R208). That a sent attention frame stays at
the head until the next row, and which reply ends the request in progress, is the model's choice (log 20); which frames a RESTART's
own link keeps as begun is its reading (log 21), and so is that the reply to a RESTART whose request is no longer in progress, as
another warm restart leaves it, brings no restart of its own (log 61). -/
def Obligations.SendQueueMoves : Prop :=
  ∀ (s : State) (d : Desk) (rest : List Frame),
    (∀ (tag : Byte) (st : Status) (p : List Byte) (busy : Bool), (s.link d).dropSent.queue = .reply tag st p busy :: rest →
      let ends : Bool := !busy && !rest.any Frame.isTaken
      let u := (s.modLink d fun l =>
        { l with queue := rest, inProgress := if ends then none else l.inProgress }).send
          (.deskFrames d (replyFrames tag st p))
      ((ends = false ∨ st ≠ .done ∨ ∀ x : Byte, (s.link d).inProgress ≠ some (x, 0x67)) → exec (.replySent d) s = .next u) ∧
      ((ends = true ∧ st = .done ∧ ∃ x : Byte, (s.link d).inProgress = some (x, 0x67)) →
        exec (.replySent d) s = .next (State.event u (u.restart (some d))))) ∧
    ((s.link d).dropSent.queue = .attnWaiting :: rest →
      let content := (s.link d).attn &&& (s.link d).sub
      (content = 0 → exec (.attentionFrame d) s = .next (s.modLink d fun l => { l with queue := rest })) ∧
      (content ≠ 0 →
        exec (.attentionFrame d) s = .next ((s.modLink d fun l =>
          { l with queue := .attnSending l.count content :: rest, count := l.count + 1 }).send
            (.deskFrames d [attentionBytes (s.link d).count content]))))
/-! ## Hand control -/

/-- TAKE_HAND goes by the holder (R174): from an absent holder the sender becomes the holder, the slots of the run scheduler are
cleared and its order ends, DL3 takes over from another desk, and in either case the transmitter is in the sender's hand with OFF
requested. -/
def Obligations.TakeHand : Prop :=
  ∀ (s : State) (d : Desk) (tag : Byte) (n : Tx), Serves s d →
    let c : Instr := .takeHand d tag (txArg n)
    (s.cfg.txOk n = false → OnlyAnswered c s d tag 0x20 .notConfigured []) ∧
    (s.cfg.txOk n = true →
      ((s.tx[n]).holder = some d → OnlyAnswered c s d tag 0x20 .done []) ∧
      (∀ e : Desk, (s.tx[n]).holder = some e → e ≠ d → d ≠ .dl3 → OnlyAnswered c s d tag 0x20 .heldByOther []) ∧
      ((s.tx[n]).holder = none ∨ (∃ e : Desk, (s.tx[n]).holder = some e ∧ e ≠ d ∧ d = .dl3) →
        ∃ u, CommandRuns c s d tag 0x20 .done [] u ∧ u.raised .transmitter ∧
          u.kept = { s.kept with tx := s.kept.tx.set n { s.kept.tx[n] with holder := some d } } ∧
          ((s.tx[n]).holder = none → u.run.cur[n] = none ∧ u.run.nxt[n] = none) ∧
          (∀ o : Order, (s.tx[n]).order = some o →
            ((s.tx[n]).holder = none ∧ o.origin.isSchedule = true ∨
              ∃ e : Desk, (s.tx[n]).holder = some e ∧ o.origin = .desk e) → (u.tx[n]).order = none) ∧
          (PermitsCurrent s → ∀ t, exec c s = .next t →
            (t.permit[n]).requester = .hand d ∧ (t.permit[n]).requested = .off ∧ (t.permit[n]).output = .off)))

/-- RETURN_HAND goes by holder and sender (R175): a taken return clears the holder and ends the holder's order. -/
def Obligations.ReturnHand : Prop :=
  ∀ (s : State) (d : Desk) (tag : Byte) (n : Tx), Serves s d →
    let c : Instr := .returnHand d tag (txArg n)
    (s.cfg.txOk n = false → OnlyAnswered c s d tag 0x21 .notConfigured []) ∧
    (s.cfg.txOk n = true →
      ((s.tx[n]).holder = none → OnlyAnswered c s d tag 0x21 .notInHand []) ∧
      (∀ e : Desk, (s.tx[n]).holder = some e → e ≠ d → d ≠ .dl3 → OnlyAnswered c s d tag 0x21 .heldByOther []) ∧
      (∀ e : Desk, (s.tx[n]).holder = some e → (e = d ∨ d = .dl3) →
        ∃ u, CommandRuns c s d tag 0x21 .done [] u ∧ u.raised .transmitter ∧
          u.kept = { s.kept with tx := s.kept.tx.set n { s.kept.tx[n] with holder := none } } ∧
          ∀ o : Order, (s.tx[n]).order = some o →
            (o.origin = .desk e → (u.tx[n]).order = none ∧ (u.tx[n]).lastEnd = some ⟨o.kind, .desk e, some .hand⟩) ∧
            (o.origin ≠ .desk e → (u.tx[n]).order = some o)))

/-- SET_RF is refused by the first of R46 that applies, and else becomes the requested level at once: DONE_CLAMPED where FULL is asked
of a transmitter feeding a marked antenna, DONE otherwise, the level kept as asked (R46). -/
def Obligations.SetRf : Prop :=
  ∀ (s : State) (d : Desk) (tag : Byte), Serves s d →
    (∀ a b : Byte, ¬(1 ≤ a.toNat ∧ a.toNat ≤ 8 ∧ b.toNat ≤ 2) →
      OnlyAnswered (.setRf d tag [a, b]) s d tag 0x24 .badArgument []) ∧
    ∀ (n : Tx) (l : Level),
      let c : Instr := .setRf d tag (txArg n ++ levelArg l)
      let refusal := firstOf
        [(!s.cfg.txOk n, .notConfigured),
         ((s.tx[n]).holder == none, .notInHand),
         ((s.tx[n]).holder != some d, .heldByOther),
         (s.hall.state == .safe && l != .off, .hallSafe),
         ((s.locked (.tx n) || allAnt.any fun m => s.mx.feeds n == some m && s.locked (.ant m)) && l != .off, .lockedOut)]
      let clamped := l == .full && allAnt.any fun m => s.mx.feeds n == some m && s.faultMark[m]
      (∀ e : Status, refusal = some e → OnlyAnswered c s d tag 0x24 e []) ∧
      (refusal = none →
        ∃ u, CommandRuns c s d tag 0x24 (if clamped then .doneClamped else .done) [] u ∧ u.kept = s.kept ∧
          (u.permit[n]).requested = l ∧
          (PermitsCurrent s → ∀ t, exec c s = .next t →
            (t.permit[n]).requester = .hand d ∧ (t.permit[n]).requested = l))

/-- CLEAR_TRIP is refused by the first of R106 that applies, and else empties the trip history; a TRIPPED record
becomes clear pending without the force TRIP, any other keeps its state. -/
def Obligations.ClearTrip : Prop :=
  ∀ (s : State) (d : Desk) (tag : Byte), Serves s d →
    (∀ a : Byte, ¬(1 ≤ a.toNat ∧ a.toNat ≤ 8) → OnlyAnswered (.clearTrip d tag [a]) s d tag 0x29 .badArgument []) ∧
    ∀ n : Tx,
      let c : Instr := .clearTrip d tag (txArg n)
      let refusal := firstOf
        [(!s.cfg.txOk n, .notConfigured),
         ((s.tx[n]).holder != none && (s.tx[n]).holder != some d, .notPermitted),
         ((s.tx[n]).state == .recycle && (s.tx[n]).recycleTimer != .idle, .notPermitted)]
      (∀ e : Status, refusal = some e → OnlyAnswered c s d tag 0x29 e []) ∧
      (refusal = none →
        ∃ u, CommandRuns c s d tag 0x29 .done [] u ∧
          u.kept = { s.kept with tx := s.kept.tx.set n { s.kept.tx[n] with history := [] } } ∧
          ((s.tx[n]).state = .tripped →
            u.tx[n] = { s.tx[n] with history := [], clearPending := true } ∧
              (u.permit[n]).forces = { (s.permit[n]).forces with trip := false }) ∧
          ((s.tx[n]).state ≠ .tripped → u.tx[n] = { s.tx[n] with history := [] } ∧ u.permit = s.permit))

/-- CLEAR_ANTENNA_FAULT removes the mark of a configured antenna that carries one, and changes nothing where it carries none (R107). -/
def Obligations.ClearAntennaFault : Prop :=
  ∀ (s : State) (d : Desk) (tag : Byte), Serves s d →
    (∀ a : Byte, ¬(1 ≤ a.toNat ∧ a.toNat ≤ 24) →
      OnlyAnswered (.clearAntennaFault d tag [a]) s d tag 0x2A .badArgument []) ∧
    ∀ m : Ant,
      let c : Instr := .clearAntennaFault d tag (antArg m)
      (s.cfg.antOk m = false → OnlyAnswered c s d tag 0x2A .notConfigured []) ∧
      (s.cfg.antOk m = true → s.faultMark[m] = false → OnlyAnswered c s d tag 0x2A .done []) ∧
      (s.cfg.antOk m = true → s.faultMark[m] = true →
        ∃ u, CommandRuns c s d tag 0x2A .done [] u ∧ u.raised .transmitter ∧
          u.kept = { s.kept with faultMark := s.kept.faultMark.set m false })

/-- SET_ENABLED_BANDS puts in force the mask given, less every slot absent from the supported mask, and answers with it: DONE_CLAMPED
where a slot was removed, DONE otherwise (R191). -/
def Obligations.SetEnabledBands : Prop :=
  ∀ (s : State) (d : Desk) (tag : Byte) (mask : Word16), Serves s d →
    (∀ a : Byte, ¬(1 ≤ a.toNat ∧ a.toNat ≤ 24) →
      OnlyAnswered (.setEnabledBands d tag (a :: bytes2 mask)) s d tag 0x2B .badArgument []) ∧
    ∀ m : Ant,
      let c : Instr := .setEnabledBands d tag (antArg m ++ bytes2 mask)
      let now := mask &&& s.cfg.active.supported[m]
      (s.cfg.antOk m = false → OnlyAnswered c s d tag 0x2B .notConfigured []) ∧
      (s.cfg.antOk m = true →
        ∃ u, CommandRuns c s d tag 0x2B (if now = mask then .done else .doneClamped) (bytes2 now) u ∧
          u.kept = { s.kept with enabled := s.kept.enabled.set m now })

/-! ## Orders, routes, slews, calibration -/

/-- TUNE is refused by the first of R95 that applies; else a transmitter already in place answers DONE, a change of feed alone is a
FEED order sent at once, and anything else a TUNE order, sent at once where RF is absent (R95, R96, R98). -/
def Obligations.Tune : Prop :=
  ∀ (s : State) (d : Desk) (tag : Byte) (n : Tx) (f g : Nat), Serves s d → f < 65536 → g < 256 →
    let c : Instr := .tune d tag (txArg n ++ wordArg f ++ numArg g)
    let r := s.tx[n]
    let refusal := firstOf
      [(!(decide (2300 ≤ f ∧ f ≤ 26100 ∧ f % 5 = 0 ∧ 1 ≤ g ∧ g ≤ 16)), .badArgument),
       (!s.cfg.txOk n, .notConfigured),
       (s.isOpen, .configOpen),
       (r.holder == none, .notInHand),
       (r.holder != some d, .heldByOther),
       (s.locked (.tx n), .lockedOut),
       (r.state == .offline || r.state == .tripped, .notPermitted),
       (r.state == .recycle, .busy)]
    let tuned := (r.state = .ready ∨ r.state = .radiating) ∧ r.tuned = some f
    (∀ e : Status, refusal = some e → OnlyAnswered c s d tag 0x25 e []) ∧
    (refusal = none →
      (tuned → r.feed = some g → r.order = none → CommandRuns c s d tag 0x25 .done [] (s.taken d tag 0x25)) ∧
      (tuned → r.feed ≠ some g →
        ∃ u, CommandRuns c s d tag 0x25 .accepted [] u ∧ u.kept = s.kept ∧ u.sent = s.sent ++ [.feedOrder n g] ∧
          (u.tx[n]).order = some (.feed g (.desk d) (.running (s.timebase + 10000)))) ∧
      (¬tuned ∨ (r.feed = some g ∧ r.order ≠ none) →
        let timer : Timer := .running (s.timebase + 1000 * s.cfg.active.tuneTimeout)
        ∃ u, CommandRuns c s d tag 0x25 .accepted [] u ∧ u.kept = s.kept ∧
          (s.rfPresent n = true → u.sent = s.sent ∧ (u.tx[n]).order = some (.tune f g (.desk d) false timer)) ∧
          (s.rfPresent n = false → u.sent = s.sent ++ [.tuneOrder n f g] ∧ (u.tx[n]).state = .tuning ∧
            (u.tx[n]).tuned = none ∧ (u.tx[n]).order = some (.tune f g (.desk d) true timer))))

/-- ROUTE is refused by the first of R29 that applies; in place it is answered DONE, and else ACCEPTED with a task of the set of R32,
every switch of a task it replaces that is not at rest among them, which waits in DROP_RF while RF is present on the transmitter and has
its switches asked for where no RF is present (R29, R31 to R33, R41). That the report window's BUSY comes before every other check is the
model's choice (log 18). -/
def Obligations.Route : Prop :=
  ∀ (s : State) (d : Desk) (tag : Byte) (n : Tx) (x : Dest), Serves s d →
    let c : Instr := .route d tag (txArg n ++ destArg x)
    let ant (p : Ant → Bool) : Bool := allAnt.any fun m => decide (x = .antenna m) && p m
    let command := s.routeCommand n x none
    let refusal := firstOf
      [(s.mx.reportWindow.isRunning, .busy),
       (!s.cfg.txOk n || ant fun m => !s.cfg.antOk m, .notConfigured),
       (s.isOpen, .configOpen),
       (s.hall.state == .safe, .hallSafe),
       ((s.tx[n]).holder == none, .notInHand),
       ((s.tx[n]).holder != some d, .heldByOther),
       (ant fun m => s.locked (.ant m) || s.locked (.tx n), .lockedOut),
       (ant fun m => (s.run.usersOf m).any fun r => r.tx != n, .inUse),
       (ant fun m => s.antennaConflict n m, .antennaConflict),
       (s.taskStarted n, .busy),
       (command.any fun y => (s.sw y.1).state == .moving, .busy)]
    (∀ e : Status, refusal = some e → OnlyAnswered c s d tag 0x22 e []) ∧
    (refusal = none →
      (s.routeInPlace n x none = true → CommandRuns c s d tag 0x22 .done [] (s.taken d tag 0x22)) ∧
      (s.routeInPlace n x none = false →
        ∃ u, CommandRuns c s d tag 0x22 .accepted [] u ∧ u.kept = s.kept ∧
          ∃ t : Task, u.tasks[n] = some t ∧ t.dest = x ∧ t.origin = .desk d ∧ t.set.map SwMark.sw = s.routeSet n x none ∧
            (∀ old : Task, s.tasks[n] = some old → old.inProgress = true →
              ∀ y ∈ old.set, (s.sw y.sw).state ≠ .steady → y.sw ∈ t.set.map SwMark.sw) ∧
            (s.rfPresent n = true →
              t.state = .dropRf ∧ t.timer = .running (s.timebase + 1000 * s.cfg.active.rfDrop) ∧
                ∀ y ∈ t.set, y.mark = .waiting) ∧
            ((∀ j : Tx, s.rfPresent j = false) → t.state = .moving ∨ t.state = .done ∨ t.state = .failed)))

/-- UNROUTE asks the earthing of an antenna. Where its selector is commanded to a transmitter's bus, or commanded to EARTH and confirmed at
one, it is that transmitter's route to NONE, refused by the first check of the earthing column of R29 that fails; else it is a loose
earthing, which admits the selector with class MANUAL and the retry indication: one in place is STEADY, any other waits for its grant or
moves, and a stopped one stays STOPPED (R6, R7, R28, R29, R30). That the report window's BUSY comes before every other check is the
model's choice (log 18). -/
def Obligations.Unroute : Prop :=
  ∀ (s : State) (d : Desk) (tag : Byte), Serves s d →
    (∀ a : Byte, ¬(1 ≤ a.toNat ∧ a.toNat ≤ 24) → OnlyAnswered (.unroute d tag [a]) s d tag 0x23 .badArgument []) ∧
    ∀ m : Ant,
    let c : Instr := .unroute d tag (antArg m)
    let r := s.sw (.sel m)
    let used := allTx.any fun j => [s.run.cur[j], s.run.nxt[j]].any fun x =>
      x.any fun x => [.preparing, .ready, .onAir].contains x.state && x.inUse == some m
    (∀ n : Tx, (r.commanded = .bus n ∨ (r.commanded = .earth ∧ r.confirmed = .stands (.bus n))) →
      let mine := (s.tx[n]).holder == some d
      let active := (s.permit[n]).output != .off || s.taskRunning n ||
        (s.run.cur[n]).any fun x => [.preparing, .ready, .onAir].contains x.state
      let changed (w : Sw) : Bool := match w with
        | .sel j => (s.sw (.sel j)).commanded == .bus n
        | .out j => j == n && (s.sw (.out n)).commanded != .dummy
      let refusal := firstOf
        [(s.mx.reportWindow.isRunning, .busy),
         (!s.cfg.txOk n || !s.cfg.antOk m, .notConfigured),
         (s.isOpen, .configOpen),
         (s.hall.state == .safe, .hallSafe),
         ((s.tx[n]).holder != none && !mine, .heldByOther),
         (used, .inUse),
         (active && !mine, .antennaConflict),
         (s.taskStarted n, .busy),
         (allSw.any fun w => changed w && (s.sw w).state == .moving, .busy)]
      (∀ e : Status, refusal = some e → OnlyAnswered c s d tag 0x23 e []) ∧
      (refusal = none →
        (s.routeInPlace n .nothing (some m) = true → CommandRuns c s d tag 0x23 .done [] (s.taken d tag 0x23)) ∧
        (s.routeInPlace n .nothing (some m) = false →
          ∃ u, CommandRuns c s d tag 0x23 .accepted [] u ∧ u.kept = s.kept ∧
            ∃ t : Task, u.tasks[n] = some t ∧ t.dest = .nothing ∧ t.origin = .desk d ∧
              t.set.map SwMark.sw = s.routeSet n .nothing (some m) ∧ .sel m ∈ t.set.map SwMark.sw ∧
              (∀ old : Task, s.tasks[n] = some old → old.inProgress = true →
                ∀ y ∈ old.set, (s.sw y.sw).state ≠ .steady → y.sw ∈ t.set.map SwMark.sw) ∧
              (s.rfPresent n = true →
                t.state = .dropRf ∧ t.timer = .running (s.timebase + 1000 * s.cfg.active.rfDrop) ∧
                  ∀ y ∈ t.set, y.mark = .waiting) ∧
              ((∀ j : Tx, s.rfPresent j = false) → t.state = .moving ∨ t.state = .done ∨ t.state = .failed)))) ∧
    (r.commanded = .earth → (∀ n : Tx, r.confirmed ≠ .stands (.bus n)) →
      let refusal := firstOf
        [(s.mx.reportWindow.isRunning, .busy),
         (!s.cfg.antOk m, .notConfigured),
         (s.isOpen, .configOpen),
         (s.hall.state == .safe, .hallSafe),
         (used, .inUse),
         (r.state == .moving, .busy)]
      (∀ e : Status, refusal = some e → OnlyAnswered c s d tag 0x23 e []) ∧
      (refusal = none →
        ∃ u, CommandRuns c s d tag 0x23 .done [] u ∧ u.kept = s.kept ∧
          (s.mx.reports = [] →
            let v := u.sw (.sel m)
            let asked := (v.state = .pending ∨ v.state = .moving) ∧ v.commanded = .earth
            ((r.state = .steady ∨ r.state = .fault) → r.confirmed = .stands .earth → v.state = .steady) ∧
            ((r.state = .steady ∨ r.state = .fault) → r.confirmed ≠ .stands .earth → asked ∧ v.cls = some .manual) ∧
            (r.state = .pending → asked ∧ v.cls = some (r.cls.getD .manual)) ∧
            (r.state = .stopped → v.state = .stopped ∧ v.commanded = .earth ∧ v.cls = some (r.cls.getD .manual)))))

/-- SLEW is refused by the first of R74 that applies, and else becomes the target, answered DONE where the record is then IN_POSITION
and ACCEPTED otherwise; the record goes on from the state it was in as the table of R76 gives. That an error of 0, which has no sign,
leaves a drive in its direction is the model's choice (log 46). STOP_SLEW clears the record (R74, R76, R77, R78). -/
def Obligations.SlewAndStop : Prop :=
  ∀ (s : State) (d : Desk) (tag : Byte) (m : Ant) (az : Nat), Serves s d → az < 65536 →
    let other := allTx.any fun n => s.mx.onPath n (.sel m) && (s.tx[n]).holder != none && (s.tx[n]).holder != some d
    (s.cfg.antRot m = none →
      (az < 3600 → OnlyAnswered (.slew d tag (antArg m ++ wordArg az)) s d tag 0x26 .notConfigured []) ∧
      OnlyAnswered (.stopSlew d tag (antArg m)) s d tag 0x27 .notConfigured []) ∧
    (3600 ≤ az → OnlyAnswered (.slew d tag (antArg m ++ wordArg az)) s d tag 0x26 .badArgument []) ∧
    (∀ a : Byte, ¬(1 ≤ a.toNat ∧ a.toNat ≤ 24) →
      OnlyAnswered (.slew d tag (a :: wordArg az)) s d tag 0x26 .badArgument [] ∧
      OnlyAnswered (.stopSlew d tag [a]) s d tag 0x27 .badArgument []) ∧
    ∀ k : Rot, s.cfg.antRot m = some k → az < 3600 →
      let refusal := firstOf
        [(s.isOpen, .configOpen),
         (s.hall.state == .safe, .hallSafe),
         (s.locked (.ant m), .lockedOut),
         (!(s.run.usersOf m).isEmpty, .inUse),
         (other, .heldByOther),
         ((s.cfg.active.rot[k]).keepOut az, .keepOut),
         ((s.rot[k]).validity == .invalid, .positionInvalid)]
      let refusalStop := firstOf
        [(s.isOpen, .configOpen), (!(s.run.usersOf m).isEmpty, .inUse), (other, .heldByOther)]
      (∀ e : Status, refusal = some e → OnlyAnswered (.slew d tag (antArg m ++ wordArg az)) s d tag 0x26 e []) ∧
      (refusal = none →
        ∃ u, CommandRuns (.slew d tag (antArg m ++ wordArg az)) s d tag 0x26
            (if (u.slew[k]).state = .inPosition then .done else .accepted) [] u ∧
          u.kept = s.kept ∧ (u.slew[k]).target = some az ∧ (u.slew[k]).origin = some (.desk d) ∧ (u.slew[k]).fault = none ∧
            (u.slew[k]).state ≠ .fault ∧ (∀ j : Rot, j ≠ k → u.slew[j] = s.slew[j]) ∧
          ∀ held : Nat, (s.rot[k]).azimuth = some held →
            let p := s.cfg.active.rot[k]
            let e : Int := (p.travel az : Int) - p.travel held
            let near := e.natAbs ≤ p.stopTol
            let path : Level := if p.pathCrosses held az then .off else .low
            let back : Dir := if e < 0 then .ccw else .cw
            let allowed := s.hall.state = .normal ∧ s.cfg.configured = true
            let b := s.slew[k]
            let v := u.slew[k]
            let fresh := v.startTime = some s.timebase ∧ v.slewTimer = .running (s.timebase + 1000 * p.maxSlew)
            let turns := (b.dir = some .cw ∧ e < 0) ∨ (b.dir = some .ccw ∧ 0 < e)
            ((b.state = .idle ∨ b.state = .fault) →
              (¬allowed → v.state = .idle) ∧ (allowed → near → v.state = .inPosition ∧ v.cap = none) ∧
              (allowed → ¬near → fresh ∧ DriveStarted s u k held az)) ∧
            (b.state = .inPosition →
              (near → v.state = .inPosition) ∧ (allowed → ¬near → fresh ∧ DriveStarted s u k held az) ∧
              (¬allowed → ¬near → v.state = .idle)) ∧
            (b.state = .awaitPower → fresh ∧ DriveStarted s u k held az) ∧
            (b.state = .reverseDwell →
              fresh ∧ v.state = .reverseDwell ∧ v.dwell = b.dwell ∧ v.dir = some back ∧ v.cap = some path) ∧
            (b.state = .drive → fresh ∧ v.cap = some path ∧
              (turns → v.state = .reverseDwell ∧ v.dwell = .running (s.timebase + 1000) ∧ v.dir = some back ∧
                ∀ x : Dir, b.dir = some x → v.lastOff = some ⟨s.timebase, x⟩) ∧
              (¬turns → ¬(path = .off ∧ b.cap = some .low) →
                v.state = .drive ∧ v.dir = b.dir ∧ v.lastOff = b.lastOff ∧
                  v.speed = some (if p.creep < e.natAbs then .fast else .creep)) ∧
              (¬turns → path = .off → b.cap = some .low →
                (∀ x : Dir, b.dir = some x → v.lastOff = some ⟨s.timebase, x⟩) ∧
                (u.powerOk k = false → v.state = .awaitPower ∧ v.powerWait = .running (s.timebase + 5000)))) ∧
            (b.state = .settle →
              (near → fresh ∧ v.state = .settle ∧ v.cap = b.cap ∧ v.settleCount = 0) ∧
              (¬near → fresh ∧ DriveStarted s u k held az))) ∧
      (∀ e : Status, refusalStop = some e → OnlyAnswered (.stopSlew d tag (antArg m)) s d tag 0x27 e []) ∧
      (refusalStop = none →
        ∃ u, CommandRuns (.stopSlew d tag (antArg m)) s d tag 0x27 .done [] u ∧ u.kept = s.kept ∧
          (u.slew[k]).target = none ∧ (u.slew[k]).origin = none ∧ (u.slew[k]).state = .idle ∧ (u.slew[k]).cap = none ∧
            (u.slew[k]).slewTimer = .idle ∧ (u.slew[k]).powerWait = .idle ∧ (u.slew[k]).dwell = .idle ∧
            (u.slew[k]).stallWindow = .idle ∧
            (∀ run : Nat, (s.slew[k]).origin = some (.schedule run) → (s.slew[k]).target.isSome = true →
              .runSlew run k .cancelled ∈ u.notices) ∧
            ((s.slew[k]).state = .drive → ∀ x : Dir, (s.slew[k]).dir = some x →
              (u.slew[k]).lastOff = some ⟨s.timebase, x⟩))

/-- CALIBRATE_ROTATOR is refused by the first of R65 that applies; else the zero bearing becomes (B − s) mod 3600 and is answered, the
azimuth becomes B, and the rest of the position record stays (R65, R66). -/
def Obligations.Calibrate : Prop :=
  ∀ (s : State) (d : Desk) (tag : Byte) (b : Nat), Serves s d → b < 65536 →
    (∀ a : Byte, ¬(1 ≤ a.toNat ∧ a.toNat ≤ 4) →
      OnlyAnswered (.calibrateRotator d tag (a :: wordArg b)) s d tag 0x28 .badArgument []) ∧
    ∀ k : Rot,
    let c : Instr := .calibrateRotator d tag (rotArg k ++ wordArg b)
    let refusal := firstOf
      [(decide (3600 ≤ b), .badArgument),
       (!s.cfg.rotOk k, .notConfigured),
       (s.isOpen, .configOpen),
       ((s.rot[k]).validity != .valid, .positionInvalid),
       ((s.slew[k]).state != .idle && (s.slew[k]).state != .inPosition, .busy)]
    (∀ e : Status, refusal = some e → OnlyAnswered c s d tag 0x28 e []) ∧
    ∀ bearing : Nat, refusal = none → (s.rot[k]).sensor = some bearing →
      let z := (((b : Int) - bearing) % 3600).toNat
      ∃ u, CommandRuns c s d tag 0x28 .done (wordArg z) u ∧ u.raised .rotator ∧
        u.kept = { s.kept with cfg := s.kept.cfg.setZero k z, rot := s.kept.rot.set k { s.kept.rot[k] with azimuth := some b } }

/-! ## Lockouts and hall safety -/

/-- PLACE_LOCKOUT is refused by the first of R167 that applies. A new lockout joins the table with the present time of the clock,
EFFECTIVE and answered DONE where the target is safe at that moment, PENDING and answered ACCEPTED otherwise; an update takes the new
reason code. Either raises LOCKOUT, and a new one on a transmitter ends its standing order (R167, R168). -/
def Obligations.PlaceLockout : Prop :=
  ∀ (s : State) (d : Desk) (tag : Byte) (g : Target) (reason : Nat), Serves s d → reason < 256 →
    let c : Instr := .placeLockout d tag (targetArg g ++ numArg reason)
    let own := s.locks.records.any fun r => r.target == g && r.desk == d
    let safe := match g with
      | .tx n => !s.rfPresent n
      | .ant m => (s.mx.sel[m]).confirmed == .stands .earth
    let refusal := firstOf
      [(reason == 0, .badArgument),
       (!s.cfg.targetOk g, .notConfigured),
       (!own && decide (32 ≤ s.locks.records.length), .tableFull)]
    (∀ e : Status, refusal = some e → OnlyAnswered c s d tag 0x2C e []) ∧
    (refusal = none → own = false →
      ∃ u, CommandRuns c s d tag 0x2C (if safe then .done else .accepted) [] u ∧ u.raised .lockout ∧
        u.kept = { s.kept with
          locks := s.kept.locks ++ [⟨g, d, reason, s.clock.now.map (fun t => (t.day * 1440 + t.minute, t.second))⟩] } ∧
        (∃ r ∈ u.locks.records, r.target = g ∧ r.desk = d ∧ r.effective = safe) ∧
        (∀ n : Tx, g = .tx n → (u.tx[n]).order = none) ∧ ∀ m : Ant, g = .ant m → (u.locks.earth[m]).isSome = true) ∧
    (refusal = none → own = true →
      ∃ u, CommandRuns c s d tag 0x2C .done [] u ∧ u.raised .lockout ∧
        u.kept = { s.kept with
          locks := s.kept.locks.map (fun r => if r.target = g ∧ r.desk = d then { r with reason := reason } else r) })

/-- RELEASE_LOCKOUT is refused by the first of R171 that applies; else the named desk's lockout on the target leaves the table, with
the earthing record of an antenna left without one, and where there is none nothing changes (R171). -/
def Obligations.ReleaseLockout : Prop :=
  ∀ (s : State) (d e : Desk) (tag : Byte) (g : Target), Serves s d →
    let c : Instr := .releaseLockout d tag (targetArg g ++ numArg e.number)
    let stands := s.locks.records.any fun r => r.target == g && r.desk == e
    let refusal := firstOf [(!s.cfg.configured, .notConfigured), (d != .dl3 && e != d, .notPermitted)]
    (∀ x : Status, refusal = some x → OnlyAnswered c s d tag 0x2D x []) ∧
    (refusal = none → stands = false → OnlyAnswered c s d tag 0x2D .done []) ∧
    (refusal = none → stands = true →
      ∃ u, CommandRuns c s d tag 0x2D .done [] u ∧ u.raised .lockout ∧
        u.kept = { s.kept with locks := s.kept.locks.filter (fun r => !(r.target == g && r.desk == e)) } ∧
        ∀ m : Ant, g = .ant m →
          (u.locked (.ant m) = false → u.locks.earth[m] = none) ∧
          (u.locked (.ant m) = true → u.locks.earth[m] = s.locks.earth[m]))

/-- ACK_HALL_SAFE goes by the hall state, the sender and the closed timer, as the table of R180 gives. That the closed timer then runs
on, and keeps its start, is the model's reading (log 26). -/
def Obligations.AckHallSafe : Prop :=
  ∀ (s : State) (d : Desk) (tag : Byte), Serves s d →
    let c : Instr := .ackHallSafe d tag []
    (s.cfg.configured = false → OnlyAnswered c s d tag 0x2E .notConfigured []) ∧
    (s.cfg.configured = true →
      (s.hall.state = .safe → OnlyAnswered c s d tag 0x2E .hallSafe []) ∧
      (s.hall.state = .restoredWait → s.hall.closed.isRunning = true → d ≠ .dl3 →
        OnlyAnswered c s d tag 0x2E .notPermitted []) ∧
      (s.hall.state = .restoredWait → (s.hall.closed.isRunning = false ∨ d = .dl3) →
        ∃ u, CommandRuns c s d tag 0x2E .done [] u ∧ u.raised .hall ∧
          u.kept = { s.kept with hall := { s.hall with state := .normal } } ∧
          (s.isOpen = true → u.drivesPermitted = false ∧ u.drivesAllowed = false)) ∧
      (s.hall.state = .normal → OnlyAnswered c s d tag 0x2E .done []))

/-! ## Season tables -/

/-- WRITE_ENTRIES takes the entry records of its list one by one, in the order of the list: each is checked against the table as the
records before it have left it, gets its own status, the first of R118 that applies, and is written at its place in table order where
that is DONE. One accepted record or more make one edit; a request with none changes nothing (R117, R118, R121, R124). That the reply's count of
entries takes 2 bytes is the model's choice (log 54), and so is the free value of a number that 2 bytes cannot hold (log 3). -/
def Obligations.WriteEntries : Prop :=
  ∀ (s : State) (d : Desk) (tag : Byte), Serves s d →
    (∀ payload : List Byte,
      (∀ (a n : Byte) (rest : List Byte), payload = a :: n :: rest →
        ¬(1 ≤ a.toNat ∧ a.toNat ≤ 2 ∧ 1 ≤ n.toNat ∧ n.toNat ≤ 8 ∧ rest.length = 16 * n.toNat)) →
      OnlyAnswered (.writeEntries d tag payload) s d tag 0x40 .badArgument []) ∧
    ∀ (x : TableId) (records : List (List Byte)), 1 ≤ records.length → records.length ≤ 8 → (∀ b ∈ records, b.length = 16) →
      let c : Instr := .writeEntries d tag (tableArg x ++ numArg records.length ++ records.flatten)
      let inUse (e : Entry) : Bool := (s.run.cur[e.tx]).any fun r =>
        [.preparing, .ready, .onAir].contains r.state && r.table == x && r.entry == e.id
      let refusal (es : List Entry) (e : Entry) : Option Status := firstOf
        [(!s.cfg.txOk e.tx || !s.cfg.antOk e.primary || e.alt.any (fun m => !s.cfg.antOk m), .notConfigured),
         (!e.bandIn s.cfg e.primary || e.alt.any (fun m => !e.bandIn s.cfg m), .bandMismatch),
         (e.az.isSome && (s.cfg.antRot e.primary).isNone, .badArgument),
         (e.az.any (fun z => azKeptOut s.cfg e.primary z || e.alt.any fun m => azKeptOut s.cfg m z), .keepOut),
         (es.any (fun y => y.id != e.id && y.tx == e.tx && y.overlaps e), .overlap),
         (es.any (fun y => y.id != e.id && y.tx != e.tx && y.primary == e.primary && y.overlaps e), .antennaConflict),
         (es.all (fun y => y.id != e.id) && decide (320 ≤ es.length), .tableFull),
         ((entryOf es e.id).any inUse, .inUse)]
      let take (acc : List Status × List Entry) (b : List Byte) : List Status × List Entry :=
        match entryOfRecord b with
        | none => (acc.1 ++ [.badArgument], acc.2)
        | some e =>
          match refusal acc.2 e with
          | some st => (acc.1 ++ [st], acc.2)
          | none => (acc.1 ++ [.done], putEntry acc.2 e)
      let out := records.foldl take ([], s.season.table x)
      let reply (count edit : Nat) : List Byte :=
        numArg records.length ++ out.1.flatMap (fun st => numArg st.code) ++ num2 count ++ num2 edit
      (s.cfg.configured = false → OnlyAnswered c s d tag 0x40 .notConfigured []) ∧
      (s.cfg.configured = true → s.isOpen = true → OnlyAnswered c s d tag 0x40 .configOpen []) ∧
      (s.cfg.configured = true → s.isOpen = false →
        out.1.length = records.length ∧
        ((∀ st ∈ out.1, st ≠ .done) →
          out.2 = s.season.table x ∧
            CommandRuns c s d tag 0x40 .done (reply out.2.length (s.season.edit x)) (s.taken d tag 0x40)) ∧
        ((∃ st ∈ out.1, st = .done) →
          ∃ u, CommandRuns c s d tag 0x40 .done (reply out.2.length ((s.season.edit x + 1) % 65536)) u ∧
            u.season.table x = out.2 ∧ u.season.edit x = (s.season.edit x + 1) % 65536 ∧
            u.season.table x.other = s.season.table x.other ∧ u.season.edit x.other = s.season.edit x.other ∧
            u.season.active = s.season.active ∧ u.season.armed = (s.season.armed && x == s.season.active) ∧
            u.season.changeover = s.season.changeover ∧ u.raised .schedule ∧ u.run = s.run ∧ u.permit = s.permit ∧
            (x = s.season.active → .runEdit x false ∈ u.notices)))

/-- DELETE_ENTRY and CLEAR_SEASON take an entry or all of them out of a table that is not in use, with the effects of an edit; where
there is nothing to take out, nothing changes (R121, R122, R123, R124). -/
def Obligations.DeleteAndClear : Prop :=
  ∀ (s : State) (d : Desk) (tag : Byte), Serves s d →
    (∀ a : Byte, ¬(1 ≤ a.toNat ∧ a.toNat ≤ 2) → OnlyAnswered (.clearSeason d tag [a]) s d tag 0x42 .badArgument []) ∧
    (∀ (a : Byte) (id : Nat), id < 65536 → ¬(1 ≤ a.toNat ∧ a.toNat ≤ 2 ∧ 1 ≤ id ∧ id ≤ 9999) →
      OnlyAnswered (.deleteEntry d tag (a :: wordArg id)) s d tag 0x41 .badArgument []) ∧
    ∀ (x : TableId) (id : Nat), 1 ≤ id → id ≤ 9999 →
    let del : Instr := .deleteEntry d tag (tableArg x ++ wordArg id)
    let clear : Instr := .clearSeason d tag (tableArg x)
    let inUse (e : Entry) : Bool := (s.run.cur[e.tx]).any fun r =>
      [.preparing, .ready, .onAir].contains r.state && r.table == x && r.entry == e.id
    let edited (u : State) (es : List Entry) : Prop :=
      u.season.table x = es ∧ u.season.table x.other = s.season.table x.other ∧
        u.season.edit x = (s.season.edit x + 1) % 65536 ∧ u.season.armed = (s.season.armed && x == s.season.active) ∧
        u.raised .schedule ∧ u.season.changeover = s.season.changeover ∧ (x = s.season.active → .runEdit x false ∈ u.notices)
    (s.cfg.configured = false →
      OnlyAnswered del s d tag 0x41 .notConfigured [] ∧ OnlyAnswered clear s d tag 0x42 .notConfigured []) ∧
    (s.cfg.configured = true →
      (entryOf (s.season.table x) id = none → OnlyAnswered del s d tag 0x41 .done []) ∧
      (∀ e : Entry, entryOf (s.season.table x) id = some e → inUse e = true →
        OnlyAnswered del s d tag 0x41 .inUse []) ∧
      (∀ e : Entry, entryOf (s.season.table x) id = some e → inUse e = false →
        ∃ u, CommandRuns del s d tag 0x41 .done [] u ∧
          edited u ((s.season.table x).filter fun e => e.id != id)) ∧
      (((s.season.table x).any inUse) = true → OnlyAnswered clear s d tag 0x42 .inUse []) ∧
      (s.season.table x = [] → OnlyAnswered clear s d tag 0x42 .done []) ∧
      (((s.season.table x).any inUse) = false → s.season.table x ≠ [] →
        ∃ u, CommandRuns clear s d tag 0x42 .done [] u ∧ edited u []))

/-- SET_CHANGEOVER, ARM_SEASON and DISARM set the changeover, arm the standby table and disarm it, each refused by the first refusal of
its rule that applies (R125, R126). A changeover record that a boundary or step finds due is taken or skipped by R127 and R128, and the
run scheduler is given the notice of one taken. That the last changeover keeps the record's moment, also where a step makes it later,
is the model's reading (log 48), and so is that the run scheduler takes the notice as one with the judgement, or keeps it while settling
(log 50). That the two counts of the reply to ARM_SEASON take 2 bytes is the model's choice (log 54), and so is the free value of a
number that 2 bytes cannot hold (log 3). -/
def Obligations.ChangeoverAndArming : Prop :=
  (∀ (s : State) (d : Desk) (tag : Byte), Serves s d →
    (∀ day minute : Nat, day < 65536 → minute < 65536 →
      let c : Instr := .setChangeover d tag (wordArg day ++ wordArg minute)
      let past := match s.clock.now with
        | some t => decide (day * 1440 + minute ≤ t.day * 1440 + t.minute)
        | none => false
      let refusal := firstOf
        [(!(decide (day ≤ 36524 ∧ minute ≤ 1439)), .badArgument),
         (!s.cfg.configured, .notConfigured),
         (s.clock.state == .unset || s.clock.now == none, .notPermitted),
         (past, .badArgument)]
      (∀ e : Status, refusal = some e → OnlyAnswered c s d tag 0x43 e []) ∧
      (refusal = none →
        CommandSets c s d tag .done []
          ((s.taken d tag 0x43).modSeason fun x => { x with changeover := some ⟨day, minute⟩ }))) ∧
    (∀ a : Byte, ¬(1 ≤ a.toNat ∧ a.toNat ≤ 2) → OnlyAnswered (.armSeason d tag [a]) s d tag 0x44 .badArgument []) ∧
    (∀ x : TableId,
      let c : Instr := .armSeason d tag (tableArg x)
      let es := s.season.table x
      (x = s.season.active → OnlyAnswered c s d tag 0x44 .badArgument []) ∧
      (x ≠ s.season.active → s.cfg.configured = false → OnlyAnswered c s d tag 0x44 .notConfigured []) ∧
      (x ≠ s.season.active → s.cfg.configured = true →
        CommandSets c s d tag .done (num2 es.length ++ num2 (es.filter fun e => e.failed.isSome).length)
          ((s.taken d tag 0x44).modSeason fun y => { y with armed := true }))) ∧
    (s.cfg.configured = false → OnlyAnswered (.disarm d tag []) s d tag 0x45 .notConfigured []) ∧
    (s.cfg.configured = true →
      (s.season.armed = false →
        CommandSets (.disarm d tag []) s d tag .done [] ((s.taken d tag 0x45).modSeason fun y => { y with armed := false })) ∧
      (s.season.armed = true →
        CommandSets (.disarm d tag []) s d tag .done []
          (((s.taken d tag 0x45).modSeason fun y => { y with armed := false }).raise .schedule)))) ∧
  ∀ (s : State) (now : Nat),
    (s.season.changeover = none → s.seasonMinute now = s) ∧
    ∀ m : DayMinute, s.season.changeover = some m →
      (now < m.day * 1440 + m.minute → s.seasonMinute now = s) ∧
      (m.day * 1440 + m.minute ≤ now →
        (s.season.armed = false →
          s.seasonMinute now = (s.modSeason fun y => { y with changeover := none, last := some ⟨false, m⟩ }).raise .schedule) ∧
        (s.season.armed = true →
          let v := (s.modSeason fun y =>
            { y with active := y.active.other, armed := false, changeover := none, last := some ⟨true, m⟩ }).raise .schedule
          (s.isSettling = false → s.seasonMinute now = v.runChangeover s.season.active.other now) ∧
          (s.isSettling = true → s.seasonMinute now =
            { v with run := { v.run with kept := v.run.kept ++ [.runChangeover s.season.active.other now] } })))

/-! ## Subscription, clock, configuration -/

/-- SET_SUBSCRIPTION takes the mask for the sender's link and changes nothing else; a class already set and newly subscribed to brings
an attention frame (R197). -/
def Obligations.SetSubscription : Prop :=
  ∀ (s : State) (d : Desk) (tag : Byte) (mask : Nat), Serves s d → mask < 65536 →
    let c : Instr := .setSubscription d tag (wordArg mask)
    let asked := BitVec.ofNat 12 mask
    (4096 ≤ mask → OnlyAnswered c s d tag 0x60 .badArgument []) ∧
    (mask < 4096 → s.cfg.configured = false → OnlyAnswered c s d tag 0x60 .notConfigured []) ∧
    (mask < 4096 → s.cfg.configured = true →
      CommandSets c s d tag .done []
        ((s.taken d tag 0x60).modLink d fun l =>
          { l with sub := asked, due := l.due || l.attn &&& asked &&& ~~~l.sub != 0 })) ∧
    (mask < 4096 → s.cfg.configured = true → Quiet s →
      ∃ t, exec c s = .next t ∧ t.kept = s.kept ∧ t.permit = s.permit ∧ t.sent = s.sent ∧
        LinkAnswered (s.link d) (t.link d) tag 0x60 .done [] ∧ (t.link d).sub = asked ∧ (t.link d).attn = (s.link d).attn ∧
        ((s.link d).attn &&& asked &&& ~~~(s.link d).sub ≠ 0 → .attnWaiting ∈ (t.link d).queue) ∧
        ∀ e : Desk, e ≠ d → t.link e = s.link e)

/-- SET_CLOCK is refused by the first of R163 that applies; it sets an UNSET clock, and is compared with one in HOLDOVER: it leaves a clock
that agrees as it stands, takes a disagreement of one second within the count, and any larger one as a step, the state staying HOLDOVER
(R161, R162, R163). -/
def Obligations.SetClock : Prop :=
  ∀ (s : State) (d : Desk) (tag : Byte) (day minute second : Nat), Serves s d → day < 65536 → minute < 65536 → second < 256 →
    let c : Instr := .setClock d tag (wordArg day ++ wordArg minute ++ numArg second)
    let refusal := firstOf
      [(!(decide (day ≤ 36524 ∧ minute ≤ 1439 ∧ second ≤ 59)), .badArgument),
       (!s.cfg.configured, .notConfigured),
       (s.clock.state == .running, .busy)]
    (∀ e : Status, refusal = some e → OnlyAnswered c s d tag 0x61 e []) ∧
    (refusal = none → s.clock.state = .unset →
      ∃ u, CommandRuns c s d tag 0x61 .done [] u ∧ u.raised .clock ∧
        u.kept = { s.kept with clock :=
          { s.clock with state := .running, now := some ⟨day, minute, second⟩, lastMark := some s.timebase,
                         tick := .running (s.timebase + 1000), missed := 0, owed := false,
                         lastStep := some ⟨.firstSet, none, none, day * 1440 + minute⟩ } } ∧
        u.notices = s.notices ++ [.step ⟨.firstSet, none, day * 1440 + minute⟩]) ∧
    ∀ now : Civil, refusal = none → s.clock.state = .holdover → s.clock.now = some now →
      let by_ : Int := (day * 86400 + minute * 60 + second : Nat) - (now.day * 86400 + now.minute * 60 + now.second : Nat)
      let runs (k : Clock) (told : List Notice) (r : Prop) : Prop :=
        ∃ u, CommandRuns c s d tag 0x61 .done [] u ∧ u.kept = { s.kept with clock := k } ∧ u.notices = s.notices ++ told ∧
          (r → u.raised .clock)
      (by_ = 0 → CommandRuns c s d tag 0x61 .done [] (s.taken d tag 0x61)) ∧
      (by_ = -1 → runs { s.clock with owed := true } [] False) ∧
      (by_ = 1 → s.clock.owed = true →
        runs { s.clock with owed := false, lastCounted := some s.timebase, lastMark := some s.timebase } [] False) ∧
      (by_ = 1 → s.clock.owed = false → now.minute ≤ 1439 → now.second ≤ 59 →
        runs { s.clock with now := some ⟨day, minute, second⟩, lastCounted := some s.timebase, lastMark := some s.timebase }
          (if second = 0 then [.boundary (day * 1440 + minute)] else []) False) ∧
      ((2 ≤ by_ ∨ by_ ≤ -2) →
        let was := now.day * 1440 + now.minute
        let is := day * 1440 + minute
        let kind : StepKind := if by_ < 0 then .backward else if by_ ≤ 300 then .smallForward else .largeForward
        let passed : List Notice :=
          if kind = .smallForward then (List.range (is - was)).map fun i => .boundary (was + 1 + i) else []
        runs { s.clock with now := some ⟨day, minute, second⟩, owed := false, lastStep := some ⟨kind, some by_, some was, is⟩ }
          (passed ++ [.step ⟨kind, some was, is⟩]) True)

/-- OPEN_CONFIG opens a configuration where none is open and nothing moves or radiates, with a copy of the active one or the defaults;
ABANDON_CONFIG discards the sender's own (R202, R205). -/
def Obligations.OpenAndAbandon : Prop :=
  ∀ (s : State) (d : Desk) (tag : Byte), Serves s d →
    let op : Instr := .openConfig d tag []
    let ab : Instr := .abandonConfig d tag []
    let busy := allTx.any (fun n => (s.permit[n]).output != .off) || allSw.any (fun w => (s.sw w).state == .moving) ||
      allRot.any fun k => (s.slew[k]).state.slewing
    (s.cfg.openDesk = some d → OnlyAnswered op s d tag 0x62 .done []) ∧
    (∀ e : Desk, s.cfg.openDesk = some e → e ≠ d →
      OnlyAnswered op s d tag 0x62 .configOpen [] ∧ OnlyAnswered ab s d tag 0x65 .configOpen []) ∧
    (s.cfg.openDesk = none → busy = true → OnlyAnswered op s d tag 0x62 .busy []) ∧
    (s.cfg.openDesk = none → busy = false →
      ∃ u, CommandRuns op s d tag 0x62 .done [] u ∧ u.raised .config ∧
        u.kept = { s.kept with cfg := { s.kept.cfg with
          openDesk := some d,
          workspace := some (if s.cfg.configured then s.cfg.active else Configuration.default) } }) ∧
    (s.cfg.openDesk = none → OnlyAnswered ab s d tag 0x65 .done []) ∧
    (s.cfg.openDesk = some d →
      ∃ u, CommandRuns ab s d tag 0x65 .done [] u ∧ u.raised .config ∧
        u.kept = { s.kept with cfg := { s.kept.cfg with openDesk := none, workspace := none } })

/-- CONFIGURE takes the items of its list one by one, in the order of the list, into the sender's workspace as the items before have left
it: an item is refused BAD_ARGUMENT where its identifier is not in the item table, its value is out of range, or it would make the
bearings of a sector equal, and is written else, where it changes its own item and no other. Nothing but the workspace changes
(R199, R203). -/
def Obligations.Configure : Prop :=
  (∀ (w : Configuration) (i j : CfgItem) (v : Nat), i.inRange v = true → (w.put i v).get j = if j = i then v else w.get j) ∧
  (∀ (i : CfgItem) (id : Nat), CfgItem.ofId id = some i ↔ id = i.id) ∧
  ∀ (s : State) (d : Desk) (tag : Byte), Serves s d →
    (∀ (n : Byte) (rest : List Byte), ¬(1 ≤ n.toNat ∧ n.toNat ≤ 59 ∧ rest.length = 4 * n.toNat) →
      OnlyAnswered (.configure d tag (n :: rest)) s d tag 0x63 .badArgument []) ∧
    ∀ items : List (Nat × Nat), 1 ≤ items.length → items.length ≤ 59 → (∀ y ∈ items, y.1 < 65536 ∧ y.2 < 65536) →
      let c : Instr := .configure d tag (numArg items.length ++ items.flatMap fun y => wordArg y.1 ++ wordArg y.2)
      let equals (w : Configuration) (i : CfgItem) (v : Nat) : Bool := match i with
        | .sectorFrom k j => v == ((w.rot[k]).sectors[j]).toB && v != 65535
        | .sectorTo k j => v == ((w.rot[k]).sectors[j]).fromB && v != 65535
        | _ => false
      let take (acc : List Status × Configuration) (y : Nat × Nat) : List Status × Configuration :=
        match CfgItem.ofId y.1 with
        | none => (acc.1 ++ [.badArgument], acc.2)
        | some i =>
          if i.inRange y.2 && !equals acc.2 i y.2 then (acc.1 ++ [.done], acc.2.put i y.2) else (acc.1 ++ [.badArgument], acc.2)
      (s.cfg.openDesk = none → OnlyAnswered c s d tag 0x63 .notPermitted []) ∧
      ∀ w : Configuration, s.cfg.workspace = some w →
        (∀ e : Desk, s.cfg.openDesk = some e → e ≠ d → OnlyAnswered c s d tag 0x63 .configOpen []) ∧
        (s.cfg.openDesk = some d →
          let out := items.foldl take ([], w)
          out.1.length = items.length ∧
            CommandSets c s d tag .done (numArg items.length ++ out.1.flatMap fun st => numArg st.code)
              ((s.taken d tag 0x63).modCfg fun x => { x with workspace := some out.2 }))

/-- CLOSE_CONFIG by the desk that opened: a workspace that fails a close check stays open and the check and item are recorded; one that
passes becomes the active configuration, with the enabled masks that R192 gives (R192, R204). Which item a failed check names is the model's
choice (log 10). -/
def Obligations.CloseConfig : Prop :=
  ∀ (s : State) (d : Desk) (tag : Byte), Serves s d →
    let c : Instr := .closeConfig d tag []
    (s.cfg.openDesk = none → OnlyAnswered c s d tag 0x64 .notPermitted []) ∧
    ∀ w : Configuration, s.cfg.workspace = some w →
      (∀ e : Desk, s.cfg.openDesk = some e → e ≠ d → OnlyAnswered c s d tag 0x64 .configOpen []) ∧
      (s.cfg.openDesk = some d →
        (∀ check item : Nat, closeCheck w = some (check, item) →
          CommandSets c s d tag .badArgument []
            ((s.taken d tag 0x64).modCfg fun x => { x with lastClose := some (.failed check item) })) ∧
        (closeCheck w = none →
          let after : ConfigStore :=
            { s.cfg with active := w, openDesk := none, workspace := none, configured := true, lastClose := some .done }
          ∃ u, CommandRuns c s d tag 0x64 .done [] u ∧ u.raised .config ∧ u.cfg = after ∧
            (∀ m : Ant, after.antOk m = false → u.enabled[m] = 0 ∧ u.faultMark[m] = false) ∧
            (∀ m : Ant, after.antOk m = true → s.cfg.antOk m = false → u.enabled[m] = w.supported[m]) ∧
            (∀ m : Ant, after.antOk m = true → s.cfg.antOk m = true →
              u.enabled[m] = (s.enabled[m] &&& w.supported[m]) ||| (w.supported[m] &&& ~~~s.cfg.active.supported[m])) ∧
            (∀ n : Tx, s.cfg.txOk n = true → after.txOk n = false →
              u.tx[n] = TxRec.powerUp ∧ u.tasks[n] = none ∧ u.run.cur[n] = none ∧ u.run.nxt[n] = none) ∧
            ∀ r ∈ u.locks.records, after.targetOk r.target = true))

/-- SAVE_CONFIG is ACCEPTED and starts the write of the active configuration's image, its marker's place zeroed first; RESTART is
answered DONE; a code that is not in the table is UNKNOWN_COMMAND, and changes nothing (R189, R200, R206, R208). That the memory holds
its old bytes behind the zeroed marker until the save completes is the model's choice (log 13). -/
def Obligations.SaveRestartUnknown : Prop :=
  ∀ (s : State) (d : Desk) (tag : Byte), Serves s d →
    (s.cfg.configured = false → OnlyAnswered (.saveConfig d tag []) s d tag 0x66 .notPermitted []) ∧
    (s.cfg.configured = true →
      (∀ bytes : List Byte, s.cfg.saving = some bytes → OnlyAnswered (.saveConfig d tag []) s d tag 0x66 .busy []) ∧
      (s.cfg.saving = none →
        CommandSets (.saveConfig d tag []) s d tag .accepted []
          ((s.taken d tag 0x66).modCfg fun x =>
            { x with saving := some (imageBytes s.cfg.active),
                     image := memWrite (memWrite s.cfg.image 0 0) 1 0 }))) ∧
    OnlyAnswered (.restart d tag []) s d tag 0x67 .done [] ∧
    ∀ (code : Byte) (p : List Byte), OnlyAnswered (.unknownCommand d tag code p) s d tag code .unknownCommand []

/-! ## Starts -/

/-- Power-up loads the configuration that a valid image holds and is UNCONFIGURED with any other, keeps the memory, and gives every
block its power-up values: no output, REPORT-ALL sent and the report window open (R22, R155, R165, R192, R201). That the
timebase starts from 0 and that the record of what was sent goes on is the model's choice (log 37), and so are the first values of the
fields it adds to the records (log 38). -/
def Obligations.PowerUp : Prop :=
  ∀ s : State, ∃ t, exec .powerUp s = .next t ∧ t.timebase = 0 ∧ t.sent = s.sent ++ [.reportAll] ∧
    t.cfg.image = s.cfg.image ∧ t.cfg.openDesk = none ∧ t.cfg.saving = none ∧ t.cfg.settling = none ∧
    (∀ c : Configuration, loadImage s.cfg.image = some c →
      t.cfg.configured = true ∧ t.cfg.memoryValid = true ∧ t.cfg.active = c ∧
        ∀ m : Ant, t.enabled[m] = if m.val < c.antCount then c.supported[m] else 0) ∧
    (loadImage s.cfg.image = none → t.cfg.configured = false ∧ t.cfg.memoryValid = false ∧ ∀ m : Ant, t.enabled[m] = 0) ∧
    t.mx = Matrix.powerUp ∧ t.season = Season.powerUp ∧ t.run = RunTable.powerUp ∧ t.clock = Clock.powerUp ∧
    t.locks = LockTable.powerUp ∧ t.hall = Hall.powerUp ∧ (∀ d : Desk, t.link d = Link.powerUp) ∧
    (∀ k : Rot, t.rot[k] = RotRec.powerUp ∧ t.slew[k] = SlewRec.powerUp) ∧
    (∀ n : Tx, t.tx[n] = TxRec.powerUp ∧ t.tasks[n] = none ∧ (t.permit[n]).output = .off ∧
      (t.permit[n]).holds = ⟨false, false, false⟩) ∧ PermitsCurrent t

/-- A falling edge of the restart input is ignored while settling; else it restarts every link, abandons an open configuration, stops
every moving switch, sends REPORT-ALL and begins settling. The expiry of the settling timer ends settling (R20, R25, R198, R208).
The moment of that expiry, and that it does nothing where the timer does not run, is the model's choice (log 19). -/
def Obligations.RestartAndSettling : Prop :=
  ∀ s : State,
    (s.isSettling = true → exec .warmRestart s = .next s) ∧
    (s.isSettling = false →
      ∃ t u, exec .warmRestart s = .next t ∧ t = State.event s u ∧ Follows u t ∧
        u.cfg.openDesk = none ∧ u.cfg.workspace = none ∧ u.cfg.active = s.cfg.active ∧ u.season = s.season ∧
        u.clock = s.clock ∧ u.locks = s.locks ∧ u.enabled = s.enabled ∧ u.faultMark = s.faultMark ∧
        (∃ stops : List Output, u.sent = s.sent ++ stops ++ [.reportAll]) ∧
        (∀ w : Sw, (s.sw w).state = .moving → (u.sw w).state = .stopped ∧ (u.sw w).confirmed = .unknown) ∧
        (∀ d : Desk, (u.link d).rx = [] ∧ (u.link d).inProgress = none ∧ (u.link d).sub = (s.link d).sub ∧
          (u.link d).attn = if s.isOpen then Attn.config.bit else 0) ∧
        ((∃ n : Tx, s.cfg.txOk n = true) → u.isSettling = true ∧ u.settlingTimer = .running (s.timebase + 1000))) ∧
    (∀ due : Nat, s.settlingTimer = .running due →
      let a : State := { s with timebase := max s.timebase due }
      ∃ u, EventRuns .settlingTimeout s a u ∧ u.kept = { a.kept with waits := none } ∧ u.isSettling = false) ∧
    ((∀ due : Nat, s.settlingTimer ≠ .running due) → exec .settlingTimeout s = .next s)

/-- The end of a save: what the memory then holds is read back, and the result, memory valid and attention CONFIG follow. A byte outside
the memory does not exist: naming one is a fault (R206, "External connections"). How the row tells what the memory holds, that it does nothing
without a save, and the fault are the model's choice (log 13). -/
def Obligations.SaveComplete : Prop :=
  ∀ (s : State) (answered : Bool) (faults : List (Nat × Byte)),
    (s.cfg.saving = none → exec (.saveComplete answered faults) s = .next s) ∧
    ∀ bytes : List Byte, s.cfg.saving = some bytes →
      ((∃ f ∈ faults, 8192 ≤ f.1) → exec (.saveComplete answered faults) s = .fault .memoryOutside) ∧
      ((∀ f ∈ faults, f.1 < 8192) →
        let image := memPatch (if answered then memWriteAll s.cfg.image 0 bytes else s.cfg.image) faults
        let ok := answered && (readImage image).isSome
        ∃ t, exec (.saveComplete answered faults) s = .next t ∧ t.raised .config ∧ t.permit = s.permit ∧ t.sent = s.sent ∧
          t.kept = { s.kept with cfg := { s.kept.cfg with
            saving := none, image := image, lastSave := some ok, memoryValid := ok } })

/-! ## The switch field -/

/-- A POSITION report that names no equipped switch or no reading of its kind is discarded. Any other sets the confirmed position, and the
state goes by R13, R16, R17, R18 and R19 (R4). That a repeat of the confirmed position changes nothing for a CONFLICT switch commanded EARTH
too is the model's choice (log 41), and that any report in the report window leaves a STEADY switch STEADY (R22) is its
reading (log 34). That a report which meets the last settling wait is taken before settling ends is the model's choice (log 68). -/
def Obligations.PositionReports : Prop :=
  ∀ s : State,
    (∀ r : Option Reading, exec (.position none r) s = .next s) ∧
    ∀ w : Sw, exec (.position (some w) none) s = .next s ∧
      ∀ r : Reading,
        (s.cfg.swOk w = false ∨ readingFits w r = false → exec (.position (some w) (some r)) s = .next s) ∧
        (s.cfg.swOk w = true → readingFits w r = true →
          let b := s.sw w
          let x := Confirmed.ofReading r
          let v := s.takeReport w x
          let here := x = .stands b.commanded
          EventRuns (.position (some w) (some r)) s s (v.absorbAll.meetSw w) ∧
          (s.isSettling = false → v.absorbAll.kept = s.kept) ∧
          (v.sw w).confirmed = x ∧ (v.sw w).commanded = b.commanded ∧
          (b.state = .moving →
            (here → (v.sw w).state = .steady ∧ (v.sw w).cls = none ∧ .completion w ∈ v.mx.reports) ∧
            (x = .between → (v.sw w).state = .moving ∧ (v.sw w).travelDue = b.travelDue) ∧
            (¬here → x ≠ .between →
              (v.sw w).state = .fault ∧ (v.sw w).fault = some .wrongPosition ∧ .fault w ∈ v.mx.reports ∧ v.raised .switch)) ∧
          (b.state = .steady →
            (x = b.confirmed → v = s) ∧
            (x ≠ b.confirmed → (b.confirmed = .unknown ∨ s.mx.reportWindow.isRunning = true) → (v.sw w).state = .steady) ∧
            (x ≠ b.confirmed → b.confirmed ≠ .unknown → s.mx.reportWindow.isRunning = false →
              (v.sw w).state = .fault ∧ (v.sw w).fault = some .uncommanded ∧ .fault w ∈ v.mx.reports ∧ v.raised .switch)) ∧
          (b.state = .pending →
            (x = b.confirmed → v = s) ∧
            (x ≠ b.confirmed → here → (v.sw w).state = .steady ∧ .completion w ∈ v.mx.reports) ∧
            (x ≠ b.confirmed → ¬here → (∃ p : Pos, b.confirmed = .stands p) →
              (v.sw w).state = .fault ∧ (v.sw w).fault = some .uncommanded ∧ .fault w ∈ v.mx.reports) ∧
            (x ≠ b.confirmed → ¬here → (b.confirmed = .between ∨ b.confirmed = .unknown) →
              (v.sw w).state = .pending ∧ (v.sw w).arrival = b.arrival)) ∧
          (b.state = .stopped →
            (here → (v.sw w).state = .steady ∧ (v.sw w).cls = none ∧ .completion w ∈ v.mx.reports) ∧
            (¬here → (v.sw w).state = .stopped)) ∧
          (b.state = .fault →
            (x = b.confirmed → v = s) ∧
            (x ≠ b.confirmed → here → x = .stands .earth → b.fault = some .conflict →
              (v.sw w).state = .steady ∧ (v.sw w).fault = none ∧ .completion w ∈ v.mx.reports ∧ w ∉ v.mx.safety) ∧
            (¬(here ∧ x = .stands .earth ∧ b.fault = some .conflict) →
              (v.sw w).state = .fault ∧ (v.sw w).fault = b.fault ∧ v.links = s.links)))

/-- The timers of the matrix controller: the travel timeout stops a moving switch and makes it FAULT, the end of the report window
sets the commanded positions and the safety list from what it finds, and the end of the supply hold makes the supply good for drives
(R10, R14, R22, R23). A row whose timer does not run has no effect (log 19), and that a list formed while drives are permitted is
admitted at once, and that unequipped switches join it, is the model's reading (log 34, log 53). Where drives cease to be permitted,
every MOVING switch is stopped; where they become so, every STOPPED one re-enters the queue (R20, R21); and grants go to the head of
the queue, class before arrival, until the grant limit is reached or none waits (R9, R11, R12). That the loss and the return of
permission are read off the last judgement, which is a notice, and that grants need both that judgement and R10's conditions as they
stand, so that none is made before the judgement, is the model's choice (log 39), and so is the record order in which STOP is sent
(log 62). -/
def Obligations.SwitchTimers : Prop :=
  ∀ (s : State) (due : Nat),
    let a : State := { s with timebase := max s.timebase due }
    (∀ w : Sw,
      ((s.sw w).state = .moving → (s.sw w).travelDue = some due →
        ∃ u, EventRuns (.travelTimeout w) s a u ∧ u.kept = a.kept ∧ s.sent ++ [.stop w] <+: u.sent ∧ u.raised .switch ∧
          (u.sw w).state = .fault ∧ (u.sw w).fault = some .travelTimeout ∧ (u.sw w).confirmed = .unknown ∧
          (u.sw w).cls = none ∧ (u.sw w).grantTime = none) ∧
      ((s.sw w).state ≠ .moving → exec (.travelTimeout w) s = .next s)) ∧
    (s.mx.reportWindow = .running due →
      let v := a.windowEnd
      EventRuns .reportWindowEnd s a v.absorbAll ∧ v.kept = { a.kept with reportWindow := .idle } ∧
        (s.cfg.configured = false → v.mx.safety = []) ∧
        (s.mx.permitted = false → s.cfg.configured = true → ∀ w : Sw,
          (∀ p : Pos, (s.sw w).confirmed = .stands p →
            ((∃ n : Tx, ∃ m j : Ant, w = .sel m ∧ p = .bus n ∧ j ≠ m ∧ (s.sw (.sel j)).confirmed = .stands (.bus n)) →
              (v.sw w).commanded = .earth ∧ (v.sw w).state = .fault ∧ (v.sw w).fault = some .conflict ∧ w ∈ v.mx.safety ∧
                v.raised .switch) ∧
            ((∀ n : Tx, ∀ m j : Ant, w = .sel m → p = .bus n → j ≠ m → (s.sw (.sel j)).confirmed ≠ .stands (.bus n)) →
              (v.sw w).commanded = p ∧ (v.sw w).state = (s.sw w).state)) ∧
          ((∀ p : Pos, (s.sw w).confirmed ≠ .stands p) → (v.sw w).commanded = w.home ∧ w ∈ v.mx.safety))) ∧
    (s.mx.supplyHold = .running due →
      ∃ u, EventRuns .supplyHoldExpiry s a u ∧ u.kept = { a.kept with supplyHold := .idle, supplyHeld := true } ∧
        (s.hall.state = .normal → s.isOpen = false → s.cfg.configured = true → s.isSettling = false →
          u.mx.permitted = true)) ∧
    ((∀ x : Nat, s.mx.reportWindow ≠ .running x) → exec .reportWindowEnd s = .next s) ∧
    ((∀ x : Nat, s.mx.supplyHold ≠ .running x) → exec .supplyHoldExpiry s = .next s) ∧
    (let v := s.mxJudge
     (s.drivesPermitted = s.mx.permitted → v = s) ∧
     (s.drivesPermitted = false → s.mx.permitted = true →
       v.kept = s.kept ∧ v.mx.permitted = false ∧
         v.sent = s.sent ++ (allSw.filter fun w => (s.sw w).state == .moving).map .stop ∧
         ∀ w : Sw, v.sw w = if (s.sw w).state = .moving
           then { s.sw w with state := .stopped, confirmed := .unknown, grantTime := none, travelDue := none } else s.sw w) ∧
     (s.drivesPermitted = true → s.mx.permitted = false →
       v.kept = s.kept ∧ v.mx.permitted = true ∧ v.mx.safety = [] ∧
         ∀ w : Sw, (s.sw w).state = .stopped →
           ((v.sw w).state = .pending ∨ (v.sw w).state = .moving) ∧ (v.sw w).commanded = (s.sw w).commanded ∧
             (w ∉ s.mx.safety → (v.sw w).cls = (s.sw w).cls) ∧
             ((v.sw w).state = .pending → ∃ n : Nat, s.mx.nextArrival ≤ n ∧ (v.sw w).arrival = some n))) ∧
    (let v := s.grants
     let limit := s.cfg.active.grantLimit
     (s.mx.permitted = false ∨ s.drivesPermitted = false → v = s) ∧
     (s.mx.permitted = true → s.drivesPermitted = true →
       v.kept = s.kept ∧ v.mx.movingCount ≤ max limit s.mx.movingCount ∧
         (limit ≤ v.mx.movingCount ∨ ∀ w : Sw, (v.sw w).state ≠ .pending) ∧
         (∀ w : Sw, v.sw w = s.sw w ∨ ((s.sw w).state = .pending ∧ .move w (s.sw w).commanded ∈ v.sent ∧
           v.sw w = { s.sw w with
             state := .moving, arrival := none, grantTime := some s.timebase,
             travelDue := some (s.timebase +
               1000 * match w with | .sel _ => s.cfg.active.selTravel | .out _ => s.cfg.active.outTravel) })) ∧
         ∀ (w x : Sw) (c e : MoveClass) (n m : Nat), (s.sw w).state = .pending → (s.sw x).state = .pending →
           (s.sw w).cls = some c → (s.sw w).arrival = some n → (s.sw x).cls = some e → (s.sw x).arrival = some m →
           (v.sw w).state = .moving → (v.sw x).state = .pending → c.rank < e.rank ∨ (c = e ∧ n ≤ m)))

/-- The timers of a route task: the RF drop timer asserts TRIP wherever RF is still present and starts the trip wait of 2 s, whose
expiry fails the task RF_STUCK (R34, R35). The moment of an expiry is that of its timer, by the model's choice (log 19). -/
def Obligations.TaskTimers : Prop :=
  ∀ (s : State) (n : Tx) (t : Task) (due : Nat), s.tasks[n] = some t → t.timer = .running due →
    let a : State := { s with timebase := max s.timebase due }
    (t.state = .dropRf →
      ∃ u, EventRuns (.rfDropTimeout n) s s u ∧ u.kept = a.kept ∧
        u.tasks[n] = some { t with state := .tripWait, timer := .running (a.timebase + 2000) } ∧
        ∀ j : Tx, (j ∈ t.affected → s.rfPresent j = true → (u.permit[j]).holds.routeTrip = true) ∧
          ((j ∉ t.affected ∨ s.rfPresent j = false) → u.permit[j] = s.permit[j])) ∧
    (t.state = .tripWait →
      ∃ u, EventRuns (.tripWaitExpiry n) s s u ∧ u.kept = a.kept ∧ u.raised .route ∧
        ∃ t' : Task, u.tasks[n] = some t' ∧ t'.state = .failed ∧ t'.failure = some .rfStuck ∧ t'.timer = .idle ∧
          t'.set = t.set)

/-! ## Rotators -/

/-- A sensor frame that fails its line's check, or of an unequipped rotator, is discarded. An accepted one is judged: a good frame makes
the position VALID, a bad one goes by the table of R61. The frame timer's expiry makes it INVALID (R53, R57 to R62). A good frame moves
the slew record on in DRIVE, SETTLE, REVERSE_DWELL, IN_POSITION and in IDLE with a held target; a bad one takes the settle count of a
record in SETTLE back to 0, and a slewing record fails where it leaves the position INVALID (R77, R78, R80, R81, R83, R84). The row
FRAME_TIMEOUT has no effect where its timer does not run (log 19). That an error of 0 is not against a drive is the model's choice
(log 46). -/
def Obligations.SensorFrames : Prop :=
  ∀ (s : State) (k : Rot),
    (∀ f : SensorFrame, f.sound = false ∨ s.cfg.rotOk k = false → exec (.sensorFrame k f) s = .next s) ∧
    (∀ f : SensorFrame, f.sound = true → s.cfg.rotOk k = true →
      let p := s.cfg.active.rot[k]
      let b := s.rot[k]
      let good := f.sensorOk = true ∧ (p.residual f.phiF.toNat f.phiV.toNat).natAbs ≤ p.tol
      ∃ u, EventRuns (.sensorFrame k f) s s u ∧
        (s.isSettling = false → u.kept = { s.kept with rot := u.rot }) ∧ (∀ j : Rot, j ≠ k → u.rot[j] = s.rot[j]) ∧
        let r := u.rot[k]
        r.rawF = some f.phiF.toNat ∧ r.rawV = some f.phiV.toNat ∧ r.frameTimer = .running (s.timebase + 100) ∧
        (good →
          r.validity = .valid ∧ r.badCount = 0 ∧ r.fine = some (p.fineCount f.phiF.toNat f.phiV.toNat) ∧
          r.sensor = some (p.bearing (p.fineCount f.phiF.toNat f.phiV.toNat)) ∧
          r.azimuth = some ((p.bearing (p.fineCount f.phiF.toNat f.phiV.toNat) + p.zero) % 3600) ∧
          r.period = some (p.periodIndex f.phiF.toNat f.phiV.toNat) ∧ r.goodTime = some s.timebase ∧
          (b.validity = .invalid → u.raised .rotator)) ∧
        (let w := s.slew[k]
         let v := u.slew[k]
         (∀ held target : Nat, s.isSettling = false → good → r.azimuth = some held → w.target = some target →
          let e : Int := (p.travel target : Int) - p.travel held
          let near := e.natAbs ≤ p.stopTol
          let path : Level := if p.pathCrosses held target then .off else .low
          let back : Dir := if e < 0 then .ccw else .cw
          let band := max p.hold (p.stopTol + 1)
          let allowed := s.hall.state = .normal ∧ s.isOpen = false ∧ s.cfg.configured = true
          let fresh := v.startTime = some s.timebase ∧ v.slewTimer = .running (s.timebase + 1000 * p.maxSlew)
          let turns := (w.dir = some .cw ∧ e < 0) ∨ (w.dir = some .ccw ∧ 0 < e)
          let wrong := ∃ x : Nat, w.furthest = some x ∧
            ((w.dir = some .cw ∧ p.travel held + 10 ≤ x) ∨ (w.dir = some .ccw ∧ x + 10 ≤ p.travel held))
          (w.state = .drive → w.dir.isSome = true →
            (wrong → v.state = .fault ∧ v.fault = some .wrongDirection ∧ v.cap = none ∧ u.raised .slew) ∧
            (¬wrong → near → v.state = .settle ∧ v.cap = w.cap ∧ v.settleCount = 0) ∧
            (¬wrong → ¬near → turns →
              v.state = .reverseDwell ∧ v.dwell = .running (s.timebase + 1000) ∧ v.dir = some back ∧ v.cap = some path) ∧
            (¬wrong → ¬near → ¬turns → v.state = .drive ∧ v.cap = w.cap ∧ v.dir = w.dir ∧ v.lastOff = w.lastOff ∧
              v.speed = some (if p.creep < e.natAbs then .fast else .creep)) ∧
            (wrong ∨ near ∨ turns → ∀ x : Dir, w.dir = some x → v.lastOff = some ⟨s.timebase, x⟩)) ∧
          (w.state = .settle →
            (near → 2 ≤ w.settleCount → v.state = .inPosition ∧ v.cap = none ∧ v.slewTimer = .idle ∧ u.raised .slew) ∧
            (near → w.settleCount < 2 → v = { w with settleCount := w.settleCount + 1 }) ∧
            (¬near → e.natAbs ≤ band → v = { w with settleCount := 0 }) ∧
            (band < e.natAbs → DriveStarted s u k held target)) ∧
          (w.state = .reverseDwell →
            (near → v.state = .settle ∧ v.cap = w.cap ∧ v.settleCount = 0) ∧
            (¬near → turns → v = { w with dir := some back, cap := some path }) ∧ (¬near → ¬turns → v = w)) ∧
          (w.state = .inPosition →
            (band < e.natAbs → allowed → fresh ∧ DriveStarted s u k held target ∧ u.raised .slew) ∧
            ((e.natAbs ≤ band ∨ ¬allowed) → v = w)) ∧
          (w.state = .idle →
            (¬allowed → v = w) ∧ (allowed → near → v.state = .inPosition ∧ v.cap = none) ∧
            (allowed → ¬near → fresh ∧ DriveStarted s u k held target)) ∧
          ((w.state = .awaitPower ∨ w.state = .fault) → v = w)) ∧
         (s.isSettling = false → ¬good →
          (r.validity ≠ .invalid → v = if w.state = .settle then { w with settleCount := 0 } else w) ∧
          (r.validity = .invalid → w.state.slewing = true →
            v.state = .fault ∧ v.fault = some .positionInvalid ∧ v.target = w.target ∧ v.cap = none ∧ u.raised .slew) ∧
          (w.state.slewing = false → v = w))) ∧
        (f.sensorOk = true → r.residual = some (p.residual f.phiF.toNat f.phiV.toNat)) ∧
        (¬good →
          r.azimuth = b.azimuth ∧ r.sensor = b.sensor ∧ r.fine = b.fine ∧ r.period = b.period ∧ r.goodTime = b.goodTime ∧
          r.lastBad = some (if f.sensorOk then .residual else .sensorNotOk) ∧
          (b.validity = .valid → b.badCount = 0 → r.validity = .suspect ∧ r.badCount = 1) ∧
          (b.validity = .suspect → b.badCount = 1 → r.validity = .suspect ∧ r.badCount = 2) ∧
          (b.validity = .suspect → b.badCount = 2 → r.validity = .invalid ∧ r.badCount = 3 ∧ u.raised .rotator) ∧
          (b.validity = .invalid → r.validity = .invalid ∧ r.badCount = 3))) ∧
    (∀ due : Nat, (s.rot[k]).frameTimer = .running due →
      let a : State := { s with timebase := max s.timebase due }
      ∃ u, EventRuns (.frameTimeout k) s a u ∧
        u.kept = { a.kept with
          rot := s.rot.set k
            { s.rot[k] with validity := .invalid, badCount := 3, lastBad := some .timeout, frameTimer := .idle } } ∧
        ((s.rot[k]).validity ≠ .invalid → u.raised .rotator)) ∧
    ((∀ due : Nat, (s.rot[k]).frameTimer ≠ .running due) → exec (.frameTimeout k) s = .next s)

/-- The timers of a slew record: the reversal dwell ends in AWAIT_POWER, and in DRIVE at once where power allows and there is far to go;
the power wait, the stall window and the slew timer end in FAULT with their reasons, the target kept, the drive off recorded and every
timer cancelled (R78, R79, R82, R84). The power condition is R79's, and the drive lines follow the record by the table of R80. A row
whose timer does not run has no effect (log 19); that a dwell ends in AWAIT_POWER also while settling is the model's reading (logs 29 and 32). -/
def Obligations.SlewTimers : Prop :=
  ∀ (s : State) (k : Rot) (due : Nat),
    let a : State := { s with timebase := max s.timebase due }
    let r := s.slew[k]
    let drives (d : Dir) : Prop := r.state = .drive ∧ r.dir = some d
    let faulted (c : Instr) (why : SlewFault) : Prop :=
      ∃ u, EventRuns c s a u ∧ u.kept = a.kept ∧ u.raised .slew ∧
        (u.slew[k]).state = .fault ∧ (u.slew[k]).fault = some why ∧ (u.slew[k]).target = r.target ∧
        (u.slew[k]).origin = r.origin ∧ (u.slew[k]).cap = none ∧ (u.slew[k]).dir = none ∧ (u.slew[k]).powerWait = .idle ∧
        (u.slew[k]).dwell = .idle ∧ (u.slew[k]).stallWindow = .idle ∧ (u.slew[k]).slewTimer = .idle ∧
        (∀ x : Dir, r.state = .drive → r.dir = some x → (u.slew[k]).lastOff = some ⟨a.timebase, x⟩) ∧
        ∀ j : Rot, j ≠ k → u.slew[j] = s.slew[j]
    (((s.driveLines k).cw = true ↔ drives .cw) ∧ ((s.driveLines k).ccw = true ↔ drives .ccw) ∧
      ((s.driveLines k).fastCreep = true ↔ r.state = .drive ∧ r.speed = some .fast)) ∧
    (s.powerOk k = true ↔
      ∀ (m : Ant) (n : Tx), s.cfg.rotAnt k = some m → (s.sw (.sel m)).confirmed = .stands (.bus n) →
        s.rfPresent n = false ∨ (r.cap = some .low ∧ (s.tx[n]).state ≠ .offline ∧
          ((s.tx[n]).rfLevel = some .low ∨ (s.tx[n]).rfLevel = some .off))) ∧
    (r.state = .reverseDwell → r.dwell = .running due →
      ∃ u, EventRuns (.reverseDwellEnd k) s s u ∧ u.kept = a.kept ∧
        ((s.powerOk k = false ∨ s.isSettling = true) →
          (u.slew[k]).state = .awaitPower ∧ (u.slew[k]).powerWait = .running (a.timebase + 5000) ∧ (u.slew[k]).cap = r.cap ∧
            (u.slew[k]).dir = r.dir ∧ (u.slew[k]).target = r.target) ∧
        (∀ e : Int, s.powerOk k = true → s.isSettling = false → s.slewError k = some e →
          (s.cfg.active.rot[k]).stopTol < e.natAbs → (u.slew[k]).state = .drive ∧ (u.slew[k]).cap = r.cap)) ∧
    (r.state = .awaitPower → r.powerWait = .running due → faulted (.powerWaitExpiry k) .powerNotReduced) ∧
    (r.state = .drive → r.stallWindow = .running due → faulted (.stallWindowExpiry k) .stall) ∧
    (r.state.slewing = true → r.slewTimer = .running due → faulted (.slewTimerExpiry k) .slewTimeout) ∧
    ((r.state ≠ .reverseDwell ∨ ∀ t : Nat, r.dwell ≠ .running t) → EventRuns (.reverseDwellEnd k) s s s) ∧
    (r.state ≠ .awaitPower → exec (.powerWaitExpiry k) s = .next s) ∧
    (r.state ≠ .drive → exec (.stallWindowExpiry k) s = .next s) ∧
    (r.state.slewing = false → exec (.slewTimerExpiry k) s = .next s)

/-! ## Transmitters -/

/-- A STATUS report that is not accepted is discarded. An accepted one is taken into the record's fields and restarts the silence timer;
a condition TRIPPED that follows another counts a trip, and READY with nothing in its way makes the record READY (R91, R93, R94, R100,
R101). That the record also holds the reported frequency is the model's reading (log 31). -/
def Obligations.StatusReports : Prop :=
  ∀ (s : State) (n : Tx) (r : StatusReport),
    (r.sound = false ∨ r.cond = none ∨ ¬(1 ≤ r.feed ∧ r.feed ≤ 16) ∨ r.level = none ∨ s.cfg.txOk n = false →
      exec (.status n r) s = .next s) ∧
    ∀ (c : TxCond) (l : Level), r.sound = true → r.cond = some c → 1 ≤ r.feed → r.feed ≤ 16 → r.level = some l →
      s.cfg.txOk n = true → s.isSettling = false →
      let b := s.tx[n]
      let young := (b.history.filter fun t => decide (s.timebase < t + 1000 * s.cfg.active.recycleWindow)) ++ [s.timebase]
      let history := young.drop (young.length - s.cfg.active.tripLimit)
      ∃ u, EventRuns (.status n r) s s u ∧ (∀ j : Tx, j ≠ n → u.tx[j] = s.tx[j]) ∧
        let x := u.tx[n]
        x.reporting = true ∧ x.lastCond = some c ∧ x.feed = some r.feed ∧ x.rfLevel = some l ∧ x.warning = r.warning ∧
        x.lastFreq = some r.freq ∧ x.silence = .running (s.timebase + 3000) ∧ x.holder = b.holder ∧
        (b.reporting = false ∨ (r.warning = true ∧ b.warning = false) → u.raised .transmitter) ∧
        (c ≠ .tripped → x.history = b.history) ∧
        (c = .ready → b.order = none → (b.state = .standby ∨ b.state = .offline ∨ b.state = .tuning ∨ b.state = .ready ∨
          b.state = .radiating) → x.state = .ready ∧ x.tuned = if freqOk r.freq then some r.freq else none) ∧
        (c = .tripped → b.state ≠ .tripped → (b.reporting = true → b.lastCond ≠ some .tripped) →
          u.raised .trip ∧ x.history = history ∧ x.tuned = none ∧ x.order = none ∧
            x.lastCause = some (if r.cause = some .reflected then .reflected
              else if r.cause = some .overload then .overload else .other) ∧
            (s.cfg.active.tripLimit ≤ history.length → x.state = .tripped ∧ (u.permit[n]).forces.trip = true) ∧
            (history.length < s.cfg.active.tripLimit → x.state = .recycle ∧
              x.recycleTimer = .running (s.timebase + 1000 * s.cfg.active.recycleDelay)))

/-- The timers of a transmitter record: silence makes it OFFLINE and fails its order, the tune and feed timers fail their orders, the
recycle timer lets the record follow its last reported condition, and the RF watch counts a trip of cause OTHER (R94, R97, R98, R102,
R103). That a row whose timer does not run does nothing, and the moment of an expiry, is the model's choice (log 19); what the record
follows its last condition from is its reading (log 31). -/
def Obligations.SupervisorTimers : Prop :=
  ∀ (s : State) (n : Tx) (due : Nat),
    let a : State := { s with timebase := max s.timebase due }
    let b := s.tx[n]
    (b.silence = .running due →
      ∃ u, EventRuns (.silenceTimeout n) s a u ∧ u.raised .transmitter ∧ (∀ j : Tx, j ≠ n → u.tx[j] = s.tx[j]) ∧
        let x := u.tx[n]
        x.reporting = false ∧ x.silence = .idle ∧ x.rfLevel = none ∧ x.tuned = none ∧ x.warning = false ∧ x.rfWatch = .idle ∧
        x.order = none ∧ x.recycleTimer = b.recycleTimer ∧ x.clearPending = b.clearPending ∧
        x.state = (if b.state = .tripped then .tripped else .offline) ∧
        ∀ o : Order, b.order = some o → x.lastEnd = some ⟨o.kind, o.origin, some .offline⟩) ∧
    ((∀ t : Nat, b.silence ≠ .running t) → exec (.silenceTimeout n) s = .next s) ∧
    (∀ (f g : Nat) (o : Origin) (sent : Bool), b.order = some (.tune f g o sent (.running due)) →
      ∃ u, EventRuns (.tuneTimerExpiry n) s s u ∧ u.kept = a.kept ∧ (u.tx[n]).order = none ∧
        (u.tx[n]).lastEnd = some ⟨.tune, o, some .tuneTimeout⟩ ∧
        (b.lastCond = none → (u.tx[n]).state = .offline) ∧
        (b.lastCond = some .standby → (u.tx[n]).state = .standby) ∧
        (b.lastCond = some .tuning → (u.tx[n]).state = .tuning) ∧
        (b.lastCond = some .ready → (u.tx[n]).state = .ready)) ∧
    (∀ (g : Nat) (o : Origin), b.order = some (.feed g o (.running due)) →
      ∃ u, EventRuns (.feedTimerExpiry n) s s u ∧ u.kept = a.kept ∧ (u.tx[n]).order = none ∧
        (u.tx[n]).lastEnd = some ⟨.feed, o, some .feedTimeout⟩ ∧ (u.tx[n]).state = b.state ∧ u.permit = s.permit) ∧
    (b.recycleTimer = .running due →
      ∃ u, EventRuns (.recycleTimerExpiry n) s a u ∧ u.kept = a.kept ∧ (u.tx[n]).recycleTimer = .idle ∧
        (b.state = .recycle → b.lastCond = some .standby → (u.tx[n]).state = .standby) ∧
        (b.state = .recycle → b.lastCond = some .tuning → (u.tx[n]).state = .tuning) ∧
        (b.state = .recycle → b.lastCond = some .ready → (u.tx[n]).state = .ready) ∧
        (b.state = .recycle → b.lastCond = some .tripped → (u.tx[n]).state = .recycle) ∧
        (b.state ≠ .recycle → (u.tx[n]).state = b.state)) ∧
    ((∀ t : Nat, b.recycleTimer ≠ .running t) → exec (.recycleTimerExpiry n) s = .next s) ∧
    (b.rfWatch = .running due →
      ∃ u, EventRuns (.rfWatchExpiry n) s a u ∧ u.raised .trip ∧ (u.tx[n]).lastCause = some .other ∧
        (u.tx[n]).rfWatch = .idle ∧ (u.tx[n]).order = none ∧
        (let young := (b.history.filter fun t => decide (a.timebase < t + 1000 * s.cfg.active.recycleWindow)) ++ [a.timebase]
         (u.tx[n]).history = young.drop (young.length - s.cfg.active.tripLimit) ∧
         (s.cfg.active.tripLimit ≤ young.length → (u.tx[n]).state = .tripped ∧ (u.permit[n]).forces.trip = true) ∧
         (young.length < s.cfg.active.tripLimit → (u.tx[n]).state = .recycle))) ∧
    ((∀ t : Nat, b.rfWatch ≠ .running t) → exec (.rfWatchExpiry n) s = .next s)

/-! ## The time input and the hall inputs -/

/-- Pulses and ticks count seconds. A pulse in UNSET is only recorded, a glitch changes nothing, and a pulse less than 0.5 s behind a
tick or a one-second advance marks the second that it counted; any other pulse, every tick, and a TIME message one second ahead count
one second, less one that is owed, and deliver the boundary of a minute that it begins; the second missed pulse makes the clock HOLDOVER
and a pulse makes it RUNNING again. A TIME message that fails its check or its ranges changes nothing; it sets an UNSET clock, leaves
one that agrees, makes a second owed where it is one behind, and is a step else, with the boundaries that a small forward step passes
(R157 to R162). The row TICK has no effect in UNSET, where no tick is armed, and its moment is that of its timer (log 19). -/
def Obligations.ClockInputs : Prop :=
  ∀ s : State,
    let seconds (t : Civil) : Nat := t.day * 86400 + t.minute * 60 + t.second
    let following (now x : Civil) : Prop :=
      (now.second < 59 ∧ x = { now with second := now.second + 1 }) ∨
        (now.second = 59 ∧ now.minute < 1439 ∧ x = { now with minute := now.minute + 1, second := 0 }) ∨
        (now.second = 59 ∧ now.minute = 1439 ∧ now.day < 36524 ∧ x = ⟨now.day + 1, 0, 0⟩)
    let runs (c : Instr) (a : State) (k : Clock) (told : List Notice) (r : Prop) : Prop :=
      ∃ u, EventRuns c s a u ∧ u.kept = { a.kept with clock := k } ∧ u.notices = s.notices ++ told ∧ (r → u.raised .clock)
    let counts (c : Instr) (a : State) (k : Clock) (r : Prop) : Prop :=
      ∀ now : Civil, s.clock.now = some now →
        (s.clock.owed = true → runs c a { k with owed := false } [] r) ∧
        (s.clock.owed = false →
          (∀ x : Civil, following now x →
            runs c a { k with now := some x } (if x.second = 0 then [.boundary (x.day * 1440 + x.minute)] else []) r) ∧
          (now = ⟨36524, 1439, 59⟩ →
            runs c a { k with now := some ⟨0, 0, 0⟩, lastStep := some ⟨.backward, some (-3155759999), some 52595999, 0⟩ }
              [.step ⟨.backward, some 52595999, 0⟩] True))
    (s.clock.state = .unset →
      ∃ u, EventRuns .timePulse s s u ∧ u.kept = { s.kept with clock := { s.clock with lastPulse := some s.timebase } }) ∧
    (s.clock.state ≠ .unset → (∃ p : Nat, s.clock.lastPulse = some p ∧ s.timebase < p + 500) → EventRuns .timePulse s s s) ∧
    (s.clock.state ≠ .unset → (∀ p : Nat, s.clock.lastPulse = some p → p + 500 ≤ s.timebase) →
      let marked : Clock := { s.clock with
        state := .running, lastMark := some s.timebase, tick := .running (s.timebase + 1000), missed := 0,
        lastPulse := some s.timebase }
      ((∃ p : Nat, s.clock.lastCounted = some p ∧ s.timebase < p + 500) →
        runs .timePulse s marked [] (s.clock.state = .holdover)) ∧
      ((∀ p : Nat, s.clock.lastCounted = some p → p + 500 ≤ s.timebase) →
        counts .timePulse s marked (s.clock.state = .holdover))) ∧
    (∀ due : Nat, s.clock.state ≠ .unset → s.clock.tick = .running due →
      let a : State := { s with timebase := max s.timebase due }
      let holdover := s.clock.state = .running ∧ 1 ≤ s.clock.missed
      counts .tick a { s.clock with
        state := if holdover then .holdover else s.clock.state, lastMark := some a.timebase, lastCounted := some a.timebase,
        tick := .running (a.timebase + 1000), missed := min 2 (s.clock.missed + 1) } holdover) ∧
    (s.clock.state = .unset → exec .tick s = .next s) ∧
    ∀ m : TimeMessage,
      let given : Civil := ⟨m.day, m.minute, m.second⟩
      (m.sound = false ∨ 36524 < m.day ∨ 1439 < m.minute ∨ 59 < m.second → exec (.time m) s = .next s) ∧
      (m.sound = true → m.day ≤ 36524 → m.minute ≤ 1439 → m.second ≤ 59 →
        let k : Clock := { s.clock with lastRef := some ⟨given, s.timebase⟩ }
        (s.clock.state = .unset →
          runs (.time m) s { k with
            state := .running, now := some given, lastMark := some s.timebase, tick := .running (s.timebase + 1000), missed := 0,
            owed := false, lastStep := some ⟨.firstSet, none, none, m.day * 1440 + m.minute⟩ }
            [.step ⟨.firstSet, none, m.day * 1440 + m.minute⟩] True) ∧
        ∀ now : Civil, s.clock.state ≠ .unset → s.clock.now = some now →
          let by_ : Int := (seconds given : Int) - seconds now
          (by_ = 0 → runs (.time m) s k [] False) ∧
          (by_ = 1 → now.minute ≤ 1439 → now.second ≤ 59 →
            counts (.time m) s { k with lastCounted := some s.timebase, lastMark := some s.timebase } False) ∧
          (by_ = -1 → runs (.time m) s { k with owed := true } [] False) ∧
          ((2 ≤ by_ ∨ by_ ≤ -2) →
            let was := now.day * 1440 + now.minute
            let is := m.day * 1440 + m.minute
            let kind : StepKind := if by_ < 0 then .backward else if by_ ≤ 300 then .smallForward else .largeForward
            let passed : List Notice :=
              if kind = .smallForward then (List.range (is - was)).map fun i => .boundary (was + 1 + i) else []
            runs (.time m) s { k with
              now := some given, owed := false, lastStep := some ⟨kind, some by_, some was, is⟩ }
              (passed ++ [.step ⟨kind, some was, is⟩]) True))

/-- The inputs of the hall: an opening makes it SAFE with a hall trip hold wherever RF is present, a closing of a SAFE hall starts the
closed timer of 60 s, whose expiry is marked; the supply starts or cancels its hold; and an RF sense input is given to every block that
acts on it. A sample is accepted as the second in a row that differs from the accepted level, or the second alike before there is one,
and is then that change of level (R10, R176, R177, R178, R179). First accepted levels and the rows of whole changes are the model's
reading (log 25), as is where the run-out of the closed timer is marked (log 26); that its row does nothing where it does not run is the
model's choice (log 19). -/
def Obligations.HallInputs : Prop :=
  ∀ s : State,
    (s.hall.access.accepted ≠ some .opened →
      ∃ u, EventRuns (.accessChange .opened) s s u ∧ u.hall.state = .safe ∧ u.hall.closed = .idle ∧
        u.hall.access.accepted = some .opened ∧ u.hall.supply = s.hall.supply ∧ u.hall.rf = s.hall.rf ∧
        u.kept = { s.kept with hall := u.hall } ∧ (s.hall.state ≠ .safe → u.raised .hall) ∧
        ∀ n : Tx, (s.cfg.txOk n = true → s.rfPresent n = true → (u.permit[n]).holds.hall = true) ∧
          ((s.cfg.txOk n = false ∨ s.rfPresent n = false) → u.permit[n] = s.permit[n])) ∧
    (s.hall.access.accepted ≠ some .closed → s.hall.state = .safe →
      ∃ u, EventRuns (.accessChange .closed) s s u ∧ u.raised .hall ∧
        u.kept = { s.kept with hall := { s.hall with
          state := .restoredWait, closed := .running (s.timebase + 60000), closedRunOut := false,
          closedStart := some s.timebase, access := ⟨some .closed, false, none⟩ } }) ∧
    (∀ due : Nat, s.hall.closed = .running due →
      exec .closedTimerExpiry s = .next { s with
        timebase := max s.timebase due,
        hall := { s.hall with closed := .idle, closedRunOut := s.hall.closedRunOut || s.hall.state == .restoredWait } }) ∧
    ((∀ due : Nat, s.hall.closed ≠ .running due) → exec .closedTimerExpiry s = .next s) ∧
    (s.hall.supply.accepted ≠ some .good →
      ∃ u, EventRuns (.supplyChange .good) s s u ∧ u.raised .hall ∧
        u.kept = { s.kept with
          hall := { s.hall with supply := ⟨some .good, false, none⟩ }, supplyHold := .running (s.timebase + 2000),
          supplyHeld := false }) ∧
    (s.hall.supply.accepted = some .good →
      ∃ u, EventRuns (.supplyChange .low) s s u ∧ u.raised .hall ∧
        u.kept = { s.kept with
          hall := { s.hall with supply := ⟨some .low, false, none⟩ }, supplyHold := .idle, supplyHeld := false }) ∧
    (∀ (n : Tx) (l : RfLevel),
      ∃ u, EventRuns (.rfSenseChange n l) s s u ∧
        u.kept = { s.kept with hall := { s.hall with rf := s.hall.rf.set n ⟨some l, false, none⟩ } } ∧
        ((s.rfPresent n = true ↔ l = .absent) →
          ∀ x : Notice, x ∈ [Notice.routeRf n, .slewPower, .txRf n, .lockRf n, .hallRf n] → x ∈ u.notices)) ∧
    (∀ l : AccessLevel,
      let f := s.hall.access
      let c : Instr := .inputSample (.access l)
      (f.accepted = none → f.firstSample ≠ some l →
        EventRuns c s s { s with hall := { s.hall with access := { f with firstSample := some l } } }) ∧
      (f.accepted = some l →
        EventRuns c s s { s with hall := { s.hall with access := { f with candidate := false } } }) ∧
      (∀ x, f.accepted = some x → x ≠ l → f.candidate = false →
        EventRuns c s s { s with hall := { s.hall with access := { f with candidate := true } } }) ∧
      ((f.accepted = none ∧ f.firstSample = some l) ∨
        (f.firstSample = none ∧ f.candidate = true ∧ ∃ x, f.accepted = some x ∧ x ≠ l) → exec c s = exec (.accessChange l) s)) ∧
    (∀ l : SupplyLevel,
      let f := s.hall.supply
      let c : Instr := .inputSample (.supply l)
      (f.accepted = none → f.firstSample ≠ some l →
        EventRuns c s s { s with hall := { s.hall with supply := { f with firstSample := some l } } }) ∧
      (f.accepted = some l →
        EventRuns c s s { s with hall := { s.hall with supply := { f with candidate := false } } }) ∧
      (∀ x, f.accepted = some x → x ≠ l → f.candidate = false →
        EventRuns c s s { s with hall := { s.hall with supply := { f with candidate := true } } }) ∧
      ((f.accepted = none ∧ f.firstSample = some l) ∨
        (f.firstSample = none ∧ f.candidate = true ∧ ∃ x, f.accepted = some x ∧ x ≠ l) → exec c s = exec (.supplyChange l) s)) ∧
    (∀ (n : Tx) (l : RfLevel),
      let f := s.hall.rf[n]
      let c : Instr := .inputSample (.rf n l)
      (f.accepted = none → f.firstSample ≠ some l →
        EventRuns c s s { s with hall := { s.hall with rf := s.hall.rf.set n { f with firstSample := some l } } }) ∧
      (f.accepted = some l →
        EventRuns c s s { s with hall := { s.hall with rf := s.hall.rf.set n { f with candidate := false } } }) ∧
      (∀ x, f.accepted = some x → x ≠ l → f.candidate = false →
        EventRuns c s s { s with hall := { s.hall with rf := s.hall.rf.set n { f with candidate := true } } }) ∧
      ((f.accepted = none ∧ f.firstSample = some l) ∨
        (f.firstSample = none ∧ f.candidate = true ∧ ∃ x, f.accepted = some x ∧ x ≠ l) → exec c s = exec (.rfSenseChange n l) s))

/-! ## Computations and the run table -/

/-- The vernier computation: the corrected phases and their difference, the product with its nearest multiple of 4096 and the residual,
the fine count and the bearing, each as its rule gives it; and where the difference is true to within the tolerance, the frame is good
and gives the fine count that the shaft stands at (R55 to R58). -/
def Obligations.Vernier : Prop :=
  ∀ (p : RotParams) (phiF phiV : Nat), ParamsValid p → phiF < 4096 → phiV < 4096 →
    let product : Int := (p.difference phiF phiV : Int) * p.periods - p.fine phiF
    p.fine phiF < 4096 ∧ p.vernier phiV < 4096 ∧ p.difference phiF phiV < 4096 ∧
    (p.fine phiF + p.offF) % 4096 = phiF ∧ (p.vernier phiV + p.offV) % 4096 = phiV ∧
    (p.difference phiF phiV + p.vernier phiV) % 4096 = p.fine phiF ∧
    -4095 ≤ product ∧ product ≤ 4095 * p.periods ∧
    product = 4096 * p.nearest phiF phiV + p.residual phiF phiV ∧
    -2048 ≤ p.residual phiF phiV ∧ p.residual phiF phiV ≤ 2047 ∧
    -1 ≤ p.nearest phiF phiV ∧ p.nearest phiF phiV ≤ p.periods ∧ p.periodIndex phiF phiV < p.periods ∧
    (∃ j : Int, p.nearest phiF phiV = p.periodIndex phiF phiV + p.periods * j) ∧
    (p.isGood phiF phiV = true ↔ -p.tol ≤ p.residual phiF phiV ∧ p.residual phiF phiV ≤ p.tol) ∧
    p.fineCount phiF phiV = 4096 * p.periodIndex phiF phiV + p.fine phiF ∧ p.fineCount phiF phiV < 4096 * p.periods ∧
    (let whole := (p.fineCount phiF phiV * 3600 + 2048 * p.periods) / (4096 * p.periods)
     whole ≤ 3600 ∧ p.bearing (p.fineCount phiF phiV) = if whole = 3600 then 0 else whole) ∧
    ∀ (a : Nat) (j : Int), a < 4096 * p.periods → p.fine phiF = a % 4096 →
      ((p.difference phiF phiV : Int) * p.periods - a - 4096 * p.periods * j).natAbs ≤ p.tol →
      p.isGood phiF phiV = true ∧ p.fineCount phiF phiV = a

/-- The overlap test of R116 is exact: two weekly intervals overlap just where they share a minute of the weekly circle. -/
def Obligations.OverlapExact : Prop :=
  ∀ a p b q : Nat, a < 10080 → b < 10080 → 1 ≤ p → p ≤ 1440 → 1 ≤ q → q ≤ 1440 →
    (intervalsOverlap a p b q = true ↔ ∃ i j : Nat, i < p ∧ j < q ∧ (a + i) % 10080 = (b + j) % 10080)

/-- The run scheduler. A record written to the outcome list stands at its head with its closed-at minute, the oldest beyond 32 leave
it, attention RUN is raised, and the done mark moves by R134: not for ABORTED, HAND, and never back within its own table (R133,
R134, R154). Choosing takes the earliest candidate that qualifies, WAITING or as a late join, and writes one that is too late, or
collides with a carried record, as MISSED (R136). A due record is tested against its transmitter and its antennas (R137, R138) and
is MISSED, deferred or PREPARING with its items formed (R139). A record READY at its start goes ON_AIR with the requester, LATE
where it is not in the act of its start boundary (R144); an end and the end of a grace close a record as R145 gives, and a
run-through passes the antenna to the next (R146). That a start, an end or a grace acts wherever its minute is not later than now, and
not only where it equals now, is the model's reading (log 15), and so are the passing of a record to CURRENT after its start and
LATE within its start minute (log 16). That a record deferred on its alternate has ALTERNATE as it was, and that the run-through
sets it, is the model's reading too (log 60). Preparing with an empty CURRENT slot, or with an azimuth and a rotator, is left out:
it takes the answers of other blocks. -/
def Obligations.RunOutcomes : Prop :=
  (∀ (s : State) (r : RunRec) (st : RunState) (reason : Option RunReason) (now : Nat),
    let u := s.writeOutcome r st reason now
    u.kept = s.kept ∧ u.raised .run ∧ u.run.cur = s.run.cur ∧ u.run.nxt = s.run.nxt ∧
      u.run.outcomes =
        ({ r with state := st, reason := reason, closedAt := some now, deferred := none } :: s.run.outcomes).take 32 ∧
      (∀ n : Tx, n ≠ r.tx → u.run.marks[n] = s.run.marks[n]) ∧
      (st = .aborted ∧ reason = some .hand → u.run.marks[r.tx] = s.run.marks[r.tx]) ∧
      (¬(st = .aborted ∧ reason = some .hand) →
        (∀ m : DoneMark, s.run.marks[r.tx] = some m → m.table = r.table →
          u.run.marks[r.tx] = some ⟨max m.minute r.stop, r.table⟩) ∧
        ((∀ m : DoneMark, s.run.marks[r.tx] = some m → m.table ≠ r.table) →
          u.run.marks[r.tx] = some ⟨r.stop, r.table⟩))) ∧
  (∀ (s : State) (n : Tx) (now : Nat), s.run.nxt[n] = none →
    (∀ e ∈ s.season.table s.season.active, e.start < 1440 ∧ 1 ≤ e.dur ∧ e.dur ≤ 1440) →
    let t := s.season.active
    let next (u : State) (e : Entry) (x : Nat) (late : Bool) (base : Nat) : Prop :=
      ∃ r : RunRec, u.run.nxt[n] = some r ∧ Copies r e t x ∧ r.num = s.run.nextNum ∧ r.state = .waiting ∧ r.late = late ∧
        r.graceBase = base ∧ u.run.outcomes = s.run.outcomes
    let missed (u : State) (e : Entry) (x : Nat) (why : RunReason) : Prop :=
      ∃ r : RunRec, Copies r e t x ∧ r.num = s.run.nextNum ∧ r.state = .missed ∧ r.reason = some why ∧ r.closedAt = some now ∧
        u.run.outcomes = (r :: s.run.outcomes).take 32 ∧ u.run.marks[n] = some ⟨x + e.dur, t⟩
    let earliest (p : Entry → Nat → Prop) (e : Entry) (x : Nat) : Prop :=
      p e x ∧ ∀ f y, p f y → (f = e ∧ y = x) ∨ x < y
    (let u := State.chooseEmpty ((s.candidates n now).length + 1) n now s
     let qualifies (e : Entry) (x : Nat) : Prop := Candidate s n now e x ∧ now < x + e.dur
     ((∀ e x, ¬qualifies e x) → u = s) ∧
     ∀ e x, earliest qualifies e x →
       (now ≤ x → next u e x false x) ∧ (x < now → now + 2 ≤ x + e.dur → next u e x true now) ∧
       (x < now → x + e.dur < now + 2 → missed u e x .tooLate)) ∧
    ∀ c : RunRec, now ≤ c.stop →
      let u := s.chooseAfter n c now
      let after (e : Entry) (x : Nat) : Prop := Candidate s n now e x ∧ c.stop ≤ x
      let collides (e : Entry) (x : Nat) : Prop := c.table ≠ t ∧ Candidate s n now e x ∧ now < x + e.dur ∧ x < c.stop
      ((∀ e x, ¬collides e x) →
        ((∀ e x, ¬after e x) → u = s) ∧ ∀ e x, earliest after e x → next u e x false x) ∧
      ∀ e x, collides e x → (∀ f y, collides f y → f = e ∧ y = x) → missed u e x .carryOverlap) ∧
  (∀ (s : State) (n : Tx) (f : Nat) (m : Ant), s.antPasses n f m = true ↔
    s.cfg.antOk m = true ∧ s.locked (.ant m) = false ∧ s.faultMark[m] = false ∧ (s.sw (.sel m)).state ≠ .fault ∧
      inMask s.cfg.active s.enabled[m] f = true ∧
      (∀ r ∈ s.run.all, r.state ∈ [.preparing, .ready, .onAir] → r.inUse = some m → r.tx = n) ∧
      ∀ u : Tx, u ≠ n → s.mx.onPath u (.sel m) = true →
        (s.tx[u]).holder = none ∧ (s.permit[u]).output = .off ∧ s.taskRunning u = false ∧
          ∀ r : RunRec, s.run.cur[u] = some r → r.state ∉ [.preparing, .ready, .onAir]) ∧
  ∀ (s : State) (n : Tx) (now : Nat),
    let closes (u : State) (c : RunRec) (st : RunState) (reason : Option RunReason) (held : Bool) : Prop :=
      u.run.outcomes =
        ({ c with state := st, reason := reason, closedAt := some now, deferred := none, held := c.held || held } ::
          s.run.outcomes).take 32
    let alone (r : RunRec) : Prop := ∀ (j : Tx) (k : Slot) (x : RunRec), s.slot j k = some x → x.num = r.num → j = n ∧ k = .nxt
    let late (c : RunRec) (u : State) : Prop :=
      u.run.cur[n] = none ∧ (c.aired = true → closes u c .ended none true) ∧
        (c.aired = false → closes u c .missed (some (if s.hall.state = .normal then .graceExpired else .hall)) false)
    (∀ r : RunRec, s.run.nxt[n] = some r → r.state = .waiting → r.tx = n → s.isOpen = false → alone r →
      let u := s.prepare n now
      let missed (why : RunReason) : Prop := u.run.nxt[n] = none ∧ closes u r .missed (some why) false
      let sound := (s.tx[n]).state ≠ .tripped ∧ (s.tx[n]).state ≠ .offline ∧ s.locked (.tx n) = false
      let takes (m : Ant) (other : Bool) : Prop :=
        ((∃ c : RunRec, s.run.cur[n] = some c ∧ c.inUse = some m) → u.run.nxt[n] = some { r with deferred := some m }) ∧
        (∀ c : RunRec, s.run.cur[n] = some c → c.inUse ≠ some m → (r.az = none ∨ s.cfg.antRot m = none) →
          u.run.nxt[n] = some { r with deferred := none, inUse := some m, alternate := other, state := .preparing,
                                       route := .waiting, tune := .waiting, slew := .notNeeded })
      ((s.tx[n]).state = .tripped → missed .txTripped) ∧ ((s.tx[n]).state = .offline → missed .txOffline) ∧
      ((s.tx[n]).state ≠ .tripped → (s.tx[n]).state ≠ .offline → s.locked (.tx n) = true → missed .lockedOut) ∧
      (sound → s.antPasses n r.freq r.primary = true → takes r.primary false) ∧
      (sound → s.antPasses n r.freq r.primary = false →
        (∀ m : Ant, r.alt = some m → s.antPasses n r.freq m = true → takes m true) ∧
        ((∀ m : Ant, r.alt = some m → s.antPasses n r.freq m = false) → missed .noAntenna))) ∧
    (∀ r : RunRec, s.run.cur[n] = none → s.run.nxt[n] = some r → alone r →
      ∀ edge : Bool,
      let u := s.passToCurrent n ⟨now, edge⟩
      (now < r.start → u = s) ∧
      (r.start ≤ now → r.state = .ready →
        u.run.nxt[n] = none ∧ u.raised .run ∧
          u.run.cur[n] = some { r with state := .onAir, aired := true, late := r.late || !edge || decide (r.start < now) } ∧
          ((s.tx[n]).holder = none → (u.permit[n]).requester = .schedule ∧ (u.permit[n]).requested = r.power)) ∧
      (r.start ≤ now → r.state = .preparing → r.route = .inProgress → r.tune ≠ .waiting → r.slew ≠ .waiting →
        u.run.nxt[n] = none ∧ u.run.cur[n] = some r)) ∧
    ∀ c : RunRec, s.run.cur[n] = some c →
      (now < c.stop → s.endPhase n now = s) ∧
      (c.stop ≤ now → (∀ r : RunRec, s.run.nxt[n] = some r → r.start ≠ now) →
        let u := s.endPhase n now
        (c.state = .onAir → u.run.cur[n] = none ∧ closes u c .ended none false ∧
          ((s.tx[n]).holder = none → (u.permit[n]).requester = .nobody ∧ (u.permit[n]).requested = .off)) ∧
        (c.state ≠ .onAir → late c u)) ∧
      ((c.state = .onAir ∨ now < c.graceBase + s.cfg.active.grace) → s.gracePhase n now = s) ∧
      (c.state ≠ .onAir → c.graceBase + s.cfg.active.grace ≤ now → late c (s.gracePhase n now)) ∧
      ∀ (r : RunRec) (m : Ant), c.stop ≤ now → s.run.nxt[n] = some r → c.state = .onAir → c.inUse = some m → r.start = now →
        r.state = .waiting → r.deferred = some m → s.antPasses n r.freq m = true → c.freq = r.freq → c.az = none →
        r.az = none → s.standsAt (.out n) .antenna = true → s.standsAt (.sel m) (.bus n) = true →
        ((s.tx[n]).state = .ready ∨ (s.tx[n]).state = .radiating) → (s.tx[n]).tuned = some r.freq →
        let u := s.endPhase n now
        closes u c .ended none false ∧ u.run.nxt[n] = none ∧ u.raised .run ∧
          u.run.cur[n] = some { r with
            state := .onAir, aired := true, inUse := some m, deferred := none, alternate := m != r.primary, route := .done,
            tune := .done, slew := .notNeeded } ∧
          ((s.tx[n]).holder = none → (u.permit[n]).requester = .schedule ∧ (u.permit[n]).requested = r.power)
end

