-- ==== Sys2Proof/Laws/Calm.lean ====
section
/-! SUPPORT. What the consequences of an act leave alone: `Calm` of every operation that the blocks run when they take a
notice. -/

namespace Sys2Proof.Machine

theorem band_bor {w : Nat} (a b : BitVec w) : a &&& (a ||| b) = a := by ext i hi; simp; exact Or.inl

theorem LinkCalm.refl (a : Link) : LinkCalm a a := ⟨rfl, by simp⟩

theorem LinkCalm.trans {a b c : Link} (h : LinkCalm a b) (k : LinkCalm b c) : LinkCalm a c := by
  obtain ⟨h1, h2⟩ := h
  obtain ⟨k1, k2⟩ := k
  constructor
  · rw [← k1] at h1
    exact h1
  · calc a.attn &&& c.attn = (a.attn &&& b.attn) &&& c.attn := by rw [h2]
      _ = a.attn &&& (b.attn &&& c.attn) := by rw [BitVec.and_assoc]
      _ = a.attn := by rw [k2, h2]

theorem HandKept.trans {a b c : PermitRec} {d : Desk} (h : HandKept a b d) (k : HandKept b c d) : HandKept a c d := by
  unfold HandKept at *
  grind

theorem Calm.refl (s : State) : Calm s s :=
  ⟨rfl, fun _ => LinkCalm.refl _, List.prefix_refl _, fun _ _ _ => .inl ⟨rfl, rfl⟩⟩

theorem Calm.holder {a b : State} (h : Calm a b) (n : Tx) : (b.tx[n]).holder = (a.tx[n]).holder := by
  have := congrArg Kept.tx h.kept
  have := congrArg (fun v : Vector KeptTx 8 => (v[n]).holder) this
  simpa [State.kept, TxRec.kept] using this

theorem Calm.trans {a b c : State} (h : Calm a b) (k : Calm b c) : Calm a c where
  kept := k.kept.trans h.kept
  links d := (h.links d).trans (k.links d)
  sent := h.sent.trans k.sent
  hand n d hn := (h.hand n d hn).trans (k.hand n d ((h.holder n).trans hn))

/-- Only fields outside `Kept`, the links, what is sent and the permits differ. -/
theorem calm_of {a b : State} (hk : b.kept = a.kept) (hl : b.links = a.links) (hs : b.sent = a.sent) (hp : b.permit = a.permit) :
    Calm a b :=
  ⟨hk, fun d => by simp [State.link, hl, LinkCalm.refl], by simp [hs], fun n d _ => by rw [hp]; exact .inl ⟨rfl, rfl⟩⟩

/-! ## The operations, each as one that goes on from a state that is calm already -/

theorem calm_notify {z : State} (s : State) (x : Notice) (h : Calm z s) : Calm z (s.notify x) := h.trans (calm_of rfl rfl rfl rfl)

theorem calm_notifyAll {z : State} (s : State) (x : List Notice) (h : Calm z s) : Calm z (s.notifyAll x) :=
  h.trans (calm_of rfl rfl rfl rfl)

theorem calm_report {z : State} (s : State) (x : MxReport) (h : Calm z s) : Calm z (s.report x) := h.trans (calm_of rfl rfl rfl rfl)

theorem calm_setSw {z : State} (s : State) (w : Sw) (r : SwRec) (h : Calm z s) : Calm z (s.setSw w r) :=
  h.trans (by cases w <;> exact calm_of rfl rfl rfl rfl)

theorem calm_leaveSafety {z : State} (s : State) (w : Sw) (h : Calm z s) : Calm z (s.leaveSafety w) :=
  h.trans (calm_of rfl rfl rfl rfl)

theorem calm_setTask {z : State} (s : State) (n : Tx) (t : Option Task) (h : Calm z s) : Calm z (s.setTask n t) :=
  h.trans (calm_of rfl rfl rfl rfl)

theorem calm_modSlew {z : State} (s : State) (k : Rot) (f : SlewRec → SlewRec) (h : Calm z s) : Calm z (s.modSlew k f) :=
  h.trans (calm_of rfl rfl rfl rfl)

theorem calm_setSlot {z : State} (s : State) (n : Tx) (k : Slot) (r : Option RunRec) (h : Calm z s) : Calm z (s.setSlot n k r) :=
  h.trans (by cases k <;> exact calm_of rfl rfl rfl rfl)

theorem calm_run {z : State} (s : State) (r : RunTable) (h : Calm z s) : Calm z { s with run := r } :=
  h.trans (calm_of rfl rfl rfl rfl)

theorem calm_setEarth {z : State} (s : State) (m : Ant) (e : Option EarthRec) (h : Calm z s) : Calm z (s.setEarth m e) :=
  h.trans (calm_of rfl rfl rfl rfl)

theorem calm_send {z : State} (s : State) (o : Output) (h : Calm z s) : Calm z (s.send o) :=
  h.trans ⟨rfl, fun _ => LinkCalm.refl _, List.prefix_append _ _, fun _ _ _ => .inl ⟨rfl, rfl⟩⟩

theorem calm_raise {z : State} (s : State) (a : Attn) (h : Calm z s) : Calm z (s.raise a) := by
  refine h.trans ⟨rfl, fun d => ?_, List.prefix_refl _, fun _ _ _ => .inl ⟨rfl, rfl⟩⟩
  cases d <;> refine ⟨rfl, ?_⟩ <;> exact band_bor _ _

theorem calm_raiseIf {z : State} (s : State) (c : Bool) (a : Attn) (h : Calm z s) : Calm z (s.raiseIf c a) := by
  cases c
  · exact h
  · exact calm_raise s a h

theorem calm_choose {z : State} (s : State) (n : Nat) (h : Calm z s) : Calm z (s.choose n).2 := by
  refine h.trans ?_
  unfold State.choose; split <;> exact calm_of rfl rfl rfl rfl

/-- A permit record changed in anything but requester and requested level. -/
theorem calm_modPermit {z : State} (s : State) (n : Tx) (f : PermitRec → PermitRec)
    (hf : ∀ p, (f p).requester = p.requester ∧ (f p).requested = p.requested) (h : Calm z s) : Calm z (s.modPermit n f) := by
  refine h.trans ⟨rfl, fun _ => LinkCalm.refl _, List.prefix_refl _, fun m d _ => .inl ?_⟩
  by_cases e : n = m
  · subst e; simp [State.modPermit, hf]
  · have : (n : Nat) ≠ m := fun h => e (Fin.ext h)
    simp [State.modPermit, this]

theorem calm_modHolds {z : State} (s : State) (n : Tx) (f : Holds → Holds) (h : Calm z s) : Calm z (s.modHolds n f) :=
  calm_modPermit s n _ (fun _ => ⟨rfl, rfl⟩) h

theorem calm_modForces {z : State} (s : State) (n : Tx) (f : Forces → Forces) (h : Calm z s) : Calm z (s.modForces n f) :=
  calm_modPermit s n _ (fun _ => ⟨rfl, rfl⟩) h

/-- A transmitter record changed in nothing that is kept. -/
theorem calm_modTx {z : State} (s : State) (n : Tx) (f : TxRec → TxRec) (hf : (f s.tx[n]).kept = (s.tx[n]).kept) (h : Calm z s) :
    Calm z (s.modTx n f) := by
  refine h.trans (calm_of ?_ rfl rfl rfl)
  have : (s.modTx n f).tx.map TxRec.kept = s.tx.map TxRec.kept := by
    ext i hi
    by_cases e : (n : Nat) = i
    · subst e; simpa [State.modTx] using hf
    · simp [State.modTx, e]
  simp [State.kept, this]
  simp [State.modTx]

theorem calm_forAll {z : State} {α : Type} (xs : List α) (f : α → State → State) (hf : ∀ x s, Calm z s → Calm z (f x s))
    (s : State) (h : Calm z s) : Calm z (forAll xs f s) := by
  induction xs generalizing s with
  | nil => exact h
  | cons x xs ih => exact ih (f x s) (hf x s h)

theorem calm_arrangeAux {z : State} {α : Type} (n : Nat) (xs : List α) (s : State) (h : Calm z s) :
    Calm z (State.arrangeAux n xs s).2 := by
  induction n generalizing xs s with
  | zero => exact h
  | succ n ih =>
    cases xs with
    | nil => exact h
    | cons x xs => exact ih _ _ (calm_choose s _ h)

theorem calm_arrange {z : State} {α : Type} (s : State) (xs : List α) (h : Calm z s) : Calm z (s.arrange xs).2 :=
  calm_arrangeAux _ _ _ h

end Sys2Proof.Machine
end

