-- ==== Sys2Proof/Laws/CalmMatrix.lean ====
section
/-! SUPPORT. `Calm` of the matrix and route controllers. -/

namespace Sys2Proof.Machine

theorem calm_swComplete {z : State} (s : State) (w : Sw) (h : Calm z s) : Calm z (s.swComplete w) := by
  grind [State.swComplete, calm_report, calm_setSw]

theorem calm_swFault {z : State} (s : State) (w : Sw) (f : SwFault) (h : Calm z s) : Calm z (s.swFault w f) := by
  grind [State.swFault, calm_notifyAll, calm_raise, calm_report, calm_setSw]

theorem calm_grant {z : State} (s : State) (w : Sw) (h : Calm z s) : Calm z (s.grant w) := by
  grind [State.grant, calm_report, calm_send, calm_setSw]

theorem calm_grantLoop {z : State} (fuel : Nat) (s : State) (h : Calm z s) : Calm z (State.grantLoop fuel s) := by
  induction fuel generalizing s with
  | zero => exact h
  | succ n ih => grind [State.grantLoop, calm_grant]

theorem calm_grants {z : State} (s : State) (h : Calm z s) : Calm z (s.grants) := by
  grind [State.grants, calm_grantLoop]

theorem calm_commandOne {z : State} (s : State) (w : Sw) (p : Pos) (h : Calm z s) : Calm z (s.commandOne w p) := by
  grind [State.commandOne, calm_leaveSafety, calm_setSw, calm_swComplete]

theorem calm_command {z : State} (s : State) (ws : List (Sw × Pos)) (h : Calm z s) : Calm z (s.command ws).2 := by
  unfold State.command
  have (ws : List (Sw × Pos)) : Calm z (ws.foldl (fun s x => s.commandOne x.1 x.2) s) :=
    calm_forAll ws (fun x s => s.commandOne x.1 x.2) (fun x s h => calm_commandOne s x.1 x.2 h) s h
  grind

theorem calm_eq_command {z : State} (s : State) (ws : List (Sw × Pos)) (a : Status) (t : State) (h : Calm z s) (e : s.command ws = (a, t)) :
    Calm z t := by
  have := calm_command s ws h
  rwa [e] at this

theorem calm_arrival {z : State} (s : State) (n : Nat) (h : Calm z s) : Calm z { s with mx := { s.mx with nextArrival := n } } :=
  h.trans (calm_of rfl rfl rfl rfl)

theorem calm_joinQueue {z : State} (s : State) (w : Sw) (c : MoveClass) (h : Calm z s) : Calm z (s.joinQueue w c) := by
  grind [State.joinQueue, calm_setSw, calm_swComplete, calm_arrival]

theorem calm_admitCore {z : State} (s : State) (w : Sw) (c : MoveClass) (retry : Bool) (h : Calm z s) :
    Calm z (s.admitCore w c retry).2 := by
  grind [State.admitCore, calm_joinQueue, calm_setSw]

theorem calm_eq_admitCore {z : State} (s : State) (w : Sw) (c : MoveClass) (retry : Bool) (a : Status) (t : State) (h : Calm z s) (e : s.admitCore w c retry = (a, t)) :
    Calm z t := by
  have := calm_admitCore s w c retry h
  rwa [e] at this

theorem calm_admit {z : State} (s : State) (w : Sw) (c : MoveClass) (retry : Bool) (h : Calm z s) :
    Calm z (s.admitMove w c retry).2 := by
  grind [State.admitMove, calm_admitCore, calm_eq_admitCore, calm_grants, calm_leaveSafety]

theorem calm_eq_admit {z : State} (s : State) (w : Sw) (c : MoveClass) (retry : Bool) (a : Status) (t : State) (h : Calm z s) (e : s.admitMove w c retry = (a, t)) :
    Calm z t := by
  have := calm_admit s w c retry h
  rwa [e] at this

theorem calm_withdrawToEarth {z : State} (s : State) (w : Sw) (h : Calm z s) : Calm z (s.withdrawToEarth w) := by
  grind [State.withdrawToEarth, calm_admitCore, calm_eq_admitCore, calm_grants, calm_setSw]

theorem calm_withdraw {z : State} (s : State) (w : Sw) (rest : List Sw) (h : Calm z s) : Calm z (s.withdraw w rest).2 := by
  grind [State.withdraw, calm_setSw, calm_swComplete, calm_withdrawToEarth]

theorem calm_stopSw {z : State} (s : State) (w : Sw) (h : Calm z s) : Calm z (s.stopSw w) := by
  grind [State.stopSw, calm_send, calm_setSw]

theorem calm_stopAll {z : State} (s : State) (h : Calm z s) : Calm z (s.stopAll) := by
  refine calm_forAll _ _ (fun x s h => ?_) _ h
  grind [calm_stopSw]

theorem calm_requeue {z : State} (s : State) (w : Sw) (h : Calm z s) : Calm z (s.requeue w) := by
  grind [State.requeue, calm_report, calm_setSw, calm_arrival]

theorem calm_requeueAll {z : State} (s : State) (h : Calm z s) : Calm z (s.requeueAll) := by
  refine calm_forAll _ _ (fun x s h => ?_) _ h
  grind [calm_requeue]

theorem calm_admitSafety {z : State} (s : State) (h : Calm z s) : Calm z (s.admitSafety) := by
  have hs (t : State) (h : Calm z t) : Calm z { t with mx := { t.mx with safety := [] } } := h.trans (calm_of rfl rfl rfl rfl)
  refine hs _ (calm_forAll _ _ (fun x s h => ?_) _ h)
  grind [calm_admitCore]

theorem calm_mxJudge {z : State} (s : State) (h : Calm z s) : Calm z (s.mxJudge) := by
  have hs (t : State) (b : Bool) (h : Calm z t) : Calm z { t with mx := { t.mx with permitted := b } } :=
    h.trans (calm_of rfl rfl rfl rfl)
  grind [State.mxJudge, calm_admitSafety, calm_requeueAll, calm_grants, calm_stopAll]

theorem calm_movingReport {z : State} (s : State) (w : Sw) (x : Confirmed) (h : Calm z s) : Calm z (s.movingReport w x) := by
  grind [State.movingReport, calm_grants, calm_leaveSafety, calm_setSw, calm_swComplete, calm_swFault]

theorem calm_steadyReport {z : State} (s : State) (w : Sw) (x : Confirmed) (h : Calm z s) : Calm z (s.steadyReport w x) := by
  grind [State.steadyReport, calm_leaveSafety, calm_setSw, calm_swFault]

theorem calm_pendingReport {z : State} (s : State) (w : Sw) (x : Confirmed) (h : Calm z s) :
    Calm z (s.pendingReport w x) := by
  grind [State.pendingReport, calm_leaveSafety, calm_setSw, calm_swComplete, calm_swFault]

theorem calm_stoppedReport {z : State} (s : State) (w : Sw) (x : Confirmed) (h : Calm z s) :
    Calm z (s.stoppedReport w x) := by
  grind [State.stoppedReport, calm_leaveSafety, calm_setSw, calm_swComplete]

theorem calm_faultReport {z : State} (s : State) (w : Sw) (x : Confirmed) (h : Calm z s) : Calm z (s.faultReport w x) := by
  grind [State.faultReport, calm_leaveSafety, calm_setSw, calm_swComplete]

theorem calm_takeReport {z : State} (s : State) (w : Sw) (x : Confirmed) (h : Calm z s) : Calm z (s.takeReport w x) := by
  grind [State.takeReport, calm_faultReport, calm_movingReport, calm_pendingReport, calm_steadyReport, calm_stoppedReport]

theorem calm_travelExpired {z : State} (s : State) (w : Sw) (h : Calm z s) : Calm z (s.travelExpired w) := by
  grind [State.travelExpired, calm_grants, calm_send, calm_setSw, calm_swFault]

theorem calm_endTask {z : State} (s : State) (n : Tx) (failure : Option TaskFail) (byReplacement ownCancel : Bool) (h : Calm z s) :
    Calm z (s.endTask n failure byReplacement ownCancel) := by
  grind [State.endTask, calm_notifyAll, calm_raise, calm_setTask]

theorem calm_withdrawAll {z : State} (ws : List Sw) (s : State) (h : Calm z s) : Calm z (State.withdrawAll ws s) := by
  induction ws generalizing s with
  | nil => exact h
  | cons w rest ih => exact ih _ (calm_withdraw s w rest h)

theorem calm_withdrawSet {z : State} (s : State) (t : Task) (h : Calm z s) : Calm z (s.withdrawSet t) :=
  calm_withdrawAll _ s h

theorem calm_failAndWithdraw {z : State} (s : State) (n : Tx) (f : TaskFail) (ownCancel : Bool) (h : Calm z s) :
    Calm z (s.failAndWithdraw n f ownCancel) := by
  grind [State.failAndWithdraw, calm_endTask, calm_withdrawSet]

theorem calm_taskTake {z : State} (s : State) (r : MxReport) (n : Tx) (h : Calm z s) : Calm z (s.taskTake r n) := by
  grind [State.taskTake, calm_endTask, calm_failAndWithdraw, calm_setTask]

theorem calm_absorb {z : State} (fuel : Nat) (s : State) (h : Calm z s) : Calm z (State.absorb fuel s) := by
  induction fuel generalizing s with
  | zero => exact h
  | succ n ih =>
    unfold State.absorb
    split
    · exact h
    · next r rest _ =>
      refine ih _ (calm_forAll _ _ (fun n s h => calm_taskTake s r n h) _ (calm_arrange _ _ ?_))
      exact h.trans (calm_of rfl rfl rfl rfl)

theorem calm_absorbAll {z : State} (s : State) (h : Calm z s) : Calm z (s.absorbAll) := by
  grind [State.absorbAll, calm_absorb]

theorem calm_admitFor {z : State} (s : State) (n : Tx) (w : Sw) (h : Calm z s) : Calm z (s.admitFor n w) := by
  grind [State.admitFor, calm_absorbAll, calm_admit, calm_eq_admit, calm_endTask, calm_setTask]

theorem calm_enterMoving {z : State} (s : State) (n : Tx) (h : Calm z s) : Calm z (s.enterMoving n) := by
  unfold State.enterMoving
  split
  · exact h
  · exact calm_forAll _ _ (fun w s h => calm_admitFor s n w h) _ (calm_setTask s _ _ h)

theorem calm_startTask {z : State} (s : State) (src : RouteSource) (n : Tx) (dest : Dest) (earthed : Option Ant) (h : Calm z s) :
    Calm z (s.startTask src n dest earthed) := by
  grind [State.startTask, calm_absorbAll, calm_command, calm_eq_command, calm_endTask, calm_enterMoving, calm_setTask]

theorem calm_routeRequest {z : State} (s : State) (src : RouteSource) (n : Tx) (dest : Dest) (earthed : Option Ant) (h : Calm z s) :
    Calm z (s.routeRequest src n dest earthed).2 := by
  grind [State.routeRequest, calm_startTask]

theorem calm_eq_routeRequest {z : State} (s : State) (src : RouteSource) (n : Tx) (dest : Dest) (earthed : Option Ant) (a : Status) (t : State) (h : Calm z s) (e : s.routeRequest src n dest earthed = (a, t)) :
    Calm z t := by
  have := calm_routeRequest s src n dest earthed h
  rwa [e] at this

theorem calm_looseEarth {z : State} (s : State) (src : RouteSource) (m : Ant) (h : Calm z s) :
    Calm z (s.looseEarth src m).2 := by
  grind [State.looseEarth, calm_absorbAll, calm_admit, calm_eq_admit]

theorem calm_eq_looseEarth {z : State} (s : State) (src : RouteSource) (m : Ant) (a : Status) (t : State) (h : Calm z s) (e : s.looseEarth src m = (a, t)) :
    Calm z t := by
  have := calm_looseEarth s src m h
  rwa [e] at this

theorem calm_earthRequest {z : State} (s : State) (src : RouteSource) (m : Ant) (h : Calm z s) :
    Calm z (s.earthRequest src m).2 := by
  unfold State.earthRequest
  split
  · exact calm_routeRequest s src _ _ _ h
  · exact calm_looseEarth s src m h

theorem calm_earthTask {z : State} (s : State) (m : Ant) (n : Tx) (h : Calm z s) : Calm z (s.earthTask m n).2 := by
  grind [State.earthTask, calm_startTask]

theorem calm_setRouteTrip {z : State} (s : State) (n : Tx) (b : Bool) (h : Calm z s) : Calm z (s.setRouteTrip n b) := by
  grind [State.setRouteTrip, calm_modHolds]

theorem calm_routeRf {z : State} (s : State) (n : Tx) (h : Calm z s) : Calm z (s.routeRf n) := by
  unfold State.routeRf
  split
  · exact h
  · dsimp only
    refine calm_absorbAll _ (calm_forAll _ _ (fun u s h => ?_) _ (calm_arrange _ _ (calm_setRouteTrip s n false h)))
    grind [calm_enterMoving]

theorem calm_routeHallSafe {z : State} (s : State) (h : Calm z s) : Calm z (s.routeHallSafe) := by
  refine calm_absorbAll _ (calm_forAll _ _ (fun u s h => ?_) _ h)
  grind [calm_failAndWithdraw]

theorem calm_routeLocked {z : State} (s : State) (g : Target) (h : Calm z s) : Calm z (s.routeLocked g) := by
  refine calm_absorbAll _ (calm_forAll _ _ (fun u s h => ?_) _ h)
  grind [calm_failAndWithdraw]

theorem calm_routeLeft {z : State} (s : State) (w : Sw) (h : Calm z s) : Calm z (s.routeLeft w) := by
  unfold State.routeLeft
  dsimp only
  exact calm_absorbAll _ (calm_forAll _ _ (fun n s h => calm_admitFor s n w h) _ (calm_arrange _ _ h))

theorem calm_cancelTask {z : State} (s : State) (n : Tx) (o : RouteOrigin) (h : Calm z s) : Calm z (s.cancelTask n o).2 := by
  grind [State.cancelTask, calm_absorbAll, calm_failAndWithdraw]

theorem calm_eq_cancelTask {z : State} (s : State) (n : Tx) (o : RouteOrigin) (a : Status) (t : State) (h : Calm z s) (e : s.cancelTask n o = (a, t)) :
    Calm z t := by
  have := calm_cancelTask s n o h
  rwa [e] at this

theorem calm_routeSettled {z : State} (s : State) (h : Calm z s) : Calm z (s.routeSettled) := by
  refine calm_forAll _ _ (fun x s h => ?_) _ h
  grind [calm_setTask]

end Sys2Proof.Machine
end

