-- ==== Sys2Proof/Laws/CalmUnits.lean ====
section
/-! SUPPORT. `Calm` of the slew controller, the supervisor, the guard and the permit logic, and of the changeover. -/

namespace Sys2Proof.Machine

theorem calm_slewReport {z : State} (s : State) (k : Rot) (x : SlewReport) (h : Calm z s) : Calm z (s.slewReport k x) := by
  grind [State.slewReport, calm_notify]

theorem calm_slewFault {z : State} (s : State) (k : Rot) (f : SlewFault) (h : Calm z s) : Calm z (s.slewFault k f) := by
  grind [State.slewFault, calm_modSlew, calm_raise, calm_slewReport]

theorem calm_enterInPosition {z : State} (s : State) (k : Rot) (attention report : Bool) (h : Calm z s) :
    Calm z (s.enterInPosition k attention report) := by
  grind [State.enterInPosition, calm_modSlew, calm_raiseIf, calm_slewReport]

theorem calm_enterSettle {z : State} (s : State) (k : Rot) (h : Calm z s) : Calm z (s.enterSettle k) := by
  grind [State.enterSettle, calm_modSlew]

theorem calm_enterDrive {z : State} (s : State) (k : Rot) (h : Calm z s) : Calm z (s.enterDrive k) := by
  grind [State.enterDrive, calm_enterSettle, calm_modSlew]

theorem calm_judgePower {z : State} (s : State) (k : Rot) (h : Calm z s) : Calm z (s.judgePower k) := by
  grind [State.judgePower, calm_enterDrive, calm_slewFault]

theorem calm_enterAwait {z : State} (s : State) (k : Rot) (h : Calm z s) : Calm z (s.enterAwait k) := by
  grind [State.enterAwait, calm_judgePower, calm_modSlew]

theorem calm_dwellOrAwait {z : State} (s : State) (k : Rot) (d : Dir) (h : Calm z s) : Calm z (s.dwellOrAwait k d) := by
  grind [State.dwellOrAwait, calm_enterAwait, calm_modSlew]

theorem calm_startDrive {z : State} (s : State) (k : Rot) (e : Int) (h : Calm z s) : Calm z (s.startDrive k e) := by
  grind [State.startDrive, calm_dwellOrAwait, calm_modSlew]

theorem calm_reverseDrive {z : State} (s : State) (k : Rot) (e : Int) (h : Calm z s) : Calm z (s.reverseDrive k e) := by
  grind [State.reverseDrive, calm_dwellOrAwait, calm_modSlew]

theorem calm_restartSlew {z : State} (s : State) (k : Rot) (h : Calm z s) : Calm z (s.restartSlew k) := by
  grind [State.restartSlew, calm_modSlew]

theorem calm_judgeSpeed {z : State} (s : State) (k : Rot) (e : Int) (h : Calm z s) : Calm z (s.judgeSpeed k e) := by
  grind [State.judgeSpeed, calm_modSlew]

theorem calm_pursue {z : State} (s : State) (k : Rot) (attention report : Bool) (h : Calm z s) :
    Calm z (s.pursue k attention report) := by
  grind [State.pursue, calm_enterInPosition, calm_restartSlew, calm_startDrive]

theorem calm_displace {z : State} (s : State) (k : Rot) (o : Origin) (h : Calm z s) : Calm z (s.displace k o) := by
  grind [State.displace, calm_slewReport]

theorem calm_takeTarget {z : State} (s : State) (k : Rot) (az : Nat) (o : Origin) (h : Calm z s) :
    Calm z (s.takeTarget k az o) := by
  unfold State.takeTarget
  dsimp only
  have h0 := calm_modSlew _ k (fun r => { r with
    target := some az, origin := some o, fault := none, settleCount := 0, reported := false,
    state := if (s.slew[k]).state == .fault then .idle else (s.slew[k]).state }) (calm_displace s k o h)
  revert h0
  generalize (s.displace k o).modSlew k _ = t
  intro h0
  split
  · exact h0
  · split <;> grind [calm_modSlew, calm_pursue, calm_restartSlew, calm_startDrive, calm_reverseDrive, calm_enterAwait,
      calm_judgeSpeed]

theorem calm_slewRequest {z : State} (s : State) (d : Desk) (m : Ant) (az : Nat) (h : Calm z s) :
    Calm z (s.slewRequest d m az).2 := by
  grind [State.slewRequest, calm_takeTarget]

theorem calm_eq_slewRequest {z : State} (s : State) (d : Desk) (m : Ant) (az : Nat) (a : Status) (t : State) (h : Calm z s) (e : s.slewRequest d m az = (a, t)) :
    Calm z t := by
  have := calm_slewRequest s d m az h
  rwa [e] at this

theorem calm_slewStop {z : State} (s : State) (d : Desk) (m : Ant) (h : Calm z s) : Calm z (s.slewStop d m).2 := by
  grind [State.slewStop, calm_modSlew, calm_slewReport]

theorem calm_eq_slewStop {z : State} (s : State) (d : Desk) (m : Ant) (a : Status) (t : State) (h : Calm z s) (e : s.slewStop d m = (a, t)) :
    Calm z t := by
  have := calm_slewStop s d m h
  rwa [e] at this

theorem calm_slewSchedule {z : State} (s : State) (run : Nat) (m : Ant) (az : Nat) (h : Calm z s) :
    Calm z (s.slewSchedule run m az).2 := by
  grind [State.slewSchedule, calm_modSlew, calm_takeTarget]

theorem calm_eq_slewSchedule {z : State} (s : State) (run : Nat) (m : Ant) (az : Nat) (a : Status) (t : State) (h : Calm z s) (e : s.slewSchedule run m az = (a, t)) :
    Calm z t := by
  have := calm_slewSchedule s run m az h
  rwa [e] at this

theorem calm_slewWithdraw {z : State} (s : State) (run : Nat) (h : Calm z s) : Calm z (s.slewWithdraw run) := by
  refine calm_forAll _ _ (fun x s h => ?_) _ h
  grind [calm_modSlew]

theorem calm_slewHalt {z : State} (s : State) (h : Calm z s) : Calm z (s.slewHalt) := by
  refine calm_forAll _ _ (fun x s h => ?_) _ h
  grind [calm_modSlew]

theorem calm_slewResume {z : State} (s : State) (k : Rot) (h : Calm z s) : Calm z (s.slewResume k) := by
  grind [State.slewResume, calm_pursue]

theorem calm_slewResumeAll {z : State} (s : State) (h : Calm z s) : Calm z (s.slewResumeAll) := by
  refine calm_forAll _ _ (fun x s h => ?_) _ h
  grind [calm_slewResume]

theorem calm_slewPower {z : State} (s : State) (h : Calm z s) : Calm z (s.slewPower) := by
  refine calm_forAll _ _ (fun x s h => ?_) _ h
  grind [calm_judgePower]

theorem calm_slewInvalid {z : State} (s : State) (k : Rot) (h : Calm z s) : Calm z (s.slewInvalid k) := by
  grind [State.slewInvalid, calm_slewFault]

theorem calm_slewSettledOne {z : State} (s : State) (k : Rot) (h : Calm z s) : Calm z (s.slewSettledOne k) := by
  grind [State.slewSettledOne, calm_dwellOrAwait, calm_restartSlew, calm_slewFault, calm_slewResume]

theorem calm_slewSettled {z : State} (s : State) (h : Calm z s) : Calm z (s.slewSettled) := by
  refine calm_forAll _ _ (fun x s h => ?_) _ h
  grind [calm_slewSettledOne]

theorem calm_slewLocked {z : State} (s : State) (m : Ant) (h : Calm z s) : Calm z (s.slewLocked m) := by
  grind [State.slewLocked, calm_modSlew, calm_raise, calm_slewReport]

theorem calm_slewJudge {z : State} (s : State) (h : Calm z s) : Calm z (s.slewJudge) := by
  grind [State.slewJudge, calm_slewHalt, calm_slewResumeAll]

theorem calm_moveRefs {z : State} (s : State) (k : Rot) (a : Nat) (h : Calm z s) : Calm z (s.moveRefs k a) := by
  grind [State.moveRefs, calm_modSlew]

theorem calm_driveFrame {z : State} (s : State) (k : Rot) (a : Nat) (e : Int) (h : Calm z s) :
    Calm z (s.driveFrame k a e) := by
  grind [State.driveFrame, calm_enterSettle, calm_judgeSpeed, calm_moveRefs, calm_reverseDrive, calm_slewFault]

theorem calm_settleFrame {z : State} (s : State) (k : Rot) (e : Int) (h : Calm z s) : Calm z (s.settleFrame k e) := by
  grind [State.settleFrame, calm_enterInPosition, calm_modSlew, calm_startDrive]

theorem calm_dwellFrame {z : State} (s : State) (k : Rot) (e : Int) (h : Calm z s) : Calm z (s.dwellFrame k e) := by
  grind [State.dwellFrame, calm_enterSettle, calm_modSlew]

theorem calm_holdFrame {z : State} (s : State) (k : Rot) (e : Int) (h : Calm z s) : Calm z (s.holdFrame k e) := by
  grind [State.holdFrame, calm_raise, calm_restartSlew, calm_startDrive]

theorem calm_slewGood {z : State} (s : State) (k : Rot) (h : Calm z s) : Calm z (s.slewGood k) := by
  grind [State.slewGood, calm_driveFrame, calm_dwellFrame, calm_holdFrame, calm_settleFrame, calm_slewResume]

theorem calm_slewBad {z : State} (s : State) (k : Rot) (h : Calm z s) : Calm z (s.slewBad k) := by
  grind [State.slewBad, calm_modSlew, calm_slewInvalid]

theorem kept_follow (r : TxRec) (c : TxCond) (f : Option Nat) : (r.follow c f).kept = r.kept := by cases c <;> rfl

theorem kept_followLast (r : TxRec) : r.followLast.kept = r.kept := by
  unfold TxRec.followLast
  split
  · exact kept_follow _ _ _
  · rfl

theorem calm_followLast {z : State} (s : State) (n : Tx) (h : Calm z s) : Calm z (s.modTx n TxRec.followLast) :=
  calm_modTx s n _ (kept_followLast _) h

theorem calm_endOrder {z : State} (s : State) (n : Tx) (failure : Option OrderFail) (h : Calm z s) :
    Calm z (s.endOrder n failure) := by
  grind [State.endOrder, calm_notify, calm_raise, calm_modTx, TxRec.kept]

theorem calm_failOrder {z : State} (s : State) (n : Tx) (f : OrderFail) (h : Calm z s) : Calm z (s.failOrder n f) := by
  grind [State.failOrder, calm_endOrder, calm_followLast]

theorem calm_guardTrip {z : State} (s : State) (n : Tx) (h : Calm z s) : Calm z (s.guardTrip n) := by
  grind [State.guardTrip, calm_endOrder, calm_modForces, calm_notify, calm_modTx, TxRec.kept]

theorem calm_sendTune {z : State} (s : State) (n : Tx) (h : Calm z s) : Calm z (s.sendTune n) := by
  grind [State.sendTune, calm_send, calm_modTx, TxRec.kept]

theorem calm_takeFeed {z : State} (s : State) (n : Tx) (feed : Nat) (o : Origin) (h : Calm z s) :
    Calm z (s.takeFeed n feed o) := by
  grind [State.takeFeed, calm_endOrder, calm_send, calm_modTx, TxRec.kept]

theorem calm_takeTune {z : State} (s : State) (n : Tx) (freq feed : Nat) (o : Origin) (h : Calm z s) :
    Calm z (s.takeTune n freq feed o) := by
  grind [State.takeTune, calm_endOrder, calm_sendTune, calm_modTx, TxRec.kept]

theorem calm_acceptTune {z : State} (s : State) (n : Tx) (freq feed : Nat) (o : Origin) (h : Calm z s) :
    Calm z (s.acceptTune n freq feed o).2 := by
  grind [State.acceptTune, calm_takeFeed, calm_takeTune]

theorem calm_eq_acceptTune {z : State} (s : State) (n : Tx) (freq feed : Nat) (o : Origin) (a : Status) (t : State) (h : Calm z s) (e : s.acceptTune n freq feed o = (a, t)) :
    Calm z t := by
  have := calm_acceptTune s n freq feed o h
  rwa [e] at this

theorem calm_tuneRequest {z : State} (s : State) (n : Tx) (freq feed : Nat) (o : Origin) (h : Calm z s) :
    Calm z (s.tuneRequest n freq feed o).2 := by
  grind [State.tuneRequest, calm_acceptTune, calm_eq_acceptTune]

theorem calm_eq_tuneRequest {z : State} (s : State) (n : Tx) (freq feed : Nat) (o : Origin) (a : Status) (t : State) (h : Calm z s) (e : s.tuneRequest n freq feed o = (a, t)) :
    Calm z t := by
  have := calm_tuneRequest s n freq feed o h
  rwa [e] at this

theorem calm_feedRequest {z : State} (s : State) (n : Tx) (feed run : Nat) (h : Calm z s) :
    Calm z (s.feedRequest n feed run).2 := by
  grind [State.feedRequest, calm_takeFeed]

theorem calm_eq_feedRequest {z : State} (s : State) (n : Tx) (feed run : Nat) (a : Status) (t : State) (h : Calm z s) (e : s.feedRequest n feed run = (a, t)) :
    Calm z t := by
  have := calm_feedRequest s n feed run h
  rwa [e] at this

theorem calm_cancelOrder {z : State} (s : State) (n : Tx) (run : Nat) (h : Calm z s) : Calm z (s.cancelOrder n run) := by
  grind [State.cancelOrder, calm_failOrder]

theorem calm_txRf {z : State} (s : State) (n : Tx) (h : Calm z s) : Calm z (s.txRf n) := by
  grind [State.txRf, calm_sendTune]

theorem calm_txLocked {z : State} (s : State) (n : Tx) (h : Calm z s) : Calm z (s.txLocked n) := by
  grind [State.txLocked, calm_failOrder]

theorem calm_failHand {z : State} (s : State) (n : Tx) (is : Origin → Bool) (h : Calm z s) : Calm z (s.failHand n is) := by
  grind [State.failHand, calm_failOrder]

theorem calm_txSettled {z : State} (s : State) (h : Calm z s) : Calm z (s.txSettled) := by
  exact calm_forAll _ _ (fun n s h => calm_sendTune _ n (calm_modTx s n _ rfl h)) _ h

theorem calm_guardAct {z : State} (s : State) (n : Tx) (h : Calm z s) : Calm z (s.guardAct n) := by
  grind [State.guardAct, calm_guardTrip, calm_modHolds, calm_raise]

theorem calm_guardOne {z : State} (s : State) (n : Tx) (h : Calm z s) : Calm z (s.guardOne n) := by
  grind [State.guardOne, calm_guardAct, calm_modHolds]

theorem calm_guardSync {z : State} (s : State) (h : Calm z s) : Calm z (s.guardSync) := by
  refine calm_forAll _ _ (fun x s h => ?_) _ h
  grind [calm_guardOne]

theorem permitOf_hand (s : State) (n : Tx) (d : Desk) (hn : (s.tx[n]).holder = some d) :
    HandKept s.permit[n] (s.permitOf n) d := by
  have h1 : s.requesterOf n = .hand d := by simp only [State.requesterOf, hn]
  refine .inr ⟨h1, ?_⟩
  simp only [State.permitOf, State.requestedOf, h1, beq_iff_eq]

theorem permitSync_permit (s : State) (n : Tx) : s.permitSync.permit[n] = s.permitOf n := by
  fin_cases n <;> rfl

theorem calm_permitSync {z : State} (s : State) (h : Calm z s) : Calm z s.permitSync := by
  refine h.trans ⟨?_, fun _ => LinkCalm.refl _, List.prefix_refl _, fun n d hn => ?_⟩
  · cases h : s.cfg.settling <;> simp [State.kept, State.permitSync, h, Settling.waits]
  · rw [permitSync_permit]
    exact permitOf_hand s n d hn

theorem calm_radiateOne {z : State} (s : State) (n : Tx) (h : Calm z s) : Calm z (s.radiateOne n) := by
  grind [State.radiateOne, calm_modTx, TxRec.kept]

theorem calm_watchOne {z : State} (s : State) (n : Tx) (h : Calm z s) : Calm z (s.watchOne n) := by
  grind [State.watchOne, calm_modTx, TxRec.kept]

theorem calm_sync {z : State} (s : State) (h : Calm z s) : Calm z (s.sync) := by
  refine calm_forAll _ _ (fun n s h => calm_watchOne _ n (calm_radiateOne s n h)) _ ?_
  exact calm_permitSync _ (calm_guardSync _ (calm_absorbAll s h))

theorem calm_judgeChangeover {z : State} (s : State) (now : Nat) (h : Calm z s) : Calm z (s.judgeChangeover now) := by
  unfold State.judgeChangeover
  split
  · exact calm_raise _ _ (h.trans (calm_of rfl rfl rfl rfl))
  · exact h

end Sys2Proof.Machine
end

