-- ==== Sys2Proof/Laws/CalmRun.lean ====
section
/-! SUPPORT. `Calm` of the run scheduler. -/

namespace Sys2Proof.Machine

theorem calm_modRun {z : State} (s : State) (num : Nat) (f : RunRec → RunRec) (h : Calm z s) : Calm z (s.modRun num f) := by
  grind [State.modRun, calm_setSlot]

theorem calm_writeOutcome {z : State} (s : State) (r : RunRec) (st : RunState) (reason : Option RunReason) (now : Nat) (h : Calm z s) :
    Calm z (s.writeOutcome r st reason now) := by
  grind [State.writeOutcome, calm_raise, calm_run, calm_run]

theorem calm_takeBack {z : State} (s : State) (r : RunRec) (h : Calm z s) : Calm z (s.takeBack r) := by
  grind [State.takeBack, calm_cancelOrder, calm_cancelTask, calm_eq_cancelTask, calm_slewWithdraw]

theorem calm_leaveSlot {z : State} (s : State) (n : Tx) (k : Slot) (now : Nat) (h : Calm z s) : Calm z (s.leaveSlot n k now) := by
  grind [State.leaveSlot, calm_notify, calm_setSlot]

theorem calm_closeRun {z : State} (s : State) (n : Tx) (k : Slot) (r : RunRec) (st : RunState) (reason : Option RunReason) (now : Nat) (h : Calm z s) :
    Calm z (s.closeRun n k r st reason now) := by
  exact calm_permitSync _ (calm_writeOutcome _ _ _ _ _ (calm_slewWithdraw _ _ (calm_takeBack _ _ (calm_leaveSlot s n k now h))))

theorem calm_missRun {z : State} (s : State) (n : Tx) (k : Slot) (r : RunRec) (reason : RunReason) (now : Nat) (h : Calm z s) :
    Calm z (s.missRun n k r reason now) := by
  grind [State.missRun, calm_closeRun]

theorem calm_endRun {z : State} (s : State) (n : Tx) (k : Slot) (r : RunRec) (held : Bool) (now : Nat) (h : Calm z s) :
    Calm z (s.endRun n k r held now) := by
  grind [State.endRun, calm_closeRun]

theorem calm_dropRun {z : State} (s : State) (n : Tx) (k : Slot) (reason : RunReason) (now : Nat) (h : Calm z s) :
    Calm z (s.dropRun n k reason now) := by
  grind [State.dropRun, calm_endRun, calm_leaveSlot, calm_missRun]

theorem calm_goOnAir {z : State} (s : State) (num : Nat) (late : Bool) (h : Calm z s) : Calm z (s.goOnAir num late) := by
  grind [State.goOnAir, calm_modRun, calm_permitSync, calm_raise, calm_run]

theorem calm_readyCheck {z : State} (s : State) (num : Nat) (t : RunNow) (h : Calm z s) : Calm z (s.readyCheck num t) := by
  grind [State.readyCheck, calm_goOnAir, calm_setSlot]

theorem calm_setItem {z : State} (s : State) (num : Nat) (i : ItemKind) (x : Item) (h : Calm z s) :
    Calm z (s.setItem num i x) := by
  grind [State.setItem, calm_modRun]

theorem calm_goAlternate {z : State} (req : Nat → State → State) (hr : ∀ num s, Calm z s → Calm z (req num s)) (s : State) (num : Nat) (h : Calm z s) :
    Calm z (s.goAlternate req num).2 := by
  grind [State.goAlternate, calm_modRun, calm_raise, calm_run, calm_takeBack]

theorem calm_eq_goAlternate {z : State} (req : Nat → State → State) (hr : ∀ num s, Calm z s → Calm z (req num s)) (s : State) (num : Nat) (a : Bool) (t : State) (h : Calm z s) (e : s.goAlternate req num = (a, t)) :
    Calm z t := by
  have := calm_goAlternate req hr s num h
  rwa [e] at this

theorem calm_itemFailed {z : State} (req : Nat → State → State) (hr : ∀ num s, Calm z s → Calm z (req num s)) (s : State) (num : Nat) (i : ItemKind) (reason : RunReason) (now : Nat) (h : Calm z s) :
    Calm z (s.itemFailed req num i reason now) := by
  grind [State.itemFailed, calm_goAlternate, calm_eq_goAlternate, calm_missRun, calm_setItem]

theorem calm_antLockedRun {z : State} (req : Nat → State → State) (hr : ∀ num s, Calm z s → Calm z (req num s)) (s : State) (num : Nat) (now : Nat) (h : Calm z s) :
    Calm z (s.antLockedRun req num now) := by
  grind [State.antLockedRun, calm_closeRun, calm_goAlternate, calm_eq_goAlternate, calm_missRun]

theorem calm_txLockedRun {z : State} (s : State) (n : Tx) (k : Slot) (now : Nat) (h : Calm z s) :
    Calm z (s.txLockedRun n k now) := by
  unfold State.txLockedRun
  split
  · exact calm_closeRun _ _ _ _ _ _ _ h
  · split
    · exact h
    · exact calm_missRun _ _ _ _ _ _ h
  · exact h

theorem calm_lockedRun {z : State} (req : Nat → State → State) (hr : ∀ num s, Calm z s → Calm z (req num s)) (s : State) (num : Nat) (now : Nat) (h : Calm z s) :
    Calm z (s.lockedRun req num now) := by
  grind [State.lockedRun, calm_antLockedRun, calm_txLockedRun]

theorem calm_handRun {z : State} (s : State) (n : Tx) (now : Nat) (h : Calm z s) : Calm z (s.handRun n now) := by
  grind [State.handRun, calm_closeRun, calm_dropRun, calm_run]

theorem calm_handOf {z : State} (s : State) (num : Nat) (now : Nat) (h : Calm z s) : Calm z (s.handOf num now) := by
  grind [State.handOf, calm_handRun]

theorem calm_missOf {z : State} (s : State) (num : Nat) (reason : RunReason) (now : Nat) (h : Calm z s) :
    Calm z (s.missOf num reason now) := by
  grind [State.missOf, calm_missRun]

theorem calm_answerItem {z : State} (req : Nat → State → State) (hr : ∀ num s, Calm z s → Calm z (req num s)) (s : State) (num : Nat) (i : ItemKind) (a : Status) (now : RunNow) (h : Calm z s) :
    Calm z (s.answerItem req num i a now) := by
  unfold State.answerItem
  split <;> grind [calm_handOf, calm_itemFailed, calm_lockedRun, calm_missOf, calm_missRun, calm_readyCheck, calm_setItem]

theorem calm_askItem {z : State} (s : State) (r : RunRec) (i : ItemKind) (h : Calm z s) : Calm z (s.askItem r i).2 := by
  unfold State.askItem
  split
  · exact calm_routeRequest _ _ _ _ _ h
  · exact calm_tuneRequest _ _ _ _ _ h
  · exact calm_slewSchedule _ _ _ _ h
  · exact h

theorem calm_eq_askItem {z : State} (s : State) (r : RunRec) (i : ItemKind) (a : Status) (t : State) (h : Calm z s) (e : s.askItem r i = (a, t)) :
    Calm z t := by
  have := calm_askItem s r i h
  rwa [e] at this

theorem calm_requestItem {z : State} (req : Nat → State → State) (hr : ∀ num s, Calm z s → Calm z (req num s)) (s : State) (num : Nat) (i : ItemKind) (now : RunNow) (h : Calm z s) :
    Calm z (s.requestItem req num i now) := by
  grind [State.requestItem, calm_answerItem, calm_askItem, calm_eq_askItem]

theorem calm_requestItems {z : State} (fuel : Nat) (now : RunNow) (num : Nat) (s : State) (h : Calm z s) :
    Calm z (State.requestItems fuel now num s) := by
  induction fuel generalizing num s with
  | zero => exact h
  | succ n ih =>
    unfold State.requestItems
    dsimp only
    refine calm_readyCheck _ _ _ (calm_forAll _ _ (fun i s h => ?_) _ (calm_arrange _ _ h))
    exact calm_requestItem _ (fun num s => ih num s) s _ _ _ h

theorem calm_request {z : State} (s : State) (num : Nat) (now : RunNow) (h : Calm z s) : Calm z (s.request num now) := by
  grind [State.request, calm_requestItems]

theorem calm_alternate {z : State} (s : State) (num : Nat) (now : RunNow) (h : Calm z s) : Calm z (s.alternate num now).2 := by
  exact calm_goAlternate _ (fun num s h => calm_request s num now h) s num h

theorem calm_eq_alternate {z : State} (s : State) (num : Nat) (now : RunNow) (a : Bool) (t : State) (h : Calm z s) (e : s.alternate num now = (a, t)) :
    Calm z t := by
  have := calm_alternate s num now h
  rwa [e] at this

theorem calm_askAgain {z : State} (s : State) (xs : List (Nat × ItemKind)) (now : RunNow) (h : Calm z s) :
    Calm z (s.askAgain xs now) := by
  unfold State.askAgain
  dsimp only
  refine calm_forAll _ _ (fun x s h => ?_) _ (calm_arrange _ _ h)
  exact calm_requestItem _ (fun num s h => calm_request s num now h) s _ _ _ h

theorem calm_prepare {z : State} (s : State) (n : Tx) (now : Nat) (h : Calm z s) : Calm z (s.prepare n now) := by
  grind [State.prepare, calm_missRun, calm_request, calm_run, calm_setSlot]

theorem calm_passToCurrent {z : State} (s : State) (n : Tx) (now : RunNow) (h : Calm z s) : Calm z (s.passToCurrent n now) := by
  grind [State.passToCurrent, calm_goOnAir, calm_request, calm_run, calm_setSlot]

theorem calm_startRun {z : State} (s : State) (n : Tx) (now : Nat) (h : Calm z s) : Calm z (s.startRun n now) := by
  grind [State.startRun, calm_passToCurrent, calm_prepare, calm_run]

theorem calm_prepareDue {z : State} (s : State) (n : Tx) (now : RunNow) (h : Calm z s) : Calm z (s.prepareDue n now) := by
  grind [State.prepareDue, calm_passToCurrent, calm_prepare]

theorem calm_drawNum {z : State} (s : State) (h : Calm z s) : Calm z s.drawNum.2 := calm_run s _ h

theorem calm_takeNext {z : State} (s : State) (n : Tx) (o : Occ) (late : Bool) (base : Nat) (h : Calm z s) :
    Calm z (s.takeNext n o late base) := by
  grind [State.takeNext, calm_drawNum, calm_setSlot]

theorem calm_missOcc {z : State} (s : State) (o : Occ) (reason : RunReason) (now : Nat) (h : Calm z s) :
    Calm z (s.missOcc o reason now) := by
  grind [State.missOcc, calm_drawNum, calm_writeOutcome]

theorem calm_chooseEmpty {z : State} (fuel : Nat) (n : Tx) (now : Nat) (s : State) (h : Calm z s) :
    Calm z (State.chooseEmpty fuel n now s) := by
  induction fuel generalizing s with
  | zero => exact h
  | succ k ih => grind [State.chooseEmpty, calm_takeNext, calm_missOcc]

theorem calm_missCarried {z : State} (fuel : Nat) (n : Tx) (stop now : Nat) (s : State) (h : Calm z s) :
    Calm z (State.missCarried fuel n stop now s) := by
  induction fuel generalizing s with
  | zero => exact h
  | succ k ih => grind [State.missCarried, calm_missOcc]

theorem calm_chooseAfter {z : State} (s : State) (n : Tx) (r : RunRec) (now : Nat) (h : Calm z s) :
    Calm z (s.chooseAfter n r now) := by
  grind [State.chooseAfter, calm_missCarried, calm_takeNext]

theorem calm_chooseFor {z : State} (s : State) (n : Tx) (now : RunNow) (h : Calm z s) : Calm z (s.chooseFor n now) := by
  grind [State.chooseFor, calm_chooseAfter, calm_chooseEmpty, calm_passToCurrent, calm_prepare, calm_run]

theorem calm_chooseAll {z : State} (s : State) (now : RunNow) (h : Calm z s) : Calm z (s.chooseAll now) := by
  unfold State.chooseAll
  dsimp only
  exact calm_forAll _ _ (fun n s h => calm_chooseFor s n now h) _ (calm_arrange _ _ h)

theorem calm_runThrough {z : State} (s : State) (n : Tx) (c r : RunRec) (m : Ant) (now : Nat) (h : Calm z s) :
    Calm z (s.runThrough n c r m now) := by
  unfold State.runThrough
  dsimp only
  have h1 (x : RunRec) : Calm z (((((s.setSlot n .nxt none).setSlot n .cur (some x)).writeOutcome c .ended none
      now).permitSync).raise .run) :=
    calm_raise _ .run (calm_permitSync _ (calm_writeOutcome _ c .ended none now
      (calm_setSlot _ n .cur _ (calm_setSlot s n .nxt none h))))
  refine calm_slewWithdraw _ _ ?_
  split <;> split <;> grind [calm_feedRequest, calm_slewSchedule, calm_raise]

theorem calm_lateEnd {z : State} (s : State) (n : Tx) (r : RunRec) (now : Nat) (h : Calm z s) :
    Calm z (s.lateEnd n r now) := by
  grind [State.lateEnd, calm_endRun, calm_missRun]

theorem calm_endPhase {z : State} (s : State) (n : Tx) (now : Nat) (h : Calm z s) : Calm z (s.endPhase n now) := by
  grind [State.endPhase, calm_endRun, calm_lateEnd, calm_run, calm_runThrough]

theorem calm_gracePhase {z : State} (s : State) (n : Tx) (now : Nat) (h : Calm z s) : Calm z (s.gracePhase n now) := by
  grind [State.gracePhase, calm_lateEnd, calm_run]

theorem calm_newGraces {z : State} (s : State) (now : Nat) (h : Calm z s) : Calm z (s.newGraces now) := by
  unfold State.newGraces
  dsimp only
  exact calm_forAll _ _ (fun n s h => calm_gracePhase s n now h) _ (calm_arrange _ _ h)

theorem calm_runBoundary {z : State} (s : State) (now : Nat) (h : Calm z s) : Calm z (s.runBoundary now) := by
  unfold State.runBoundary
  dsimp only
  refine calm_newGraces _ _ (calm_chooseAll _ _ (calm_forAll _ _ (fun n s h => calm_prepareDue s n _ h) _ ?_))
  refine calm_askAgain _ _ _ (calm_forAll _ _ (fun n s h => calm_gracePhase s n now h) _ ?_)
  refine calm_forAll _ _ (fun n s h => calm_startRun s n now h) _ ?_
  exact calm_forAll _ _ (fun n s h => calm_endPhase s n now h) _ (calm_arrange _ _ h)

theorem calm_routeEnd {z : State} (s : State) (e : TaskEnd) (run : Nat) (now : Nat) (h : Calm z s) :
    Calm z (s.routeEnd e run now) := by
  have hq' : ∀ num s, Calm z s → Calm z (State.request s num ⟨now, false⟩) := fun num s => calm_request s num _
  grind [State.routeEnd, calm_itemFailed, calm_lockedRun, calm_antLockedRun, calm_missOf, calm_readyCheck, calm_setItem]

theorem calm_runTask {z : State} (s : State) (e : TaskEnd) (h : Calm z s) : Calm z (s.runTask e) := by
  grind [State.runTask, calm_askAgain, calm_routeEnd]

theorem calm_slewEnd {z : State} (s : State) (run : Nat) (k : Rot) (x : SlewReport) (now : Nat) (h : Calm z s) :
    Calm z (s.slewEnd run k x now) := by
  have hq' : ∀ num s, Calm z s → Calm z (State.request s num ⟨now, false⟩) := fun num s => calm_request s num _
  grind [State.slewEnd, calm_itemFailed, calm_lockedRun, calm_antLockedRun, calm_missOf, calm_readyCheck, calm_setItem]

theorem calm_runSlew {z : State} (s : State) (run : Nat) (k : Rot) (x : SlewReport) (h : Calm z s) :
    Calm z (s.runSlew run k x) := by
  grind [State.runSlew, calm_askAgain, calm_slewEnd]

theorem calm_orderEnd {z : State} (s : State) (run : Nat) (kind : OrderKind) (f : Option OrderFail) (now : Nat) (h : Calm z s) :
    Calm z (s.orderEnd run kind f now) := by
  grind [State.orderEnd, calm_handRun, calm_missRun, calm_raiseIf, calm_readyCheck, calm_run, calm_setItem, calm_txLockedRun]

theorem calm_runOrder {z : State} (s : State) (run : Nat) (kind : OrderKind) (f : Option OrderFail) (h : Calm z s) :
    Calm z (s.runOrder run kind f) := by
  grind [State.runOrder, calm_askAgain, calm_orderEnd]

theorem calm_tripCur {z : State} (s : State) (n : Tx) (now : Nat) (h : Calm z s) : Calm z (s.tripCur n now) := by
  grind [State.tripCur, calm_closeRun, calm_run]

theorem calm_tripNxt {z : State} (s : State) (n : Tx) (now : Nat) (h : Calm z s) : Calm z (s.tripNxt n now) := by
  grind [State.tripNxt, calm_missRun, calm_run]

theorem calm_leaveMarked {z : State} (s : State) (n : Tx) (m : Ant) (now : Nat) (h : Calm z s) :
    Calm z (s.leaveMarked n m now) := by
  unfold State.leaveMarked
  dsimp only
  exact calm_forAll _ _ (fun num s h => calm_alternate s num _ h) _ (calm_arrange _ _ h)

theorem calm_tripOwn {z : State} (s : State) (n : Tx) (now : Nat) (h : Calm z s) : Calm z (s.tripOwn n now) := by
  grind [State.tripOwn, calm_tripCur, calm_tripNxt]

theorem calm_runFinalTrip {z : State} (s : State) (n : Tx) (mark : Option Ant) (h : Calm z s) :
    Calm z (s.runFinalTrip n mark) := by
  unfold State.runFinalTrip
  dsimp only
  split <;> grind [calm_tripOwn, calm_leaveMarked, calm_choose]

theorem calm_onAirLocked {z : State} (s : State) (num : Nat) (now : Nat) (h : Calm z s) :
    Calm z (s.onAirLocked num now) := by
  grind [State.onAirLocked, calm_alternate, calm_eq_alternate, calm_closeRun, calm_modRun, calm_permitSync]

theorem calm_runLockout {z : State} (s : State) (t : Target) (h : Calm z s) : Calm z (s.runLockout t) := by
  unfold State.runLockout
  split
  · exact calm_txLockedRun _ _ _ _ (calm_txLockedRun s _ _ _ h)
  · dsimp only
    refine calm_forAll _ _ (fun num s h => ?_) _ (calm_arrange _ _ h)
    split
    · split
      · exact calm_onAirLocked _ _ _ h
      · exact calm_antLockedRun _ (fun num s h => calm_request s num _ h) _ _ _ h
    · exact h

theorem calm_runSelFault {z : State} (s : State) (m : Ant) (h : Calm z s) : Calm z (s.runSelFault m) := by
  unfold State.runSelFault
  dsimp only
  refine calm_forAll _ _ (fun num s h => ?_) _ (calm_arrange _ _ h)
  grind [calm_alternate, calm_endRun, calm_missRun]

theorem calm_runSlot {z : State} (s : State) (n : Tx) (now : Nat) (h : Calm z s) : Calm z (s.runSlot n now) := by
  grind [State.runSlot, calm_passToCurrent, calm_prepare, calm_request, calm_run, calm_setSlot]

theorem calm_runAgain {z : State} (s : State) (h : Calm z s) : Calm z (s.runAgain) := by
  grind [State.runAgain, calm_askAgain]

theorem calm_runJudge {z : State} (s : State) (h : Calm z s) : Calm z (s.runJudge) := by
  unfold State.runJudge
  dsimp only
  split
  · exact calm_chooseAll _ _ (calm_forAll _ _ (fun n s h => calm_prepareDue s n _ h) _ (calm_arrange _ _ h))
  · exact h

theorem calm_runEdit {z : State} (s : State) (_t : TableId) (fromClose : Bool) (h : Calm z s) :
    Calm z (s.runEdit _t fromClose) := by
  unfold State.runEdit
  refine calm_chooseAll _ _ (calm_forAll _ _ (fun n s h => ?_) _ h)
  grind [calm_dropRun]

theorem calm_runChangeover {z : State} (s : State) (t : TableId) (now : Nat) (h : Calm z s) :
    Calm z (s.runChangeover t now) := by
  unfold State.runChangeover
  refine calm_chooseAll _ _ (calm_forAll _ _ (fun n s h => ?_) _ h)
  grind [calm_dropRun]

theorem calm_stepCurrent {z : State} (s : State) (n : Tx) (now : Nat) (h : Calm z s) : Calm z (s.stepCurrent n now) := by
  grind [State.stepCurrent, calm_dropRun, calm_endRun, calm_run]

theorem calm_runStep {z : State} (s : State) (e : StepEvent) (h : Calm z s) : Calm z (s.runStep e) := by
  obtain ⟨kind, before, now⟩ := e
  unfold State.runStep
  dsimp only
  have hs (now : Nat) : Calm z (forAll allTx (fun n s => (s.dropRun n .nxt .dropped now).stepCurrent n now) s) :=
    calm_forAll _ _ (fun n s h => calm_stepCurrent _ _ _ (calm_dropRun s _ _ _ _ h)) _ h
  cases kind
  · exact calm_chooseAll _ _ (hs _)
  · exact calm_chooseAll _ _ h
  · exact calm_chooseAll _ _ (hs _)
  · exact calm_chooseAll _ _ (calm_run _ _ (hs _))

theorem calm_heldOne {z : State} (s : State) (n : Tx) (h : Calm z s) : Calm z (s.heldOne n) := by
  grind [State.heldOne, calm_raise, calm_run, calm_setSlot]

theorem calm_runSettled {z : State} (s : State) (h : Calm z s) : Calm z (s.runSettled) := by
  exact calm_runAgain _ (calm_forAll _ _ (fun n s h => calm_heldOne s n h) _ h)

end Sys2Proof.Machine
end

