-- ==== Sys2Proof/Laws/CalmAll.lean ====
section
/-! SUPPORT. `Calm` of the lockout table and the hall monitor, and of every notice that a block takes. -/

namespace Sys2Proof.Machine

theorem calm_setEffective {z : State} (s : State) (g : Target) (b : Bool) (h : Calm z s) : Calm z (s.setEffective g b) := by
  unfold State.setEffective
  dsimp only
  split
  · refine calm_raise _ _ (h.trans (calm_of ?_ rfl rfl rfl))
    have : (s.locks.records.map fun r => if r.target == g then { r with effective := b } else r).map LockRec.kept =
        s.locks.records.map LockRec.kept := by
      rw [List.map_map]
      refine List.map_congr_left fun r _ => ?_
      simp only [Function.comp]
      split <;> rfl
    simp only [State.kept, State.modLocks]
    rw [this]
  · exact h

theorem calm_askEarth {z : State} (s : State) (m : Ant) (h : Calm z s) : Calm z (s.askEarth m) := by
  grind [State.askEarth, calm_earthRequest, calm_setEarth]

theorem calm_askEarths {z : State} (s : State) (except : Option Ant) (h : Calm z s) : Calm z (s.askEarths except) := by
  unfold State.askEarths
  dsimp only
  exact calm_forAll _ _ (fun m s h => calm_askEarth s m h) _ (calm_arrange _ _ h)

theorem calm_earthFailed {z : State} (s : State) (m : Ant) (f : EarthFail) (h : Calm z s) : Calm z (s.earthFailed m f) := by
  grind [State.earthFailed, calm_raise, calm_setEarth]

theorem calm_earthDone {z : State} (s : State) (m : Ant) (h : Calm z s) : Calm z (s.earthDone m) := by
  grind [State.earthDone, calm_setEarth]

theorem calm_judgeAnt {z : State} (s : State) (m : Ant) (h : Calm z s) : Calm z (s.judgeAnt m) := by
  grind [State.judgeAnt, calm_earthDone, calm_earthFailed, calm_setEffective]

theorem calm_lockSw {z : State} (s : State) (m : Ant) (leftMoving intoFault : Bool) (h : Calm z s) :
    Calm z (s.lockSw m leftMoving intoFault) := by
  grind [State.lockSw, calm_askEarth, calm_earthFailed, calm_judgeAnt]

theorem calm_lockRf {z : State} (s : State) (n : Tx) (h : Calm z s) : Calm z (s.lockRf n) := by
  grind [State.lockRf, calm_setEffective]

theorem calm_earthEnd {z : State} (s : State) (m : Ant) (e : TaskEnd) (h : Calm z s) : Calm z (s.earthEnd m e) := by
  grind [State.earthEnd, calm_earthDone, calm_earthFailed, calm_setEarth]

theorem calm_lockTask {z : State} (s : State) (e : TaskEnd) (h : Calm z s) : Calm z (s.lockTask e) := by
  grind [State.lockTask, calm_askEarths, calm_earthEnd]

theorem calm_lockSettled {z : State} (s : State) (h : Calm z s) : Calm z (s.lockSettled) := by
  exact calm_forAll _ _ (fun m s h => calm_lockSw s m _ _ h) _ (calm_forAll _ _ (fun n s h => calm_lockRf s n h) _ h)

theorem calm_setHallTrip {z : State} (s : State) (n : Tx) (b : Bool) (h : Calm z s) : Calm z (s.setHallTrip n b) := by
  grind [State.setHallTrip, calm_modHolds]

theorem calm_hallRf {z : State} (s : State) (n : Tx) (h : Calm z s) : Calm z (s.hallRf n) := by
  grind [State.hallRf, calm_setHallTrip]

theorem calm_toRun {z : State} (s : State) (x : Notice) (act : State → State) (hact : ∀ t, Calm z t → Calm z (act t))
    (h : Calm z s) : Calm z (s.toRun x act) := by
  unfold State.toRun
  split
  · exact calm_run _ _ h
  · exact hact s h

theorem calm_seasonMinute {z : State} (s : State) (minute : Nat) (h : Calm z s) : Calm z (s.seasonMinute minute) := by
  unfold State.seasonMinute
  split
  · next u _ => exact calm_toRun _ _ _ (fun t h => calm_runChangeover t u minute h) (calm_judgeChangeover s _ h)
  · exact calm_judgeChangeover s _ h

theorem calm_clockGives {z : State} (s : State) (minute : Nat) (x : Notice) (act : State → State)
    (hact : ∀ t, Calm z t → Calm z (act t)) (h : Calm z s) : Calm z (s.clockGives minute x act) := by
  unfold State.clockGives
  generalize hc : s.choose _ = c
  have ht : Calm z c.2 := hc ▸ calm_choose s _ h
  dsimp only
  split
  · exact calm_toRun _ _ _ hact (calm_seasonMinute _ _ ht)
  · exact calm_seasonMinute _ _ (calm_toRun _ _ _ hact ht)

theorem calm_lockAsk {z : State} (s : State) (m : Ant) (h : Calm z s) : Calm z (s.lockAsk m) := by
  grind [State.lockAsk, calm_askEarth]

theorem calm_lockTaskNow {z : State} (s : State) (e : TaskEnd) (h : Calm z s) : Calm z (s.lockTaskNow e) := by
  grind [State.lockTaskNow, calm_earthEnd, calm_lockTask]

theorem calm_takeOne {z : State} (s : State) (n : Notice) (h : Calm z s) : Calm z (s.takeOne n) := by
  cases n with
  | mxJudge => exact calm_absorbAll _ (calm_mxJudge s h)
  | routeRf n => exact calm_routeRf _ _ h
  | routeSafe => exact calm_routeHallSafe _ h
  | routeLeft w => exact calm_routeLeft _ _ h
  | routeSettled => exact calm_routeSettled _ h
  | slewPower => exact calm_slewPower _ h
  | slewAllowed => exact calm_slewJudge _ h
  | slewInvalid k => exact calm_slewInvalid _ _ h
  | slewSettled => exact calm_slewSettled _ h
  | txRf n => exact calm_txRf _ _ h
  | txSettled => exact calm_txSettled _ h
  | lockRf n => exact calm_lockRf _ _ h
  | lockSw m a b => exact calm_lockSw _ _ _ _ h
  | lockTask e => exact calm_lockTaskNow _ _ h
  | lockAsk m => exact calm_lockAsk _ _ h
  | lockSettled => exact calm_lockSettled _ h
  | hallRf n => exact calm_hallRf _ _ h
  | boundary minute => exact calm_clockGives _ _ _ _ (fun t h => calm_runBoundary t _ h) h
  | step e => exact calm_clockGives _ _ _ _ (fun t h => calm_runStep t _ h) h
  | runBoundary minute => exact calm_runBoundary _ _ h
  | runStep e => exact calm_runStep _ _ h
  | runEdit t c => exact calm_runEdit _ t _ h
  | runChangeover t minute => exact calm_runChangeover _ _ _ h
  | runTask e => exact calm_runTask _ _ h
  | runSlew run k r => exact calm_runSlew _ _ _ _ h
  | runOrder run kind f => exact calm_runOrder _ _ _ _ h
  | runFinalTrip n m => exact calm_runFinalTrip _ _ _ h
  | runLockout t => exact calm_runLockout _ _ h
  | runTx n => exact calm_runAgain _ h
  | runHall => exact calm_runAgain _ h
  | runSelFault m => exact calm_runSelFault _ _ h
  | runSlot n now => exact calm_runSlot _ _ _ h
  | runJudge => exact calm_runJudge _ h
  | runHeld n => exact calm_heldOne _ _ h
  | runSettled => exact calm_runSettled _ h

theorem calm_takeOrKeep {z : State} (s : State) (n : Notice) (h : Calm z s) : Calm z (s.takeOrKeep n) := by
  unfold State.takeOrKeep
  split
  · exact calm_toRun _ _ _ (fun t h => calm_takeOne t n h) h
  · exact calm_takeOne s n h

theorem calm_observe {z : State} (before s : State) (h : Calm z s) : Calm z (State.observe before s) :=
  calm_notifyAll _ _ (calm_sync s h)

end Sys2Proof.Machine
end

