-- ==== Sys2Proof/Laws/Permits.lean ====
section
/-! SUPPORT. The permits are current after every act, and what an act that has run to its end in every block has left alone: one
law for `State.cascade`, which proofs about commands cite instead of unfolding it. -/

namespace Sys2Proof.Machine

/-- Two states alike in everything the permit logic reads. -/
structure Same (a b : State) : Prop where
  permit : b.permit = a.permit
  cfg : b.cfg = a.cfg
  mx : b.mx = a.mx
  tasks : b.tasks = a.tasks
  rot : b.rot = a.rot
  slew : b.slew = a.slew
  mark : b.faultMark = a.faultMark
  enabled : b.enabled = a.enabled
  run : b.run = a.run
  locks : b.locks = a.locks
  hall : b.hall = a.hall
  holder : ∀ n : Tx, (b.tx[n]).holder = (a.tx[n]).holder
  tuned : ∀ n : Tx, (b.tx[n]).tuned = (a.tx[n]).tuned
  ready : ∀ n : Tx, (b.tx[n]).state.isReady = (a.tx[n]).state.isReady
  order : ∀ n : Tx, (b.tx[n]).order = (a.tx[n]).order
  recycle : ∀ n : Tx, (b.tx[n]).recycleTimer = (a.tx[n]).recycleTimer

theorem Same.refl (a : State) : Same a a :=
  ⟨rfl, rfl, rfl, rfl, rfl, rfl, rfl, rfl, rfl, rfl, rfl, fun _ => rfl, fun _ => rfl, fun _ => rfl, fun _ => rfl, fun _ => rfl⟩

theorem Same.trans {a b c : State} (h : Same a b) (k : Same b c) : Same a c where
  permit := k.permit.trans h.permit
  cfg := k.cfg.trans h.cfg
  mx := k.mx.trans h.mx
  tasks := k.tasks.trans h.tasks
  rot := k.rot.trans h.rot
  slew := k.slew.trans h.slew
  mark := k.mark.trans h.mark
  enabled := k.enabled.trans h.enabled
  run := k.run.trans h.run
  locks := k.locks.trans h.locks
  hall := k.hall.trans h.hall
  holder n := (k.holder n).trans (h.holder n)
  tuned n := (k.tuned n).trans (h.tuned n)
  ready n := (k.ready n).trans (h.ready n)
  order n := (k.order n).trans (h.order n)
  recycle n := (k.recycle n).trans (h.recycle n)

theorem Same.permitOf {a b : State} (h : Same a b) (n : Tx) : b.permitOf n = a.permitOf n := by
  obtain ⟨h1,h2,h3,h4,h5,h6,h7,h8,h9,h10,h11,h12,h13,h14,h15,h16⟩ := h
  have hf : b.forcesOf n = a.forcesOf n := by
    have : (b.tx[n]).hasTune = (a.tx[n]).hasTune := by simp only [TxRec.hasTune, h15]
    simp only [State.forcesOf, State.taskRunning, h4, h16, h1, this]
  have hr : b.requesterOf n = a.requesterOf n := by simp only [State.requesterOf, h12, h9]
  have hq : b.requestedOf n = a.requestedOf n := by simp only [State.requestedOf, hr, h1, h9]
  have hz : b.isSettling = a.isSettling := by simp only [State.isSettling, h2]
  have h47 : b.reasons47 n = a.reasons47 n := by
    simp only [State.reasons47, hf, h14, h11, h3, hz, State.isOpen, h2, State.locked, h10]
  have hR : b.reasonsOf n = a.reasonsOf n := by
    simp only [State.reasonsOf, h47, h2, h3, State.reasons48, hz, State.bandOk, State.locked, h10, h13, h8, State.insideKeepOut,
      State.heldAzimuth, h5, State.capOf, h6, State.params]
  have hc : b.capsOf n = a.capsOf n := by
    simp only [State.capsOf, h2, h3, State.capOf, h6, h7]
  simp only [State.permitOf, hR, hc, hr, hq, hf, State.heldLevel, h2, h1]

theorem same_radiate (s : State) (n : Tx) : Same s (s.radiateOne n) := by
  have key : ∀ x : TxState, x.isReady = (s.tx[n]).state.isReady → Same s (s.modTx n fun r => { r with state := x }) := by
    intro x hx
    refine ⟨rfl, rfl, rfl, rfl, rfl, rfl, rfl, rfl, rfl, rfl, rfl, ?_, ?_, ?_, ?_, ?_⟩ <;> intro m <;> by_cases e : n = m
    all_goals first
      | (subst e; simp [State.modTx]; done)
      | (subst e; simpa [State.modTx] using hx)
      | (have : (n : Nat) ≠ m := fun h => e (Fin.ext h)
         simp [State.modTx, this])
  unfold State.radiateOne
  dsimp only
  split
  · split
    · exact key _ (by simp_all [TxState.isReady])
    · exact Same.refl _
  · split
    · exact Same.refl _
    · exact key _ (by simp_all [TxState.isReady])
  · exact Same.refl _

theorem same_watch (s : State) (n : Tx) : Same s (s.watchOne n) := by
  have key : ∀ x : Timer, Same s (s.modTx n fun r => { r with rfWatch := x }) := by
    intro x
    refine ⟨rfl, rfl, rfl, rfl, rfl, rfl, rfl, rfl, rfl, rfl, rfl, ?_, ?_, ?_, ?_, ?_⟩ <;> intro m <;> by_cases e : n = m
    all_goals first
      | (subst e; simp [State.modTx])
      | (have : (n : Nat) ≠ m := fun h => e (Fin.ext h)
         simp [State.modTx, this])
  unfold State.watchOne
  split
  · exact Same.refl _
  · split
    · split
      · exact key _
      · exact Same.refl _
    · exact key _

theorem permitSync_current (s : State) : PermitsCurrent s.permitSync := by
  intro n
  rw [permitSync_permit]
  have hreq : s.permitSync.requesterOf n = s.requesterOf n := rfl
  have hrq : s.permitSync.requestedOf n = s.requestedOf n := by
    simp only [State.requestedOf, hreq, permitSync_permit]
    split
    · rename_i d h; simp [State.permitOf, h, State.requestedOf]
    · rfl
    · rfl
  have hf : s.permitSync.forcesOf n = s.forcesOf n := by
    simp only [State.forcesOf, permitSync_permit]
    rfl
  have hz : s.permitSync.isSettling = s.isSettling := by simp [State.isSettling, State.permitSync]
  have h47 : s.permitSync.reasons47 n = s.reasons47 n := by
    simp only [State.reasons47, hf, hz]; rfl
  have hR : s.permitSync.reasonsOf n = s.reasonsOf n := by
    simp only [State.reasonsOf, h47, State.reasons48, hz]; rfl
  have hc : s.permitSync.capsOf n = s.capsOf n := rfl
  have hmin : ∀ a b : Level, a.min b = (a.min b).min b := by intro a b; cases a <;> cases b <;> rfl
  simp only [State.permitOf, hR, hc, hreq, hrq, hf, permitSync_permit]
  congr 1
  cases h : s.cfg.settling with
  | none => simp [State.heldLevel, State.permitSync, h]
  | some x =>
    have : (s.permitSync.heldLevel n) = ((s.permitOf n).output) := by
      simp only [State.heldLevel, State.permitSync, h, Option.map_some]
      fin_cases n <;> rfl
    rw [this]
    simp only [State.permitOf]
    exact hmin _ _

theorem sync_current (s : State) : PermitsCurrent s.sync := by
  unfold State.sync
  generalize hu : (s.absorbAll.guardSync).permitSync = u
  have hc : PermitsCurrent u := hu ▸ permitSync_current _
  have : Same u (forAll allTx (fun n s => (s.radiateOne n).watchOne n) u) := by
    generalize allTx = xs
    clear hu hc
    induction xs generalizing u with
    | nil => exact Same.refl _
    | cons x xs ih => exact ((same_radiate u x).trans (same_watch _ x)).trans (ih _)
  intro n
  rw [this.permitOf, this.permit]
  exact hc n

theorem same_notifyAll (s : State) (x : List Notice) : Same s (s.notifyAll x) :=
  (Same.refl s).trans
    ⟨rfl, rfl, rfl, rfl, rfl, rfl, rfl, rfl, rfl, rfl, rfl, fun _ => rfl, fun _ => rfl, fun _ => rfl, fun _ => rfl, fun _ => rfl⟩

theorem Same.current {a b : State} (h : Same a b) (k : PermitsCurrent a) : PermitsCurrent b := by
  intro n
  rw [h.permitOf, h.permit]
  exact k n

theorem observe_current (a s : State) : PermitsCurrent (State.observe a s) :=
  (same_notifyAll _ _).current (sync_current s)

theorem takeNotice_calm {z s t : State} {n : Notice} (h : s.takeNotice = some (n, t)) (hz : Calm z s) : Calm z t := by
  unfold State.takeNotice at h
  split at h
  · cases h
  · simp only [Option.some.injEq, Prod.mk.injEq] at h
    obtain ⟨-, rfl⟩ := h
    exact (calm_choose s _ hz).trans (calm_of rfl rfl rfl rfl)

theorem drain_calm {z : State} (fuel : Nat) (s : State) (h : Calm z s) : Calm z (State.drain fuel s) := by
  induction fuel generalizing s with
  | zero => exact h
  | succ k ih =>
    unfold State.drain
    split
    · exact h
    · next n t e => exact ih _ (calm_observe _ _ (calm_takeOrKeep _ _ (takeNotice_calm e h)))

theorem cascade_calm (a s : State) : Calm s (State.cascade a s) := drain_calm _ _ (calm_observe _ _ (Calm.refl s))

theorem drain_current (fuel : Nat) (s : State) (h : PermitsCurrent s) : PermitsCurrent (State.drain fuel s) := by
  induction fuel generalizing s with
  | zero => exact h
  | succ k ih =>
    unfold State.drain
    split
    · exact h
    · exact ih _ (observe_current _ _)

theorem cascade_current (a s : State) : PermitsCurrent (State.cascade a s) := drain_current _ _ (observe_current _ _)

/-- What an act has left alone when it has run to its end in every block, and that the permits are then current. -/
theorem cascade_follows (a s : State) : Follows s (State.cascade a s) :=
  let c := cascade_calm a s
  ⟨c.kept, c.sent, c.hand, fun d => (c.links d).grows, cascade_current a s⟩

end Sys2Proof.Machine
end

