-- ==== Sys2Proof/Laws/State.lean ====
section
/-! SUPPORT. What each update of State leaves alone and what it writes: one lemma per field per update, so that no proof unfolds
a record update. -/

namespace Sys2Proof.Machine

variable (s : State)

/-! ## `State.modTx` -/

@[simp] theorem modTx_pending (n : Tx) (f : TxRec → TxRec) : (s.modTx n f).pending = s.pending := rfl
@[simp] theorem modTx_timebase (n : Tx) (f : TxRec → TxRec) : (s.modTx n f).timebase = s.timebase := rfl
@[simp] theorem modTx_choices (n : Tx) (f : TxRec → TxRec) : (s.modTx n f).choices = s.choices := rfl
@[simp] theorem modTx_sent (n : Tx) (f : TxRec → TxRec) : (s.modTx n f).sent = s.sent := rfl
@[simp] theorem modTx_notices (n : Tx) (f : TxRec → TxRec) : (s.modTx n f).notices = s.notices := rfl
@[simp] theorem modTx_cfg (n : Tx) (f : TxRec → TxRec) : (s.modTx n f).cfg = s.cfg := rfl
@[simp] theorem modTx_mx (n : Tx) (f : TxRec → TxRec) : (s.modTx n f).mx = s.mx := rfl
@[simp] theorem modTx_tasks (n : Tx) (f : TxRec → TxRec) : (s.modTx n f).tasks = s.tasks := rfl
@[simp] theorem modTx_permit (n : Tx) (f : TxRec → TxRec) : (s.modTx n f).permit = s.permit := rfl
@[simp] theorem modTx_rot (n : Tx) (f : TxRec → TxRec) : (s.modTx n f).rot = s.rot := rfl
@[simp] theorem modTx_slew (n : Tx) (f : TxRec → TxRec) : (s.modTx n f).slew = s.slew := rfl
@[simp] theorem modTx_tx (n : Tx) (f : TxRec → TxRec) : (s.modTx n f).tx = s.tx.set n (f s.tx[n]) := rfl
@[simp] theorem modTx_faultMark (n : Tx) (f : TxRec → TxRec) : (s.modTx n f).faultMark = s.faultMark := rfl
@[simp] theorem modTx_enabled (n : Tx) (f : TxRec → TxRec) : (s.modTx n f).enabled = s.enabled := rfl
@[simp] theorem modTx_season (n : Tx) (f : TxRec → TxRec) : (s.modTx n f).season = s.season := rfl
@[simp] theorem modTx_run (n : Tx) (f : TxRec → TxRec) : (s.modTx n f).run = s.run := rfl
@[simp] theorem modTx_clock (n : Tx) (f : TxRec → TxRec) : (s.modTx n f).clock = s.clock := rfl
@[simp] theorem modTx_locks (n : Tx) (f : TxRec → TxRec) : (s.modTx n f).locks = s.locks := rfl
@[simp] theorem modTx_hall (n : Tx) (f : TxRec → TxRec) : (s.modTx n f).hall = s.hall := rfl
@[simp] theorem modTx_links (n : Tx) (f : TxRec → TxRec) : (s.modTx n f).links = s.links := rfl

/-! ## `State.modPermit` -/

@[simp] theorem modPermit_pending (n : Tx) (f : PermitRec → PermitRec) : (s.modPermit n f).pending = s.pending := rfl
@[simp] theorem modPermit_timebase (n : Tx) (f : PermitRec → PermitRec) : (s.modPermit n f).timebase = s.timebase := rfl
@[simp] theorem modPermit_choices (n : Tx) (f : PermitRec → PermitRec) : (s.modPermit n f).choices = s.choices := rfl
@[simp] theorem modPermit_sent (n : Tx) (f : PermitRec → PermitRec) : (s.modPermit n f).sent = s.sent := rfl
@[simp] theorem modPermit_notices (n : Tx) (f : PermitRec → PermitRec) : (s.modPermit n f).notices = s.notices := rfl
@[simp] theorem modPermit_cfg (n : Tx) (f : PermitRec → PermitRec) : (s.modPermit n f).cfg = s.cfg := rfl
@[simp] theorem modPermit_mx (n : Tx) (f : PermitRec → PermitRec) : (s.modPermit n f).mx = s.mx := rfl
@[simp] theorem modPermit_tasks (n : Tx) (f : PermitRec → PermitRec) : (s.modPermit n f).tasks = s.tasks := rfl
@[simp] theorem modPermit_permit (n : Tx) (f : PermitRec → PermitRec) :
    (s.modPermit n f).permit = s.permit.set n (f s.permit[n]) := rfl
@[simp] theorem modPermit_rot (n : Tx) (f : PermitRec → PermitRec) : (s.modPermit n f).rot = s.rot := rfl
@[simp] theorem modPermit_slew (n : Tx) (f : PermitRec → PermitRec) : (s.modPermit n f).slew = s.slew := rfl
@[simp] theorem modPermit_tx (n : Tx) (f : PermitRec → PermitRec) : (s.modPermit n f).tx = s.tx := rfl
@[simp] theorem modPermit_faultMark (n : Tx) (f : PermitRec → PermitRec) : (s.modPermit n f).faultMark = s.faultMark := rfl
@[simp] theorem modPermit_enabled (n : Tx) (f : PermitRec → PermitRec) : (s.modPermit n f).enabled = s.enabled := rfl
@[simp] theorem modPermit_season (n : Tx) (f : PermitRec → PermitRec) : (s.modPermit n f).season = s.season := rfl
@[simp] theorem modPermit_run (n : Tx) (f : PermitRec → PermitRec) : (s.modPermit n f).run = s.run := rfl
@[simp] theorem modPermit_clock (n : Tx) (f : PermitRec → PermitRec) : (s.modPermit n f).clock = s.clock := rfl
@[simp] theorem modPermit_locks (n : Tx) (f : PermitRec → PermitRec) : (s.modPermit n f).locks = s.locks := rfl
@[simp] theorem modPermit_hall (n : Tx) (f : PermitRec → PermitRec) : (s.modPermit n f).hall = s.hall := rfl
@[simp] theorem modPermit_links (n : Tx) (f : PermitRec → PermitRec) : (s.modPermit n f).links = s.links := rfl

/-! ## `State.modSlew` -/

@[simp] theorem modSlew_pending (k : Rot) (f : SlewRec → SlewRec) : (s.modSlew k f).pending = s.pending := rfl
@[simp] theorem modSlew_timebase (k : Rot) (f : SlewRec → SlewRec) : (s.modSlew k f).timebase = s.timebase := rfl
@[simp] theorem modSlew_choices (k : Rot) (f : SlewRec → SlewRec) : (s.modSlew k f).choices = s.choices := rfl
@[simp] theorem modSlew_sent (k : Rot) (f : SlewRec → SlewRec) : (s.modSlew k f).sent = s.sent := rfl
@[simp] theorem modSlew_notices (k : Rot) (f : SlewRec → SlewRec) : (s.modSlew k f).notices = s.notices := rfl
@[simp] theorem modSlew_cfg (k : Rot) (f : SlewRec → SlewRec) : (s.modSlew k f).cfg = s.cfg := rfl
@[simp] theorem modSlew_mx (k : Rot) (f : SlewRec → SlewRec) : (s.modSlew k f).mx = s.mx := rfl
@[simp] theorem modSlew_tasks (k : Rot) (f : SlewRec → SlewRec) : (s.modSlew k f).tasks = s.tasks := rfl
@[simp] theorem modSlew_permit (k : Rot) (f : SlewRec → SlewRec) : (s.modSlew k f).permit = s.permit := rfl
@[simp] theorem modSlew_rot (k : Rot) (f : SlewRec → SlewRec) : (s.modSlew k f).rot = s.rot := rfl
@[simp] theorem modSlew_slew (k : Rot) (f : SlewRec → SlewRec) : (s.modSlew k f).slew = s.slew.set k (f s.slew[k]) := rfl
@[simp] theorem modSlew_tx (k : Rot) (f : SlewRec → SlewRec) : (s.modSlew k f).tx = s.tx := rfl
@[simp] theorem modSlew_faultMark (k : Rot) (f : SlewRec → SlewRec) : (s.modSlew k f).faultMark = s.faultMark := rfl
@[simp] theorem modSlew_enabled (k : Rot) (f : SlewRec → SlewRec) : (s.modSlew k f).enabled = s.enabled := rfl
@[simp] theorem modSlew_season (k : Rot) (f : SlewRec → SlewRec) : (s.modSlew k f).season = s.season := rfl
@[simp] theorem modSlew_run (k : Rot) (f : SlewRec → SlewRec) : (s.modSlew k f).run = s.run := rfl
@[simp] theorem modSlew_clock (k : Rot) (f : SlewRec → SlewRec) : (s.modSlew k f).clock = s.clock := rfl
@[simp] theorem modSlew_locks (k : Rot) (f : SlewRec → SlewRec) : (s.modSlew k f).locks = s.locks := rfl
@[simp] theorem modSlew_hall (k : Rot) (f : SlewRec → SlewRec) : (s.modSlew k f).hall = s.hall := rfl
@[simp] theorem modSlew_links (k : Rot) (f : SlewRec → SlewRec) : (s.modSlew k f).links = s.links := rfl

/-! ## `State.modRot` -/

@[simp] theorem modRot_pending (k : Rot) (f : RotRec → RotRec) : (s.modRot k f).pending = s.pending := rfl
@[simp] theorem modRot_timebase (k : Rot) (f : RotRec → RotRec) : (s.modRot k f).timebase = s.timebase := rfl
@[simp] theorem modRot_choices (k : Rot) (f : RotRec → RotRec) : (s.modRot k f).choices = s.choices := rfl
@[simp] theorem modRot_sent (k : Rot) (f : RotRec → RotRec) : (s.modRot k f).sent = s.sent := rfl
@[simp] theorem modRot_notices (k : Rot) (f : RotRec → RotRec) : (s.modRot k f).notices = s.notices := rfl
@[simp] theorem modRot_cfg (k : Rot) (f : RotRec → RotRec) : (s.modRot k f).cfg = s.cfg := rfl
@[simp] theorem modRot_mx (k : Rot) (f : RotRec → RotRec) : (s.modRot k f).mx = s.mx := rfl
@[simp] theorem modRot_tasks (k : Rot) (f : RotRec → RotRec) : (s.modRot k f).tasks = s.tasks := rfl
@[simp] theorem modRot_permit (k : Rot) (f : RotRec → RotRec) : (s.modRot k f).permit = s.permit := rfl
@[simp] theorem modRot_rot (k : Rot) (f : RotRec → RotRec) : (s.modRot k f).rot = s.rot.set k (f s.rot[k]) := rfl
@[simp] theorem modRot_slew (k : Rot) (f : RotRec → RotRec) : (s.modRot k f).slew = s.slew := rfl
@[simp] theorem modRot_tx (k : Rot) (f : RotRec → RotRec) : (s.modRot k f).tx = s.tx := rfl
@[simp] theorem modRot_faultMark (k : Rot) (f : RotRec → RotRec) : (s.modRot k f).faultMark = s.faultMark := rfl
@[simp] theorem modRot_enabled (k : Rot) (f : RotRec → RotRec) : (s.modRot k f).enabled = s.enabled := rfl
@[simp] theorem modRot_season (k : Rot) (f : RotRec → RotRec) : (s.modRot k f).season = s.season := rfl
@[simp] theorem modRot_run (k : Rot) (f : RotRec → RotRec) : (s.modRot k f).run = s.run := rfl
@[simp] theorem modRot_clock (k : Rot) (f : RotRec → RotRec) : (s.modRot k f).clock = s.clock := rfl
@[simp] theorem modRot_locks (k : Rot) (f : RotRec → RotRec) : (s.modRot k f).locks = s.locks := rfl
@[simp] theorem modRot_hall (k : Rot) (f : RotRec → RotRec) : (s.modRot k f).hall = s.hall := rfl
@[simp] theorem modRot_links (k : Rot) (f : RotRec → RotRec) : (s.modRot k f).links = s.links := rfl

/-! ## `State.modLink` -/

@[simp] theorem modLink_pending (d : Desk) (f : Link → Link) : (s.modLink d f).pending = s.pending := rfl
@[simp] theorem modLink_timebase (d : Desk) (f : Link → Link) : (s.modLink d f).timebase = s.timebase := rfl
@[simp] theorem modLink_choices (d : Desk) (f : Link → Link) : (s.modLink d f).choices = s.choices := rfl
@[simp] theorem modLink_sent (d : Desk) (f : Link → Link) : (s.modLink d f).sent = s.sent := rfl
@[simp] theorem modLink_notices (d : Desk) (f : Link → Link) : (s.modLink d f).notices = s.notices := rfl
@[simp] theorem modLink_cfg (d : Desk) (f : Link → Link) : (s.modLink d f).cfg = s.cfg := rfl
@[simp] theorem modLink_mx (d : Desk) (f : Link → Link) : (s.modLink d f).mx = s.mx := rfl
@[simp] theorem modLink_tasks (d : Desk) (f : Link → Link) : (s.modLink d f).tasks = s.tasks := rfl
@[simp] theorem modLink_permit (d : Desk) (f : Link → Link) : (s.modLink d f).permit = s.permit := rfl
@[simp] theorem modLink_rot (d : Desk) (f : Link → Link) : (s.modLink d f).rot = s.rot := rfl
@[simp] theorem modLink_slew (d : Desk) (f : Link → Link) : (s.modLink d f).slew = s.slew := rfl
@[simp] theorem modLink_tx (d : Desk) (f : Link → Link) : (s.modLink d f).tx = s.tx := rfl
@[simp] theorem modLink_faultMark (d : Desk) (f : Link → Link) : (s.modLink d f).faultMark = s.faultMark := rfl
@[simp] theorem modLink_enabled (d : Desk) (f : Link → Link) : (s.modLink d f).enabled = s.enabled := rfl
@[simp] theorem modLink_season (d : Desk) (f : Link → Link) : (s.modLink d f).season = s.season := rfl
@[simp] theorem modLink_run (d : Desk) (f : Link → Link) : (s.modLink d f).run = s.run := rfl
@[simp] theorem modLink_clock (d : Desk) (f : Link → Link) : (s.modLink d f).clock = s.clock := rfl
@[simp] theorem modLink_locks (d : Desk) (f : Link → Link) : (s.modLink d f).locks = s.locks := rfl
@[simp] theorem modLink_hall (d : Desk) (f : Link → Link) : (s.modLink d f).hall = s.hall := rfl
@[simp] theorem modLink_links (d : Desk) (f : Link → Link) :
    (s.modLink d f).links = s.links.set d.index (f s.links[d.index]) := rfl

/-! ## `State.modHall` -/

@[simp] theorem modHall_pending (f : Hall → Hall) : (s.modHall f).pending = s.pending := rfl
@[simp] theorem modHall_timebase (f : Hall → Hall) : (s.modHall f).timebase = s.timebase := rfl
@[simp] theorem modHall_choices (f : Hall → Hall) : (s.modHall f).choices = s.choices := rfl
@[simp] theorem modHall_sent (f : Hall → Hall) : (s.modHall f).sent = s.sent := rfl
@[simp] theorem modHall_notices (f : Hall → Hall) : (s.modHall f).notices = s.notices := rfl
@[simp] theorem modHall_cfg (f : Hall → Hall) : (s.modHall f).cfg = s.cfg := rfl
@[simp] theorem modHall_mx (f : Hall → Hall) : (s.modHall f).mx = s.mx := rfl
@[simp] theorem modHall_tasks (f : Hall → Hall) : (s.modHall f).tasks = s.tasks := rfl
@[simp] theorem modHall_permit (f : Hall → Hall) : (s.modHall f).permit = s.permit := rfl
@[simp] theorem modHall_rot (f : Hall → Hall) : (s.modHall f).rot = s.rot := rfl
@[simp] theorem modHall_slew (f : Hall → Hall) : (s.modHall f).slew = s.slew := rfl
@[simp] theorem modHall_tx (f : Hall → Hall) : (s.modHall f).tx = s.tx := rfl
@[simp] theorem modHall_faultMark (f : Hall → Hall) : (s.modHall f).faultMark = s.faultMark := rfl
@[simp] theorem modHall_enabled (f : Hall → Hall) : (s.modHall f).enabled = s.enabled := rfl
@[simp] theorem modHall_season (f : Hall → Hall) : (s.modHall f).season = s.season := rfl
@[simp] theorem modHall_run (f : Hall → Hall) : (s.modHall f).run = s.run := rfl
@[simp] theorem modHall_clock (f : Hall → Hall) : (s.modHall f).clock = s.clock := rfl
@[simp] theorem modHall_locks (f : Hall → Hall) : (s.modHall f).locks = s.locks := rfl
@[simp] theorem modHall_hall (f : Hall → Hall) : (s.modHall f).hall = f s.hall := rfl
@[simp] theorem modHall_links (f : Hall → Hall) : (s.modHall f).links = s.links := rfl

/-! ## `State.modClock` -/

@[simp] theorem modClock_pending (f : Clock → Clock) : (s.modClock f).pending = s.pending := rfl
@[simp] theorem modClock_timebase (f : Clock → Clock) : (s.modClock f).timebase = s.timebase := rfl
@[simp] theorem modClock_choices (f : Clock → Clock) : (s.modClock f).choices = s.choices := rfl
@[simp] theorem modClock_sent (f : Clock → Clock) : (s.modClock f).sent = s.sent := rfl
@[simp] theorem modClock_notices (f : Clock → Clock) : (s.modClock f).notices = s.notices := rfl
@[simp] theorem modClock_cfg (f : Clock → Clock) : (s.modClock f).cfg = s.cfg := rfl
@[simp] theorem modClock_mx (f : Clock → Clock) : (s.modClock f).mx = s.mx := rfl
@[simp] theorem modClock_tasks (f : Clock → Clock) : (s.modClock f).tasks = s.tasks := rfl
@[simp] theorem modClock_permit (f : Clock → Clock) : (s.modClock f).permit = s.permit := rfl
@[simp] theorem modClock_rot (f : Clock → Clock) : (s.modClock f).rot = s.rot := rfl
@[simp] theorem modClock_slew (f : Clock → Clock) : (s.modClock f).slew = s.slew := rfl
@[simp] theorem modClock_tx (f : Clock → Clock) : (s.modClock f).tx = s.tx := rfl
@[simp] theorem modClock_faultMark (f : Clock → Clock) : (s.modClock f).faultMark = s.faultMark := rfl
@[simp] theorem modClock_enabled (f : Clock → Clock) : (s.modClock f).enabled = s.enabled := rfl
@[simp] theorem modClock_season (f : Clock → Clock) : (s.modClock f).season = s.season := rfl
@[simp] theorem modClock_run (f : Clock → Clock) : (s.modClock f).run = s.run := rfl
@[simp] theorem modClock_clock (f : Clock → Clock) : (s.modClock f).clock = f s.clock := rfl
@[simp] theorem modClock_locks (f : Clock → Clock) : (s.modClock f).locks = s.locks := rfl
@[simp] theorem modClock_hall (f : Clock → Clock) : (s.modClock f).hall = s.hall := rfl
@[simp] theorem modClock_links (f : Clock → Clock) : (s.modClock f).links = s.links := rfl

/-! ## `State.modCfg` -/

@[simp] theorem modCfg_pending (f : ConfigStore → ConfigStore) : (s.modCfg f).pending = s.pending := rfl
@[simp] theorem modCfg_timebase (f : ConfigStore → ConfigStore) : (s.modCfg f).timebase = s.timebase := rfl
@[simp] theorem modCfg_choices (f : ConfigStore → ConfigStore) : (s.modCfg f).choices = s.choices := rfl
@[simp] theorem modCfg_sent (f : ConfigStore → ConfigStore) : (s.modCfg f).sent = s.sent := rfl
@[simp] theorem modCfg_notices (f : ConfigStore → ConfigStore) : (s.modCfg f).notices = s.notices := rfl
@[simp] theorem modCfg_cfg (f : ConfigStore → ConfigStore) : (s.modCfg f).cfg = f s.cfg := rfl
@[simp] theorem modCfg_mx (f : ConfigStore → ConfigStore) : (s.modCfg f).mx = s.mx := rfl
@[simp] theorem modCfg_tasks (f : ConfigStore → ConfigStore) : (s.modCfg f).tasks = s.tasks := rfl
@[simp] theorem modCfg_permit (f : ConfigStore → ConfigStore) : (s.modCfg f).permit = s.permit := rfl
@[simp] theorem modCfg_rot (f : ConfigStore → ConfigStore) : (s.modCfg f).rot = s.rot := rfl
@[simp] theorem modCfg_slew (f : ConfigStore → ConfigStore) : (s.modCfg f).slew = s.slew := rfl
@[simp] theorem modCfg_tx (f : ConfigStore → ConfigStore) : (s.modCfg f).tx = s.tx := rfl
@[simp] theorem modCfg_faultMark (f : ConfigStore → ConfigStore) : (s.modCfg f).faultMark = s.faultMark := rfl
@[simp] theorem modCfg_enabled (f : ConfigStore → ConfigStore) : (s.modCfg f).enabled = s.enabled := rfl
@[simp] theorem modCfg_season (f : ConfigStore → ConfigStore) : (s.modCfg f).season = s.season := rfl
@[simp] theorem modCfg_run (f : ConfigStore → ConfigStore) : (s.modCfg f).run = s.run := rfl
@[simp] theorem modCfg_clock (f : ConfigStore → ConfigStore) : (s.modCfg f).clock = s.clock := rfl
@[simp] theorem modCfg_locks (f : ConfigStore → ConfigStore) : (s.modCfg f).locks = s.locks := rfl
@[simp] theorem modCfg_hall (f : ConfigStore → ConfigStore) : (s.modCfg f).hall = s.hall := rfl
@[simp] theorem modCfg_links (f : ConfigStore → ConfigStore) : (s.modCfg f).links = s.links := rfl

/-! ## `State.modLocks` -/

@[simp] theorem modLocks_pending (f : LockTable → LockTable) : (s.modLocks f).pending = s.pending := rfl
@[simp] theorem modLocks_timebase (f : LockTable → LockTable) : (s.modLocks f).timebase = s.timebase := rfl
@[simp] theorem modLocks_choices (f : LockTable → LockTable) : (s.modLocks f).choices = s.choices := rfl
@[simp] theorem modLocks_sent (f : LockTable → LockTable) : (s.modLocks f).sent = s.sent := rfl
@[simp] theorem modLocks_notices (f : LockTable → LockTable) : (s.modLocks f).notices = s.notices := rfl
@[simp] theorem modLocks_cfg (f : LockTable → LockTable) : (s.modLocks f).cfg = s.cfg := rfl
@[simp] theorem modLocks_mx (f : LockTable → LockTable) : (s.modLocks f).mx = s.mx := rfl
@[simp] theorem modLocks_tasks (f : LockTable → LockTable) : (s.modLocks f).tasks = s.tasks := rfl
@[simp] theorem modLocks_permit (f : LockTable → LockTable) : (s.modLocks f).permit = s.permit := rfl
@[simp] theorem modLocks_rot (f : LockTable → LockTable) : (s.modLocks f).rot = s.rot := rfl
@[simp] theorem modLocks_slew (f : LockTable → LockTable) : (s.modLocks f).slew = s.slew := rfl
@[simp] theorem modLocks_tx (f : LockTable → LockTable) : (s.modLocks f).tx = s.tx := rfl
@[simp] theorem modLocks_faultMark (f : LockTable → LockTable) : (s.modLocks f).faultMark = s.faultMark := rfl
@[simp] theorem modLocks_enabled (f : LockTable → LockTable) : (s.modLocks f).enabled = s.enabled := rfl
@[simp] theorem modLocks_season (f : LockTable → LockTable) : (s.modLocks f).season = s.season := rfl
@[simp] theorem modLocks_run (f : LockTable → LockTable) : (s.modLocks f).run = s.run := rfl
@[simp] theorem modLocks_clock (f : LockTable → LockTable) : (s.modLocks f).clock = s.clock := rfl
@[simp] theorem modLocks_locks (f : LockTable → LockTable) : (s.modLocks f).locks = f s.locks := rfl
@[simp] theorem modLocks_hall (f : LockTable → LockTable) : (s.modLocks f).hall = s.hall := rfl
@[simp] theorem modLocks_links (f : LockTable → LockTable) : (s.modLocks f).links = s.links := rfl

/-! ## `State.modSeason` -/

@[simp] theorem modSeason_pending (f : Season → Season) : (s.modSeason f).pending = s.pending := rfl
@[simp] theorem modSeason_timebase (f : Season → Season) : (s.modSeason f).timebase = s.timebase := rfl
@[simp] theorem modSeason_choices (f : Season → Season) : (s.modSeason f).choices = s.choices := rfl
@[simp] theorem modSeason_sent (f : Season → Season) : (s.modSeason f).sent = s.sent := rfl
@[simp] theorem modSeason_notices (f : Season → Season) : (s.modSeason f).notices = s.notices := rfl
@[simp] theorem modSeason_cfg (f : Season → Season) : (s.modSeason f).cfg = s.cfg := rfl
@[simp] theorem modSeason_mx (f : Season → Season) : (s.modSeason f).mx = s.mx := rfl
@[simp] theorem modSeason_tasks (f : Season → Season) : (s.modSeason f).tasks = s.tasks := rfl
@[simp] theorem modSeason_permit (f : Season → Season) : (s.modSeason f).permit = s.permit := rfl
@[simp] theorem modSeason_rot (f : Season → Season) : (s.modSeason f).rot = s.rot := rfl
@[simp] theorem modSeason_slew (f : Season → Season) : (s.modSeason f).slew = s.slew := rfl
@[simp] theorem modSeason_tx (f : Season → Season) : (s.modSeason f).tx = s.tx := rfl
@[simp] theorem modSeason_faultMark (f : Season → Season) : (s.modSeason f).faultMark = s.faultMark := rfl
@[simp] theorem modSeason_enabled (f : Season → Season) : (s.modSeason f).enabled = s.enabled := rfl
@[simp] theorem modSeason_season (f : Season → Season) : (s.modSeason f).season = f s.season := rfl
@[simp] theorem modSeason_run (f : Season → Season) : (s.modSeason f).run = s.run := rfl
@[simp] theorem modSeason_clock (f : Season → Season) : (s.modSeason f).clock = s.clock := rfl
@[simp] theorem modSeason_locks (f : Season → Season) : (s.modSeason f).locks = s.locks := rfl
@[simp] theorem modSeason_hall (f : Season → Season) : (s.modSeason f).hall = s.hall := rfl
@[simp] theorem modSeason_links (f : Season → Season) : (s.modSeason f).links = s.links := rfl

/-! ## `State.setTask` -/

@[simp] theorem setTask_pending (n : Tx) (t : Option Task) : (s.setTask n t).pending = s.pending := rfl
@[simp] theorem setTask_timebase (n : Tx) (t : Option Task) : (s.setTask n t).timebase = s.timebase := rfl
@[simp] theorem setTask_choices (n : Tx) (t : Option Task) : (s.setTask n t).choices = s.choices := rfl
@[simp] theorem setTask_sent (n : Tx) (t : Option Task) : (s.setTask n t).sent = s.sent := rfl
@[simp] theorem setTask_notices (n : Tx) (t : Option Task) : (s.setTask n t).notices = s.notices := rfl
@[simp] theorem setTask_cfg (n : Tx) (t : Option Task) : (s.setTask n t).cfg = s.cfg := rfl
@[simp] theorem setTask_mx (n : Tx) (t : Option Task) : (s.setTask n t).mx = s.mx := rfl
@[simp] theorem setTask_tasks (n : Tx) (t : Option Task) : (s.setTask n t).tasks = s.tasks.set n t := rfl
@[simp] theorem setTask_permit (n : Tx) (t : Option Task) : (s.setTask n t).permit = s.permit := rfl
@[simp] theorem setTask_rot (n : Tx) (t : Option Task) : (s.setTask n t).rot = s.rot := rfl
@[simp] theorem setTask_slew (n : Tx) (t : Option Task) : (s.setTask n t).slew = s.slew := rfl
@[simp] theorem setTask_tx (n : Tx) (t : Option Task) : (s.setTask n t).tx = s.tx := rfl
@[simp] theorem setTask_faultMark (n : Tx) (t : Option Task) : (s.setTask n t).faultMark = s.faultMark := rfl
@[simp] theorem setTask_enabled (n : Tx) (t : Option Task) : (s.setTask n t).enabled = s.enabled := rfl
@[simp] theorem setTask_season (n : Tx) (t : Option Task) : (s.setTask n t).season = s.season := rfl
@[simp] theorem setTask_run (n : Tx) (t : Option Task) : (s.setTask n t).run = s.run := rfl
@[simp] theorem setTask_clock (n : Tx) (t : Option Task) : (s.setTask n t).clock = s.clock := rfl
@[simp] theorem setTask_locks (n : Tx) (t : Option Task) : (s.setTask n t).locks = s.locks := rfl
@[simp] theorem setTask_hall (n : Tx) (t : Option Task) : (s.setTask n t).hall = s.hall := rfl
@[simp] theorem setTask_links (n : Tx) (t : Option Task) : (s.setTask n t).links = s.links := rfl

/-! ## `State.setSw` -/

@[simp] theorem setSw_pending (w : Sw) (r : SwRec) : (s.setSw w r).pending = s.pending := rfl
@[simp] theorem setSw_timebase (w : Sw) (r : SwRec) : (s.setSw w r).timebase = s.timebase := rfl
@[simp] theorem setSw_choices (w : Sw) (r : SwRec) : (s.setSw w r).choices = s.choices := rfl
@[simp] theorem setSw_sent (w : Sw) (r : SwRec) : (s.setSw w r).sent = s.sent := rfl
@[simp] theorem setSw_notices (w : Sw) (r : SwRec) : (s.setSw w r).notices = s.notices := rfl
@[simp] theorem setSw_cfg (w : Sw) (r : SwRec) : (s.setSw w r).cfg = s.cfg := rfl
@[simp] theorem setSw_mx (w : Sw) (r : SwRec) : (s.setSw w r).mx = s.mx.put w r := rfl
@[simp] theorem setSw_tasks (w : Sw) (r : SwRec) : (s.setSw w r).tasks = s.tasks := rfl
@[simp] theorem setSw_permit (w : Sw) (r : SwRec) : (s.setSw w r).permit = s.permit := rfl
@[simp] theorem setSw_rot (w : Sw) (r : SwRec) : (s.setSw w r).rot = s.rot := rfl
@[simp] theorem setSw_slew (w : Sw) (r : SwRec) : (s.setSw w r).slew = s.slew := rfl
@[simp] theorem setSw_tx (w : Sw) (r : SwRec) : (s.setSw w r).tx = s.tx := rfl
@[simp] theorem setSw_faultMark (w : Sw) (r : SwRec) : (s.setSw w r).faultMark = s.faultMark := rfl
@[simp] theorem setSw_enabled (w : Sw) (r : SwRec) : (s.setSw w r).enabled = s.enabled := rfl
@[simp] theorem setSw_season (w : Sw) (r : SwRec) : (s.setSw w r).season = s.season := rfl
@[simp] theorem setSw_run (w : Sw) (r : SwRec) : (s.setSw w r).run = s.run := rfl
@[simp] theorem setSw_clock (w : Sw) (r : SwRec) : (s.setSw w r).clock = s.clock := rfl
@[simp] theorem setSw_locks (w : Sw) (r : SwRec) : (s.setSw w r).locks = s.locks := rfl
@[simp] theorem setSw_hall (w : Sw) (r : SwRec) : (s.setSw w r).hall = s.hall := rfl
@[simp] theorem setSw_links (w : Sw) (r : SwRec) : (s.setSw w r).links = s.links := rfl

/-! ## `State.report` -/

@[simp] theorem report_pending (x : MxReport) : (s.report x).pending = s.pending := rfl
@[simp] theorem report_timebase (x : MxReport) : (s.report x).timebase = s.timebase := rfl
@[simp] theorem report_choices (x : MxReport) : (s.report x).choices = s.choices := rfl
@[simp] theorem report_sent (x : MxReport) : (s.report x).sent = s.sent := rfl
@[simp] theorem report_notices (x : MxReport) : (s.report x).notices = s.notices := rfl
@[simp] theorem report_cfg (x : MxReport) : (s.report x).cfg = s.cfg := rfl
@[simp] theorem report_mx (x : MxReport) : (s.report x).mx = { s.mx with reports := s.mx.reports ++ [x] } := rfl
@[simp] theorem report_tasks (x : MxReport) : (s.report x).tasks = s.tasks := rfl
@[simp] theorem report_permit (x : MxReport) : (s.report x).permit = s.permit := rfl
@[simp] theorem report_rot (x : MxReport) : (s.report x).rot = s.rot := rfl
@[simp] theorem report_slew (x : MxReport) : (s.report x).slew = s.slew := rfl
@[simp] theorem report_tx (x : MxReport) : (s.report x).tx = s.tx := rfl
@[simp] theorem report_faultMark (x : MxReport) : (s.report x).faultMark = s.faultMark := rfl
@[simp] theorem report_enabled (x : MxReport) : (s.report x).enabled = s.enabled := rfl
@[simp] theorem report_season (x : MxReport) : (s.report x).season = s.season := rfl
@[simp] theorem report_run (x : MxReport) : (s.report x).run = s.run := rfl
@[simp] theorem report_clock (x : MxReport) : (s.report x).clock = s.clock := rfl
@[simp] theorem report_locks (x : MxReport) : (s.report x).locks = s.locks := rfl
@[simp] theorem report_hall (x : MxReport) : (s.report x).hall = s.hall := rfl
@[simp] theorem report_links (x : MxReport) : (s.report x).links = s.links := rfl

/-! ## `State.leaveSafety` -/

@[simp] theorem leaveSafety_pending (w : Sw) : (s.leaveSafety w).pending = s.pending := rfl
@[simp] theorem leaveSafety_timebase (w : Sw) : (s.leaveSafety w).timebase = s.timebase := rfl
@[simp] theorem leaveSafety_choices (w : Sw) : (s.leaveSafety w).choices = s.choices := rfl
@[simp] theorem leaveSafety_sent (w : Sw) : (s.leaveSafety w).sent = s.sent := rfl
@[simp] theorem leaveSafety_notices (w : Sw) : (s.leaveSafety w).notices = s.notices := rfl
@[simp] theorem leaveSafety_cfg (w : Sw) : (s.leaveSafety w).cfg = s.cfg := rfl
@[simp] theorem leaveSafety_mx (w : Sw) : (s.leaveSafety w).mx = { s.mx with safety := without s.mx.safety w } := rfl
@[simp] theorem leaveSafety_tasks (w : Sw) : (s.leaveSafety w).tasks = s.tasks := rfl
@[simp] theorem leaveSafety_permit (w : Sw) : (s.leaveSafety w).permit = s.permit := rfl
@[simp] theorem leaveSafety_rot (w : Sw) : (s.leaveSafety w).rot = s.rot := rfl
@[simp] theorem leaveSafety_slew (w : Sw) : (s.leaveSafety w).slew = s.slew := rfl
@[simp] theorem leaveSafety_tx (w : Sw) : (s.leaveSafety w).tx = s.tx := rfl
@[simp] theorem leaveSafety_faultMark (w : Sw) : (s.leaveSafety w).faultMark = s.faultMark := rfl
@[simp] theorem leaveSafety_enabled (w : Sw) : (s.leaveSafety w).enabled = s.enabled := rfl
@[simp] theorem leaveSafety_season (w : Sw) : (s.leaveSafety w).season = s.season := rfl
@[simp] theorem leaveSafety_run (w : Sw) : (s.leaveSafety w).run = s.run := rfl
@[simp] theorem leaveSafety_clock (w : Sw) : (s.leaveSafety w).clock = s.clock := rfl
@[simp] theorem leaveSafety_locks (w : Sw) : (s.leaveSafety w).locks = s.locks := rfl
@[simp] theorem leaveSafety_hall (w : Sw) : (s.leaveSafety w).hall = s.hall := rfl
@[simp] theorem leaveSafety_links (w : Sw) : (s.leaveSafety w).links = s.links := rfl

/-! ## `State.send` -/

@[simp] theorem send_pending (o : Output) : (s.send o).pending = s.pending := rfl
@[simp] theorem send_timebase (o : Output) : (s.send o).timebase = s.timebase := rfl
@[simp] theorem send_choices (o : Output) : (s.send o).choices = s.choices := rfl
@[simp] theorem send_sent (o : Output) : (s.send o).sent = s.sent ++ [o] := rfl
@[simp] theorem send_notices (o : Output) : (s.send o).notices = s.notices := rfl
@[simp] theorem send_cfg (o : Output) : (s.send o).cfg = s.cfg := rfl
@[simp] theorem send_mx (o : Output) : (s.send o).mx = s.mx := rfl
@[simp] theorem send_tasks (o : Output) : (s.send o).tasks = s.tasks := rfl
@[simp] theorem send_permit (o : Output) : (s.send o).permit = s.permit := rfl
@[simp] theorem send_rot (o : Output) : (s.send o).rot = s.rot := rfl
@[simp] theorem send_slew (o : Output) : (s.send o).slew = s.slew := rfl
@[simp] theorem send_tx (o : Output) : (s.send o).tx = s.tx := rfl
@[simp] theorem send_faultMark (o : Output) : (s.send o).faultMark = s.faultMark := rfl
@[simp] theorem send_enabled (o : Output) : (s.send o).enabled = s.enabled := rfl
@[simp] theorem send_season (o : Output) : (s.send o).season = s.season := rfl
@[simp] theorem send_run (o : Output) : (s.send o).run = s.run := rfl
@[simp] theorem send_clock (o : Output) : (s.send o).clock = s.clock := rfl
@[simp] theorem send_locks (o : Output) : (s.send o).locks = s.locks := rfl
@[simp] theorem send_hall (o : Output) : (s.send o).hall = s.hall := rfl
@[simp] theorem send_links (o : Output) : (s.send o).links = s.links := rfl

/-! ## `State.notify` -/

@[simp] theorem notify_pending (x : Notice) : (s.notify x).pending = s.pending := rfl
@[simp] theorem notify_timebase (x : Notice) : (s.notify x).timebase = s.timebase := rfl
@[simp] theorem notify_choices (x : Notice) : (s.notify x).choices = s.choices := rfl
@[simp] theorem notify_sent (x : Notice) : (s.notify x).sent = s.sent := rfl
@[simp] theorem notify_notices (x : Notice) : (s.notify x).notices = s.notices ++ [x] := rfl
@[simp] theorem notify_cfg (x : Notice) : (s.notify x).cfg = s.cfg := rfl
@[simp] theorem notify_mx (x : Notice) : (s.notify x).mx = s.mx := rfl
@[simp] theorem notify_tasks (x : Notice) : (s.notify x).tasks = s.tasks := rfl
@[simp] theorem notify_permit (x : Notice) : (s.notify x).permit = s.permit := rfl
@[simp] theorem notify_rot (x : Notice) : (s.notify x).rot = s.rot := rfl
@[simp] theorem notify_slew (x : Notice) : (s.notify x).slew = s.slew := rfl
@[simp] theorem notify_tx (x : Notice) : (s.notify x).tx = s.tx := rfl
@[simp] theorem notify_faultMark (x : Notice) : (s.notify x).faultMark = s.faultMark := rfl
@[simp] theorem notify_enabled (x : Notice) : (s.notify x).enabled = s.enabled := rfl
@[simp] theorem notify_season (x : Notice) : (s.notify x).season = s.season := rfl
@[simp] theorem notify_run (x : Notice) : (s.notify x).run = s.run := rfl
@[simp] theorem notify_clock (x : Notice) : (s.notify x).clock = s.clock := rfl
@[simp] theorem notify_locks (x : Notice) : (s.notify x).locks = s.locks := rfl
@[simp] theorem notify_hall (x : Notice) : (s.notify x).hall = s.hall := rfl
@[simp] theorem notify_links (x : Notice) : (s.notify x).links = s.links := rfl

/-! ## `State.notifyAll` -/

@[simp] theorem notifyAll_pending (xs : List Notice) : (s.notifyAll xs).pending = s.pending := rfl
@[simp] theorem notifyAll_timebase (xs : List Notice) : (s.notifyAll xs).timebase = s.timebase := rfl
@[simp] theorem notifyAll_choices (xs : List Notice) : (s.notifyAll xs).choices = s.choices := rfl
@[simp] theorem notifyAll_sent (xs : List Notice) : (s.notifyAll xs).sent = s.sent := rfl
@[simp] theorem notifyAll_notices (xs : List Notice) : (s.notifyAll xs).notices = s.notices ++ xs := rfl
@[simp] theorem notifyAll_cfg (xs : List Notice) : (s.notifyAll xs).cfg = s.cfg := rfl
@[simp] theorem notifyAll_mx (xs : List Notice) : (s.notifyAll xs).mx = s.mx := rfl
@[simp] theorem notifyAll_tasks (xs : List Notice) : (s.notifyAll xs).tasks = s.tasks := rfl
@[simp] theorem notifyAll_permit (xs : List Notice) : (s.notifyAll xs).permit = s.permit := rfl
@[simp] theorem notifyAll_rot (xs : List Notice) : (s.notifyAll xs).rot = s.rot := rfl
@[simp] theorem notifyAll_slew (xs : List Notice) : (s.notifyAll xs).slew = s.slew := rfl
@[simp] theorem notifyAll_tx (xs : List Notice) : (s.notifyAll xs).tx = s.tx := rfl
@[simp] theorem notifyAll_faultMark (xs : List Notice) : (s.notifyAll xs).faultMark = s.faultMark := rfl
@[simp] theorem notifyAll_enabled (xs : List Notice) : (s.notifyAll xs).enabled = s.enabled := rfl
@[simp] theorem notifyAll_season (xs : List Notice) : (s.notifyAll xs).season = s.season := rfl
@[simp] theorem notifyAll_run (xs : List Notice) : (s.notifyAll xs).run = s.run := rfl
@[simp] theorem notifyAll_clock (xs : List Notice) : (s.notifyAll xs).clock = s.clock := rfl
@[simp] theorem notifyAll_locks (xs : List Notice) : (s.notifyAll xs).locks = s.locks := rfl
@[simp] theorem notifyAll_hall (xs : List Notice) : (s.notifyAll xs).hall = s.hall := rfl
@[simp] theorem notifyAll_links (xs : List Notice) : (s.notifyAll xs).links = s.links := rfl

/-! ## `State.raise` -/

@[simp] theorem raise_pending (a : Attn) : (s.raise a).pending = s.pending := rfl
@[simp] theorem raise_timebase (a : Attn) : (s.raise a).timebase = s.timebase := rfl
@[simp] theorem raise_choices (a : Attn) : (s.raise a).choices = s.choices := rfl
@[simp] theorem raise_sent (a : Attn) : (s.raise a).sent = s.sent := rfl
@[simp] theorem raise_notices (a : Attn) : (s.raise a).notices = s.notices := rfl
@[simp] theorem raise_cfg (a : Attn) : (s.raise a).cfg = s.cfg := rfl
@[simp] theorem raise_mx (a : Attn) : (s.raise a).mx = s.mx := rfl
@[simp] theorem raise_tasks (a : Attn) : (s.raise a).tasks = s.tasks := rfl
@[simp] theorem raise_permit (a : Attn) : (s.raise a).permit = s.permit := rfl
@[simp] theorem raise_rot (a : Attn) : (s.raise a).rot = s.rot := rfl
@[simp] theorem raise_slew (a : Attn) : (s.raise a).slew = s.slew := rfl
@[simp] theorem raise_tx (a : Attn) : (s.raise a).tx = s.tx := rfl
@[simp] theorem raise_faultMark (a : Attn) : (s.raise a).faultMark = s.faultMark := rfl
@[simp] theorem raise_enabled (a : Attn) : (s.raise a).enabled = s.enabled := rfl
@[simp] theorem raise_season (a : Attn) : (s.raise a).season = s.season := rfl
@[simp] theorem raise_run (a : Attn) : (s.raise a).run = s.run := rfl
@[simp] theorem raise_clock (a : Attn) : (s.raise a).clock = s.clock := rfl
@[simp] theorem raise_locks (a : Attn) : (s.raise a).locks = s.locks := rfl
@[simp] theorem raise_hall (a : Attn) : (s.raise a).hall = s.hall := rfl
@[simp] theorem raise_links (a : Attn) :
    (s.raise a).links = #v[s.links[0].raise a, s.links[1].raise a, s.links[2].raise a] := rfl

/-! ## Records read back -/

@[simp] theorem modTx_same (n : Tx) (f : TxRec → TxRec) : (s.modTx n f).tx[n] = f s.tx[n] := by simp

theorem modTx_other (n m : Tx) (f : TxRec → TxRec) (h : m ≠ n) : (s.modTx n f).tx[m] = s.tx[m] := by
  have : (n : Nat) ≠ m := fun e => h (Fin.ext e.symm)
  simp [this]

@[simp] theorem modPermit_same (n : Tx) (f : PermitRec → PermitRec) : (s.modPermit n f).permit[n] = f s.permit[n] := by simp

theorem modPermit_other (n m : Tx) (f : PermitRec → PermitRec) (h : m ≠ n) : (s.modPermit n f).permit[m] = s.permit[m] := by
  have : (n : Nat) ≠ m := fun e => h (Fin.ext e.symm)
  simp [this]

@[simp] theorem modSlew_same (k : Rot) (f : SlewRec → SlewRec) : (s.modSlew k f).slew[k] = f s.slew[k] := by simp

theorem modSlew_other (k j : Rot) (f : SlewRec → SlewRec) (h : j ≠ k) : (s.modSlew k f).slew[j] = s.slew[j] := by
  have : (k : Nat) ≠ j := fun e => h (Fin.ext e.symm)
  simp [this]

@[simp] theorem modRot_same (k : Rot) (f : RotRec → RotRec) : (s.modRot k f).rot[k] = f s.rot[k] := by simp

theorem modRot_other (k j : Rot) (f : RotRec → RotRec) (h : j ≠ k) : (s.modRot k f).rot[j] = s.rot[j] := by
  have : (k : Nat) ≠ j := fun e => h (Fin.ext e.symm)
  simp [this]

theorem setTask_same (n : Tx) (t : Option Task) : (s.setTask n t).tasks[n] = t := by simp

theorem setTask_other (n m : Tx) (t : Option Task) (h : m ≠ n) : (s.setTask n t).tasks[m] = s.tasks[m] := by
  have : (n : Nat) ≠ m := fun e => h (Fin.ext e.symm)
  simp [this]

/-- A switch record written is read back. -/
@[simp] theorem setSw_same (w : Sw) (r : SwRec) : (s.setSw w r).sw w = r := by
  cases w <;> simp [State.setSw, State.sw, Matrix.put, Matrix.get]

/-- Every other switch record is as it was. -/
theorem setSw_other (w v : Sw) (r : SwRec) (h : v ≠ w) : (s.setSw w r).sw v = s.sw v := by
  cases w with
  | sel i =>
    cases v with
    | sel j =>
      have : (i : Nat) ≠ j := fun e => h (congrArg Sw.sel (Fin.ext e.symm))
      simp [State.setSw, State.sw, Matrix.put, Matrix.get, this]
    | out j => rfl
  | out i =>
    cases v with
    | sel j => rfl
    | out j =>
      have : (i : Nat) ≠ j := fun e => h (congrArg Sw.out (Fin.ext e.symm))
      simp [State.setSw, State.sw, Matrix.put, Matrix.get, this]

/-- A link record written is read back. -/
@[simp] theorem modLink_same (d : Desk) (f : Link → Link) : (s.modLink d f).link d = f (s.link d) := by simp [State.link]

/-- Every other link record is as it was. -/
theorem modLink_other (d e : Desk) (f : Link → Link) (h : e ≠ d) : (s.modLink d f).link e = s.link e := by
  cases d <;> cases e <;> first | exact absurd rfl h | simp [State.link, Desk.index]

/-- Attention raised sets the class on every link, and nothing else but whether a frame is due (R194). -/
@[simp] theorem raise_link (a : Attn) (d : Desk) : (s.raise a).link d = (s.link d).raise a := by cases d <;> rfl

end Sys2Proof.Machine
end

