-- ==== Sys2Proof/Laws/Links.lean ====
section
/-! SUPPORT. The desk links: what the due attention frames, an event, a request taken and a reply do, said once. -/

namespace Sys2Proof.Machine

theorem flush_link (s : State) (d : Desk) : s.flush.link d = (s.link d).flush := by cases d <;> rfl

@[simp] theorem linkFlush_attn (l : Link) : l.flush.attn = l.attn := by unfold Link.flush Link.push; dsimp only; split <;> rfl

@[simp] theorem linkFlush_due (l : Link) : l.flush.due = false := by unfold Link.flush Link.push; dsimp only; split <;> rfl

/-- The due frames joining their queues change nothing but the links. -/
@[simp] theorem flush_kept (s : State) : s.flush.kept = s.kept := rfl

theorem flush_permits {s : State} (h : PermitsCurrent s) : PermitsCurrent s.flush := fun n => h n

theorem flush_follows {u t : State} (h : Follows u t) : Follows u t.flush where
  kept := h.kept
  sent := h.sent
  hand := h.hand
  attention d := by rw [flush_link, linkFlush_attn]; exact h.attention d
  permits := flush_permits h.permits

/-- What an event leaves alone when it has run to its end, and that the permits are then current. -/
theorem event_follows (a u : State) : Follows u (State.event a u) := flush_follows (cascade_follows a u)

/-- A link that has only gained attention is told of it by at most one frame. -/
theorem told_of_calm {a b : Link} (h : LinkCalm a b) : LinkTold a b.flush := by
  have e := h.same
  have hrx : b.rx = a.rx := by rw [← e]
  have hgap : b.byteGap = a.byteGap := by rw [← e]
  have hp : b.inProgress = a.inProgress := by rw [← e]
  have hq : b.queue = a.queue := by rw [← e]
  have hc : b.count = a.count := by rw [← e]
  have hs : b.sub = a.sub := by rw [← e]
  unfold Link.flush Link.push
  dsimp only
  split
  · exact ⟨⟨hrx, hgap⟩, hp, .inr (by rw [hq]), ⟨hc, hs⟩⟩
  · exact ⟨⟨hrx, hgap⟩, hp, .inl hq, ⟨hc, hs⟩⟩

/-- The links after an event whose own effect changes nothing of them but attention. -/
theorem event_told {s : State} (a u : State) (h : ∀ d : Desk, LinkCalm (s.link d) (u.link d)) (d : Desk) :
    LinkTold (s.link d) ((State.event a u).link d) := by
  rw [State.event, flush_link]
  exact told_of_calm ((h d).trans ((cascade_calm a u).links d))

/-- A request on a free link, outside settling, is its owner's act and the answer behind it. -/
theorem request_free (s : State) (d : Desk) (tag code : Byte) (act : State → Answer) (hf : Free s d)
    (hs : s.isSettling = false) :
    s.request_ d tag code act =
      (act (s.taken d tag code)).state.replied d tag (act (s.taken d tag code)).status (act (s.taken d tag code)).payload := by
  have hf' : ((s.hunt d).link d).inProgress.isSome = false := by
    rw [State.hunt, modLink_same]
    simpa [Free] using hf
  have hs' : ((s.hunt d).modLink d fun l => { l with inProgress := some (tag, code) }).isSettling = false := hs
  simp only [State.request_, State.handOn, hf', Bool.false_eq_true, if_false, State.ownerActs, hs', Bool.false_and,
    State.taken, State.replied]

/-- A query on a free link is answered in settling too. -/
theorem request_query (s : State) (d : Desk) (tag code : Byte) (act : State → Answer) (hf : Free s d)
    (hq : isQuery code = true) :
    s.request_ d tag code act =
      (act (s.taken d tag code)).state.replied d tag (act (s.taken d tag code)).status (act (s.taken d tag code)).payload := by
  have hf' : ((s.hunt d).link d).inProgress.isSome = false := by
    rw [State.hunt, modLink_same]
    simpa [Free] using hf
  simp only [State.request_, State.handOn, hf', Bool.false_eq_true, if_false, State.ownerActs, hq, Bool.not_true,
    Bool.and_false, State.taken, State.replied]

/-- What a reply leaves alone. -/
theorem replied_follows {u t : State} (d : Desk) (tag : Byte) (st : Status) (payload : List Byte) (h : Follows u t) :
    Follows u (t.replied d tag st payload) := by
  refine flush_follows ⟨h.kept, h.sent, h.hand, fun e => ?_, h.permits⟩
  by_cases he : e = d
  · subst he
    rw [modLink_same]
    exact h.attention e
  · rw [modLink_other _ _ _ _ he]
    exact h.attention e

/-- The link of a desk whose request has been answered. -/
theorem answered_link {s u : State} (t : State) (d : Desk) (tag code : Byte) (st : Status) (payload : List Byte)
    (hu : LinkCalm ((s.taken d tag code).link d) (u.link d)) (ht : LinkCalm (u.link d) (t.link d)) :
    LinkAnswered (s.link d) ((t.replied d tag st payload).link d) tag code st payload := by
  have e := (hu.trans ht).same
  rw [State.taken, modLink_same, State.hunt, modLink_same] at e
  rw [State.replied, flush_link, modLink_same]
  have hrx : (t.link d).rx = [] := congrArg Link.rx e
  have hgap : (t.link d).byteGap = .idle := congrArg Link.byteGap e
  have hp : (t.link d).inProgress = some (tag, code) := congrArg Link.inProgress e
  have hq : (t.link d).queue = (s.link d).queue := by simpa using congrArg Link.queue e
  have hc : (t.link d).count = (s.link d).count := by simpa using congrArg Link.count e
  unfold Link.flush Link.push
  dsimp only
  split
  · exact ⟨⟨hrx, hgap⟩, hp, .inr (by rw [hq]; simp), hc⟩
  · exact ⟨⟨hrx, hgap⟩, hp, .inl (by rw [hq]), hc⟩

/-- Every link after an answered request whose act changed nothing of the links but attention. -/
theorem answered_links {s u t : State} (d : Desk) (tag code : Byte) (st : Status) (payload : List Byte)
    (hu : ∀ e : Desk, LinkCalm ((s.taken d tag code).link e) (u.link e)) (ht : ∀ e : Desk, LinkCalm (u.link e) (t.link e)) :
    Answered s (t.replied d tag st payload) d tag code st payload := by
  refine ⟨answered_link t d tag code st payload (hu d) (ht d), fun e he => ?_⟩
  have h := (hu e).trans (ht e)
  rw [State.taken, modLink_other _ _ _ _ he, State.hunt, modLink_other _ _ _ _ he] at h
  rw [State.replied, flush_link, modLink_other _ _ _ _ he]
  exact told_of_calm h

/-! ## How a command completes -/

/-- A request that its owner answers without another block's act: how its link and its owner leave the state. -/
theorem sets_of_act {c : Instr} {s : State} {d : Desk} {tag code : Byte} {act : State → Answer} {st : Status}
    {payload : List Byte} {u : State} (hc : exec c s = .next (s.request_ d tag code act)) (hs : Serves s d)
    (ha : act (s.taken d tag code) = ⟨st, payload, u⟩) : CommandSets c s d tag st payload u := by
  rw [CommandSets, hc, request_free s d tag code act hs.1 hs.2, ha]

/-- The same of a query, which settling does not refuse. -/
theorem sets_of_query {c : Instr} {s : State} {d : Desk} {tag code : Byte} {act : State → Answer} {st : Status}
    {payload : List Byte} {u : State} (hc : exec c s = .next (s.request_ d tag code act)) (hs : Free s d)
    (hq : isQuery code = true) (ha : act (s.taken d tag code) = ⟨st, payload, u⟩) : CommandSets c s d tag st payload u := by
  rw [CommandSets, hc, request_query s d tag code act hs hq, ha]

/-- A request whose act runs to its end in every block, where the act changes nothing of the links but attention. -/
theorem runs_of_act {c : Instr} {s : State} {d : Desk} {tag code : Byte} {act : State → Answer} {st : Status}
    {payload : List Byte} {u : State} (hc : exec c s = .next (s.request_ d tag code act)) (hs : Serves s d)
    (ha : act (s.taken d tag code) = ⟨st, payload, State.cascade (s.taken d tag code) u⟩)
    (hu : ∀ e : Desk, LinkCalm ((s.taken d tag code).link e) (u.link e)) : CommandRuns c s d tag code st payload u :=
  ⟨_, sets_of_act hc hs ha, rfl, replied_follows d tag st payload (cascade_follows _ u),
    answered_links d tag code st payload hu (cascade_calm _ u).links⟩

/-- An event whose own effect changes nothing of the links but attention. -/
theorem runs_of_event {c : Instr} {s a u : State} (hc : exec c s = .next (State.event a u))
    (hu : ∀ d : Desk, LinkCalm (s.link d) (u.link d)) : EventRuns c s a u :=
  ⟨_, hc, rfl, event_follows a u, event_told a u hu⟩

/-- What the calm consequences of a state leave of its links, seen from any state with the same links. -/
theorem links_of_calm {z u : State} (s : State) (h : Calm z u) (hz : z.links = s.links) (d : Desk) :
    LinkCalm (s.link d) (u.link d) := by
  have := h.links d
  rwa [State.link, hz] at this

end Sys2Proof.Machine
end

