-- ==== Sys2Proof/Laws/Memory.lean ====
section
/-! SUPPORT. The configuration memory: every write inside it keeps its canonical form, and so does everything built from
writes. -/

namespace Sys2Proof.Machine

theorem memAbove_iff (a : Nat) (mem : List Host.Cell) : memAbove a mem = true ↔ ∀ c ∈ mem, a < c.1 := by simp [memAbove]

theorem memAbove_of_le {a b : Nat} (h : a ≤ b) {mem : List Host.Cell} (k : memAbove b mem = true) : memAbove a mem = true := by
  rw [memAbove_iff] at *
  exact fun c hc => h.trans_lt (k c hc)

/-- The canonical form of a listed cell and what follows it. -/
theorem wf_cons (k : Nat) (b : Byte) (rest : List Host.Cell) :
    Memory.wf ((k, b) :: rest) = true ↔
      k < memorySize ∧ b ≠ memoryBlank ∧ memAbove k rest = true ∧ Memory.wf rest = true := by
  simp [Memory.wf, and_assoc]

theorem memCons_above {a k : Nat} {b : Byte} {rest : List Host.Cell} (h : a < k) (hr : memAbove a rest = true) :
    memAbove a (memCons k b rest) = true := by
  unfold memCons
  split
  · exact hr
  · rw [memAbove_iff] at *
    exact List.forall_mem_cons.2 ⟨h, hr⟩

theorem memCons_wf {k : Nat} {b : Byte} {rest : List Host.Cell} (h : k < memorySize) (ha : memAbove k rest = true)
    (hr : Memory.wf rest = true) : Memory.wf (memCons k b rest) = true := by
  unfold memCons
  split
  · exact hr
  · exact (wf_cons _ _ _).2 ⟨h, by assumption, ha, hr⟩

theorem memWrite_above {a k : Nat} {b : Byte} {mem : List Host.Cell} (h : k < a) (hm : memAbove k mem = true) :
    memAbove k (memWrite mem a b) = true := by
  induction mem with
  | nil => exact memCons_above h hm
  | cons c rest ih =>
    obtain ⟨j, d⟩ := c
    have hj := (memAbove_iff _ _).1 hm (j, d) (by simp)
    have hr : memAbove k rest = true := (memAbove_iff _ _).2 fun c hc => (memAbove_iff _ _).1 hm c (by simp [hc])
    simp only [memWrite]
    split
    · exact memCons_above h hm
    · split
      · exact memCons_above h hr
      · exact (memAbove_iff _ _).2 (List.forall_mem_cons.2 ⟨hj, (memAbove_iff _ _).1 (ih hr)⟩)

/-- A write inside the memory keeps the canonical form. -/
theorem memWrite_wf {mem : List Host.Cell} {a : Nat} {b : Byte} (h : a < memorySize) (hm : Memory.wf mem = true) :
    Memory.wf (memWrite mem a b) = true := by
  induction mem with
  | nil => exact memCons_wf h rfl rfl
  | cons c rest ih =>
    obtain ⟨k, d⟩ := c
    obtain ⟨hk, hd, ha, hr⟩ := (wf_cons _ _ _).1 hm
    simp only [memWrite]
    split
    · next hlt =>
      refine memCons_wf h ((memAbove_iff _ _).2 (List.forall_mem_cons.2 ⟨hlt, ?_⟩)) hm
      exact (memAbove_iff _ _).1 (memAbove_of_le hlt.le ha)
    · split
      · next heq => exact memCons_wf h (heq ▸ ha) hr
      · next h1 h2 => exact (wf_cons _ _ _).2 ⟨hk, hd, memWrite_above (by omega) ha, ih hr⟩

/-- Bytes written within the memory keep the canonical form. -/
theorem memWriteAll_wf (bytes : List Byte) {mem : List Host.Cell} {a : Nat} (h : a + bytes.length ≤ memorySize)
    (hm : Memory.wf mem = true) : Memory.wf (memWriteAll mem a bytes) = true := by
  induction bytes generalizing mem a with
  | nil => exact hm
  | cons b bs ih =>
    simp only [List.length_cons] at h
    exact ih (by omega) (memWrite_wf (by omega) hm)

/-- Single bytes written within the memory keep the canonical form. -/
theorem memPatch_wf (faults : List (Nat × Byte)) {mem : List Host.Cell} (h : faultsInside faults = true)
    (hm : Memory.wf mem = true) : Memory.wf (memPatch mem faults) = true := by
  induction faults generalizing mem with
  | nil => exact hm
  | cons f fs ih =>
    simp only [faultsInside, List.all_cons, Bool.and_eq_true, decide_eq_true_eq] at h
    exact ih h.2 (memWrite_wf h.1 hm)

theorem length_bytes2 (w : Word16) : (bytes2 w).length = 2 := rfl

theorem length_itemBytes (c : Configuration) : (itemBytes c).length = 4 * allItems.length := by
  simp [itemBytes, List.length_flatMap, length_bytes2, List.map_const', Nat.mul_comm]

/-- An image fits into the configuration memory (R200). -/
theorem length_imageBytes (c : Configuration) : (imageBytes c).length ≤ memorySize := by
  have : allItems.length = 167 := rfl
  simp [imageBytes, length_itemBytes, length_bytes2, memorySize, this]

/-- The memory at reset is in its canonical form. -/
theorem reset_memory_wf : Memory.wf State.reset.cfg.image = true := rfl

end Sys2Proof.Machine
end

