-- ==== Sys2Proof/Tests/Slice0.lean ====
section
/-! SUPPORT. The model's own tests: commands that WellFormed refuses, worked cases of the spec, single steps, and for every
statement with hypotheses a concrete state and operands that meet them. -/

namespace Sys2Proof.Tests

open Sys2Proof Sys2Proof.Machine

set_option Elab.async false

/-! ## WellFormed -/

theorem test_wf_payload_limit :
    (Instr.describe .dl1 0 (List.replicate 240 0)).wf = true ∧ (Instr.describe .dl1 0 (List.replicate 241 0)).wf = false := by
  decide +kernel

theorem test_wf_unknown_code :
    (Instr.unknownCommand .dl1 0 0x0D []).wf = true ∧ (Instr.unknownCommand .dl1 0 0x0C []).wf = false ∧
      (Instr.unknownCommand .dl1 0 0x68 []).wf = true ∧ (Instr.unknownCommand .dl1 0 0x67 []).wf = false ∧
      (Instr.unknownCommand .dl1 0 0x00 (List.replicate 241 0)).wf = false := by decide +kernel

theorem test_wf_trip_cause :
    (Instr.status 0 ⟨true, some .tripped, 6000, 1, some .off, some .reflected, false⟩).wf = true ∧
      (Instr.status 0 ⟨true, some .tripped, 6000, 1, some .off, some .hotSwitch, false⟩).wf = false ∧
      (Instr.status 0 ⟨true, some .ready, 6000, 1, some .off, some .other, false⟩).wf = false := by decide +kernel

theorem test_wf_save_faults :
    (Instr.saveComplete true [(8191, 0)]).wf = true ∧ (Instr.saveComplete true [(8192, 0)]).wf = false := by decide +kernel

/-! ## Words -/

/-- No row of the table has bits. -/
theorem test_no_word_spells (nbits w : Nat) : decodeTableWord nbits w = none := rfl

/-! ## Worked cases of the spec -/

/-- The rotator of section 3.10. -/
def rotator310 : RotParams := { RotParams.default with periods := 32, offF := 100, offV := 3000, zero := 2700, tol := 1024 }

/-- Section 3.10, "A frame in mid-revolution". -/
theorem test_vernier_mid :
    rotator310.periodIndex 1300 1986 = 17 ∧ rotator310.residual 1300 1986 = 16 ∧ rotator310.fineCount 1300 1986 = 70832 ∧
      rotator310.bearing 70832 = 1945 := by decide +kernel

/-- Section 3.10, "A frame at the end of a fine period". -/
theorem test_vernier_end_of_period :
    rotator310.periodIndex 94 690 = 17 ∧ rotator310.residual 94 690 = 6 ∧ rotator310.fineCount 94 690 = 73722 ∧
      rotator310.bearing 73722 = 2025 := by decide +kernel

/-- Section 3.10, "A frame at the top of the revolution". -/
theorem test_vernier_top :
    rotator310.periodIndex 99 2999 = 31 ∧ rotator310.residual 99 2999 = 1 ∧ rotator310.fineCount 99 2999 = 131071 ∧
      rotator310.bearing 131071 = 0 := by decide +kernel

/-- The CRC-16 of R184 (polynomial 0x1021, initial value 0xFFFF, no inversion) over the ASCII digits 1 to 9, by its published check
value. -/
theorem test_crc_check_value : crc16 [0x31, 0x32, 0x33, 0x34, 0x35, 0x36, 0x37, 0x38, 0x39] = 0x29B1 := by decide +kernel

/-- R184: a READ_HALL request is sync, kind 1, tag, code 2, length 0 and the check. -/
theorem test_request_layout : (frameBytes 1 7 0x02 []).take 5 = [0xA5, 1, 7, 2, 0] ∧ (frameBytes 1 7 0x02 []).length = 7 := by
  decide +kernel

/-- R116: Sunday 23:00 for 120 minutes meets Monday 00:30, and not Monday 01:00. -/
theorem test_overlap_over_the_week :
    intervalsOverlap 10020 120 30 30 = true ∧ intervalsOverlap 10020 120 60 30 = false := by decide +kernel

/-! ## States for the tests -/

/-- Four transmitters and six antennas that take 5900 to 6200 kHz; rotator 1 turns A5 and rotator 2 turns A6. -/
def testConfig : Configuration :=
  { Configuration.default with
    txCount := 4, antCount := 6, bandLow := Configuration.default.bandLow.set 0 5900,
    bandHigh := Configuration.default.bandHigh.set 0 6200, supported := Vector.replicate 24 1,
    rotatorOf := (Configuration.default.rotatorOf.set 4 1).set 5 2, rot := Vector.replicate 4 { RotParams.default with stop := 1800 } }

/-- A transmitter at rest: READY at 6000 kHz, feed 1. -/
def readyTx : TxRec :=
  { TxRec.powerUp with state := .ready, reporting := true, lastCond := some .ready, tuned := some 6000, feed := some 1,
                       rfLevel := some .off, silence := .running 103000, lastFreq := some 6000 }

/-- A rotator that stands at azimuth 1000 with its sensor at 1000. -/
def standingRot : RotRec :=
  { RotRec.powerUp with validity := .valid, azimuth := some 1000, sensor := some 1000, fine := some 36408, period := some 8,
                        residual := some 0, goodTime := some 99990, frameTimer := .running 100090 }

/-- A site at rest at 100 s: hall NORMAL, supply good, no RF, every switch STEADY at home, the clock at 10:00:30, nobody holding a
transmitter. -/
def site : State :=
  State.permitSync { State.reset with
    timebase := 100000
    cfg := { ConfigStore.powerUp with configured := true, active := testConfig, memoryValid := true }
    mx := { Matrix.powerUp with
      sel := Vector.replicate 24 { SwRec.powerUp .earth with confirmed := .stands .earth },
      out := Vector.replicate 8 { SwRec.powerUp .dummy with confirmed := .stands .dummy },
      reportWindow := .idle, supplyHeld := true, permitted := true }
    rot := Vector.replicate 4 standingRot
    tx := Vector.replicate 8 readyTx
    enabled := Vector.replicate 24 1
    clock := { Clock.powerUp with state := .running, now := some ⟨100, 600, 30⟩, lastMark := some 99800,
                                  lastCounted := some 98800, tick := .running 100800, lastPulse := some 98800 }
    hall := { Hall.powerUp with state := .normal, access := ⟨some .closed, false, none⟩, supply := ⟨some .good, false, none⟩,
                                rf := Vector.replicate 8 ⟨some .absent, false, none⟩ } }

/-- The site with T1 in DL1's hand. -/
def hand : State := (site.modTx 0 fun r => { r with holder := some .dl1 }).permitSync

/-- The site with the part settling. -/
def settlingSite : State :=
  { site with cfg := { site.cfg with settling := some ⟨.running 101000, [0], [], [], Vector.replicate 8 .off⟩ } }

/-- The site with RF present on T1. -/
def live : State := { hand with hall := { hand.hall with rf := hand.hall.rf.set 0 ⟨some .present, false, none⟩ } }

/-- The site with a configuration open on DL2. -/
def openSite : State :=
  { site with cfg := { site.cfg with openDesk := some .dl2, workspace := some testConfig } }

/-- The part while UNCONFIGURED. -/
def bare : State := { site with cfg := { site.cfg with configured := false } }

/-- A desk's request in progress. -/
def busyLink (s : State) (d : Desk) (tag code : Byte) (q : List Frame) : State :=
  s.modLink d fun l => { l with inProgress := some (tag, code), queue := q }

/-- A sound season entry. -/
def entry7 : Entry :=
  { id := 7, tx := 0, days := 0x7F, start := 1200, dur := 60, freq := 6000, primary := 0, alt := some 1, az := none,
    power := .full, feed := 1, failed := none }

/-- The site with that entry in table A. -/
def seasonSite : State := { site with season := { site.season with tableA := [entry7] } }

/-- A run of that entry on T1. -/
def run7 : RunRec :=
  { num := 1, tx := 0, table := .a, entry := 7, start := 145200, stop := 145260, freq := 6000, feed := 1, power := .full,
    primary := 0, alt := some 1, az := none, inUse := some 0, deferred := none, state := .preparing, route := .waiting,
    tune := .waiting, slew := .notNeeded, late := false, held := false, alternate := false, aired := false,
    graceBase := 145200, reason := none, closedAt := none }

/-- The site with that run CURRENT. -/
def runSite : State := { seasonSite with run := { seasonSite.run with cur := seasonSite.run.cur.set 0 (some run7) } }

/-- A lockout of DL1 on A2. -/
def lockA2 : LockRec := { target := .ant 1, desk := .dl1, reason := 1, effective := true, placed := some (144600, 20) }

/-- The site with that lockout. -/
def lockSite : State := { site with locks := { site.locks with records := [lockA2] } }

/-! ## Single steps -/

/-- The state after a command, or the state before it where it stops. -/
def after (c : Instr) (s : State) : State :=
  match exec c s with
  | .next t => t
  | _ => s

/-- The status and payload of the last reply in a desk's queue. -/
def replyTo (d : Desk) (c : Instr) (s : State) : Option (Status × List Byte) :=
  match (((after c s).link d).queue.filter Frame.isTaken).getLast? with
  | some (.reply _ st p _) => some (st, p)
  | _ => none

/-- R46: no desk holds T1. -/
theorem test_set_rf_not_in_hand : replyTo .dl1 (.setRf .dl1 1 [1, 1]) site = some (.notInHand, []) := by decide +kernel

/-- R46: T9 does not exist. -/
theorem test_set_rf_range : replyTo .dl1 (.setRf .dl1 1 [9, 1]) hand = some (.badArgument, []) := by decide +kernel

/-- R174: DL1 takes T1, which nobody holds, and its requested level is OFF. -/
theorem test_take_hand :
    replyTo .dl1 (.takeHand .dl1 1 [1]) site = some (.done, []) ∧
      ((after (.takeHand .dl1 1 [1]) site).tx[0]).holder = some .dl1 ∧
      ((after (.takeHand .dl1 1 [1]) site).permit[0]).requester = .hand .dl1 := by decide +kernel

/-- R191: slot 2 is absent from the supported mask. -/
theorem test_enabled_bands_clamped :
    replyTo .dl2 (.setEnabledBands .dl2 1 [1, 0, 3]) site = some (.doneClamped, [0, 1]) := by decide +kernel

/-- R163: a RUNNING clock is not set. -/
theorem test_set_clock_busy : replyTo .dl1 (.setClock .dl1 1 [0, 100, 2, 88, 0]) site = some (.busy, []) := by decide +kernel

/-- R65: with the sensor at 1000, bearing 1300 makes the zero bearing 300. -/
theorem test_calibrate :
    replyTo .dl1 (.calibrateRotator .dl1 1 [1, 5, 20]) site = some (.done, [1, 44]) ∧
      ((after (.calibrateRotator .dl1 1 [1, 5, 20]) site).rot[0]).azimuth = some 1300 := by decide +kernel

/-- R122: an entry in use is not deleted, and one that is not there is DONE. -/
theorem test_delete_entry :
    replyTo .dl1 (.deleteEntry .dl1 1 [1, 0, 7]) runSite = some (.inUse, []) ∧
      replyTo .dl1 (.deleteEntry .dl1 1 [1, 0, 8]) runSite = some (.done, []) := by decide +kernel

/-- R167: reason 0 is none. -/
theorem test_place_lockout_reason : replyTo .dl1 (.placeLockout .dl1 1 [2, 2, 0]) site = some (.badArgument, []) := by
  decide +kernel

/-- R202: DL2 has a configuration open. -/
theorem test_open_config_other : replyTo .dl1 (.openConfig .dl1 1 []) openSite = some (.configOpen, []) := by decide +kernel

/-- R199, R203: the grant limit may be 4 and not 5. -/
theorem test_configure :
    replyTo .dl2 (.configure .dl2 1 [2, 1, 2, 0, 4, 1, 2, 0, 5]) openSite = some (.done, [2, 0, 5]) := by decide +kernel

/-- R189: code 0x50 is no command's. -/
theorem test_unknown_command : replyTo .dl3 (.unknownCommand .dl3 1 0x50 []) site = some (.unknownCommand, []) := by decide +kernel

/-- Section 10.7: READ_ROUTES before reply 17 has left is BUSY. -/
theorem test_second_request_busy :
    ((after (.readRoutes .dl1 18 []) (busyLink site .dl1 17 0x22 [.reply 17 .accepted [] false])).link .dl1).queue =
      [.reply 17 .accepted [] false, .reply 18 .busy [] true] := by decide +kernel

/-- A link of section 10.7 with ROUTE and RUN set and subscribed, its count at 41. -/
def link107 : State := site.modLink .dl1 fun l => { l with attn := 0x041, sub := 0x051, count := 41, queue := [.attnWaiting] }

/-- Section 10.7: the attention frame has tag 41 and ROUTE and RUN, and the count becomes 42. -/
theorem test_attention_frame :
    (after (.attentionFrame .dl1) link107).sent.getLast? = some (.deskFrames .dl1 [frameBytes 3 41 0 [0, 0x41]]) ∧
      ((after (.attentionFrame .dl1) link107).link .dl1).count = 42 := by decide +kernel

/-- Section 10.7: READ_ATTENTION gives both classes and clears them. -/
theorem test_read_attention :
    replyTo .dl1 (.readAttention .dl1 20 []) link107 = some (.done, [0, 0x41]) ∧
      ((after (.readAttention .dl1 20 []) link107).link .dl1).attn = 0 := by decide +kernel

/-- Section 3.10: of the frame in mid-revolution the record holds azimuth 1045. -/
theorem test_sensor_frame :
    (((after (.sensorFrame 0 ⟨true, 1300, 1986, true⟩)
      { site with cfg := { site.cfg with active := { testConfig with rot := testConfig.rot.set 0 rotator310 } } }).rot[0]).azimuth,
     ((after (.sensorFrame 0 ⟨true, 1300, 1986, false⟩) site).rot[0]).validity) = (some 1045, .suspect) := by decide +kernel

/-- R157: the tick counts a second. -/
theorem test_tick :
    (after .tick site).clock.now = some ⟨100, 600, 31⟩ ∧ (after .tick site).clock.missed = 1 ∧
      (after .tick site).timebase = 100800 := by decide +kernel

/-- R176: the first differing sample makes a candidate and no more, and one like the accepted level takes it back. -/
theorem test_access_sample :
    (after (.inputSample (.access .opened)) site).hall.access = ⟨some .closed, true, none⟩ ∧
      (after (.inputSample (.access .closed)) (after (.inputSample (.access .opened)) site)).hall.access =
        ⟨some .closed, false, none⟩ := by decide +kernel

/-- R179: the closed timer runs 60 s from the closing of a SAFE hall. -/
theorem test_closed_timer :
    (after (.accessChange .closed)
      { site with hall := { site.hall with state := .safe, access := ⟨some .opened, false, none⟩ } }).hall.closed =
      .running 160000 := by decide +kernel

/-- R16: a STEADY switch that leaves its position unasked is FAULT, UNCOMMANDED. -/
theorem test_uncommanded :
    ((site.takeReport (.sel 0) (.stands (.bus 1))).sw (.sel 0)).fault = some .uncommanded ∧
      ((site.takeReport (.sel 0) (.stands .earth)).sw (.sel 0)).state = .steady := by decide +kernel

/-- R206: a byte outside the memory is named. -/
theorem test_save_outside :
    exec (.saveComplete true [(8192, 0)]) { site with cfg := { site.cfg with saving := some [0] } } = .fault .memoryOutside := by
  rfl

/-- A step with an empty queue passes one millisecond, and one with a queue takes its front. -/
theorem test_step :
    step State.reset = .next { State.reset with timebase := 1 } ∧
      ∀ c : Instr, step { State.reset with pending := [c] } = exec c State.reset := ⟨rfl, fun _ => rfl⟩

/-! ## Witnesses: for every statement with hypotheses, a state and operands that meet them -/

theorem witness_ExecKeepsQueueAndSent :
    exec .tick { State.reset with pending := [.powerUp] } = .next { State.reset with pending := [.powerUp] } := rfl

/-- The site with the opening of the hall commanded. -/
def opening : State := { hand with pending := [.accessChange .opened] }

theorem witness_PermitsCurrentKept : PermitsCurrent opening ∧ ∃ t, step opening = .next t :=
  ⟨by unfold PermitsCurrent; decide +kernel, _, rfl⟩

/-- R42: the guard holds the TRIP line of a transmitter that is not configured, whose record stays OFFLINE (R92). -/
theorem test_guard_unconfigured :
    (let s := ({ live with hall := { live.hall with rf := live.hall.rf.set 7 ⟨some .present, false, none⟩ } } : State).setSw (.sel 0)
       { SwRec.powerUp .earth with state := .fault, confirmed := .stands (.bus 7) }
     let u := (s.modTx 7 fun _ => TxRec.powerUp).guardOne 7
     s.cfg.txOk 7 = false ∧ u.tripLine 7 = true ∧ (u.tx[7]).state = .offline ∧
       ((u.link .dl1).attn &&& Attn.bit .trip) ≠ 0) := by decide +kernel

theorem witness_PermitsGuardOutputs : PermitsCurrent opening := witness_PermitsCurrentKept.1

/-- RF on T1 with OS1 moving, held by the guard. -/
def hotSite : State :=
  (State.modPermit { live with pending := [.tick] } 0 fun p => { p with holds := ⟨false, true, false⟩ }).setSw (.out 0)
    { SwRec.powerUp .dummy with state := .moving, commanded := .antenna, grantTime := some 99000, travelDue := some 103000 }

theorem witness_GuardHoldsKept :
    (hotSite.rfPresent 0 = true ∧ hotSite.mx.onPath 0 (.out 0) = true ∧ (hotSite.sw (.out 0)).state ≠ .steady) ∧
      GuardHolds hotSite ∧ ∃ t, step hotSite = .next t := by
  refine ⟨by decide +kernel, fun n => ⟨fun h hw => ?_, fun h => .inl ?_⟩, _, rfl⟩
  · clear hw; revert h; revert n; decide +kernel
  · revert h; revert n; decide +kernel

theorem witness_GrantsBoundedKept :
    GrantsBounded { hotSite with pending := [.tick] } ∧ hotSite.mx.movingCount = 1 ∧ Notice.mxJudge ∉ hotSite.notices ∧
      ∃ t, step { hotSite with pending := [.tick] } = .next t :=
  ⟨⟨by decide +kernel, by decide +kernel, by decide +kernel, by decide +kernel⟩, by decide +kernel, by decide +kernel, _, rfl⟩

/-- A save under way over a memory that holds one byte. -/
def savingSite : State := { site with cfg := { site.cfg with saving := some [0x4C, 0x56], image := [(3, 7)] } }

theorem witness_MemoryCanonicalKept :
    MemoryCanonical { savingSite with pending := [.saveComplete true []] } ∧
      ∃ t, step { savingSite with pending := [.saveComplete true []] } = .next t :=
  ⟨⟨by decide +kernel, by intro b h; cases h; decide +kernel⟩, _, rfl⟩

theorem witness_MemoryReadBack : Memory.wf [(3, 7), (8191, 0)] = true := by decide +kernel

theorem witness_TablesBoundedKept :
    TablesBounded { lockSite with pending := [.tick] } ∧ ∃ t, step { lockSite with pending := [.tick] } = .next t :=
  ⟨⟨by decide +kernel, by decide +kernel, by decide +kernel, by decide +kernel,
    by intro d; cases d <;> decide +kernel, by intro d; cases d <;> decide +kernel⟩, _, rfl⟩

theorem witness_EnabledWithinKept :
    EnabledWithin { site with pending := [.tick] } ∧ ∃ t, step { site with pending := [.tick] } = .next t :=
  ⟨by unfold EnabledWithin; decide +kernel, _, rfl⟩

theorem witness_RequestFrameScanned :
    syncByte ∉ ([1, 2] : List Byte) ∧ (List.replicate 240 (0xA5 : Byte)).length ≤ 240 := by decide +kernel

theorem witness_EntryRecordRoundTrip : EntryValid { entry7 with id := 9999, az := some 3599, dur := 1440, start := 1439 } :=
  ⟨by decide, by decide, by decide, by decide, by decide, by decide, by decide, by decide, by decide⟩

theorem witness_ImageRoundTrip : Memory.wf [] = true ∧ ItemsValid testConfig := by
  unfold ItemsValid; decide +kernel

theorem witness_WholeRecordQueries : Free site .dl1 ∧ ([0] : List Byte) ≠ [] := by unfold Free; decide +kernel

theorem witness_ChosenRecordQueries :
    Free seasonSite .dl1 ∧ seasonSite.cfg.antOk 5 = true ∧ seasonSite.cfg.antOk 6 = false ∧ seasonSite.cfg.rotOk 0 = true ∧
      seasonSite.cfg.rotOk 2 = false ∧ seasonSite.cfg.txOk 3 = true ∧ seasonSite.cfg.txOk 4 = false ∧
      (entryOf (seasonSite.season.table .a) 7).isSome = true ∧ entryOf (seasonSite.season.table .b) 7 = none := by
  unfold Free; decide +kernel

theorem witness_ReadAttentionClears : Free link107 .dl1 ∧ Quiet link107 :=
  ⟨rfl, fun d => by cases d <;> rfl⟩

theorem witness_BusyRequestsDoNothing :
    (Instr.route .dl1 18 [1, 0, 1]).request = some (.dl1, 18, 0x22, [1, 0, 1]) ∧
      ((busyLink site .dl1 17 0x22 []).link .dl1).inProgress ≠ none ∧
      Free settlingSite .dl1 ∧ settlingSite.isSettling = true ∧ isQuery 0x22 = false := by unfold Free; decide +kernel

theorem witness_ByteArrivalRunsCommand :
    (Instr.readHall .dl1 7 []).request = some (.dl1, 7, 0x02, []) ∧ (Instr.readHall .dl1 7 []).wf = true ∧
      ((site.modLink .dl1 fun l => { l with rx := (frameBytes 1 7 0x02 []).take 6 }).link .dl1).rx ++
        [(frameBytes 1 7 0x02 []).getD 6 0] = frameBytes 1 7 0x02 [] := by decide +kernel

/-- The site with a receiver at work. -/
def receiving (bs : List Byte) (gap : Timer) : State := site.modLink .dl1 fun l => { l with rx := bs, byteGap := gap }

theorem witness_FramesDiscarded :
    (site.link .dl1).rx = [] ∧ (0 : Byte) ≠ syncByte ∧
      (syncByte ∉ ([1, 7, 2, 241] : List Byte) ∧ 240 < (241 : Byte).toNat ∧
        ((receiving [syncByte, 1, 7, 2] (.running 100020)).link .dl1).rx = [syncByte, 1, 7, 2]) ∧
      ((2 : Byte) ≠ 1 ∧ ((receiving ((frameBytes 2 7 0 []).take 6) (.running 100020)).link .dl1).rx ++
        [(frameBytes 2 7 0 []).getD 6 0] = frameBytes 2 7 0 []) ∧
      (((receiving [syncByte, 1, 7, 2, 0, 9] (.running 100020)).link .dl1).rx ++ [9] =
          [syncByte, 1, 7, 2, BitVec.ofNat 8 0] ++ [] ++ [9, 9] ∧
        bytes2 (crc16 ([1, 7, 2, BitVec.ofNat 8 0] ++ [])) ≠ [9, 9] ∧
        syncByte ∉ ([1, 7, 2, BitVec.ofNat 8 0] ++ [] ++ [9, 9] : List Byte)) ∧
      (((receiving [syncByte, 1] (.running 100020)).link .dl1).byteGap = .running 100020 ∧ syncByte ∉ ([1] : List Byte)) ∧
      ((site.link .dl1).byteGap = .idle) := by decide +kernel

/-- The site with a queue on DL1 and a request of the code given in progress there. -/
def sending (code : Byte) (q : List Frame) : State := busyLink site .dl1 7 code q

theorem witness_SendQueueMoves :
    ((sending 0x02 [.reply 7 .done [] false]).link .dl1).dropSent.queue = [.reply 7 .done [] false] ∧
      ((sending 0x02 [.reply 7 .done [] false]).link .dl1).inProgress = some (7, 0x02) ∧
      ((sending 0x02 [.reply 8 .busy [] true]).link .dl1).dropSent.queue = [.reply 8 .busy [] true] ∧
      ((sending 0x67 [.reply 7 .done [] false]).link .dl1).dropSent.queue = [.reply 7 .done [] false] ∧
      ((sending 0x67 [.reply 7 .done [] false]).link .dl1).inProgress = some (7, 0x67) ∧
      (link107.link .dl1).dropSent.queue = [.attnWaiting] ∧ (link107.link .dl1).attn &&& (link107.link .dl1).sub ≠ 0 ∧
      ((sending 0x02 [.attnWaiting]).link .dl1).dropSent.queue = [.attnWaiting] ∧
      ((sending 0x02 [.attnWaiting]).link .dl1).attn &&& ((sending 0x02 [.attnWaiting]).link .dl1).sub = 0 := by decide +kernel

/-- T1 in DL1's hand with a standing order. -/
def ordered (o : Order) : State := hand.modTx 0 fun r => { r with order := some o }

theorem witness_TakeHand :
    Serves site .dl1 ∧ PermitsCurrent site ∧ site.cfg.txOk 4 = false ∧ site.cfg.txOk 3 = true ∧ (site.tx[0]).holder = none ∧
      Serves hand .dl1 ∧ Serves hand .dl2 ∧ Serves hand .dl3 ∧ (hand.tx[0]).holder = some .dl1 ∧
      Serves (ordered (.feed 2 (.desk .dl1) (.running 110000))) .dl3 ∧
      ((ordered (.feed 2 (.desk .dl1) (.running 110000))).tx[0]).order = some (.feed 2 (.desk .dl1) (.running 110000)) ∧
      (((site.modTx 0 fun r => { r with order := some (.feed 2 (.schedule 1) .stopped) }).tx[0]).order =
        some (.feed 2 (.schedule 1) .stopped)) := by unfold Serves Free PermitsCurrent; decide +kernel

theorem witness_ReturnHand :
    Serves site .dl1 ∧ site.cfg.txOk 4 = false ∧ (site.tx[0]).holder = none ∧ site.cfg.txOk 0 = true ∧
      Serves hand .dl2 ∧ Serves hand .dl1 ∧ Serves hand .dl3 ∧ (hand.tx[0]).holder = some .dl1 ∧
      Serves (ordered (.feed 2 (.desk .dl1) (.running 110000))) .dl1 ∧
      Serves (ordered (.feed 2 (.schedule 1) (.running 110000))) .dl1 := by unfold Serves Free; decide +kernel

/-- The table of R46 for DL1 and T1. -/
def setRfTable (s : State) (l : Level) : Option Status :=
  firstOf
    [(!s.cfg.txOk 0, .notConfigured), ((s.tx[0]).holder == none, .notInHand), ((s.tx[0]).holder != some .dl1, .heldByOther),
     (s.hall.state == .safe && l != .off, .hallSafe),
     ((s.locked (.tx 0) || allAnt.any fun m => s.mx.feeds 0 == some m && s.locked (.ant m)) && l != .off, .lockedOut)]

theorem witness_SetRf :
    Serves hand .dl1 ∧ PermitsCurrent hand ∧ setRfTable hand .full = none ∧ Serves site .dl1 ∧
      setRfTable site .low = some .notInHand ∧ ¬(1 ≤ (0 : Byte).toNat ∧ (0 : Byte).toNat ≤ 8 ∧ (0 : Byte).toNat ≤ 2) := by
  unfold Serves Free PermitsCurrent; decide +kernel

/-- The table of R106 for DL1 and T1. -/
def clearTripTable (s : State) : Option Status :=
  firstOf
    [(!s.cfg.txOk 0, .notConfigured), ((s.tx[0]).holder != none && (s.tx[0]).holder != some .dl1, .notPermitted),
     ((s.tx[0]).state == .recycle && (s.tx[0]).recycleTimer != .idle, .notPermitted)]

/-- T1 TRIPPED or in RECYCLE. -/
def stopped (x : TxState) (t : Timer) : State := site.modTx 0 fun r => { r with state := x, recycleTimer := t }

theorem witness_ClearTrip :
    Serves (stopped .tripped .idle) .dl1 ∧ clearTripTable (stopped .tripped .idle) = none ∧
      ((stopped .tripped .idle).tx[0]).state = .tripped ∧ Serves site .dl1 ∧ clearTripTable site = none ∧
      (site.tx[0]).state ≠ .tripped ∧ Serves (stopped .recycle (.running 105000)) .dl1 ∧
      clearTripTable (stopped .recycle (.running 105000)) = some .notPermitted ∧
      ¬(1 ≤ (9 : Byte).toNat ∧ (9 : Byte).toNat ≤ 8) := by unfold Serves Free; decide +kernel

theorem witness_ClearAntennaFault :
    Serves site .dl1 ∧ site.cfg.antOk 6 = false ∧ site.cfg.antOk 5 = true ∧ site.faultMark[(5 : Ant)] = false ∧
      Serves { site with faultMark := site.faultMark.set 5 true } .dl1 ∧
      ({ site with faultMark := site.faultMark.set 5 true } : State).faultMark[(5 : Ant)] = true ∧
      ¬(1 ≤ (25 : Byte).toNat ∧ (25 : Byte).toNat ≤ 24) := by unfold Serves Free; decide +kernel

theorem witness_SetEnabledBands :
    Serves site .dl1 ∧ site.cfg.antOk 6 = false ∧ site.cfg.antOk 5 = true ∧ ¬(1 ≤ (0 : Byte).toNat ∧ (0 : Byte).toNat ≤ 24) := by
  unfold Serves Free; decide +kernel

/-- The table of R95 for DL1 and T1. -/
def tuneTable (s : State) (f g : Nat) : Option Status :=
  firstOf
    [(!(decide (2300 ≤ f ∧ f ≤ 26100 ∧ f % 5 = 0 ∧ 1 ≤ g ∧ g ≤ 16)), .badArgument), (!s.cfg.txOk 0, .notConfigured),
     (s.isOpen, .configOpen), ((s.tx[0]).holder == none, .notInHand), ((s.tx[0]).holder != some .dl1, .heldByOther),
     (s.locked (.tx 0), .lockedOut), ((s.tx[0]).state == .offline || (s.tx[0]).state == .tripped, .notPermitted),
     ((s.tx[0]).state == .recycle, .busy)]

theorem witness_Tune :
    Serves hand .dl1 ∧ tuneTable hand 6000 1 = none ∧ tuneTable hand 26100 16 = none ∧ tuneTable hand 2295 1 = some .badArgument ∧
      ((hand.tx[0]).state = .ready ∧ (hand.tx[0]).tuned = some 6000 ∧ (hand.tx[0]).feed = some 1 ∧ (hand.tx[0]).order = none) ∧
      hand.rfPresent 0 = false ∧ Serves live .dl1 ∧ tuneTable live 7000 1 = none ∧ live.rfPresent 0 = true := by
  unfold Serves Free; decide +kernel

/-- The table of R29 for DL1, T1 and A1. -/
def routeTable (s : State) : Option Status :=
  firstOf
    [(s.mx.reportWindow.isRunning, .busy), (!s.cfg.txOk 0 || !s.cfg.antOk 0, .notConfigured), (s.isOpen, .configOpen),
     (s.hall.state == .safe, .hallSafe), ((s.tx[0]).holder == none, .notInHand), ((s.tx[0]).holder != some .dl1, .heldByOther),
     (s.locked (.ant 0) || s.locked (.tx 0), .lockedOut), ((s.run.usersOf 0).any fun r => r.tx != 0, .inUse),
     (s.antennaConflict 0 0, .antennaConflict), (s.taskStarted 0, .busy),
     ((s.routeCommand 0 (.antenna 0) none).any fun y => (s.sw y.1).state == .moving, .busy)]

/-- T1 fed to A1. -/
def routed : State :=
  (hand.setSw (.out 0) { SwRec.powerUp .antenna with confirmed := .stands .antenna }).setSw (.sel 0)
    { SwRec.powerUp (.bus 0) with confirmed := .stands (.bus 0) }

theorem witness_Route :
    Serves hand .dl1 ∧ routeTable hand = none ∧ hand.routeInPlace 0 (.antenna 0) none = false ∧
      (∀ j : Tx, hand.rfPresent j = false) ∧ Serves live .dl1 ∧ routeTable live = none ∧
      live.routeInPlace 0 (.antenna 0) none = false ∧ live.rfPresent 0 = true ∧ Serves routed .dl1 ∧ routeTable routed = none ∧
      routed.routeInPlace 0 (.antenna 0) none = true ∧ Serves site .dl1 ∧ routeTable site = some .notInHand := by
  unfold Serves Free; decide +kernel

/-- A state with an unstarted task of T1 to A2, and AS3, which the task before it had on T1's bus, waiting to go to EARTH. -/
def replacing (s : State) : State :=
  ({ s with tasks := s.tasks.set 0 (some {
      dest := .antenna 1, origin := .desk .dl1, state := .moving, set := [⟨.sel 2, .admitted⟩, ⟨.out 0, .admitted⟩],
      affected := [0], timer := .idle, failure := none, started := false }) } : State).setSw (.sel 2)
    { SwRec.powerUp .earth with state := .pending, cls := some .manual, arrival := some 1 }

theorem witness_RouteReplaced :
    Serves (replacing hand) .dl1 ∧ routeTable (replacing hand) = none ∧ (replacing hand).taskRunning 0 = true ∧
      (replacing hand).routeInPlace 0 (.antenna 0) none = false ∧ ((replacing hand).sw (.sel 2)).state ≠ .steady ∧
      (replacing hand).mx.onPath 0 (.sel 2) = false ∧ .sel 2 ∈ (replacing hand).routeSet 0 (.antenna 0) none := by
  unfold Serves Free; decide +kernel

/-- The earthing column of R29 for a desk, T1 and A1, whose only run is T1's. -/
def earthTable (s : State) (d : Desk) : Option Status :=
  let mine := (s.tx[0]).holder == some d
  firstOf
    [(s.mx.reportWindow.isRunning, .busy), (!s.cfg.txOk 0 || !s.cfg.antOk 0, .notConfigured), (s.isOpen, .configOpen),
     (s.hall.state == .safe, .hallSafe), ((s.tx[0]).holder != none && !mine, .heldByOther),
     (allTx.any fun j => [s.run.cur[j], s.run.nxt[j]].any fun x =>
        x.any fun x => [.preparing, .ready, .onAir].contains x.state && x.inUse == some 0, .inUse),
     (((s.permit[0]).output != .off || s.taskRunning 0 ||
        (s.run.cur[0]).any fun x => [.preparing, .ready, .onAir].contains x.state) && !mine, .antennaConflict),
     (s.taskStarted 0, .busy),
     (allSw.any fun w => (match w with
        | .sel j => (s.sw (.sel j)).commanded == .bus 0
        | .out j => j == 0 && (s.sw (.out 0)).commanded != .dummy) && (s.sw w).state == .moving, .busy)]

/-- The table of a loose earthing of A6, which no run uses. -/
def looseTable (s : State) : Option Status :=
  firstOf
    [(s.mx.reportWindow.isRunning, .busy), (!s.cfg.antOk 5, .notConfigured), (s.isOpen, .configOpen), (s.hall.state == .safe, .hallSafe),
     (allTx.any fun j => [s.run.cur[j], s.run.nxt[j]].any fun x =>
        x.any fun x => [.preparing, .ready, .onAir].contains x.state && x.inUse == some 5, .inUse),
     ((s.sw (.sel 5)).state == .moving, .busy)]

/-- The site with A6's selector commanded to EARTH. -/
def looseAt (x : SwState) (p : Confirmed) : State := site.setSw (.sel 5) { SwRec.powerUp .earth with state := x, confirmed := p }

theorem witness_Unroute :
    Serves routed .dl1 ∧ (routed.sw (.sel 0)).commanded = .bus 0 ∧ earthTable routed .dl1 = none ∧
      routed.routeInPlace 0 .nothing (some 0) = false ∧ (∀ j : Tx, routed.rfPresent j = false) ∧ Serves routed .dl2 ∧
      earthTable routed .dl2 = some .heldByOther ∧
      Serves { routed with hall := live.hall } .dl1 ∧ earthTable { routed with hall := live.hall } .dl1 = none ∧
      ({ routed with hall := live.hall } : State).routeInPlace 0 .nothing (some 0) = false ∧
      ({ routed with hall := live.hall } : State).rfPresent 0 = true ∧
      (let s := hand.setSw (.sel 0) { SwRec.powerUp .earth with state := .fault, confirmed := .stands (.bus 0) }
       (s.sw (.sel 0)).commanded = .earth ∧ (s.sw (.sel 0)).confirmed = .stands (.bus 0) ∧ earthTable s .dl1 = none) ∧
      (∀ x ∈ [SwState.steady, .fault, .pending, .stopped], ∀ p ∈ [Confirmed.stands .earth, .between],
        Serves (looseAt x p) .dl1 ∧ ((looseAt x p).sw (.sel 5)).commanded = .earth ∧ (looseAt x p).mx.reports = [] ∧
          (∀ n : Tx, ((looseAt x p).sw (.sel 5)).confirmed ≠ .stands (.bus n)) ∧ looseTable (looseAt x p) = none) ∧
      looseTable (looseAt .moving .between) = some .busy ∧ Serves (looseAt .moving .between) .dl1 ∧
      ¬(1 ≤ (25 : Byte).toNat ∧ (25 : Byte).toNat ≤ 24) := by unfold Serves Free; decide +kernel

theorem witness_UnrouteReplaced :
    Serves (replacing routed) .dl1 ∧ ((replacing routed).sw (.sel 0)).commanded = .bus 0 ∧
      earthTable (replacing routed) .dl1 = none ∧ (replacing routed).routeInPlace 0 .nothing (some 0) = false ∧
      (replacing routed).taskRunning 0 = true ∧ ((replacing routed).sw (.sel 2)).state ≠ .steady := by
  unfold Serves Free; decide +kernel

/-- The table of R74 for DL1, A5 and rotator 1. -/
def slewTable (s : State) (az : Nat) : Option Status :=
  firstOf
    [(s.isOpen, .configOpen), (s.hall.state == .safe, .hallSafe), (s.locked (.ant 4), .lockedOut),
     (!(s.run.usersOf 4).isEmpty, .inUse),
     (allTx.any fun n => s.mx.onPath n (.sel 4) && (s.tx[n]).holder != none && (s.tx[n]).holder != some .dl1, .heldByOther),
     ((s.cfg.active.rot[0]).keepOut az, .keepOut), ((s.rot[0]).validity == .invalid, .positionInvalid)]

/-- The hall closed again and not acknowledged. -/
def restoring : Hall := { site.hall with state := .restoredWait }

/-- Rotator 1 driving to 2000 for a run. -/
def driving (x : SlewState) (dwell power stall slew : Timer) : State :=
  site.modSlew 0 fun r =>
    { r with target := some 2000, state := x, dir := some .ccw, speed := some .fast, cap := some .low, origin := some (.schedule 1),
             startTime := some 99000, slewTimer := slew, dwell := dwell, powerWait := power, stallWindow := stall }

/-- Rotator 1 at azimuth 1000 with its record in a state, driving counterclockwise to 2000. -/
def drivingIn (x : SlewState) : State := driving x (.running 100500) .idle .idle (.running 399000)

/-- The travel error of rotator 1 at azimuth 1000 from a target. -/
def errorTo (az : Nat) : Int := ((site.cfg.active.rot[0]).travel az : Int) - (site.cfg.active.rot[0]).travel 1000

/-- The site with RF on T1, whose bus A5 stands at, driving under a cap of LOW beside a keep-out sector from 500 to 600. -/
def cappedSite : State :=
  let s := drivingIn .drive
  let p := { s.cfg.active.rot[0] with sectors := (s.cfg.active.rot[0]).sectors.set 0 ⟨500, 600⟩ }
  { s.setSw (.sel 4) { SwRec.powerUp (.bus 0) with confirmed := .stands (.bus 0) } with
    hall := live.hall, cfg := { s.cfg with active := { s.cfg.active with rot := s.cfg.active.rot.set 0 p } } }

theorem witness_SlewAndStop :
    Serves site .dl1 ∧ site.cfg.antRot 0 = none ∧ site.cfg.antRot 4 = some 0 ∧ slewTable site 3599 = none ∧
      Serves openSite .dl1 ∧ openSite.cfg.antRot 4 = some 0 ∧ slewTable openSite 0 = some .configOpen ∧
      (∀ x ∈ [SlewState.idle, .fault, .inPosition, .awaitPower, .reverseDwell, .drive, .settle],
        Serves (drivingIn x) .dl1 ∧ ((drivingIn x).slew[0]).state = x ∧ ((drivingIn x).rot[0]).azimuth = some 1000 ∧
          ∀ az ∈ [1000, 0, 1500], slewTable (drivingIn x) az = none) ∧
      (errorTo 1000).natAbs ≤ (site.cfg.active.rot[0]).stopTol ∧ (site.cfg.active.rot[0]).stopTol < (errorTo 0).natAbs ∧
      errorTo 0 < 0 ∧ 0 < errorTo 1500 ∧ ((drivingIn .drive).slew[0]).dir = some .ccw ∧ site.hall.state = .normal ∧
      site.cfg.configured = true ∧ (site.cfg.active.rot[0]).pathCrosses 1000 0 = false ∧
      (let s : State := { drivingIn .idle with hall := restoring }
       Serves s .dl1 ∧ slewTable s 0 = none ∧ slewTable s 1000 = none ∧ s.hall.state ≠ .normal) ∧
      Serves cappedSite .dl1 ∧ slewTable cappedSite 0 = none ∧ (cappedSite.cfg.active.rot[0]).pathCrosses 1000 0 = true ∧
      (cappedSite.slew[0]).cap = some .low ∧ (cappedSite.slew[0]).state = .drive ∧
      ((cappedSite.taken .dl1 0 0x26).slewRequest .dl1 4 0).2.powerOk 0 = false ∧
      ((drivingIn .drive).slew[0]).origin = some (.schedule 1) ∧ ¬(1 ≤ (0 : Byte).toNat ∧ (0 : Byte).toNat ≤ 24) := by
  unfold Serves Free; decide +kernel

/-- The table of R65 for rotator 1. -/
def calibrateTable (s : State) (b : Nat) : Option Status :=
  firstOf
    [(decide (3600 ≤ b), .badArgument), (!s.cfg.rotOk 0, .notConfigured), (s.isOpen, .configOpen),
     ((s.rot[0]).validity != .valid, .positionInvalid), ((s.slew[0]).state != .idle && (s.slew[0]).state != .inPosition, .busy)]

theorem witness_Calibrate :
    Serves site .dl1 ∧ calibrateTable site 3599 = none ∧ calibrateTable site 3600 = some .badArgument ∧
      (site.rot[0]).sensor = some 1000 ∧ ¬(1 ≤ (5 : Byte).toNat ∧ (5 : Byte).toNat ≤ 4) := by unfold Serves Free; decide +kernel

/-- The table of R167 for DL1 and A2. -/
def placeTable (s : State) (reason : Nat) : Option Status :=
  firstOf
    [(reason == 0, .badArgument), (!s.cfg.targetOk (.ant 1), .notConfigured),
     (!(s.locks.records.any fun r => r.target == .ant 1 && r.desk == .dl1) && decide (32 ≤ s.locks.records.length), .tableFull)]

theorem witness_PlaceLockout :
    Serves site .dl1 ∧ placeTable site 255 = none ∧ (site.locks.records.any fun r => r.target == .ant 1 && r.desk == .dl1) = false ∧
      Serves lockSite .dl1 ∧ placeTable lockSite 1 = none ∧
      (lockSite.locks.records.any fun r => r.target == .ant 1 && r.desk == .dl1) = true ∧
      placeTable site 0 = some .badArgument := by unfold Serves Free; decide +kernel

theorem witness_ReleaseLockout :
    Serves lockSite .dl1 ∧ lockSite.cfg.configured = true ∧
      (lockSite.locks.records.any fun r => r.target == .ant 1 && r.desk == .dl1) = true ∧
      (lockSite.locks.records.any fun r => r.target == .ant 1 && r.desk == .dl3) = false ∧ Serves lockSite .dl2 ∧
      ((Desk.dl2 != .dl3) && (Desk.dl1 != .dl2)) = true ∧ Serves lockSite .dl3 ∧ Serves bare .dl1 ∧
      bare.cfg.configured = false := by unfold Serves Free; decide +kernel

/-- The hall with the access back and the closed timer as given. -/
def restored (t : Timer) : State := { site with hall := { site.hall with state := .restoredWait, closed := t } }

theorem witness_AckHallSafe :
    Serves bare .dl1 ∧ bare.cfg.configured = false ∧ site.cfg.configured = true ∧
      Serves { site with hall := { site.hall with state := .safe } } .dl1 ∧ Serves (restored (.running 160000)) .dl1 ∧
      (restored (.running 160000)).hall.closed.isRunning = true ∧ Serves (restored .idle) .dl1 ∧
      (restored .idle).hall.closed.isRunning = false ∧ Serves (restored (.running 160000)) .dl3 ∧ Serves site .dl1 ∧
      site.hall.state = .normal ∧ Serves { openSite with hall := (restored .idle).hall } .dl1 ∧ openSite.isOpen = true := by
  unfold Serves Free; decide +kernel

/-- The checks of R118 for table A. -/
def writeTable (s : State) (e : Entry) : Option Status :=
  let es := s.season.table .a
  firstOf
    [(!s.cfg.txOk e.tx || !s.cfg.antOk e.primary || e.alt.any (fun m => !s.cfg.antOk m), .notConfigured),
     (!e.bandIn s.cfg e.primary || e.alt.any (fun m => !e.bandIn s.cfg m), .bandMismatch),
     (e.az.isSome && (s.cfg.antRot e.primary).isNone, .badArgument),
     (e.az.any (fun z => azKeptOut s.cfg e.primary z || e.alt.any fun m => azKeptOut s.cfg m z), .keepOut),
     (es.any (fun y => y.id != e.id && y.tx == e.tx && y.overlaps e), .overlap),
     (es.any (fun y => y.id != e.id && y.tx != e.tx && y.primary == e.primary && y.overlaps e), .antennaConflict),
     (es.all (fun y => y.id != e.id) && decide (320 ≤ es.length), .tableFull),
     ((entryOf es e.id).any fun y => (s.run.cur[y.tx]).any fun r =>
        [.preparing, .ready, .onAir].contains r.state && r.table == .a && r.entry == y.id, .inUse)]

/-- The record of an entry as WRITE_ENTRIES carries it. -/
def record (e : Entry) : List Byte := (entryBytes e).take 16

/-- Two records are judged one after the other: the second overlaps the first, which the table holds by then. -/
theorem witness_WriteEntries :
    (∀ (a n : Byte) (rest : List Byte), ([1] : List Byte) ≠ a :: n :: rest) ∧
    Serves site .dl1 ∧ site.cfg.configured = true ∧ site.isOpen = false ∧
      (∀ b ∈ [record entry7, record { entry7 with id := 8 }], b.length = 16) ∧
      entryOfRecord (List.replicate 16 0) = none ∧ entryOfRecord (record entry7) = some entry7 ∧
      entryOfRecord (record { entry7 with id := 8 }) = some { entry7 with id := 8 } ∧ writeTable site entry7 = none ∧
      writeTable site { entry7 with id := 8 } = none ∧ writeTable seasonSite { entry7 with id := 8 } = some .overlap ∧
      writeTable site { entry7 with tx := 4 } = some .notConfigured ∧ writeTable runSite entry7 = some .inUse ∧
      ((site.taken .dl1 1 0x40).writeList .a [record entry7, record { entry7 with id := 8 }]).1 = [.done, .overlap] ∧
      Serves openSite .dl1 ∧ openSite.isOpen = true ∧ openSite.cfg.configured = true ∧ Serves bare .dl1 ∧
      ¬(1 ≤ (1 : Byte).toNat ∧ (1 : Byte).toNat ≤ 2 ∧ 1 ≤ (9 : Byte).toNat ∧ (9 : Byte).toNat ≤ 8 ∧ 0 = 16 * (9 : Byte).toNat) :=
  ⟨nofun, by unfold Serves Free; decide +kernel⟩

/-- The entry of table A is in use (R121). -/
def entryInUse (s : State) (e : Entry) : Bool := (s.run.cur[e.tx]).any fun r =>
  [.preparing, .ready, .onAir].contains r.state && r.table == .a && r.entry == e.id

theorem witness_DeleteAndClear :
    Serves seasonSite .dl1 ∧ entryOf (seasonSite.season.table .a) 7 = some entry7 ∧ entryInUse seasonSite entry7 = false ∧
      entryOf (seasonSite.season.table .a) 9999 = none ∧ seasonSite.season.table .a ≠ [] ∧ seasonSite.season.table .b = [] ∧
      (seasonSite.season.table .a).any (entryInUse seasonSite) = false ∧ Serves runSite .dl1 ∧
      entryOf (runSite.season.table .a) 7 = some entry7 ∧ entryInUse runSite entry7 = true ∧
      (runSite.season.table .a).any (entryInUse runSite) = true ∧
      Serves bare .dl1 ∧ bare.cfg.configured = false ∧ ¬(1 ≤ (3 : Byte).toNat ∧ (3 : Byte).toNat ≤ 2) := by
  unfold Serves Free; decide +kernel

/-- The table of R125. -/
def changeoverTable (s : State) (day minute : Nat) : Option Status :=
  firstOf
    [(!(decide (day ≤ 36524 ∧ minute ≤ 1439)), .badArgument), (!s.cfg.configured, .notConfigured),
     (s.clock.state == .unset || s.clock.now == none, .notPermitted),
     ((match s.clock.now with
        | some t => decide (day * 1440 + minute ≤ t.day * 1440 + t.minute)
        | none => false), .badArgument)]

/-- The site with a changeover record for minute 144631, the standby table armed or not. -/
def changing (armed settling : Bool) : State :=
  { site with season := { site.season with armed := armed, changeover := some ⟨100, 631⟩ },
              cfg := if settling then settlingSite.cfg else site.cfg }

theorem witness_ChangeoverAndArming :
    Serves site .dl1 ∧ changeoverTable site 36524 1439 = none ∧ changeoverTable site 100 600 = some .badArgument ∧
      changeoverTable site 100 601 = none ∧ changeoverTable site 36525 0 = some .badArgument ∧ site.season.active = .a ∧
      TableId.b ≠ site.season.active ∧ site.season.armed = false ∧ Serves bare .dl1 ∧ bare.cfg.configured = false ∧
      Serves { site with season := { site.season with armed := true } } .dl1 ∧ ¬(1 ≤ (0 : Byte).toNat ∧ (0 : Byte).toNat ≤ 2) ∧
      site.season.changeover = none ∧ (∀ a st : Bool, (changing a st).season.changeover = some ⟨100, 631⟩ ∧
        (changing a st).season.armed = a ∧ (changing a st).isSettling = st) ∧ 144630 < 100 * 1440 + 631 ∧
      100 * 1440 + 631 ≤ 144631 := by
  unfold Serves Free; decide +kernel

theorem witness_SetSubscription :
    Serves link107 .dl1 ∧ Quiet link107 ∧ (4095 : Nat) < 4096 ∧ link107.cfg.configured = true ∧
      (link107.link .dl1).attn &&& BitVec.ofNat 12 4095 ≠ 0 ∧ Serves bare .dl1 ∧ bare.cfg.configured = false := by
  refine ⟨⟨rfl, rfl⟩, fun d => by cases d <;> rfl, by decide, rfl, by decide +kernel, ⟨rfl, rfl⟩, rfl⟩

/-- The site with its clock as given. -/
def clocked (x : ClockState) (t : Option Civil) : State := { site with clock := { site.clock with state := x, now := t } }

/-- The table of R163. -/
def setClockTable (s : State) (day minute second : Nat) : Option Status :=
  firstOf
    [(!(decide (day ≤ 36524 ∧ minute ≤ 1439 ∧ second ≤ 59)), .badArgument), (!s.cfg.configured, .notConfigured),
     (s.clock.state == .running, .busy)]

theorem witness_SetClock :
    Serves site .dl1 ∧ setClockTable site 0 0 0 = some .busy ∧ setClockTable site 36524 1439 60 = some .badArgument ∧
      Serves (clocked .unset none) .dl1 ∧ setClockTable (clocked .unset none) 36524 1439 59 = none ∧
      (let s := clocked .holdover (some ⟨100, 600, 59⟩)
       Serves s .dl1 ∧ s.clock.state = .holdover ∧ s.clock.now = some ⟨100, 600, 59⟩ ∧ s.clock.owed = false ∧
         ({ s with clock := { s.clock with owed := true } } : State).clock.owed = true ∧
         setClockTable s 100 600 58 = none ∧ setClockTable s 100 600 59 = none ∧ setClockTable s 100 601 0 = none ∧
         setClockTable s 100 605 59 = none ∧ setClockTable s 100 606 0 = none ∧ setClockTable s 99 0 0 = none) := by
  unfold Serves Free; decide +kernel

/-- Something radiates or moves. -/
def atWork (s : State) : Bool :=
  allTx.any (fun n => (s.permit[n]).output != .off) || allSw.any (fun w => (s.sw w).state == .moving) ||
    allRot.any fun k => (s.slew[k]).state.slewing

theorem witness_OpenAndAbandon :
    Serves openSite .dl2 ∧ openSite.cfg.openDesk = some .dl2 ∧ Serves openSite .dl1 ∧ Serves hotSite .dl1 ∧
      hotSite.cfg.openDesk = none ∧ atWork hotSite = true ∧ Serves site .dl1 ∧ site.cfg.openDesk = none ∧ atWork site = false := by
  unfold Serves Free; decide +kernel

/-- Two items are taken one after the other: the second would make the bearings of the sector that the first began equal. -/
theorem witness_Configure :
    Serves site .dl1 ∧ site.cfg.openDesk = none ∧ Serves openSite .dl1 ∧ Serves openSite .dl2 ∧
      openSite.cfg.openDesk = some .dl2 ∧ openSite.cfg.workspace = some testConfig ∧
      (∀ y ∈ [(0x0102, 5), (0x0102, 4)], y.1 < 65536 ∧ y.2 < 65536) ∧
      CfgItem.ofId 0x0102 = some .grantLimit ∧ (CfgItem.grantLimit).inRange 4 = true ∧ (CfgItem.grantLimit).inRange 5 = false ∧
      CfgItem.ofId 0 = none ∧
      replyTo .dl2 (.configure .dl2 1 ([2] ++ wordArg (CfgItem.sectorFrom 0 0).id ++ wordArg 100 ++
        wordArg (CfgItem.sectorTo 0 0).id ++ wordArg 100)) openSite = some (.done, [2, 0, 5]) ∧
      ¬(1 ≤ (60 : Byte).toNat ∧ (60 : Byte).toNat ≤ 59 ∧ 0 = 4 * (60 : Byte).toNat) := by
  unfold Serves Free; decide +kernel

theorem witness_CloseConfig :
    Serves site .dl1 ∧ site.cfg.openDesk = none ∧ Serves openSite .dl1 ∧ Serves openSite .dl2 ∧
      openSite.cfg.openDesk = some .dl2 ∧ openSite.cfg.workspace = some testConfig ∧ closeCheck testConfig = none ∧
      (closeCheck { testConfig with rotatorOf := testConfig.rotatorOf.set 0 1 }).isSome = true := by
  unfold Serves Free; decide +kernel

theorem witness_SaveRestartUnknown :
    Serves bare .dl1 ∧ bare.cfg.configured = false ∧ Serves savingSite .dl1 ∧ savingSite.cfg.configured = true ∧
      savingSite.cfg.saving = some [0x4C, 0x56] ∧ Serves site .dl1 ∧ site.cfg.configured = true ∧ site.cfg.saving = none := by
  unfold Serves Free; decide +kernel

/-- The start of an image of one item: 4 transmitters (R200). -/
def shortImage : List Byte := [0x4C, 0x56, 0, 4, 1, 0, 0, 4]

theorem witness_PowerUp :
    loadImage (memWriteAll [] 0 (shortImage ++ bytes2 (crc16 shortImage))) = some { Configuration.default with txCount := 4 } ∧
      loadImage [] = none := by decide +kernel

theorem witness_RestartAndSettling :
    settlingSite.isSettling = true ∧ settlingSite.settlingTimer = .running 101000 ∧ hotSite.isSettling = false ∧
      hotSite.settlingTimer = .idle ∧ hotSite.cfg.txOk 0 = true ∧ (hotSite.sw (.out 0)).state = .moving := by decide +kernel

theorem witness_SaveComplete :
    site.cfg.saving = none ∧ savingSite.cfg.saving = some [0x4C, 0x56] ∧ (∃ f ∈ [(8192, (0 : Byte))], 8192 ≤ f.1) ∧
      ∀ f ∈ [(8191, (0 : Byte))], f.1 < 8192 := by decide +kernel

/-- The site with one switch as given. -/
def withSw (w : Sw) (r : SwRec) : State := site.setSw w r

/-- A switch record in each state of R1. -/
def swIn (x : SwState) (goal : Pos) (at_ : Confirmed) (f : Option SwFault) : SwRec :=
  { commanded := goal, confirmed := at_, state := x, cls := some .manual, arrival := some 1, grantTime := none,
    travelDue := some 112000, fault := f }

theorem witness_PositionReports :
    site.cfg.swOk (.sel 6) = false ∧ readingFits (.sel 0) (.stands .dummy) = false ∧ site.cfg.swOk (.sel 0) = true ∧
      readingFits (.sel 0) (.stands (.bus 7)) = true ∧ readingFits (.out 0) .between = true ∧ site.isSettling = false ∧
      ((withSw (.sel 0) (swIn .moving (.bus 0) .between none)).sw (.sel 0)).state = .moving ∧
      Confirmed.ofReading (.stands (.bus 0)) = .stands ((withSw (.sel 0) (swIn .moving (.bus 0) .between none)).sw (.sel 0)).commanded ∧
      Confirmed.ofReading .between = .between ∧ (Confirmed.ofReading (.stands .earth) ≠ .stands (.bus 0) ∧
        Confirmed.ofReading (.stands .earth) ≠ .between) ∧
      (site.sw (.sel 0)).state = .steady ∧ Confirmed.ofReading (.stands .earth) = (site.sw (.sel 0)).confirmed ∧
      Confirmed.ofReading .between ≠ (site.sw (.sel 0)).confirmed ∧ (site.sw (.sel 0)).confirmed ≠ .unknown ∧
      site.mx.reportWindow.isRunning = false ∧
      ((withSw (.sel 0) (swIn .steady .earth .unknown none)).sw (.sel 0)).confirmed = .unknown ∧
      ((withSw (.sel 0) (swIn .pending (.bus 0) (.stands .earth) none)).sw (.sel 0)).confirmed = .stands .earth ∧
      Confirmed.ofReading (.stands (.bus 1)) ≠ .stands (.bus 0) ∧
      ((withSw (.sel 0) (swIn .pending (.bus 0) .unknown none)).sw (.sel 0)).confirmed = .unknown ∧
      ((withSw (.sel 0) (swIn .stopped (.bus 0) .unknown none)).sw (.sel 0)).state = .stopped ∧
      ((withSw (.sel 0) (swIn .fault .earth .between (some .conflict))).sw (.sel 0)).fault = some .conflict ∧
      ((withSw (.sel 0) (swIn .fault (.bus 0) .between (some .wrongPosition))).sw (.sel 0)).state = .fault ∧
      Confirmed.ofReading .between = ((withSw (.sel 0) (swIn .fault (.bus 0) .between (some .wrongPosition))).sw (.sel 0)).confirmed := by decide +kernel

/-- The report window about to end, with A1's selector found at bus 1, A2's also there where `twice` says so, and A7's, which is
unequipped, not found. -/
def windowSite (twice : Bool) : State :=
  let s := (withSw (.sel 0) { SwRec.powerUp .earth with confirmed := .stands (.bus 0) }).setSw (.sel 6) (SwRec.powerUp .earth)
  let s := if twice then s.setSw (.sel 1) { SwRec.powerUp .earth with confirmed := .stands (.bus 0) } else s
  { s with mx := { s.mx with reportWindow := .running 101000, permitted := false } }

/-- Two selectors STOPPED, two PENDING and one MOVING, with drives held permitted or not. -/
def matrixAt (hall : HallState) (permitted : Bool) : State :=
  let waits (c : MoveClass) (n : Nat) : SwRec :=
    { SwRec.powerUp (.bus 1) with confirmed := .stands .earth, state := .pending, cls := some c, arrival := some n }
  let halted : SwRec := { SwRec.powerUp (.bus 2) with state := .stopped, cls := some .manual }
  let s := ((((site.setSw (.sel 0) (waits .manual 1)).setSw (.sel 1) (waits .schedule 3)).setSw (.sel 2) halted).setSw (.sel 3)
    halted).setSw (.out 0) (swIn .moving .antenna .between none)
  { s with hall := { s.hall with state := hall }, mx := { s.mx with permitted := permitted, nextArrival := 4 } }

theorem witness_SwitchTimers :
    ((withSw (.sel 0) (swIn .moving (.bus 0) .between none)).sw (.sel 0)).travelDue = some 112000 ∧
      ((withSw (.sel 0) (swIn .moving (.bus 0) .between none)).sw (.sel 0)).state = .moving ∧
      (site.sw (.sel 0)).state ≠ .moving ∧ (windowSite true).mx.reportWindow = .running 101000 ∧
      (windowSite true).mx.permitted = false ∧ (windowSite true).cfg.swOk (.sel 0) = true ∧
      ((windowSite true).sw (.sel 0)).confirmed = .stands (.bus 0) ∧ ((windowSite true).sw (.sel 1)).confirmed = .stands (.bus 0) ∧
      (1 : Ant) ≠ 0 ∧ (∀ j : Ant, j ≠ 0 → ((windowSite false).sw (.sel j)).confirmed ≠ .stands (.bus 0)) ∧
      ((windowSite false).sw (.sel 0)).confirmed = .stands (.bus 0) ∧
      ((withSw (.sel 0) (swIn .steady .earth .between none)).sw (.sel 0)).confirmed = .between ∧
      ({ site with mx := { site.mx with supplyHold := .running 102000, permitted := false } } : State).mx.supplyHold = .running 102000 ∧
      site.hall.state = .normal ∧ site.isOpen = false ∧ site.cfg.configured = true ∧ site.isSettling = false ∧
      site.mx.reportWindow = .idle ∧ site.mx.supplyHold = .idle ∧ site.drivesPermitted = site.mx.permitted ∧
      (matrixAt .restoredWait true).drivesPermitted = false ∧ (matrixAt .restoredWait true).mx.permitted = true ∧
      (matrixAt .normal false).drivesPermitted = true ∧ (matrixAt .normal false).mx.permitted = false ∧
      ((matrixAt .normal false).sw (.sel 2)).state = .stopped ∧ Sw.sel 2 ∉ (matrixAt .normal false).mx.safety ∧
      (matrixAt .normal true).drivesPermitted = true ∧ (matrixAt .normal true).mx.permitted = true ∧
      ((matrixAt .normal true).grants.sw (.sel 1)).state = .moving ∧ ((matrixAt .normal true).grants.sw (.sel 0)).state = .pending ∧
      MoveClass.schedule.rank < MoveClass.manual.rank ∧ (windowSite true).cfg.configured = true ∧ (windowSite true).cfg.swOk (.sel 6) = false ∧
      ((windowSite true).sw (.sel 6)).confirmed = .unknown ∧
      (let bareWindow : State := { bare with mx := { bare.mx with reportWindow := .running 101000 } }
       bareWindow.mx.reportWindow = .running 101000 ∧ bareWindow.cfg.configured = false) := by decide +kernel

/-- R23, R24: an unequipped switch joins the safety list, and at the first permission its admission is refused. -/
theorem test_window_unequipped :
    Sw.sel 6 ∈ (windowSite true).windowEnd.mx.safety ∧ (((windowSite true).windowEnd.admitSafety).sw (.sel 6)).state = .steady := by
  decide +kernel

/-- T1 with a task to A1 in a state, its RF as given. -/
def tasked (x : TaskState) : State :=
  { live with tasks := live.tasks.set 0 (some
      { dest := .antenna 0, origin := .desk .dl1, state := x, set := [⟨.out 0, .waiting⟩, ⟨.sel 0, .waiting⟩], affected := [0],
        timer := .running 103000, failure := none, started := false }) }

theorem witness_TaskTimers :
    ((tasked .dropRf).tasks[0]).isSome = true ∧ ((tasked .dropRf).tasks[0]).map (·.timer) = some (.running 103000) ∧
      ((tasked .dropRf).tasks[0]).map (·.state) = some .dropRf ∧ ((tasked .tripWait).tasks[0]).map (·.state) = some .tripWait ∧
      (tasked .dropRf).rfPresent 0 = true ∧ (tasked .dropRf).rfPresent 1 = false := by decide +kernel

/-- Rotator 1 with a validity and a bad count. -/
def rotated (v : Validity) (bad : Nat) (t : Timer) : State :=
  site.modRot 0 fun r => { r with validity := v, badCount := bad, frameTimer := t }

/-- Rotator 1 with its slew record in a state and a target, driving counterclockwise, as a frame comes. -/
def aimed (x : SlewState) (target count : Nat) (furthest : Option Nat) : State :=
  (rotated .suspect 2 (.running 100090)).modSlew 0 fun r =>
    { r with target := some target, state := x, dir := some .ccw, speed := some .fast, cap := some .low, origin := some (.desk .dl1),
             startTime := some 99000, slewTimer := .running 399000, settleCount := count, furthest := furthest }

/-- The travel error of a target from azimuth 0, where the frame of phases 0 stands. -/
def errorFrom0 (az : Nat) : Int := ((site.cfg.active.rot[0]).travel az : Int) - (site.cfg.active.rot[0]).travel 0

theorem witness_SensorFrames :
    site.cfg.rotOk 2 = false ∧ site.cfg.rotOk 0 = true ∧ site.isSettling = false ∧
      ((site.cfg.active.rot[0]).residual 0 0).natAbs ≤ (site.cfg.active.rot[0]).tol ∧
      (site.cfg.active.rot[0]).tol < ((site.cfg.active.rot[0]).residual 50 0).natAbs ∧
      ((rotated .valid 0 .idle).rot[0]).badCount = 0 ∧ ((rotated .suspect 1 .idle).rot[0]).badCount = 1 ∧
      ((rotated .suspect 2 .idle).rot[0]).badCount = 2 ∧ ((rotated .invalid 3 .idle).rot[0]).validity = .invalid ∧
      ((rotated .suspect 2 (.running 100090)).rot[0]).frameTimer = .running 100090 ∧
      ((rotated .invalid 3 .idle).rot[0]).frameTimer = .idle ∧
      (∀ x ∈ [SlewState.drive, .settle, .reverseDwell, .inPosition, .idle, .awaitPower, .fault], ∀ target ∈ [2000, 0, 900, 10],
        ((aimed x target 0 none).acceptFrame 0 ⟨true, 0, 0, true⟩).rot[0].azimuth = some 0 ∧
          ((aimed x target 0 none).slew[0]).target = some target ∧ ((aimed x target 0 none).slew[0]).dir = some .ccw ∧
          (aimed x target 0 none).isSettling = false ∧ (aimed x target 0 none).hall.state = .normal ∧
          (aimed x target 0 none).isOpen = false ∧
          ((aimed x target 0 none).acceptFrame 0 ⟨true, 50, 0, true⟩).rot[0].validity = .invalid) ∧
      ((aimed .settle 0 2 none).slew[0]).settleCount = 2 ∧ ((aimed .drive 2000 0 (some 1700)).slew[0]).furthest = some 1700 ∧
      1700 + 10 ≤ (site.cfg.active.rot[0]).travel 0 ∧ errorFrom0 0 = 0 ∧ 15 < (errorFrom0 2000).natAbs ∧ errorFrom0 2000 < 0 ∧
      0 < errorFrom0 900 ∧ 5 < (errorFrom0 10).natAbs ∧ (errorFrom0 10).natAbs ≤ 15 ∧
      (site.cfg.active.rot[0]).stopTol = 5 ∧ (site.cfg.active.rot[0]).hold = 15 ∧
      ({ aimed .idle 2000 0 none with hall := restoring } : State).hall.state ≠ .normal ∧
      SlewState.idle.slewing = false ∧ SlewState.settle.slewing = true := by decide +kernel

theorem witness_SlewTimers :
    ((driving .reverseDwell (.running 101500) .idle .idle .idle).slew[0]).dwell = .running 101500 ∧
      ((driving .reverseDwell (.running 101500) .idle .idle .idle).slew[0]).state = .reverseDwell ∧
      (driving .reverseDwell (.running 101500) .idle .idle .idle).powerOk 0 = true ∧
      (driving .reverseDwell (.running 101500) .idle .idle .idle).slewError 0 = some (-2600) ∧
      (site.cfg.active.rot[0]).stopTol < (-2600 : Int).natAbs ∧
      ({ (driving .reverseDwell (.running 101500) .idle .idle .idle).setSw (.sel 4)
          { SwRec.powerUp (.bus 0) with confirmed := .stands (.bus 0) } with hall := live.hall } : State).powerOk 0 = true ∧
      ({ (State.modTx (driving .reverseDwell (.running 101500) .idle .idle .idle) 0 fun r => { r with rfLevel := some .full }).setSw
          (.sel 4) { SwRec.powerUp (.bus 0) with confirmed := .stands (.bus 0) } with hall := live.hall } : State).powerOk 0 = false ∧
      ((driving .awaitPower .idle (.running 105000) .idle (.running 399000)).slew[0]).powerWait = .running 105000 ∧
      ((driving .drive .idle .idle (.running 101000) (.running 399000)).slew[0]).stallWindow = .running 101000 ∧
      SlewState.drive.slewing = true ∧
      ((driving .drive .idle .idle (.running 101000) (.running 399000)).slew[0]).slewTimer = .running 399000 ∧
      (site.slew[0]).state ≠ .reverseDwell ∧ (site.slew[0]).state ≠ .awaitPower ∧ (site.slew[0]).state ≠ .drive ∧ (site.slew[0]).state.slewing = false := by decide +kernel

/-- T1's record as given. -/
def txAs (f : TxRec → TxRec) : State := site.modTx 0 f

theorem witness_StatusReports :
    site.cfg.txOk 4 = false ∧ site.cfg.txOk 0 = true ∧ site.isSettling = false ∧ (site.tx[0]).order = none ∧
      (site.tx[0]).state = .ready ∧ freqOk 26100 = true ∧ (site.tx[0]).reporting = true ∧ (site.tx[0]).lastCond ≠ some .tripped ∧
      ((txAs fun r => { r with reporting := false }).tx[0]).reporting = false ∧
      (let young (h : List Nat) := (h.filter fun t => decide (100000 < t + 1000 * site.cfg.active.recycleWindow)) ++ [100000]
       let kept (h : List Nat) := (young h).drop ((young h).length - site.cfg.active.tripLimit)
       site.cfg.active.tripLimit ≤ (kept [1000, 98500, 99000, 99500]).length ∧ kept [1000, 98500, 99000, 99500] = [99000, 99500, 100000] ∧
         (kept []).length < site.cfg.active.tripLimit) := by decide +kernel

theorem witness_SupervisorTimers :
    (site.tx[0]).silence = .running 103000 ∧ (TxRec.powerUp.silence = .idle) ∧
      ((ordered (.tune 6000 1 (.desk .dl1) false (.running 190000))).tx[0]).order =
        some (.tune 6000 1 (.desk .dl1) false (.running 190000)) ∧
      ((ordered (.tune 6000 1 (.desk .dl1) true (.running 190000))).tx[0]).order =
        some (.tune 6000 1 (.desk .dl1) true (.running 190000)) ∧
      ((txAs fun r => { r with state := .tuning, lastCond := some .standby,
                               order := some (.tune 6000 1 (.desk .dl1) true (.running 190000)) }).tx[0]).lastCond = some .standby ∧
      ((ordered (.tune 6000 1 (.desk .dl1) false (.running 190000))).tx[0]).lastCond = some .ready ∧
      ((txAs fun r => { r with lastCond := none, order := some (.tune 6000 1 (.desk .dl1) true (.running 190000)) }).tx[0]).lastCond = none ∧
      ((txAs fun r => { r with lastCond := some .tuning, order := some (.tune 6000 1 (.desk .dl1) true (.running 190000)) }).tx[0]).lastCond =
        some .tuning ∧
      ((ordered (.feed 2 (.desk .dl1) (.running 110000))).tx[0]).order = some (.feed 2 (.desk .dl1) (.running 110000)) ∧
      ((stopped .recycle (.running 105000)).tx[0]).recycleTimer = .running 105000 ∧
      ((stopped .recycle (.running 105000)).tx[0]).lastCond = some .ready ∧
      ((txAs fun r => { r with state := .recycle, recycleTimer := .running 105000, lastCond := some .tripped }).tx[0]).state = .recycle ∧
      ((stopped .offline (.running 105000)).tx[0]).state ≠ .recycle ∧ (site.tx[0]).recycleTimer = .idle ∧
      ((txAs fun r => { r with rfWatch := .running 115000 }).tx[0]).rfWatch = .running 115000 ∧ (site.tx[0]).rfWatch = .idle := by
  decide +kernel

theorem witness_ClockInputs :
    (clocked .unset none).clock.state = .unset ∧ site.clock.state ≠ .unset ∧ site.clock.now = some ⟨100, 600, 30⟩ ∧
      site.clock.owed = false ∧ ({ site with clock := { site.clock with owed := true } } : State).clock.owed = true ∧
      site.clock.lastPulse = some 98800 ∧ 98800 + 500 ≤ site.timebase ∧
      site.clock.lastCounted = some 98800 ∧ (30 : Nat) < 59 ∧ site.clock.tick = .running 100800 ∧
      ({ site with timebase := 99299 } : State).timebase < 98800 + 500 ∧
      (site.timebase < 99800 + 500 ∧
        ({ site with clock := { site.clock with lastCounted := some 99800 } } : State).clock.lastCounted = some 99800) ∧
      (clocked .holdover (some ⟨100, 600, 59⟩)).clock.now = some ⟨100, 600, 59⟩ ∧
      (clocked .running (some ⟨100, 1439, 59⟩)).clock.now = some ⟨100, 1439, 59⟩ ∧ (100 : Nat) < 36524 ∧
      (clocked .running (some ⟨36524, 1439, 59⟩)).clock.now = some ⟨36524, 1439, 59⟩ ∧
      (36524 : Nat) < 36525 ∧ (1439 : Nat) < 1440 ∧ (59 : Nat) < 60 ∧
      (let seconds (t : Civil) : Nat := t.day * 86400 + t.minute * 60 + t.second
       let by_ (t : Civil) : Int := (seconds t : Int) - seconds ⟨100, 600, 30⟩
       by_ ⟨100, 600, 30⟩ = 0 ∧ by_ ⟨100, 600, 31⟩ = 1 ∧ by_ ⟨100, 600, 29⟩ = -1 ∧ by_ ⟨100, 605, 30⟩ = 300 ∧
         by_ ⟨100, 605, 31⟩ = 301 ∧ by_ ⟨99, 600, 30⟩ ≤ -2) := by decide +kernel

/-- The hall monitor with its access filter as given. -/
def accessAs (f : Machine.Filter AccessLevel) : State := { site with hall := { site.hall with access := f } }

theorem witness_HallInputs :
    site.hall.access.accepted ≠ some .opened ∧ site.cfg.txOk 0 = true ∧ live.rfPresent 0 = true ∧ live.cfg.txOk 0 = true ∧
      ({ accessAs ⟨some .opened, false, none⟩ with hall := { site.hall with state := .safe, access := ⟨some .opened, false, none⟩ } } :
        State).hall.access.accepted ≠ some .closed ∧
      (restored (.running 160000)).hall.closed = .running 160000 ∧ site.hall.closed = .idle ∧
      site.hall.supply.accepted = some .good ∧
      ({ site with hall := { site.hall with supply := ⟨some .low, false, none⟩ } } : State).hall.supply.accepted ≠ some .good ∧
      (live.rfPresent 0 = true ↔ RfLevel.absent = .absent) ∧ (site.rfPresent 0 = true ↔ RfLevel.present = .absent) ∧
      (accessAs ⟨none, false, none⟩).hall.access.accepted = none ∧
      (accessAs ⟨none, false, some .opened⟩).hall.access.firstSample = some .opened ∧
      (accessAs ⟨some .closed, true, none⟩).hall.access.candidate = true ∧ site.hall.access.candidate = false ∧
      AccessLevel.closed ≠ .opened ∧ SupplyLevel.good ≠ .low ∧ RfLevel.present ≠ .absent ∧
      State.reset.hall.supply.accepted = none ∧ (State.reset.hall.rf[0]).accepted = none := by decide +kernel

theorem witness_Vernier :
    ParamsValid rotator310 ∧ (4095 : Nat) < 4096 ∧ 70832 < 4096 * rotator310.periods ∧ rotator310.fine 1300 = 70832 % 4096 ∧
      ((rotator310.difference 1300 1986 : Int) * rotator310.periods - 70832 - 4096 * rotator310.periods * 0).natAbs ≤
        rotator310.tol :=
  ⟨⟨by decide, by decide, by decide, by decide, by decide⟩, by decide, by decide, by decide, by decide⟩

theorem witness_OverlapExact : (10079 : Nat) < 10080 ∧ (0 : Nat) < 10080 ∧ 1 ≤ (1440 : Nat) ∧ (1440 : Nat) ≤ 1440 := by decide

/-- The site with a done mark on T1. -/
def markedSite (x : DoneMark) : State := { site with run := { site.run with marks := site.run.marks.set 0 (some x) } }

theorem witness_RunOutcomes :
    site.run.marks[(0 : Tx)] = none ∧ (markedSite ⟨150000, .a⟩).run.marks[run7.tx] = some ⟨150000, .a⟩ ∧ TableId.a = run7.table ∧
      (markedSite ⟨150000, .b⟩).run.marks[run7.tx] = some ⟨150000, .b⟩ ∧ TableId.b ≠ run7.table := by decide +kernel

/-- The earliest occurrence of the entry of `seasonSite` that has not ended, from 24 hours before it to its end. -/
theorem candidate_entry7 (now : Nat) (h : 143820 ≤ now) (l : now < 145260) :
    (Candidate seasonSite 0 now entry7 145200 ∧ now < 145200 + entry7.dur) ∧
      ∀ (e : Entry) (x : Nat), Candidate seasonSite 0 now e x → now < x + e.dur → e = entry7 ∧ (x = 145200 ∨ 146640 ≤ x) := by
  have t : seasonSite.season.table seasonSite.season.active = [entry7] := rfl
  have m : ∀ x : DoneMark, seasonSite.run.marks[(0 : Tx)] ≠ some x := nofun
  have a : entry7.start = 1200 := rfl
  have b : entry7.dur = 60 := rfl
  refine ⟨⟨⟨by rw [t]; simp, rfl, rfl, ⟨100, by decide, by decide, rfl⟩, by omega, fun x hx => absurd hx (m x)⟩, by omega⟩, ?_⟩
  rintro e x ⟨he, -, -, ⟨day, -, -, rfl⟩, hx, -⟩ hd
  rw [t, List.mem_singleton] at he
  subst he
  exact ⟨rfl, by omega⟩

/-- Choosing: the occurrence ahead, joined late, too late to join, and none at all. -/
theorem witness_RunOutcomes_choosing :
    seasonSite.run.nxt[(0 : Tx)] = none ∧
      (∀ e ∈ seasonSite.season.table seasonSite.season.active, e.start < 1440 ∧ 1 ≤ e.dur ∧ e.dur ≤ 1440) ∧
      (∀ now, 143820 ≤ now → now < 145260 →
        let qualifies (e : Entry) (x : Nat) : Prop := Candidate seasonSite 0 now e x ∧ now < x + e.dur
        qualifies entry7 145200 ∧ ∀ f y, qualifies f y → (f = entry7 ∧ y = 145200) ∨ 145200 < y) ∧
      (143821 ≤ 145200 ∧ 145200 < 145258 ∧ 145258 + 2 ≤ 145200 + entry7.dur ∧ 145200 + entry7.dur < 145259 + 2) ∧
      ∀ e x, ¬(Candidate site 0 144630 e x ∧ 144630 < x + e.dur) :=
  ⟨rfl, by decide +kernel,
    fun now a b => ⟨(candidate_entry7 now a b).1, fun f y h =>
      have k := (candidate_entry7 now a b).2 f y h.1 h.2
      k.2.elim (fun e => .inl ⟨k.1, e⟩) fun g => .inr (by omega)⟩,
    by decide, fun e x h => absurd h.1.1 (by simp [show site.season.table site.season.active = [] from rfl])⟩

/-- Choosing behind a CURRENT record: the occurrence after its end, and one that collides with a record carried from table B. -/
theorem witness_RunOutcomes_behind :
    (let c : RunRec := { run7 with stop := 145200 }
     144000 ≤ c.stop ∧ (Candidate seasonSite 0 144000 entry7 145200 ∧ c.stop ≤ 145200) ∧ c.table = seasonSite.season.active) ∧
      (let c : RunRec := { run7 with table := .b, stop := 145230 }
       144000 ≤ c.stop ∧ c.table ≠ seasonSite.season.active ∧
         (Candidate seasonSite 0 144000 entry7 145200 ∧ 144000 < 145200 + entry7.dur ∧ 145200 < c.stop) ∧
         ∀ f y, c.table ≠ seasonSite.season.active ∧ Candidate seasonSite 0 144000 f y ∧ 144000 < y + f.dur ∧ y < c.stop →
           f = entry7 ∧ y = 145200) := by
  have k := candidate_entry7 144000 (by decide) (by decide)
  exact ⟨⟨by decide, ⟨k.1.1, by decide⟩, rfl⟩, by decide, by decide, ⟨k.1.1, k.1.2, by decide⟩, fun f y h =>
    have g := k.2 f y h.2.1 h.2.2.1
    ⟨g.1, g.2.resolve_right (by have := h.2.2.2; simp at this; omega)⟩⟩

/-- The next run of T1, from the minute at which `run7` ends. -/
def run8 : RunRec :=
  { run7 with num := 2, start := 145260, stop := 145320, inUse := none, state := .waiting, graceBase := 145260 }

/-- T1 fed to A1, with two run records. -/
def pairSite (c r : Option RunRec) : State :=
  State.permitSync { (State.modTx routed 0 fun t => { t with holder := none }) with
    run := { routed.run with cur := routed.run.cur.set 0 c, nxt := routed.run.nxt.set 0 r } }

/-- In a state whose other slots are empty, the second record of T1 stands alone. -/
theorem alone_nxt (s : State) (c : Option RunRec) (r : RunRec) (hc : ∀ x, c = some x → x.num ≠ r.num)
    (h : ∀ j : Tx, s.run.cur[j] = (if j = 0 then c else none) ∧ s.run.nxt[j] = if j = 0 then some r else none) :
    ∀ (j : Tx) (k : Slot) (x : RunRec), s.slot j k = some x → x.num = r.num → j = 0 ∧ k = .nxt := by
  intro j k x hx hn
  by_cases e : j = 0
  · cases k with
    | nxt => exact ⟨e, rfl⟩
    | cur => exact absurd hn (hc x (by rw [← hx]; simp [State.slot, h, e]))
  · cases k <;> simp [State.slot, h, e] at hx

/-- Preparing a WAITING record behind a CURRENT one: its transmitter TRIPPED, OFFLINE or locked out, its antenna in use there or free,
the primary failing for the alternate, and both failing. -/
theorem witness_RunOutcomes_preparing :
    (let s := pairSite (some run7) (some run8)
     s.run.nxt[(0 : Tx)] = some run8 ∧ run8.state = .waiting ∧ run8.tx = 0 ∧ s.isOpen = false ∧
       (∀ (j : Tx) (k : Slot) (x : RunRec), s.slot j k = some x → x.num = run8.num → j = 0 ∧ k = .nxt) ∧
       (s.tx[0]).state = .ready ∧ s.locked (.tx 0) = false ∧ s.run.cur[(0 : Tx)] = some run7 ∧ run7.inUse = some 0 ∧
       s.antPasses 0 run8.freq 0 = true ∧ run8.az = none ∧ (1 : Ant) ≠ 0 ∧ s.antPasses 0 run8.freq 1 = true ∧
       ((State.modTx s 0 fun t => { t with state := .tripped }).tx[0]).state = .tripped ∧
       ((State.modTx s 0 fun t => { t with state := .offline }).tx[0]).state = .offline ∧
       ({ s with locks := { s.locks with records := [{ lockA2 with target := .tx 0 }] } } : State).locked (.tx 0) = true ∧
       ({ s with faultMark := s.faultMark.set 0 true } : State).antPasses 0 run8.freq 0 = false ∧
       ({ s with faultMark := s.faultMark.set 0 true } : State).antPasses 0 run8.freq 1 = true ∧
       ({ s with faultMark := Vector.replicate 24 true } : State).antPasses 0 run8.freq 1 = false) :=
  ⟨by decide +kernel, rfl, rfl, by decide +kernel,
    alone_nxt _ (some run7) run8 (by intro x h; cases h; decide) (by decide +kernel), by decide +kernel⟩

/-- The next run of T1 when it is READY. -/
def readyRun : RunRec := { run8 with state := .ready, inUse := some 0 }

/-- The next run of T1 when its items are done and it is not yet READY. -/
def doneRun : RunRec := { run8 with state := .preparing, inUse := some 0, route := .done, tune := .done, slew := .notNeeded }

/-- R144: a CURRENT record that becomes READY in the act of its start boundary is not LATE; one later in that minute is, as run 404 of
12.3. -/
theorem test_late_after_boundary :
    (((pairSite (some doneRun) none).readyCheck doneRun.num ⟨145260, true⟩).run.cur[(0 : Tx)]).map RunRec.late = some false ∧
      (((pairSite (some doneRun) none).readyCheck doneRun.num ⟨145260, false⟩).run.cur[(0 : Tx)]).map RunRec.late = some true := by
  decide +kernel

/-- R146, R147: the FEED of a run-through that fails after a lockout has made its record PREPARING raises RUN and leaves its tune item. -/
theorem test_run_through_feed_fails :
    (let s := pairSite (some { doneRun with route := .waiting }) none
     let u := s.orderEnd doneRun.num .feed (some .feedTimeout) 145261
     u.run.cur = s.run.cur ∧ ((s.link .dl1).attn &&& Attn.bit .run) = 0 ∧ ((u.link .dl1).attn &&& Attn.bit .run) ≠ 0) := by
  decide +kernel

/-- R169: at the end of a task a WAITING earthing is asked again where its selector is not confirmed at EARTH, and only there. -/
theorem test_earthing_waits :
    (let s := lockSite.setEarth 1 (some { state := .waiting, failure := none, loose := false })
     (s.setSw (.sel 1) { SwRec.powerUp .earth with state := .fault, confirmed := .stands .earth }).earthWaits 1 = false ∧
       (s.setSw (.sel 1) { SwRec.powerUp .earth with state := .fault, confirmed := .between }).earthWaits 1 = true) := by
  decide +kernel

/-- The start of a READY and of a PREPARING record, the end of an ON_AIR record and of one that is not, the end of a grace, and a
run-through. -/
theorem witness_RunOutcomes_timing :
    ((pairSite none (some readyRun)).run.cur[(0 : Tx)] = none ∧ (pairSite none (some readyRun)).run.nxt[(0 : Tx)] = some readyRun ∧
      ((pairSite none (some readyRun)).tx[0]).holder = none ∧ readyRun.state = .ready ∧ ∀ (j : Tx) (k : Slot) (x : RunRec),
        (pairSite none (some readyRun)).slot j k = some x → x.num = readyRun.num → j = 0 ∧ k = .nxt) ∧
    (let preparing : RunRec := { run8 with state := .preparing, inUse := some 0, route := .inProgress, tune := .done }
     preparing.tune ≠ .waiting ∧ preparing.slew ≠ .waiting ∧ (pairSite none (some preparing)).run.nxt[(0 : Tx)] = some preparing) ∧
    (let onAir : RunRec := { run7 with state := .onAir, aired := true }
     let next : RunRec := { run8 with deferred := some 0 }
     let s := pairSite (some onAir) (some next)
     (pairSite (some onAir) none).run.cur[(0 : Tx)] = some onAir ∧ (pairSite (some onAir) none).run.nxt[(0 : Tx)] = none ∧
       (pairSite (some run7) none).run.cur[(0 : Tx)] = some run7 ∧ run7.state ≠ .onAir ∧ run7.aired = false ∧
       run7.graceBase + site.cfg.active.grace ≤ 145205 ∧ 145204 < run7.graceBase + site.cfg.active.grace ∧
       s.run.cur[(0 : Tx)] = some onAir ∧ s.run.nxt[(0 : Tx)] = some next ∧ onAir.stop ≤ 145260 ∧ onAir.inUse = some 0 ∧
       next.start = 145260 ∧ next.state = .waiting ∧ s.antPasses 0 next.freq 0 = true ∧ onAir.freq = next.freq ∧
       onAir.az = none ∧ next.az = none ∧ s.standsAt (.out 0) .antenna = true ∧ s.standsAt (.sel 0) (.bus 0) = true ∧
       (s.tx[0]).state = .ready ∧ (s.tx[0]).tuned = some next.freq ∧ (s.tx[0]).holder = none) :=
  ⟨⟨by decide +kernel, by decide +kernel, by decide +kernel, rfl,
    alone_nxt (pairSite none (some readyRun)) none readyRun (fun x h => by cases h) (by decide +kernel)⟩, by decide +kernel, by decide +kernel⟩
end Sys2Proof.Tests
end

