-- ==== Sys2Proof/Proofs/Requests.lean ====
section
/-! SUPPORT. What the desk commands share: refusal tables, number arguments as a payload carries them, and the requested level of
a transmitter in hand. -/

namespace Sys2Proof.Machine

/-! ## Refusal tables -/

@[simp] theorem firstOf_nil : firstOf [] = none := rfl

/-- A refusal table is read from its first row on. -/
@[simp] theorem firstOf_cons (applies : Bool) (e : Status) (table : List (Bool × Status)) :
    firstOf ((applies, e) :: table) = if applies then some e else firstOf table := by
  cases applies <;> rfl

theorem mem_allAnt (m : Ant) : m ∈ allAnt := by revert m; decide

/-- A search for the antenna fed through all antennas is the test of it. -/
theorem any_antenna_fed (fed : Option Ant) (p : Ant → Bool) : (allAnt.any fun m => fed == some m && p m) = fed.any p := by
  cases fed with
  | none => rfl
  | some m =>
    rw [Bool.eq_iff_iff]
    simp [mem_allAnt]

/-! ## Arguments -/

/-- Two arguments of one byte each (R190). -/
theorem args_two_bytes (a b : Byte) : args [1, 1] [a, b] = some [a.toNat, b.toNat] := by
  simp [args, numOf]

theorem txOf_txNumber (n : Tx) : txOf (n.val + 1) = some n := by simp [txOf]

theorem txOf_eq_none {k : Nat} (h : ¬(1 ≤ k ∧ k ≤ 8)) : txOf k = none := by
  unfold txOf
  split
  · exact dif_neg (by omega)
  · rfl

theorem levelOf_levelCode (l : Level) : levelOf (levelCode l) = some l := by cases l <;> rfl

theorem levelOf_eq_none {k : Nat} (h : ¬k ≤ 2) : levelOf k = none := by
  match k, h with
  | _ + 3, _ => rfl

/-- The arguments of SET_RF are read back from the payload that carries them. -/
theorem args_txLevel (n : Tx) (l : Level) : args [1, 1] (txArg n ++ levelArg l) = some [n.val + 1, levelCode l] := by
  have hn : (BitVec.ofNat 8 (n.val + 1)).toNat = n.val + 1 := by rw [BitVec.toNat_ofNat]; omega
  have hl : (BitVec.ofNat 8 (levelCode l)).toNat = levelCode l := by cases l <;> rfl
  calc args [1, 1] (txArg n ++ levelArg l)
      = some [(BitVec.ofNat 8 (n.val + 1)).toNat, (BitVec.ofNat 8 (levelCode l)).toNat] := args_two_bytes _ _
    _ = some [n.val + 1, levelCode l] := by rw [hn, hl]

/-! ## A request taken -/

/-- A request refused at once is answered and has no other effect. -/
theorem only_answered_of_refuse {c : Instr} {s : State} {d : Desk} {tag code : Byte} {act : State → Answer} {e : Status}
    (hc : exec c s = .next (s.request_ d tag code act)) (hs : Serves s d)
    (ha : act (s.taken d tag code) = (s.taken d tag code).refuse e) : OnlyAnswered c s d tag code e [] :=
  sets_of_act hc hs ha

/-! ## A transmitter in hand -/

/-- The requester of a transmitter in hand is its holder (R45). -/
theorem requesterOf_hand {s : State} {n : Tx} {d : Desk} (h : (s.tx[n]).holder = some d) : s.requesterOf n = .hand d := by
  simp only [State.requesterOf, h]

/-- Once a permit shows the holder as requester, what follows from an act keeps its requested level (R45). -/
theorem Follows.hand_level {u t : State} (h : Follows u t) {n : Tx} {d : Desk} (hold : (u.tx[n]).holder = some d)
    (req : (u.permit[n]).requester = .hand d) :
    (t.permit[n]).requester = .hand d ∧ (t.permit[n]).requested = (u.permit[n]).requested := by
  obtain ⟨requester, requested⟩ | ⟨requester, requested⟩ := h.hand n d hold
  · exact ⟨requester.trans req, requested⟩
  · exact ⟨requester, by rw [requested, if_pos req]⟩

end Sys2Proof.Machine
end

