-- ==== Sys2Proof/Proofs/SetRf.lean ====
section
/-! PROOF. SET_RF (R46): its refusals, its answer and the level it leaves requested. -/

namespace Sys2Proof.Machine

section
variable (s : State) (n : Tx) (l : Level)

theorem lockedPath_eq_any : s.lockedPath n =
    (s.locked (.tx n) || allAnt.any fun m => s.mx.feeds n == some m && s.locked (.ant m)) := by
  rw [State.lockedPath, any_antenna_fed]
  cases s.mx.feeds n <;> rfl

theorem fedMarked_eq_any : s.fedMarked n = allAnt.any fun m => s.mx.feeds n == some m && s.faultMark[m] := by
  rw [State.fedMarked, any_antenna_fed (s.mx.feeds n) fun m => s.faultMark[m]]
  cases s.mx.feeds n <;> rfl

/-- The model's checks are the table of R46, in its order. -/
theorem rfRefusal_eq_table (d : Desk) : s.rfRefusal d n l = firstOf
    [(!s.cfg.txOk n, .notConfigured),
     ((s.tx[n]).holder == none, .notInHand),
     ((s.tx[n]).holder != some d, .heldByOther),
     (s.hall.state == .safe && l != .off, .hallSafe),
     ((s.locked (.tx n) || allAnt.any fun m => s.mx.feeds n == some m && s.locked (.ant m)) && l != .off, .lockedOut)] := by
  simp only [firstOf_cons, firstOf_nil, ← lockedPath_eq_any, State.rfRefusal, State.hallSafe]
  cases (s.tx[n]).holder with
  | none => simp
  | some e => simp [bne]

variable {s n l} in
/-- A request that no row of R46 refuses comes from the holder. -/
theorem holder_of_rfRefusal_none {d : Desk} (h : s.rfRefusal d n l = none) :
    (s.tx[n]).holder = some d := by
  unfold State.rfRefusal at h
  generalize (s.tx[n]).holder = holder at h ⊢
  split at h
  · cases h
  · cases holder with
    | none => cases h
    | some e =>
      by_contra other
      have differs : (e != d) = true := bne_iff_ne.mpr fun same => other (congrArg some same)
      dsimp only at h
      rw [if_pos differs] at h
      cases h

/-- What SET_RF does with a payload of one number out of range (R190). -/
theorem actSetRf_out_of_range (d : Desk) {a b : Byte} (h : ¬(1 ≤ a.toNat ∧ a.toNat ≤ 8 ∧ b.toNat ≤ 2)) :
    actSetRf d [a, b] s = s.refuse .badArgument := by
  rw [actSetRf, args_two_bytes]
  dsimp only
  by_cases ha : 1 ≤ a.toNat ∧ a.toNat ≤ 8
  · have hb : ¬b.toNat ≤ 2 := fun hb => h ⟨ha.1, ha.2, hb⟩
    rw [levelOf_eq_none hb]
    cases txOf a.toNat <;> rfl
  · rw [txOf_eq_none ha]

/-- SET_RF that a row of R46 refuses. -/
theorem actSetRf_refused {d : Desk} {e : Status} (h : s.rfRefusal d n l = some e) :
    actSetRf d (txArg n ++ levelArg l) s = s.refuse e := by
  rw [actSetRf, args_txLevel]
  simp only [txOf_txNumber, levelOf_levelCode, h]

/-- SET_RF that no row of R46 refuses. -/
theorem actSetRf_taken {d : Desk} (h : s.rfRefusal d n l = none) :
    actSetRf d (txArg n ++ levelArg l) s =
      s.answer (if l == .full && s.fedMarked n then .doneClamped else .done) [] (s.setRequested n l) := by
  rw [actSetRf, args_txLevel]
  simp only [txOf_txNumber, levelOf_levelCode, h]

theorem setRequested_same : ((s.setRequested n l).permit[n]) = { s.permit[n] with requested := l } := modPermit_same s n _

end

/-- Settles O25: the refusals are the model's own checks, and what follows from the act keeps the holder's new level. -/
theorem setRf : Obligations.SetRf := by
  unfold Obligations.SetRf
  intro s d tag serves
  refine ⟨fun a b out => only_answered_of_refuse rfl serves (actSetRf_out_of_range _ d out), fun n l => ?_⟩
  dsimp only
  rw [← rfRefusal_eq_table s n l d, ← fedMarked_eq_any s n]
  have checks : (s.taken d tag 0x24).rfRefusal d n l = s.rfRefusal d n l := rfl
  refine ⟨fun e refused => only_answered_of_refuse rfl serves (actSetRf_refused _ n l (checks.trans refused)), fun taken => ?_⟩
  have runs : CommandRuns (.setRf d tag (txArg n ++ levelArg l)) s d tag 0x24
      (if l == .full && s.fedMarked n then .doneClamped else .done) [] ((s.taken d tag 0x24).setRequested n l) :=
    runs_of_act rfl serves (actSetRf_taken _ n l (checks.trans taken)) fun _ => LinkCalm.refl _
  refine ⟨_, runs, rfl, by rw [setRequested_same], fun current t ht => ?_⟩
  obtain ⟨t', ht', -, follows, -⟩ := runs
  obtain rfl : t' = t := by simpa [ht'] using ht
  have holder := holder_of_rfRefusal_none taken
  have requester : (s.permit[n]).requester = .hand d := by
    rw [current n]
    exact requesterOf_hand holder
  simpa only [setRequested_same] using
    follows.hand_level holder (by rw [setRequested_same]; exact requester)

end Sys2Proof.Machine
end

