-- ==== Sys2Proof/Proofs/WordArgs.lean ====
section
/-! SUPPORT. Numbers of two bytes as a request and a reply carry them, rotator numbers, and attention newly raised. -/

namespace Sys2Proof.Machine

/-! ## Numbers of two bytes -/

/-- The two bytes of a word are read back most significant first (R184). -/
theorem numOf_bytes2 (w : Word16) : numOf (bytes2 w) = w.toNat := by
  have high : (w.extractLsb' 8 8).toNat = w.toNat / 256 := by
    rw [BitVec.extractLsb'_toNat, Nat.shiftRight_eq_div_pow]
    omega
  have low : (w.extractLsb' 0 8).toNat = w.toNat % 256 := by
    rw [BitVec.extractLsb'_toNat, Nat.shiftRight_zero]
  calc numOf (bytes2 w) = 256 * (w.extractLsb' 8 8).toNat + (w.extractLsb' 0 8).toNat := by simp [numOf, bytes2]
    _ = w.toNat := by rw [high, low]; omega

theorem numOf_wordArg {n : Nat} (h : n < 65536) : numOf (wordArg n) = n := by
  rw [wordArg, numOf_bytes2, BitVec.toNat_ofNat]
  omega

/-- A number that two bytes hold stands in a reply as it does in a request. -/
theorem num2_eq_wordArg {n : Nat} (h : n < 65536) : num2 n = wordArg n := by
  rw [num2, if_pos h, wordArg]

/-- An argument of one byte and one of two (R190). -/
theorem args_byte_word (a : Byte) {n : Nat} (h : n < 65536) : args [1, 2] (a :: wordArg n) = some [a.toNat, n] := by
  calc args [1, 2] (a :: wordArg n) = some [numOf [a], numOf (wordArg n)] := rfl
    _ = some [a.toNat, n] := by rw [numOf_wordArg h]; simp [numOf]

/-! ## Rotator numbers -/

theorem rotOf_rotNumber (k : Rot) : rotOf (k.val + 1) = some k := by simp [rotOf]

theorem rotOf_eq_none {k : Nat} (h : ¬(1 ≤ k ∧ k ≤ 4)) : rotOf k = none := by
  unfold rotOf
  split
  · exact dif_neg (by omega)
  · rfl

/-- The arguments of a rotator and a number of two bytes are read back from the payload that carries them. -/
theorem args_rotWord (k : Rot) {n : Nat} (h : n < 65536) : args [1, 2] (rotArg k ++ wordArg n) = some [k.val + 1, n] := by
  have hk : (BitVec.ofNat 8 (k.val + 1)).toNat = k.val + 1 := by rw [BitVec.toNat_ofNat]; omega
  calc args [1, 2] (rotArg k ++ wordArg n) = some [(BitVec.ofNat 8 (k.val + 1)).toNat, n] := args_byte_word _ h
    _ = some [k.val + 1, n] := by rw [hk]

/-! ## Attention -/

/-- Attention raised stands in every desk's set (R194). -/
theorem raised_raise (s : State) (a : Attn) : (s.raise a).raised a := fun d => by
  rw [raise_link, Link.raise, BitVec.and_comm, BitVec.or_comm]
  exact band_bor a.bit _

end Sys2Proof.Machine
end

