-- ==== Sys2Proof/Proofs/Calibrate.lean ====
section
/-! PROOF. CALIBRATE_ROTATOR (R65, R66): its refusals, its answer and the zero bearing it sets. -/

namespace Sys2Proof.Machine

/-! ## The refusals -/

/-- The rows of R65, first to last. -/
def State.calibrateRows (s : State) (k : Rot) (b : Nat) : List (Bool × Status) :=
  [(decide (3600 ≤ b), .badArgument),
   (!s.cfg.rotOk k, .notConfigured),
   (s.isOpen, .configOpen),
   ((s.rot[k]).validity != .valid, .positionInvalid),
   ((s.slew[k]).state != .idle && (s.slew[k]).state != .inPosition, .busy)]

section
variable (s : State) (k : Rot) {b : Nat}

/-- Behind the first row of R65 stand the model's own checks, in their order. -/
theorem firstOf_calibrateRows (b : Nat) :
    firstOf (s.calibrateRows k b) = if 3600 ≤ b then some .badArgument else s.calibrateRefusal k := by
  simp only [State.calibrateRows, firstOf_cons, firstOf_nil, State.calibrateRefusal, decide_eq_true_eq]

/-- A rotator number out of range (R190). -/
theorem actCalibrateRotator_out_of_range {a : Byte} (ha : ¬(1 ≤ a.toNat ∧ a.toNat ≤ 4)) (hb : b < 65536) :
    actCalibrateRotator (a :: wordArg b) s = s.refuse .badArgument := by
  rw [actCalibrateRotator, args_byte_word a hb]
  simp only [rotOf_eq_none ha]

/-- CALIBRATE_ROTATOR that a row of R65 refuses. -/
theorem actCalibrateRotator_refused {e : Status} (hb : b < 65536) (h : firstOf (s.calibrateRows k b) = some e) :
    actCalibrateRotator (rotArg k ++ wordArg b) s = s.refuse e := by
  rw [firstOf_calibrateRows] at h
  rw [actCalibrateRotator, args_rotWord k hb]
  by_cases far : 3600 ≤ b
  · obtain rfl : Status.badArgument = e := by simpa [far] using h
    have out : decide (b < 3600) = false := decide_eq_false (by omega)
    simp only [rotOf_rotNumber, out]
  · have refused : s.calibrateRefusal k = some e := by simpa [far] using h
    have within : decide (b < 3600) = true := decide_eq_true (by omega)
    simp only [rotOf_rotNumber, within, refused]

/-! ## The calibration -/

theorem calibratedZero_lt (bearing sensor : Nat) : calibratedZero bearing sensor < 3600 := by
  unfold calibratedZero
  omega

/-- The zero bearing read back from the active configuration. -/
theorem calibrate_zero (bearing : Nat) :
    ((s.calibrate k bearing).params k).zero = calibratedZero bearing ((s.rot[k]).sensor.getD 0) := by
  simp [State.calibrate, State.params, ConfigStore.setZero]

theorem calibrate_raised (bearing : Nat) : (s.calibrate k bearing).raised .rotator := raised_raise _ _

/-- Of the links a calibration changes nothing but attention. -/
theorem calibrate_links (bearing : Nat) (d : Desk) : LinkCalm (s.link d) ((s.calibrate k bearing).link d) :=
  links_of_calm s (calm_raise _ .rotator (Calm.refl _)) rfl d

/-- A calibration sets the zero bearing and the azimuth, and nothing else that only a command changes (R66). -/
theorem calibrate_kept (bearing : Nat) : (s.calibrate k bearing).kept = { s.kept with
    cfg := s.kept.cfg.setZero k (calibratedZero bearing ((s.rot[k]).sensor.getD 0)),
    rot := s.kept.rot.set k { s.kept.rot[k] with azimuth := some bearing } } := rfl

/-- CALIBRATE_ROTATOR that no row of R65 refuses: it is answered with the new zero bearing. -/
theorem actCalibrateRotator_taken (hb : b < 65536) (h : firstOf (s.calibrateRows k b) = none) :
    actCalibrateRotator (rotArg k ++ wordArg b) s =
      s.answer .done (wordArg (calibratedZero b ((s.rot[k]).sensor.getD 0))) (s.calibrate k b) := by
  rw [firstOf_calibrateRows] at h
  have near : ¬3600 ≤ b := fun far => by simp [far] at h
  have taken : s.calibrateRefusal k = none := by simpa [near] using h
  have within : decide (b < 3600) = true := decide_eq_true (by omega)
  have reply := num2_eq_wordArg ((calibratedZero_lt b ((s.rot[k]).sensor.getD 0)).trans (by omega))
  rw [actCalibrateRotator, args_rotWord k hb]
  simp only [rotOf_rotNumber, within, taken, calibrate_zero, reply]

end

/-- Settles O33: the refusals are the model's own checks, and the calibration of R66 is all that the act does. -/
theorem calibrate : Obligations.Calibrate := by
  unfold Obligations.Calibrate
  intro s d tag b serves hb
  refine ⟨fun a out => only_answered_of_refuse rfl serves (actCalibrateRotator_out_of_range _ out hb), fun k => ⟨?_, ?_⟩⟩
  · intro e refused
    exact only_answered_of_refuse rfl serves (actCalibrateRotator_refused (s.taken d tag 0x28) k hb refused)
  · intro bearing taken sensor
    have act := actCalibrateRotator_taken (s.taken d tag 0x28) k hb taken
    have kept := calibrate_kept (s.taken d tag 0x28) k b
    have known : ((s.taken d tag 0x28).rot[k]).sensor.getD 0 = bearing := congrArg (Option.getD · 0) sensor
    rw [known] at act kept
    exact ⟨_, runs_of_act rfl serves act (calibrate_links _ k b), calibrate_raised _ k b, kept⟩

end Sys2Proof.Machine
end

section
/-! PROOF. CLEAR_ANTENNA_FAULT (R107): its refusals, its answer where no mark stands, and the mark it removes. -/

namespace Sys2Proof.Machine

/-! ## Antenna numbers -/

theorem antOf_antNumber (m : Ant) : antOf (m.val + 1) = some m := by simp [antOf]

theorem antOf_eq_none {k : Nat} (h : ¬(1 ≤ k ∧ k ≤ 24)) : antOf k = none := by
  unfold antOf
  split
  · exact dif_neg (by omega)
  · rfl

/-- An argument of one byte (R190). -/
theorem args_byte (a : Byte) : args [1] [a] = some [a.toNat] := by simp [args, numOf]

/-- The argument of an antenna is read back from the payload that carries it. -/
theorem args_ant (m : Ant) : args [1] (antArg m) = some [m.val + 1] := by
  have number : (BitVec.ofNat 8 (m.val + 1)).toNat = m.val + 1 := by rw [BitVec.toNat_ofNat]; omega
  calc args [1] (antArg m) = some [(BitVec.ofNat 8 (m.val + 1)).toNat] := args_byte _
    _ = some [m.val + 1] := by rw [number]

section
variable (s : State) (m : Ant)

/-! ## The branches of the act -/

/-- An antenna number out of range (R190). -/
theorem actClearAntennaFault_out_of_range {a : Byte} (h : ¬(1 ≤ a.toNat ∧ a.toNat ≤ 24)) :
    actClearAntennaFault [a] s = s.refuse .badArgument := by
  rw [actClearAntennaFault, args_byte]
  simp only [antOf_eq_none h]

/-- An antenna that is not configured. -/
theorem actClearAntennaFault_not_configured (h : s.cfg.antOk m = false) :
    actClearAntennaFault (antArg m) s = s.refuse .notConfigured := by
  rw [actClearAntennaFault, args_ant]
  simp [antOf_antNumber, h]

/-- A configured antenna without a mark: there is nothing to do. -/
theorem actClearAntennaFault_unmarked (h : s.cfg.antOk m = true) (mark : s.faultMark[m] = false) :
    actClearAntennaFault (antArg m) s = s.tell [] := by
  rw [actClearAntennaFault, args_ant]
  simp [antOf_antNumber, h, mark]

/-- A configured antenna with a mark. -/
theorem actClearAntennaFault_marked (h : s.cfg.antOk m = true) (mark : s.faultMark[m] = true) :
    actClearAntennaFault (antArg m) s = s.answer .done [] (s.clearMark m) := by
  rw [actClearAntennaFault, args_ant]
  simp [antOf_antNumber, h, mark]

/-! ## The mark removed -/

theorem clearMark_raised : (s.clearMark m).raised .transmitter := raised_raise _ _

/-- Of the links the removal of a mark changes nothing but attention. -/
theorem clearMark_links (d : Desk) : LinkCalm (s.link d) ((s.clearMark m).link d) :=
  links_of_calm s (calm_raise _ .transmitter (Calm.refl _)) rfl d

/-- Of what only commands change, the removal of a mark changes that mark alone. -/
theorem clearMark_kept : (s.clearMark m).kept = { s.kept with faultMark := s.kept.faultMark.set m false } := rfl

end

/-- Settles O27, by the four branches of the act; the taken state has the configuration and the marks of the state before. -/
theorem clearAntennaFault : Obligations.ClearAntennaFault := by
  unfold Obligations.ClearAntennaFault
  intro s d tag serves
  refine ⟨fun a out => only_answered_of_refuse rfl serves (actClearAntennaFault_out_of_range _ out), fun m => ⟨?_, ?_, ?_⟩⟩
  · intro absent
    exact only_answered_of_refuse rfl serves (actClearAntennaFault_not_configured (s.taken d tag 0x2A) m absent)
  · intro configured unmarked
    exact sets_of_act rfl serves (actClearAntennaFault_unmarked (s.taken d tag 0x2A) m configured unmarked)
  · intro configured marked
    have act := actClearAntennaFault_marked (s.taken d tag 0x2A) m configured marked
    exact ⟨_, runs_of_act rfl serves act (clearMark_links _ m), clearMark_raised _ m, clearMark_kept _ m⟩

end Sys2Proof.Machine
end

section
/-! SUPPORT. Season tables: table arguments, the entry in use, and what an edit of one table leaves (R121, R124). -/

namespace Sys2Proof.Machine

/-! ## Table arguments -/

theorem tableOf_code (x : TableId) : tableOf x.code = some x := by cases x <;> rfl

theorem tableOf_eq_none {k : Nat} (h : ¬(1 ≤ k ∧ k ≤ 2)) : tableOf k = none := by
  match k, h with
  | 0, _ => rfl
  | 1, h => exact absurd ⟨by decide, by decide⟩ h
  | 2, h => exact absurd ⟨by decide, by decide⟩ h
  | _ + 3, _ => rfl

/-- The byte of a table argument carries the number of the table. -/
theorem tableByte_toNat (x : TableId) : (BitVec.ofNat 8 x.code).toNat = x.code := by cases x <;> rfl

/-- The argument of a table is read back from the payload that carries it. -/
theorem args_table (x : TableId) : args [1] (tableArg x) = some [x.code] := by
  calc args [1] (tableArg x) = some [(BitVec.ofNat 8 x.code).toNat] := args_byte _
    _ = some [x.code] := by rw [tableByte_toNat]

/-- The arguments of a table and an entry id are read back from the payload that carries them. -/
theorem args_tableWord (x : TableId) {id : Nat} (h : id < 65536) :
    args [1, 2] (tableArg x ++ wordArg id) = some [x.code, id] := by
  calc args [1, 2] (tableArg x ++ wordArg id) = some [(BitVec.ofNat 8 x.code).toNat, id] := args_byte_word _ h
    _ = some [x.code, id] := by rw [tableByte_toNat]

/-! ## The entry in use -/

/-- The states in which a CURRENT record uses its entry are the three that R121 lists. -/
theorem using_eq_contains (st : RunState) : st.using = [RunState.preparing, .ready, .onAir].contains st := by
  cases st <;> rfl

/-- The model's test of an entry in use is the condition of R121. -/
theorem inUse_eq_any (r : RunTable) (x : TableId) (e : Entry) :
    r.inUse x e = (r.cur[e.tx]).any fun c =>
      [RunState.preparing, .ready, .onAir].contains c.state && c.table == x && c.entry == e.id := by
  unfold RunTable.inUse
  cases r.cur[e.tx] with
  | none => rfl
  | some c => exact congrArg (· && c.table == x && c.entry == e.id) (using_eq_contains c.state)

/-! ## A table written, an edit number raised -/

section
variable (y : Season) (x : TableId) (es : List Entry)

@[simp] theorem setTable_table : (y.setTable x es).table x = es := by cases x <;> rfl
@[simp] theorem setTable_table_other : (y.setTable x es).table x.other = y.table x.other := by cases x <;> rfl
@[simp] theorem setTable_edit (z : TableId) : (y.setTable x es).edit z = y.edit z := by cases x <;> cases z <;> rfl
@[simp] theorem setTable_active : (y.setTable x es).active = y.active := by cases x <;> rfl
@[simp] theorem setTable_armed : (y.setTable x es).armed = y.armed := by cases x <;> rfl
@[simp] theorem setTable_changeover : (y.setTable x es).changeover = y.changeover := by cases x <;> rfl

@[simp] theorem raiseEdit_table (z : TableId) : (y.raiseEdit x).table z = y.table z := by cases x <;> cases z <;> rfl
@[simp] theorem raiseEdit_edit : (y.raiseEdit x).edit x = (y.edit x + 1) % 65536 := by cases x <;> rfl
@[simp] theorem raiseEdit_active : (y.raiseEdit x).active = y.active := by cases x <;> rfl
@[simp] theorem raiseEdit_armed : (y.raiseEdit x).armed = y.armed := by cases x <;> rfl
@[simp] theorem raiseEdit_changeover : (y.raiseEdit x).changeover = y.changeover := by cases x <;> rfl

end

/-! ## The effects of an edit -/

section
variable (s : State) (x : TableId)

/-- Of the season store an edit changes the edit number, and unarms a table that is not ACTIVE. -/
theorem edited_season :
    (s.edited x).season = { s.season.raiseEdit x with armed := s.season.armed && x == s.season.active } := by
  unfold State.edited
  by_cases active : x = s.season.active
  · have same : (x == s.season.active) = true := beq_iff_eq.mpr active
    simp only [raiseEdit_active, same, if_true, notify_season, raise_season, Bool.and_true]
    cases x <;> rfl
  · simp [active]

@[simp] theorem edited_table (z : TableId) : (s.edited x).season.table z = s.season.table z := by
  rw [edited_season]
  exact raiseEdit_table s.season x z

@[simp] theorem edited_edit : (s.edited x).season.edit x = (s.season.edit x + 1) % 65536 := by
  rw [edited_season]
  exact raiseEdit_edit s.season x

@[simp] theorem edited_armed : (s.edited x).season.armed = (s.season.armed && x == s.season.active) := by
  rw [edited_season]

@[simp] theorem edited_changeover : (s.edited x).season.changeover = s.season.changeover := by
  rw [edited_season]
  exact raiseEdit_changeover s.season x

theorem edited_raised : (s.edited x).raised .schedule := by
  unfold State.edited
  dsimp only
  split
  · exact raised_raise _ _
  · exact raised_raise _ _

/-- An edit of the ACTIVE table is given to the run scheduler. -/
theorem edited_notices (active : x = s.season.active) : .runEdit x false ∈ (s.edited x).notices := by
  unfold State.edited
  simp [active]

/-- Of the links an edit changes nothing but attention. -/
theorem edited_links (d : Desk) : LinkCalm (s.link d) ((s.edited x).link d) := by
  unfold State.edited
  dsimp only
  split
  · exact links_of_calm s (calm_notify _ (.runEdit x false) (calm_raise _ .schedule (Calm.refl _))) rfl d
  · exact links_of_calm s (calm_raise _ .schedule (Calm.refl _)) rfl d

/-- The state `u` has in a table the entries `es` in place of those of `s`, with the effects of an edit (R124). -/
def TableEdited (s u : State) (x : TableId) (es : List Entry) : Prop :=
  u.season.table x = es ∧ u.season.table x.other = s.season.table x.other ∧
    u.season.edit x = (s.season.edit x + 1) % 65536 ∧ u.season.armed = (s.season.armed && x == s.season.active) ∧
    u.raised .schedule ∧ u.season.changeover = s.season.changeover ∧ (x = s.season.active → .runEdit x false ∈ u.notices)

/-- A table written and edited. -/
theorem tableEdited_setTable (es : List Entry) :
    TableEdited s ((s.modSeason fun y => y.setTable x es).edited x) x es := by
  refine ⟨?entries, ?other, ?edit, ?armed, edited_raised _ x, ?changeover, fun active => edited_notices _ x ?active⟩
  case active => simpa using active
  all_goals simp

end

end Sys2Proof.Machine
end

section
/-! PROOF. DELETE_ENTRY and CLEAR_SEASON (R122, R123): their refusals, their answers where there is nothing to remove, and the
edits they make. -/

namespace Sys2Proof.Machine

section
variable (s : State) (x : TableId)

/-! ## The branches of DELETE_ENTRY -/

section
variable {id : Nat}

/-- A table or an entry id out of range (R190). -/
theorem actDeleteEntry_out_of_range {a : Byte} (hid : id < 65536)
    (h : ¬(1 ≤ a.toNat ∧ a.toNat ≤ 2 ∧ 1 ≤ id ∧ id ≤ 9999)) :
    actDeleteEntry (a :: wordArg id) s = s.refuse .badArgument := by
  rw [actDeleteEntry, args_byte_word a hid]
  dsimp only
  by_cases ha : 1 ≤ a.toNat ∧ a.toNat ≤ 2
  · have out : decide (1 ≤ id ∧ id ≤ 9999) = false := decide_eq_false fun within => h ⟨ha.1, ha.2, within⟩
    rw [out]
    cases tableOf a.toNat <;> rfl
  · rw [tableOf_eq_none ha]

variable (within : 1 ≤ id ∧ id ≤ 9999)
include within

theorem actDeleteEntry_not_configured (h : s.cfg.configured = false) :
    actDeleteEntry (tableArg x ++ wordArg id) s = s.refuse .notConfigured := by
  rw [actDeleteEntry, args_tableWord x (by omega)]
  simp [tableOf_code, within, h]

/-- The table holds no entry of the id: there is nothing to delete. -/
theorem actDeleteEntry_absent (h : s.cfg.configured = true) (absent : entryOf (s.season.table x) id = none) :
    actDeleteEntry (tableArg x ++ wordArg id) s = s.tell [] := by
  rw [actDeleteEntry, args_tableWord x (by omega)]
  simp [tableOf_code, within, h, absent]

theorem actDeleteEntry_in_use {e : Entry} (h : s.cfg.configured = true) (held : entryOf (s.season.table x) id = some e)
    (used : s.run.inUse x e = true) : actDeleteEntry (tableArg x ++ wordArg id) s = s.refuse .inUse := by
  rw [actDeleteEntry, args_tableWord x (by omega)]
  simp [tableOf_code, within, h, held, used]

/-- An entry that is not in use is deleted. -/
theorem actDeleteEntry_deleted {e : Entry} (h : s.cfg.configured = true) (held : entryOf (s.season.table x) id = some e)
    (unused : s.run.inUse x e = false) :
    actDeleteEntry (tableArg x ++ wordArg id) s = s.answer .done [] (s.deleteEntry x id) := by
  rw [actDeleteEntry, args_tableWord x (by omega)]
  simp [tableOf_code, within, h, held, unused]

end

/-! ## The branches of CLEAR_SEASON -/

/-- A table out of range (R190). -/
theorem actClearSeason_out_of_range {a : Byte} (h : ¬(1 ≤ a.toNat ∧ a.toNat ≤ 2)) :
    actClearSeason [a] s = s.refuse .badArgument := by
  rw [actClearSeason, args_byte]
  simp only [tableOf_eq_none h]

theorem actClearSeason_not_configured (h : s.cfg.configured = false) :
    actClearSeason (tableArg x) s = s.refuse .notConfigured := by
  rw [actClearSeason, args_table]
  simp [tableOf_code, h]

theorem actClearSeason_in_use (h : s.cfg.configured = true) (used : (s.season.table x).any (s.run.inUse x) = true) :
    actClearSeason (tableArg x) s = s.refuse .inUse := by
  rw [actClearSeason, args_table]
  simp only [tableOf_code, h, used, Bool.not_true, Bool.false_eq_true, if_false, if_true]

/-- The table is empty: there is nothing to clear. -/
theorem actClearSeason_empty (h : s.cfg.configured = true) (empty : s.season.table x = []) :
    actClearSeason (tableArg x) s = s.tell [] := by
  rw [actClearSeason, args_table]
  simp [tableOf_code, h, empty]

/-- A table that holds entries, none of them in use, is cleared. -/
theorem actClearSeason_cleared (h : s.cfg.configured = true) (unused : (s.season.table x).any (s.run.inUse x) = false)
    (held : s.season.table x ≠ []) : actClearSeason (tableArg x) s = s.answer .done [] (s.clearTable x) := by
  have filled : (s.season.table x).isEmpty = false := List.isEmpty_eq_false_iff.mpr held
  rw [actClearSeason, args_table]
  simp only [tableOf_code, h, unused, filled, Bool.not_true, Bool.false_eq_true, if_false]

/-! ## The edits -/

theorem deleteEntry_edited (id : Nat) :
    TableEdited s (s.deleteEntry x id) x ((s.season.table x).filter fun e => e.id != id) :=
  tableEdited_setTable s x (removeEntry (s.season.table x) id)

theorem deleteEntry_links (id : Nat) (d : Desk) : LinkCalm (s.link d) ((s.deleteEntry x id).link d) :=
  edited_links (s.modSeason _) x d

theorem clearTable_edited : TableEdited s (s.clearTable x) x [] := tableEdited_setTable s x []

theorem clearTable_links (d : Desk) : LinkCalm (s.link d) ((s.clearTable x).link d) := edited_links (s.modSeason _) x d

end

/-- Settles O38, by the branches of the two acts: the taken state has the tables and the run table of the state before, and where an
act removes something the table is written and edited. -/
theorem deleteAndClear : Obligations.DeleteAndClear := by
  unfold Obligations.DeleteAndClear
  intro s d tag serves
  refine ⟨fun a out => only_answered_of_refuse rfl serves (actClearSeason_out_of_range _ out),
    fun a id hid out => only_answered_of_refuse rfl serves (actDeleteEntry_out_of_range _ hid out), fun x id low high => ?_⟩
  have within : 1 ≤ id ∧ id ≤ 9999 := ⟨low, high⟩
  dsimp only
  simp only [← inUse_eq_any s.run x]
  refine ⟨fun absent => ⟨?_, ?_⟩, fun configured => ⟨?_, ?_, ?_, ?_, ?_, ?_⟩⟩
  · exact only_answered_of_refuse rfl serves (actDeleteEntry_not_configured (s.taken d tag 0x41) x within absent)
  · exact only_answered_of_refuse rfl serves (actClearSeason_not_configured (s.taken d tag 0x42) x absent)
  · intro absent
    exact sets_of_act rfl serves (actDeleteEntry_absent (s.taken d tag 0x41) x within configured absent)
  · intro e held used
    exact only_answered_of_refuse rfl serves (actDeleteEntry_in_use (s.taken d tag 0x41) x within configured held used)
  · intro e held unused
    have act := actDeleteEntry_deleted (s.taken d tag 0x41) x within configured held unused
    exact ⟨_, runs_of_act rfl serves act (deleteEntry_links _ x id), deleteEntry_edited (s.taken d tag 0x41) x id⟩
  · intro used
    exact only_answered_of_refuse rfl serves (actClearSeason_in_use (s.taken d tag 0x42) x configured used)
  · intro empty
    exact sets_of_act rfl serves (actClearSeason_empty (s.taken d tag 0x42) x configured empty)
  · intro unused held
    have act := actClearSeason_cleared (s.taken d tag 0x42) x configured unused held
    exact ⟨_, runs_of_act rfl serves act (clearTable_links _ x), clearTable_edited (s.taken d tag 0x42) x⟩

end Sys2Proof.Machine
end

