-- ==== Sys2Proof/Proofs/Inversion.lean ====
section
/-! SUPPORT. What a step can do, said once: the effects that an owner's act or an event has of its own, before the blocks run what
follows from it to its end, and the inversion of `ownerOf` and `exec` into these effects. -/

namespace Sys2Proof.Machine

/-! ## The acts of the desk commands -/

/-- The own effect of a desk command that the blocks then run to its end, with what its owner has found before. -/
inductive Effect (d : Desk) (s : State) : State → Prop
  | takeFree (n : Tx) : Effect d s (s.takeFree n d)
  | takeOver (n : Tx) (e : Desk) : Effect d s (s.takeOver n d e)
  | giveBack (n : Tx) (e : Desk) : Effect d s (s.giveBack n e)
  | setRequested (n : Tx) (l : Level) : Effect d s (s.setRequested n l)
  | tune (n : Tx) (f g : Nat) : Effect d s (s.tuneRequest n f g (.desk d)).2
  | clearTrip (n : Tx) : Effect d s (s.clearTrip n)
  | clearMark (m : Ant) : Effect d s (s.clearMark m)
  | enable (m : Ant) (asked : Word16) :
      Effect d s { s with enabled := s.enabled.set m (asked &&& s.cfg.active.supported[m]) }
  | route (n : Tx) (x : Dest) : Effect d s (s.routeRequest (.desk d) n x none).2
  | unroute (m : Ant) : Effect d s (s.earthRequest (.earthDesk d) m).2
  | slew (m : Ant) (az : Nat) : Effect d s (s.slewRequest d m az).2
  | stopSlew (m : Ant) : Effect d s (s.slewStop d m).2
  | calibrate (k : Rot) (b : Nat) : Effect d s (s.calibrate k b)
  | placeLock (g : Target) (reason : Nat) (taken : (s.placeLock g d reason).1.good = true) : Effect d s (s.placeLock g d reason).2
  | releaseLock (g : Target) (e : Desk) : Effect d s (s.releaseLock g e)
  | enterNormal (configured : s.cfg.configured = true) (waits : s.hall.state = .restoredWait) : Effect d s s.enterNormal
  | giveTime (t : Civil) : Effect d s (s.giveTime t)
  | openConfig (closed : s.cfg.openDesk = none) (rests : s.hallBusy = false) : Effect d s (s.openConfig d)
  | applyConfig (w : Configuration) (opened : s.cfg.openDesk = some d) (held : s.cfg.workspace = some w)
      (passes : closeCheck w = none) : Effect d s (s.applyConfig w)
  | abandonConfig (opened : s.cfg.openDesk = some d) : Effect d s s.abandonConfig
  | writeList (x : TableId) (records : List (List Byte)) : Effect d s (s.writeList x records).2
  | deleteEntry (x : TableId) (id : Nat) : Effect d s (s.deleteEntry x id)
  | clearTable (x : TableId) : Effect d s (s.clearTable x)

/-- The effect of a desk command that concerns no other block. -/
inductive Setting (d : Desk) (s : State) : State → Prop
  | nothing : Setting d s s
  | readAttention : Setting d s (s.modLink d fun l => { l with attn := l.attn &&& ~~~l.sub })
  | subscribe (mask : BitVec 12) : Setting d s (s.modLink d fun l => l.subscribe mask)
  | workspace (w : Configuration) : Setting d s (s.modCfg fun c => { c with workspace := some w })
  | closeFailed (k i : Nat) : Setting d s (s.modCfg fun c => { c with lastClose := some (.failed k i) })
  | startSave : Setting d s s.startSave
  | changeover (m : DayMinute) : Setting d s (s.modSeason fun x => { x with changeover := some m })
  | arm : Setting d s (s.modSeason fun x => { x with armed := true })
  | disarm : Setting d s ((s.modSeason fun x => { x with armed := false }).raiseIf s.season.armed .schedule)

/-- What an owner's act answers: an effect run to its end in every block, or a setting. -/
inductive Acts (d : Desk) (s : State) : Answer → Prop
  | runs {u : State} (st : Status) (p : List Byte) (h : Effect d s u) : Acts d s ⟨st, p, State.cascade s u⟩
  | sets {u : State} (st : Status) (p : List Byte) (h : Setting d s u) : Acts d s ⟨st, p, u⟩

section
variable {d : Desk} {s : State}

theorem Acts.refuse (e : Status) : Acts d s (s.refuse e) := .sets e [] .nothing

theorem Acts.tell (p : List Byte) : Acts d s (s.tell p) := .sets .done p .nothing

theorem Acts.answer {u : State} (st : Status) (p : List Byte) (h : Effect d s u) : Acts d s (s.answer st p u) := .runs st p h

theorem Acts.answerOf {a : Status × State} (h : a.1.good = true → Effect d s a.2) : Acts d s (s.answerOf a) := by
  unfold State.answerOf
  split
  · next good => exact .answer _ _ (h good)
  · exact .refuse _

variable (p : List Byte)

theorem acts_takeHand : Acts d s (actTakeHand d p s) := by
  unfold actTakeHand
  repeat' split
  all_goals with_reducible first | exact .refuse _ | exact .tell _ | exact .answer _ _ (.takeFree _) | exact .answer _ _ (.takeOver _ _)

theorem acts_returnHand : Acts d s (actReturnHand d p s) := by
  unfold actReturnHand
  repeat' split
  all_goals with_reducible first | exact .refuse _ | exact .answer _ _ (.giveBack _ _)

theorem acts_setRf : Acts d s (actSetRf d p s) := by
  unfold actSetRf
  repeat' split
  all_goals with_reducible first | exact .refuse _ | exact .answer _ _ (.setRequested _ _)

theorem acts_tune : Acts d s (actTune d p s) := by
  unfold actTune
  repeat' split
  all_goals with_reducible first | exact .refuse _ | exact .answerOf fun _ => .tune _ _ _

theorem acts_clearTrip : Acts d s (actClearTrip d p s) := by
  unfold actClearTrip
  repeat' split
  all_goals with_reducible first | exact .refuse _ | exact .answer _ _ (.clearTrip _)

theorem acts_clearAntennaFault : Acts d s (actClearAntennaFault p s) := by
  unfold actClearAntennaFault
  repeat' split
  all_goals with_reducible first | exact .refuse _ | exact .tell _ | exact .answer _ _ (.clearMark _)

theorem acts_setEnabledBands : Acts d s (actSetEnabledBands p s) := by
  unfold actSetEnabledBands
  repeat' split
  all_goals with_reducible first | exact .refuse _ | exact .answer _ _ (.enable _ _)

theorem acts_route : Acts d s (actRoute d p s) := by
  unfold actRoute
  repeat' split
  all_goals with_reducible first | exact .refuse _ | exact .answerOf fun _ => .route _ _

theorem acts_unroute : Acts d s (actUnroute d p s) := by
  unfold actUnroute
  repeat' split
  all_goals with_reducible first | exact .refuse _ | exact .answerOf fun _ => .unroute _

theorem acts_slew : Acts d s (actSlew d p s) := by
  unfold actSlew
  repeat' split
  all_goals with_reducible first | exact .refuse _ | exact .answerOf fun _ => .slew _ _

theorem acts_stopSlew : Acts d s (actStopSlew d p s) := by
  unfold actStopSlew
  repeat' split
  all_goals with_reducible first | exact .refuse _ | exact .answerOf fun _ => .stopSlew _

theorem acts_calibrateRotator : Acts d s (actCalibrateRotator p s) := by
  unfold actCalibrateRotator
  repeat' split
  all_goals with_reducible first | exact .refuse _ | exact .answer _ _ (.calibrate _ _)

theorem acts_placeLockout : Acts d s (actPlaceLockout d p s) := by
  unfold actPlaceLockout
  repeat' split
  all_goals with_reducible first | exact .refuse _ | exact .answerOf fun taken => .placeLock _ _ taken

theorem acts_releaseLockout : Acts d s (actReleaseLockout d p s) := by
  unfold actReleaseLockout
  repeat' split
  all_goals with_reducible first | exact .refuse _ | exact .tell _ | exact .answer _ _ (.releaseLock _ _)

theorem acts_ackHallSafe : Acts d s (actAckHallSafe d p s) := by
  unfold actAckHallSafe
  repeat' split
  all_goals with_reducible first | exact .refuse _ | exact .tell _ | skip
  next configured _ waits _ => exact .answer _ _ (.enterNormal (by simpa using configured) waits)

theorem acts_writeEntries : Acts d s (actWriteEntries p s) := by
  unfold actWriteEntries
  split
  · split
    · split
      · exact .refuse _
      · split
        · exact .refuse _
        · exact .runs _ _ (.writeList _ _)
    · exact .refuse _
  · exact .refuse _

theorem acts_deleteEntry : Acts d s (actDeleteEntry p s) := by
  unfold actDeleteEntry
  repeat' split
  all_goals with_reducible first | exact .refuse _ | exact .tell _ | exact .answer _ _ (.deleteEntry _ _)

theorem acts_clearSeason : Acts d s (actClearSeason p s) := by
  unfold actClearSeason
  repeat' split
  all_goals with_reducible first | exact .refuse _ | exact .tell _ | exact .answer _ _ (.clearTable _)

theorem acts_setChangeover : Acts d s (actSetChangeover p s) := by
  unfold actSetChangeover
  repeat' split
  all_goals with_reducible first | exact .refuse _ | exact .sets _ _ (.changeover _)

theorem acts_armSeason : Acts d s (actArmSeason p s) := by
  unfold actArmSeason
  repeat' split
  all_goals with_reducible first | exact .refuse _ | exact .sets _ _ .arm

theorem acts_disarm : Acts d s (actDisarm p s) := by
  unfold actDisarm
  repeat' split
  all_goals with_reducible first | exact .refuse _ | exact .sets _ _ .disarm

theorem acts_setSubscription : Acts d s (actSetSubscription d p s) := by
  unfold actSetSubscription
  repeat' split
  all_goals with_reducible first | exact .refuse _ | exact .sets _ _ (.subscribe _)

theorem acts_setClock : Acts d s (actSetClock p s) := by
  unfold actSetClock
  split
  · dsimp only
    repeat' split
    all_goals with_reducible first | exact .refuse _ | skip
    exact .runs _ _ (.giveTime _)
  · exact .refuse _

theorem acts_openConfig : Acts d s (actOpenConfig d p s) := by
  unfold actOpenConfig
  repeat' split
  all_goals with_reducible first | exact .refuse _ | exact .tell _ | skip
  next closed rests => exact .answer _ _ (.openConfig closed (by simpa using rests))

theorem acts_configure : Acts d s (actConfigure d p s) := by
  unfold actConfigure
  split
  · split
    · exact .refuse _
    · split
      · split
        · exact .refuse _
        · exact .sets _ _ (.workspace _)
      · exact .refuse _
  · exact .refuse _

theorem acts_closeConfig : Acts d s (actCloseConfig d p s) := by
  unfold actCloseConfig
  split
  · split
    · next e w opened held =>
      split
      · exact .refuse _
      · next same =>
        have same : e = d := by simpa using same
        split
        · exact .sets _ _ (.closeFailed _ _)
        · next passes => exact .answer _ _ (.applyConfig w (same ▸ opened) held passes)
    · exact .refuse _
  · exact .refuse _

theorem acts_abandonConfig : Acts d s (actAbandonConfig d p s) := by
  unfold actAbandonConfig
  repeat' split
  all_goals with_reducible first | exact .refuse _ | exact .tell _ | skip
  next e opened same =>
    have same : e = d := by simpa using same
    exact .answer _ _ (.abandonConfig (same ▸ opened))

theorem acts_saveConfig : Acts d s (actSaveConfig p s) := by
  unfold actSaveConfig
  repeat' split
  all_goals with_reducible first | exact .refuse _ | exact .sets _ _ .startSave

theorem acts_restart : Acts d s (actRestart p s) := by
  unfold actRestart
  split
  · exact .tell _
  · exact .refuse _

theorem acts_unknown : Acts d s (actUnknown s) := .refuse _

/-! The queries read and answer, or refuse. -/

theorem acts_describe : Acts d s (actDescribe p s) := by
  unfold actDescribe
  repeat' split
  all_goals with_reducible first | exact .refuse _ | exact .tell _

theorem acts_readHall : Acts d s (actReadHall p s) := by
  unfold actReadHall
  repeat' split
  all_goals with_reducible first | exact .refuse _ | exact .tell _

theorem acts_readTransmitter : Acts d s (actReadTransmitter p s) := by
  unfold actReadTransmitter
  repeat' split
  all_goals with_reducible first | exact .refuse _ | exact .tell _

theorem acts_readAntenna : Acts d s (actReadAntenna p s) := by
  unfold actReadAntenna
  repeat' split
  all_goals with_reducible first | exact .refuse _ | exact .tell _

theorem acts_readRotator : Acts d s (actReadRotator p s) := by
  unfold actReadRotator
  repeat' split
  all_goals with_reducible first | exact .refuse _ | exact .tell _

theorem acts_readRoutes : Acts d s (actReadRoutes p s) := by
  unfold actReadRoutes
  repeat' split
  all_goals with_reducible first | exact .refuse _ | exact .tell _

theorem acts_readEntries : Acts d s (actReadEntries p s) := by
  unfold actReadEntries
  repeat' split
  all_goals with_reducible first | exact .refuse _ | exact .tell _

theorem acts_readRun : Acts d s (actReadRun p s) := by
  unfold actReadRun
  repeat' split
  all_goals with_reducible first | exact .refuse _ | exact .tell _

theorem acts_readOutcomes : Acts d s (actReadOutcomes p s) := by
  unfold actReadOutcomes
  repeat' split
  all_goals with_reducible first | exact .refuse _ | exact .tell _

theorem acts_readLockouts : Acts d s (actReadLockouts p s) := by
  unfold actReadLockouts
  repeat' split
  all_goals with_reducible first | exact .refuse _ | exact .tell _

theorem acts_readClock : Acts d s (actReadClock p s) := by
  unfold actReadClock
  repeat' split
  all_goals with_reducible first | exact .refuse _ | exact .tell _

theorem acts_readAttention : Acts d s (actReadAttention d p s) := by
  unfold actReadAttention
  split
  · exact .sets _ _ .readAttention
  · exact .refuse _

end

/-- The owner of every code acts by one of the effects, or by a setting. -/
theorem acts_ownerOf (d : Desk) (r : Request) (s : State) : Acts d s (ownerOf d r s) := by
  generalize e : ownerOf d r = act
  unfold ownerOf at e
  split at e <;> subst e
  case h_1 => exact acts_describe _
  case h_2 => exact acts_readHall _
  case h_3 => exact acts_readTransmitter _
  case h_4 => exact acts_readAntenna _
  case h_5 => exact acts_readRotator _
  case h_6 => exact acts_readRoutes _
  case h_7 => exact acts_readEntries _
  case h_8 => exact acts_readRun _
  case h_9 => exact acts_readOutcomes _
  case h_10 => exact acts_readLockouts _
  case h_11 => exact acts_readAttention _
  case h_12 => exact acts_readClock _
  case h_13 => exact acts_takeHand _
  case h_14 => exact acts_returnHand _
  case h_15 => exact acts_route _
  case h_16 => exact acts_unroute _
  case h_17 => exact acts_setRf _
  case h_18 => exact acts_tune _
  case h_19 => exact acts_slew _
  case h_20 => exact acts_stopSlew _
  case h_21 => exact acts_calibrateRotator _
  case h_22 => exact acts_clearTrip _
  case h_23 => exact acts_clearAntennaFault _
  case h_24 => exact acts_setEnabledBands _
  case h_25 => exact acts_placeLockout _
  case h_26 => exact acts_releaseLockout _
  case h_27 => exact acts_ackHallSafe _
  case h_28 => exact acts_writeEntries _
  case h_29 => exact acts_deleteEntry _
  case h_30 => exact acts_clearSeason _
  case h_31 => exact acts_setChangeover _
  case h_32 => exact acts_armSeason _
  case h_33 => exact acts_disarm _
  case h_34 => exact acts_setSubscription _
  case h_35 => exact acts_setClock _
  case h_36 => exact acts_openConfig _
  case h_37 => exact acts_configure _
  case h_38 => exact acts_closeConfig _
  case h_39 => exact acts_abandonConfig _
  case h_40 => exact acts_saveConfig _
  case h_41 => exact acts_restart _
  case h_42 => exact acts_unknown

/-! ## The events and the steps -/

/-- The own effect `u` of an event outside the desk links, which the blocks then run to its end from `a`. -/
inductive Event (s : State) : State → State → Prop
  | warmRestart (h : s.isSettling = false) : Event s s (s.restart none)
  | settlingTimeout (h : s.settlingTimer.isRunning = true) :
      Event s (s.atExpiry s.settlingTimer) (s.atExpiry s.settlingTimer).settleEnd
  | position (w : Sw) (x : Confirmed) (h : s.cfg.swOk w = true) : Event s s (((s.takeReport w x).absorbAll).meetSw w)
  | travelTimeout (w : Sw) (h : (s.sw w).timeout.isRunning = true) :
      Event s (s.atExpiry (s.sw w).timeout) ((s.atExpiry (s.sw w).timeout).travelExpired w).absorbAll
  | reportWindowEnd (h : s.mx.reportWindow.isRunning = true) :
      Event s (s.atExpiry s.mx.reportWindow) (s.atExpiry s.mx.reportWindow).windowEnd.absorbAll
  | supplyHoldExpiry (h : s.mx.supplyHold.isRunning = true) :
      Event s (s.atExpiry s.mx.supplyHold) (s.atExpiry s.mx.supplyHold).supplyHeldNow.mxJudge.absorbAll
  | rfDropTimeout (n : Tx) : Event s s (s.dropExpired n)
  | tripWaitExpiry (n : Tx) : Event s s (s.tripExpired n).absorbAll
  | sensorFrame (k : Rot) (f : SensorFrame) : Event s s (s.acceptFrame k f)
  | frameTimeout (k : Rot) : Event s (s.atExpiry (s.rot[k]).frameTimer) ((s.atExpiry (s.rot[k]).frameTimer).frameExpired k)
  | reverseDwellEnd (k : Rot) : Event s s (s.dwellExpired k)
  | powerWaitExpiry (k : Rot) :
      Event s (s.atExpiry (s.slew[k]).powerWait) ((s.atExpiry (s.slew[k]).powerWait).slewFault k .powerNotReduced)
  | stallWindowExpiry (k : Rot) :
      Event s (s.atExpiry (s.slew[k]).stallWindow) ((s.atExpiry (s.slew[k]).stallWindow).slewFault k .stall)
  | slewTimerExpiry (k : Rot) :
      Event s (s.atExpiry (s.slew[k]).slewTimer) ((s.atExpiry (s.slew[k]).slewTimer).slewFault k .slewTimeout)
  | status (n : Tx) (r : StatusReport) : Event s s ((s.takeStatus n r).meetTx n)
  | silenceTimeout (n : Tx) : Event s (s.atExpiry (s.tx[n]).silence) ((s.atExpiry (s.tx[n]).silence).silenceExpired n)
  | tuneTimerExpiry (n : Tx) : Event s s (s.tuneExpired n)
  | feedTimerExpiry (n : Tx) : Event s s (s.feedExpired n)
  | recycleTimerExpiry (n : Tx) :
      Event s (s.atExpiry (s.tx[n]).recycleTimer) ((s.atExpiry (s.tx[n]).recycleTimer).recycleExpired n)
  | rfWatchExpiry (n : Tx) : Event s (s.atExpiry (s.tx[n]).rfWatch) ((s.atExpiry (s.tx[n]).rfWatch).countTrip n .other)
  | timePulse : Event s s s.pulse
  | tick : Event s (s.atExpiry s.clock.tick) (s.atExpiry s.clock.tick).tickExpired
  | time (t : Civil) : Event s s (s.takeTime t)
  | access (f : Filter AccessLevel) : Event s s (s.setAccess f)
  | supply (f : Filter SupplyLevel) : Event s s (s.setSupply f)
  | rfSense (n : Tx) (f : Filter RfLevel) : Event s s (s.setRfSense n f)

/-- A reply sent: it has left the queue, and the request in progress stands as `progress`. -/
def State.replyGone (s : State) (d : Desk) (tag : Byte) (st : Status) (p : List Byte) (rest : List Frame)
    (progress : Option (Byte × Byte)) : State :=
  (s.modLink d fun _ => { (s.link d).dropSent with queue := rest, inProgress := progress }).send (.deskFrames d (replyFrames tag st p))

/-- What a command other than POWER_UP makes of a state. -/
inductive Steps (s : State) : State → Prop
  | stays : Steps s s
  | event {a u : State} (h : Event s a u) : Steps s (State.event a u)
  | request (d : Desk) (tag code : Byte) {act : State → Answer} (h : ∀ z, Acts d z (act z)) : Steps s (s.request_ d tag code act)
  | examines (d : Desk) (bytes : List Byte) (gap : Timer) : Steps s (s.examine d bytes gap)
  | gapEnds (d : Desk) (due : Nat) (bytes : List Byte) (gap : Timer) : Steps s ((s.atExpiry (.running due)).examine d bytes gap)
  | replySent (d : Desk) (tag : Byte) (st : Status) (p : List Byte) (b : Bool) (rest : List Frame) (progress : Option (Byte × Byte))
      (h : (s.link d).dropSent.queue = .reply tag st p b :: rest) : Steps s (s.replyGone d tag st p rest progress)
  | restarts (d : Desk) (tag : Byte) (st : Status) (p : List Byte) (b : Bool) (rest : List Frame) (progress : Option (Byte × Byte))
      (h : (s.link d).dropSent.queue = .reply tag st p b :: rest) :
      Steps s (State.event (s.replyGone d tag st p rest progress) ((s.replyGone d tag st p rest progress).restart (some d)))
  | attentionEmpty (d : Desk) (rest : List Frame) (h : (s.link d).dropSent.queue = .attnWaiting :: rest) :
      Steps s (s.modLink d fun _ => { (s.link d).dropSent with queue := rest })
  | attentionSent (d : Desk) (rest : List Frame) (tag : Byte) (content : BitVec 12) (count : Byte) (frames : List (List Byte))
      (h : (s.link d).dropSent.queue = .attnWaiting :: rest) :
      Steps s ((s.modLink d fun _ => { (s.link d).dropSent with queue := .attnSending tag content :: rest, count := count }).send
        (.deskFrames d frames))
  | closedTimer : Steps s ((s.atExpiry s.hall.closed).modHall fun h =>
      { h with closed := .idle, closedRunOut := h.closedRunOut || h.state == .restoredWait })
  | saveComplete (bytes : List Byte) (answered : Bool) (faults : List (Nat × Byte)) (h : s.cfg.saving = some bytes)
      (inside : faultsInside faults = true) : Steps s (s.endSave bytes answered faults).flush

section
variable {s : State}

/-- An event that acts where its timer runs. -/
theorem steps_event_if {a u : State} (c : Bool) (h : c = true → Event s a u) : Steps s (if c = true then State.event a u else s) := by
  split
  · next hc => exact .event (h hc)
  · exact .stays

theorem steps_position {w : Option Sw} {r : Option Reading} {t : State} (h : execPosition w r s = .next t) : Steps s t := by
  unfold execPosition at h
  injection h with h
  subst h
  split
  · exact .stays
  · next w x ok =>
    refine .event (.position w x ?_)
    unfold State.reportOk at ok
    grind

theorem steps_inputSample {x : Sample} {t : State} (h : execInputSample x s = .next t) : Steps s t := by
  unfold execInputSample at h
  injection h with h
  subst h
  cases x with
  | access l => exact .event (.access _)
  | supply l => exact .event (.supply _)
  | rf n l => exact .event (.rfSense n _)

theorem steps_replySent {d : Desk} {t : State} (h : execReplySent d s = .next t) : Steps s t := by
  unfold execReplySent at h
  injection h with h
  subst h
  dsimp only
  split
  · next tag st p b rest queue =>
    split
    · exact .restarts d tag st p b rest _ queue
    · exact .replySent d tag st p b rest _ queue
  · exact .stays

theorem steps_attentionFrame {d : Desk} {t : State} (h : execAttentionFrame d s = .next t) : Steps s t := by
  unfold execAttentionFrame at h
  injection h with h
  subst h
  dsimp only
  split
  · next rest queue =>
    split
    · exact .attentionEmpty d rest queue
    · exact .attentionSent d rest _ _ _ _ queue
  · exact .stays

theorem steps_interByteTimeout {d : Desk} {t : State} (h : execInterByteTimeout d s = .next t) : Steps s t := by
  unfold execInterByteTimeout at h
  injection h with h
  subst h
  split
  · exact .gapEnds d _ _ _
  · exact .stays

theorem steps_saveComplete {answered : Bool} {faults : List (Nat × Byte)} {t : State}
    (h : execSaveComplete answered faults s = .next t) : Steps s t := by
  unfold execSaveComplete at h
  split at h
  · injection h with h
    exact h ▸ .stays
  · next bytes saving =>
    split at h
    · next inside =>
      injection h with h
      exact h ▸ .saveComplete bytes answered faults saving inside
    · cases h

theorem steps_warmRestart {t : State} (h : execWarmRestart s = .next t) : Steps s t := by
  unfold execWarmRestart at h
  injection h with h
  subst h
  split
  · exact .stays
  · next free => exact .event (.warmRestart (by simpa using free))

end

/-- The row of a desk command is the act of the owner of its code behind the link; the row of unknown codes takes any code. -/
theorem exec_request {c : Instr} {d : Desk} {tag code : Byte} {p : List Byte} (h : c.request = some (d, tag, code, p)) (s : State) :
    exec c s = .next (s.request_ d tag code (ownerOf d ⟨tag, code, p⟩)) ∨
      c = .unknownCommand d tag code p ∧ exec c s = .next (s.request_ d tag code actUnknown) := by
  cases c
  case unknownCommand =>
    simp only [Instr.request, Option.some.injEq, Prod.mk.injEq] at h
    obtain ⟨rfl, rfl, rfl, rfl⟩ := h
    exact .inr ⟨rfl, rfl⟩
  all_goals
    simp only [Instr.request, Option.some.injEq, Prod.mk.injEq, reduceCtorEq] at h
    try
      obtain ⟨rfl, rfl, rfl, rfl⟩ := h
      exact .inl rfl

/-- Whatever a command makes of a state is one of these steps. -/
theorem exec_steps {c : Instr} {s t : State} (h : exec c s = .next t) (other : c ≠ .powerUp) : Steps s t := by
  cases hr : c.request with
  | some x =>
    obtain ⟨d, tag, code, p⟩ := x
    obtain runs | ⟨-, runs⟩ := exec_request hr s
    · rw [runs] at h
      injection h with h
      exact h ▸ .request d tag code (acts_ownerOf d _)
    · rw [runs] at h
      injection h with h
      exact h ▸ .request d tag code fun _ => acts_unknown
  | none =>
  cases c
  case powerUp => exact absurd rfl other
  case warmRestart => exact steps_warmRestart h
  case frameDiscard d b => injection h with h; exact h ▸ .examines d _ _
  case deskByteArrival d b => injection h with h; exact h ▸ .examines d _ _
  case interByteTimeout d => exact steps_interByteTimeout h
  case replySent d => exact steps_replySent h
  case attentionFrame d => exact steps_attentionFrame h
  case position w r => exact steps_position h
  case inputSample x => exact steps_inputSample h
  case saveComplete answered faults => exact steps_saveComplete h
  case closedTimerExpiry =>
    injection h with h
    subst h
    split
    · exact .closedTimer
    · exact .stays
  case settlingTimeout => injection h with h; exact h ▸ steps_event_if _ .settlingTimeout
  case travelTimeout w => injection h with h; exact h ▸ steps_event_if _ (.travelTimeout w)
  case reportWindowEnd => injection h with h; exact h ▸ steps_event_if _ .reportWindowEnd
  case supplyHoldExpiry => injection h with h; exact h ▸ steps_event_if _ .supplyHoldExpiry
  case rfDropTimeout n => injection h with h; exact h ▸ .event (.rfDropTimeout n)
  case tripWaitExpiry n => injection h with h; exact h ▸ .event (.tripWaitExpiry n)
  case sensorFrame k f => injection h with h; exact h ▸ steps_event_if _ fun _ => .sensorFrame k f
  case frameTimeout k => injection h with h; exact h ▸ steps_event_if _ fun _ => .frameTimeout k
  case reverseDwellEnd k => injection h with h; exact h ▸ .event (.reverseDwellEnd k)
  case powerWaitExpiry k => injection h with h; exact h ▸ steps_event_if _ fun _ => .powerWaitExpiry k
  case stallWindowExpiry k => injection h with h; exact h ▸ steps_event_if _ fun _ => .stallWindowExpiry k
  case slewTimerExpiry k => injection h with h; exact h ▸ steps_event_if _ fun _ => .slewTimerExpiry k
  case status n r => injection h with h; exact h ▸ steps_event_if _ fun _ => .status n r
  case silenceTimeout n => injection h with h; exact h ▸ steps_event_if _ fun _ => .silenceTimeout n
  case tuneTimerExpiry n => injection h with h; exact h ▸ .event (.tuneTimerExpiry n)
  case feedTimerExpiry n => injection h with h; exact h ▸ .event (.feedTimerExpiry n)
  case recycleTimerExpiry n => injection h with h; exact h ▸ steps_event_if _ fun _ => .recycleTimerExpiry n
  case rfWatchExpiry n => injection h with h; exact h ▸ steps_event_if _ fun _ => .rfWatchExpiry n
  case timePulse => injection h with h; exact h ▸ .event .timePulse
  case tick => injection h with h; exact h ▸ steps_event_if _ fun _ => .tick
  case time m => injection h with h; exact h ▸ steps_event_if _ fun _ => .time _
  case accessChange l => injection h with h; exact h ▸ .event (.access _)
  case supplyChange l => injection h with h; exact h ▸ .event (.supply _)
  case rfSenseChange n l => injection h with h; exact h ▸ .event (.rfSense n _)
  all_goals cases hr

theorem exec_powerUp_or_steps {c : Instr} {s t : State} (h : exec c s = .next t) : c = .powerUp ∧ t = s.powerUp ∨ Steps s t := by
  by_cases power : c = .powerUp
  · subst power
    injection h with h
    exact .inl ⟨rfl, h.symm⟩
  · exact .inr (exec_steps h power)

end Sys2Proof.Machine
end

