-- ==== Sys2Proof/Proofs/Preserved.lean ====
section
/-! SUPPORT. The induction over a step, packaged once: a predicate that the effects, settings and events keep, and that does not look
at links, time and what was sent, is kept by every step. -/

namespace Sys2Proof.Machine

/-- A predicate on states that every command keeps. What it says is nothing of the links, the waiting commands, the timebase and what
was sent. -/
structure Preserved (P : State → Prop) : Prop where
  links : ∀ {s : State} (ls : Vector Link 3), P s → P { s with links := ls }
  pending : ∀ {s : State} (cs : List Instr), P s → P { s with pending := cs }
  timebase : ∀ {s : State} (k : Nat), P s → P { s with timebase := k }
  send : ∀ {s : State} (o : Output), P s → P (s.send o)
  powerUp : ∀ {s : State}, P s → P s.powerUp
  setting : ∀ {d : Desk} {s u : State}, Setting d s u → P s → P u
  effect : ∀ {d : Desk} {s u : State}, Effect d s u → P s → P (State.cascade s u)
  event : ∀ {s a u : State}, Event s a u → P s → P (State.cascade a u)
  restart : ∀ {s : State} (d : Desk), P s → P (State.cascade s (s.restart (some d)))
  closedTimer : ∀ {s : State}, P s → P (s.modHall fun h =>
    { h with closed := .idle, closedRunOut := h.closedRunOut || h.state == .restoredWait })
  endSave : ∀ {s : State} (bytes : List Byte) (answered : Bool) (faults : List (Nat × Byte)), s.cfg.saving = some bytes →
    faultsInside faults = true → P s → P (s.endSave bytes answered faults)

namespace Preserved
variable {P : State → Prop} (hP : Preserved P) {s : State}
include hP

theorem atExpiry (t : Timer) (h : P s) : P (s.atExpiry t) := by
  unfold State.atExpiry
  split
  · exact hP.timebase _ h
  · exact h

theorem modLink (d : Desk) (f : Link → Link) (h : P s) : P (s.modLink d f) := hP.links _ h

theorem flush (h : P s) : P s.flush := hP.links _ h

theorem acts {d : Desk} {a : Answer} (h : P s) (acts : Acts d s a) : P a.state := by
  obtain ⟨_, _, e⟩ | ⟨_, _, e⟩ := acts <;> dsimp only
  · exact hP.effect e h
  · exact hP.setting e h

theorem handOn {d : Desk} {tag code : Byte} {act : State → Answer} (acts : ∀ z, Acts d z (act z)) (h : P s) :
    P (s.handOn d tag code act) := by
  unfold State.handOn
  split
  · exact hP.modLink _ _ h
  · refine hP.flush (hP.modLink _ _ ?_)
    unfold State.ownerActs
    split
    · dsimp only [State.refuse]
      exact hP.modLink d _ h
    · exact hP.acts (hP.modLink d _ h) (acts _)

theorem examine (d : Desk) (bytes : List Byte) (gap : Timer) (h : P s) : P (s.examine d bytes gap) := by
  have all : ∀ (rs : List Request) (z : State), P z →
      P (rs.foldl (fun s r => s.handOn d r.tag r.code (ownerOf d r)) z) := by
    intro rs
    induction rs with
    | nil => exact fun _ hz => hz
    | cons r rs ih => exact fun z hz => ih _ (hP.handOn (acts_ownerOf d r) hz)
  exact all _ _ (hP.modLink _ _ h)

theorem steps {t : State} (h : P s) (k : Steps s t) : P t := by
  cases k with
  | stays => exact h
  | event e => exact hP.flush (hP.event e h)
  | request d tag code acts => exact hP.handOn acts (hP.modLink _ _ h)
  | examines d bytes gap => exact hP.examine d bytes gap h
  | gapEnds d due bytes gap => exact hP.examine d bytes gap (hP.atExpiry _ h)
  | replySent => exact hP.send _ (hP.modLink _ _ h)
  | restarts d => exact hP.flush (hP.restart d (hP.send _ (hP.modLink _ _ h)))
  | attentionEmpty => exact hP.modLink _ _ h
  | attentionSent => exact hP.send _ (hP.modLink _ _ h)
  | closedTimer => exact hP.closedTimer (hP.atExpiry _ h)
  | saveComplete bytes answered faults saving inside => exact hP.flush (hP.endSave bytes answered faults saving inside h)

/-- Every step keeps the predicate. -/
theorem step {t : State} (h : P s) (k : Machine.step s = .next t) : P t := by
  unfold Machine.step at k
  split at k
  · injection k with k
    exact k ▸ hP.timebase _ h
  · obtain ⟨-, rfl⟩ | steps := exec_powerUp_or_steps k
    · exact hP.powerUp (hP.pending _ h)
    · exact hP.steps (hP.pending _ h) steps

end Preserved

end Sys2Proof.Machine
end

