-- ==== Sys2Proof/Proofs/PermitsAndGuard.lean ====
section
/-! PROOF. The two invariants that every act makes anew at its end: permits that are current, and guard holds where their rules ask
for them. -/

namespace Sys2Proof.Machine

/-- Two states that differ at most in links, time, seasons, what is sent and what waits, in the closed timer of the hall, and in the
parts of the configuration store that editing and saving write: neither permits nor guard read those. -/
structure SameHall (a b : State) : Prop where
  mx : b.mx = a.mx
  tasks : b.tasks = a.tasks
  permit : b.permit = a.permit
  rot : b.rot = a.rot
  slew : b.slew = a.slew
  tx : b.tx = a.tx
  mark : b.faultMark = a.faultMark
  enabled : b.enabled = a.enabled
  run : b.run = a.run
  locks : b.locks = a.locks
  configured : b.cfg.configured = a.cfg.configured
  active : b.cfg.active = a.cfg.active
  openDesk : b.cfg.openDesk = a.cfg.openDesk
  settling : b.cfg.settling = a.cfg.settling
  hall : b.hall.state = a.hall.state
  rf : b.hall.rf = a.hall.rf

/-- The state with the fields of another that `SameHall` leaves open. -/
theorem SameHall.eq {a b : State} (h : SameHall a b) :
    b = { a with pending := b.pending, timebase := b.timebase, choices := b.choices, sent := b.sent, notices := b.notices,
                 season := b.season, clock := b.clock, links := b.links,
                 cfg := { b.cfg with configured := a.cfg.configured, active := a.cfg.active, openDesk := a.cfg.openDesk,
                                     settling := a.cfg.settling },
                 hall := { b.hall with state := a.hall.state, rf := a.hall.rf } } := by
  obtain ⟨h1, h2, h3, h4, h5, h6, h7, h8, h9, h10, h11, h12, h13, h14, h15, h16⟩ := h
  rw [← h1, ← h2, ← h3, ← h4, ← h5, ← h6, ← h7, ← h8, ← h9, ← h10, ← h11, ← h12, ← h13, ← h14, ← h15, ← h16]

theorem Setting.sameHall {d : Desk} {s u : State} (h : Setting d s u) : SameHall s u := by
  cases h
  case disarm => unfold State.raiseIf; split <;> constructor <;> rfl
  all_goals constructor <;> rfl

/-- A predicate that the end of every act makes anew, whatever the act did, and that reads nothing that `SameHall` leaves open. -/
theorem preserved_of_cascade {P : State → Prop} (cascade : ∀ a u : State, P (State.cascade a u)) (power : ∀ s : State, P s.powerUp)
    (same : ∀ {a b : State}, SameHall a b → P a → P b) : Preserved P where
  links _ h := same (by constructor <;> rfl) h
  pending _ h := same (by constructor <;> rfl) h
  timebase _ h := same (by constructor <;> rfl) h
  send _ h := same (by constructor <;> rfl) h
  powerUp _ := power _
  setting k h := same k.sameHall h
  effect _ _ := cascade _ _
  event _ _ := cascade _ _
  restart _ _ := cascade _ _
  closedTimer h := same (by constructor <;> rfl) h
  endSave _ _ _ _ _ h := same (by constructor <;> rfl) h

/-! ## The permits -/

theorem SameHall.current {a b : State} (h : SameHall a b) (k : PermitsCurrent a) : PermitsCurrent b := by
  rw [h.eq]
  exact fun n => k n

/-- Settles O5: the end of every act computes every permit record anew, and what no act follows reads nothing that a permit reads. -/
theorem permitsCurrentKept : Obligations.PermitsCurrentKept := fun _ _ h k =>
  (preserved_of_cascade cascade_current (fun _ => permitSync_current _) SameHall.current).step h k

/-! ## The guard -/

theorem mem_allTx (n : Tx) : n ∈ allTx := by revert n; decide

theorem mem_allSw (w : Sw) : w ∈ allSw := by cases w <;> simp [allSw, mem_allAnt, mem_allTx]

theorem pathMoving_iff (x : Matrix) (n : Tx) : x.pathMoving n = true ↔ ∃ w : Sw, x.onPath n w = true ∧ (x.get w).state ≠ .steady := by
  simp [Matrix.pathMoving, Matrix.path, mem_allSw]

/-- The guard hold of one transmitter stands where its rules ask for it, and nowhere else (R42, R43). -/
def GuardRight (s : State) (n : Tx) : Prop :=
  (s.rfPresent n = true → s.mx.pathMoving n = true → (s.permit[n]).holds.guard = true) ∧
    ((s.permit[n]).holds.guard = true → s.rfPresent n = true ∨ s.mx.pathMoving n = true ∨ s.isSettling = true)

theorem guardHolds_iff (s : State) : GuardHolds s ↔ ∀ n, GuardRight s n := by
  simp only [GuardHolds, GuardRight, pathMoving_iff]
  rfl

/-- What the guard's judgement reads of a state. -/
structure SameGuard (a b : State) : Prop where
  mx : b.mx = a.mx
  rf : b.hall.rf = a.hall.rf
  settling : b.isSettling = a.isSettling
  guard : ∀ n : Tx, (b.permit[n]).holds.guard = (a.permit[n]).holds.guard

theorem SameGuard.right {a b : State} (h : SameGuard a b) {n : Tx} (k : GuardRight a n) : GuardRight b n := by
  have rf : b.rfPresent n = a.rfPresent n := by simp only [State.rfPresent, h.rf]
  unfold GuardRight
  rw [rf, h.mx, h.settling, h.guard]
  exact k

theorem SameGuard.refl (a : State) : SameGuard a a := ⟨rfl, rfl, rfl, fun _ => rfl⟩

theorem SameGuard.trans {a b c : State} (h : SameGuard a b) (k : SameGuard b c) : SameGuard a c :=
  ⟨k.mx.trans h.mx, k.rf.trans h.rf, k.settling.trans h.settling, fun n => (k.guard n).trans (h.guard n)⟩

/-- An update of one permit record that leaves its guard hold. -/
theorem sameGuard_modPermit (s : State) (n : Tx) (f : PermitRec → PermitRec) (hf : ∀ p, (f p).holds.guard = p.holds.guard) :
    SameGuard s (s.modPermit n f) := by
  refine ⟨rfl, rfl, rfl, fun m => ?_⟩
  by_cases e : m = n
  · subst e
    rw [modPermit_same, hf]
  · rw [modPermit_other s n m f e]

theorem SameGuard.modTx {a s : State} (h : SameGuard a s) (n : Tx) (f : TxRec → TxRec) : SameGuard a (s.modTx n f) :=
  h.trans ⟨rfl, rfl, rfl, fun _ => rfl⟩

theorem SameGuard.modForces {a s : State} (h : SameGuard a s) (n : Tx) (f : Forces → Forces) : SameGuard a (s.modForces n f) :=
  h.trans (sameGuard_modPermit s n _ fun _ => rfl)

theorem SameGuard.notifyAll {a s : State} (h : SameGuard a s) (xs : List Notice) : SameGuard a (s.notifyAll xs) :=
  h.trans ⟨rfl, rfl, rfl, fun _ => rfl⟩

theorem SameGuard.notify {a s : State} (h : SameGuard a s) (x : Notice) : SameGuard a (s.notify x) := h.notifyAll [x]

theorem sameGuard_endOrder (s : State) (n : Tx) (f : Option OrderFail) : SameGuard s (s.endOrder n f) := by
  unfold State.endOrder
  split
  · exact .refl s
  · dsimp only
    split <;> exact ⟨rfl, rfl, rfl, fun _ => rfl⟩

theorem sameGuard_guardTrip (s : State) (n : Tx) : SameGuard s (s.guardTrip n) := by
  unfold State.guardTrip
  split
  · dsimp only
    have marked := (sameGuard_endOrder s n (some .tripped)).modTx n
    split
    · exact (marked _).notify _
    · exact ((marked _).modForces n _).notify _
  · exact .refl s

/-- A guard hold written, which leaves the others. -/
theorem guardRight_modHolds_other {s : State} {n m : Tx} (b : Bool) (h : m ≠ n) (k : GuardRight s m) :
    GuardRight (s.modHolds n fun h => { h with guard := b }) m := by
  unfold GuardRight
  rw [State.modHolds, modPermit_other s n m _ h]
  exact k

/-- The guard's judgement makes its own hold right and leaves the others (R42, R43). -/
theorem guardOne_right (s : State) (n m : Tx) (h : m = n ∨ GuardRight s m) : GuardRight (s.guardOne n) m := by
  unfold State.guardOne
  by_cases e : m = n
  · subst e
    split
    · next held =>
      split
      · next rest =>
        simp only [Bool.and_eq_true, Bool.not_eq_true'] at rest
        obtain ⟨⟨rf, rest⟩, -⟩ := rest
        exact ⟨fun present _ => Bool.noConfusion (rf.symm.trans present), fun held => absurd held (by simp [State.modHolds])⟩
      · next busy =>
        refine ⟨fun _ _ => held, fun _ => ?_⟩
        cases hr : s.rfPresent m <;> cases hp : s.mx.pathMoving m <;> simp_all
    · next free =>
      split
      · next asked =>
        simp only [State.guardCondition, Bool.and_eq_true] at asked
        obtain ⟨rf, moving⟩ := asked
        have acted : SameGuard (s.modHolds m fun h => { h with guard := true }) (s.guardAct m) :=
          (sameGuard_guardTrip _ m).trans ⟨rfl, rfl, rfl, fun _ => rfl⟩
        refine acted.right ⟨fun _ _ => ?_, fun _ => .inl rf⟩
        simp [State.modHolds]
      · next rests =>
        refine ⟨fun rf moving => absurd ?_ rests, fun held => absurd held free⟩
        simp only [State.guardCondition, Bool.and_eq_true]
        exact ⟨rf, moving⟩
  · have k := h.resolve_left e
    split
    · split
      · exact guardRight_modHolds_other false e k
      · exact k
    · split
      · have acted : SameGuard (s.modHolds n fun h => { h with guard := true }) (s.guardAct n) :=
          (sameGuard_guardTrip _ n).trans ⟨rfl, rfl, rfl, fun _ => rfl⟩
        exact acted.right (guardRight_modHolds_other true e k)
      · exact k

theorem guardSync_right (s : State) (n : Tx) : GuardRight s.guardSync n := by
  have all : ∀ (ns : List Tx) (z : State), (n ∈ ns ∨ GuardRight z n) → GuardRight (forAll ns (fun n s => s.guardOne n) z) n := by
    intro ns
    induction ns with
    | nil => exact fun z h => h.resolve_left (List.not_mem_nil)
    | cons m ns ih =>
      intro z h
      refine ih _ ?_
      by_cases e : n ∈ ns
      · exact .inl e
      · refine .inr (guardOne_right z m n ?_)
        simpa [e] using h
  exact all allTx s (.inl (mem_allTx n))

theorem sameGuard_permitSync (s : State) : SameGuard s s.permitSync :=
  ⟨rfl, rfl, by simp [State.isSettling, State.permitSync], fun n => by rw [permitSync_permit]; rfl⟩

theorem sameGuard_radiateOne (s : State) (n : Tx) : SameGuard s (s.radiateOne n) := by
  unfold State.radiateOne
  dsimp only
  repeat' split
  all_goals exact ⟨rfl, rfl, rfl, fun _ => rfl⟩

theorem sameGuard_watchOne (s : State) (n : Tx) : SameGuard s (s.watchOne n) := by
  unfold State.watchOne
  repeat' split
  all_goals exact ⟨rfl, rfl, rfl, fun _ => rfl⟩

/-- Behind the guard's judgement the permits and the marks of the transmitters leave its holds and what it reads. -/
theorem sameGuard_sync (s : State) : SameGuard s.absorbAll.guardSync s.sync := by
  have all : ∀ (ns : List Tx) (z : State), SameGuard z (forAll ns (fun n s => (s.radiateOne n).watchOne n) z) := by
    intro ns
    induction ns with
    | nil => exact fun z => .refl z
    | cons n ns ih => exact fun z => ((sameGuard_radiateOne z n).trans (sameGuard_watchOne _ n)).trans (ih _)
  unfold State.sync
  exact (sameGuard_permitSync s.absorbAll.guardSync).trans (all allTx _)

/-- What the blocks have brought into line has every guard hold where its rules ask for it. -/
theorem observe_guard (a s : State) : GuardHolds (State.observe a s) := by
  rw [guardHolds_iff]
  intro n
  unfold State.observe
  exact ((sameGuard_sync s).notifyAll _).right (guardSync_right _ n)

/-- A predicate that bringing into line makes anew is made anew by the end of every act. -/
theorem cascade_of_observe {P : State → Prop} (h : ∀ a s : State, P (State.observe a s)) (a s : State) : P (State.cascade a s) := by
  have drains : ∀ (fuel : Nat) (z : State), P z → P (State.drain fuel z) := by
    intro fuel
    induction fuel with
    | zero => exact fun z hz => hz
    | succ k ih =>
      intro z hz
      unfold State.drain
      split
      · exact hz
      · exact ih _ (h _ _)
  exact drains _ _ (h a s)

theorem powerUp_guard (s : State) : GuardHolds s.powerUp := by
  rw [guardHolds_iff]
  intro n
  have rests : Matrix.powerUp.pathMoving n = false := by revert n; decide
  have free : (State.reset.permit[n]).holds.guard = false := by revert n; decide
  unfold State.powerUp
  exact (sameGuard_permitSync _).right
    ⟨fun _ moving => Bool.noConfusion (rests.symm.trans moving), fun held => Bool.noConfusion (free.symm.trans held)⟩

theorem SameHall.guard {a b : State} (h : SameHall a b) (k : GuardHolds a) : GuardHolds b := by
  rw [h.eq]
  exact fun n => k n

/-- Settles O7: the guard judges every transmitter at the end of every act, and what no act follows reads nothing that it reads. -/
theorem guardHoldsKept : Obligations.GuardHoldsKept := fun _ _ h k =>
  (preserved_of_cascade (cascade_of_observe observe_guard) powerUp_guard SameHall.guard).step h k

end Sys2Proof.Machine
end

