-- ==== Sys2Proof/Proofs/Queries.lean ====
section
/-! PROOF. The front of the queue, the queries (R64, R92, R130, R154, R182, R190, R193, R196, R207), and requests refused BUSY (R186,
R208). -/

namespace Sys2Proof.Machine

/-- Settles O1. -/
theorem stepTakesFront : Obligations.StepTakesFront := fun _ _ => rfl

/-! ## The queries -/

section
variable {s : State} {d : Desk} {tag : Byte} {c : Instr} {code : Byte}

/-- A query whose owner tells the bytes of a record. -/
theorem only_told {act : State → Answer} {bytes : List Byte} (hc : exec c s = .next (s.request_ d tag code act)) (free : Free s d)
    (query : isQuery code = true) (ha : act (s.taken d tag code) = (s.taken d tag code).tell bytes) :
    OnlyAnswered c s d tag code .done bytes :=
  sets_of_query hc free query ha

/-- A query that its owner refuses. -/
theorem query_refused {act : State → Answer} {e : Status} (hc : exec c s = .next (s.request_ d tag code act)) (free : Free s d)
    (query : isQuery code = true) (ha : act (s.taken d tag code) = (s.taken d tag code).refuse e) :
    OnlyAnswered c s d tag code e [] :=
  sets_of_query hc free query ha

end

/-- Arguments of no byte are read from the empty payload alone. -/
theorem args_nil_eq_none {p : List Byte} (h : p ≠ []) : args [] p = none := by
  cases p with
  | nil => exact absurd rfl h
  | cons b bs => rfl

/-- Settles O16: each owner tells its record where the payload is empty, and refuses any other. -/
theorem wholeRecordQueries : Obligations.WholeRecordQueries := by
  intro s d tag free
  refine ⟨only_told rfl free rfl rfl, only_told rfl free rfl rfl, only_told rfl free rfl rfl, only_told rfl free rfl rfl,
    only_told rfl free rfl rfl, fun p h => ?_⟩
  have none := args_nil_eq_none h
  exact ⟨query_refused rfl free rfl (by simp only [actDescribe, none]), query_refused rfl free rfl (by simp only [actReadHall, none]),
    query_refused rfl free rfl (by simp only [actReadRoutes, none]), query_refused rfl free rfl (by simp only [actReadLockouts, none]),
    query_refused rfl free rfl (by simp only [actReadClock, none])⟩

/-! ## What a request taken leaves -/

section
variable (s : State) (d : Desk) (tag code : Byte)

@[simp] theorem taken_pending : (s.taken d tag code).pending = s.pending := rfl
@[simp] theorem taken_timebase : (s.taken d tag code).timebase = s.timebase := rfl
@[simp] theorem taken_choices : (s.taken d tag code).choices = s.choices := rfl
@[simp] theorem taken_sent : (s.taken d tag code).sent = s.sent := rfl
@[simp] theorem taken_notices : (s.taken d tag code).notices = s.notices := rfl
@[simp] theorem taken_cfg : (s.taken d tag code).cfg = s.cfg := rfl
@[simp] theorem taken_mx : (s.taken d tag code).mx = s.mx := rfl
@[simp] theorem taken_tasks : (s.taken d tag code).tasks = s.tasks := rfl
@[simp] theorem taken_permit : (s.taken d tag code).permit = s.permit := rfl
@[simp] theorem taken_rot : (s.taken d tag code).rot = s.rot := rfl
@[simp] theorem taken_slew : (s.taken d tag code).slew = s.slew := rfl
@[simp] theorem taken_tx : (s.taken d tag code).tx = s.tx := rfl
@[simp] theorem taken_faultMark : (s.taken d tag code).faultMark = s.faultMark := rfl
@[simp] theorem taken_enabled : (s.taken d tag code).enabled = s.enabled := rfl
@[simp] theorem taken_season : (s.taken d tag code).season = s.season := rfl
@[simp] theorem taken_run : (s.taken d tag code).run = s.run := rfl
@[simp] theorem taken_clock : (s.taken d tag code).clock = s.clock := rfl
@[simp] theorem taken_locks : (s.taken d tag code).locks = s.locks := rfl
@[simp] theorem taken_hall : (s.taken d tag code).hall = s.hall := rfl
@[simp] theorem taken_sw (w : Sw) : (s.taken d tag code).sw w = s.sw w := rfl
@[simp] theorem taken_isOpen : (s.taken d tag code).isOpen = s.isOpen := rfl
@[simp] theorem taken_isSettling : (s.taken d tag code).isSettling = s.isSettling := rfl
@[simp] theorem taken_hallSafe : (s.taken d tag code).hallSafe = s.hallSafe := rfl
@[simp] theorem taken_rfPresent (n : Tx) : (s.taken d tag code).rfPresent n = s.rfPresent n := rfl
@[simp] theorem taken_locked (g : Target) : (s.taken d tag code).locked g = s.locked g := rfl
@[simp] theorem taken_kept : (s.taken d tag code).kept = s.kept := rfl

end

/-! ## Arguments one by one -/

/-- A one-byte number is read back as itself. -/
theorem toNat_byte {n : Nat} (h : n < 256) : (BitVec.ofNat 8 n).toNat = n := by rw [BitVec.toNat_ofNat]; omega

/-- A number argument of one byte is read first, and then the rest. -/
theorem args_num_append {n : Nat} (h : n < 256) (ns : List Nat) (rest : List Byte) :
    args (1 :: ns) (numArg n ++ rest) = (args ns rest).map fun xs => n :: xs := by
  simp [args, numArg, numOf, Nat.mod_eq_of_lt h]

/-- A number argument of two bytes is read first, and then the rest. -/
theorem args_word_append {n : Nat} (h : n < 65536) (ns : List Nat) (rest : List Byte) :
    args (2 :: ns) (wordArg n ++ rest) = (args ns rest).map fun xs => n :: xs := by
  have len : (wordArg n).length = 2 := rfl
  rw [args, if_neg (by rw [List.length_append, len]; omega), List.drop_left' len, List.take_left' len, numOf_wordArg h]

theorem args_num {n : Nat} (h : n < 256) : args [1] (numArg n) = some [n] := by
  simpa [args] using args_num_append h [] []

theorem args_word {n : Nat} (h : n < 65536) : args [2] (wordArg n) = some [n] := by
  simpa [args] using args_word_append h [] []

theorem args_tx (n : Tx) : args [1] (txArg n) = some [n.val + 1] := args_num (by omega)

theorem args_rot (k : Rot) : args [1] (rotArg k) = some [k.val + 1] := args_num (by omega)

/-- The arguments of READ_ENTRIES are read back from the payload that carries them. -/
theorem args_tableWordNum (x : TableId) {start count : Nat} (hs : start < 65536) (hc : count < 256) :
    args [1, 2, 1] (tableArg x ++ wordArg start ++ numArg count) = some [x.code, start, count] := by
  have code : x.code < 256 := by cases x <;> decide
  rw [List.append_assoc, tableArg, args_num_append code, args_word_append hs, args_num hc]
  rfl

theorem args_numNum {a b : Nat} (ha : a < 256) (hb : b < 256) : args [1, 1] (numArg a ++ numArg b) = some [a, b] := by
  rw [args_num_append ha, args_num hb]
  rfl

/-- Settles O17: each owner finds its record by the number of its argument. -/
theorem chosenRecordQueries : Obligations.ChosenRecordQueries := by
  intro s d tag free
  refine ⟨fun n => ?_, fun m => ⟨fun ok => ?_, fun ok => ?_⟩, fun k => ⟨fun ok => ?_, fun ok => ?_⟩,
    fun n => ⟨fun ok => ?_, fun ok => ?_⟩, fun x start count hs h1 h8 => ?_,
    fun place count p1 p32 c1 c8 => ?_⟩
  · refine only_told rfl free rfl ?_
    simp only [actReadTransmitter, args_tx, txOf_txNumber]
    rfl
  · refine only_told rfl free rfl ?_
    simp only [actReadAntenna, args_ant, antOf_antNumber, taken_cfg, ok, if_true]
    rfl
  · refine query_refused rfl free rfl ?_
    simp only [actReadAntenna, args_ant, antOf_antNumber, taken_cfg, ok, Bool.false_eq_true, if_false]
  · refine only_told rfl free rfl ?_
    simp only [actReadRotator, args_rot, rotOf_rotNumber, taken_cfg, ok, if_true]
    rfl
  · refine query_refused rfl free rfl ?_
    simp only [actReadRotator, args_rot, rotOf_rotNumber, taken_cfg, ok, Bool.false_eq_true, if_false]
  · refine only_told rfl free rfl ?_
    simp only [actReadRun, args_tx, txOf_txNumber, taken_cfg, ok, if_true]
    rfl
  · refine query_refused rfl free rfl ?_
    simp only [actReadRun, args_tx, txOf_txNumber, taken_cfg, ok, Bool.false_eq_true, if_false]
  · have read := args_tableWordNum x (show start < 65536 by omega) (show count < 256 by omega)
    refine ⟨fun found => only_told rfl free rfl ?_, fun missing => query_refused rfl free rfl ?_⟩
    · have found : (start == 0 || (entryOf (s.season.table x) start).isSome) = true := by simpa using found
      simp only [actReadEntries, read, tableOf_code, taken_season, found, h1, h8, hs, and_self, decide_true, Bool.and_self, if_true]
      rfl
    · have missing : (start == 0 || (entryOf (s.season.table x) start).isSome) = false := by simpa using missing
      simp only [actReadEntries, read, tableOf_code, taken_season, missing, Bool.and_false, Bool.false_eq_true, if_false]
  · refine only_told rfl free rfl ?_
    simp only [actReadOutcomes, args_numNum (show place < 256 by omega) (show count < 256 by omega), p1, p32, c1, c8, and_self,
      decide_true, Bool.and_self, if_true]
    rfl

/-! ## The links after a reply -/

theorem taken_link_same (s : State) (d : Desk) (tag code : Byte) :
    (s.taken d tag code).link d = { s.link d with rx := [], byteGap := .idle, inProgress := some (tag, code) } := by
  rw [State.taken, modLink_same, State.hunt, modLink_same]

theorem taken_link_other (s : State) {d e : Desk} (tag code : Byte) (h : e ≠ d) : (s.taken d tag code).link e = s.link e := by
  rw [State.taken, modLink_other _ _ _ _ h, State.hunt, modLink_other _ _ _ _ h]

theorem replied_link_same (u : State) (d : Desk) (tag : Byte) (st : Status) (p : List Byte) :
    (u.replied d tag st p).link d = ((u.link d).push (.reply tag st p false)).flush := by
  rw [State.replied, flush_link, modLink_same]

theorem replied_link_other (u : State) {d e : Desk} (tag : Byte) (st : Status) (p : List Byte) (h : e ≠ d) :
    (u.replied d tag st p).link e = (u.link e).flush := by
  rw [State.replied, flush_link, modLink_other _ _ _ _ h]

@[simp] theorem modLink_kept (u : State) (d : Desk) (f : Link → Link) : (u.modLink d f).kept = u.kept := rfl
@[simp] theorem replied_kept (u : State) (d : Desk) (tag : Byte) (st : Status) (p : List Byte) :
    (u.replied d tag st p).kept = u.kept := rfl
@[simp] theorem replied_permit (u : State) (d : Desk) (tag : Byte) (st : Status) (p : List Byte) :
    (u.replied d tag st p).permit = u.permit := rfl
@[simp] theorem replied_sent (u : State) (d : Desk) (tag : Byte) (st : Status) (p : List Byte) :
    (u.replied d tag st p).sent = u.sent := rfl

/-- Where no attention frame is due, none joins the queue. -/
theorem linkFlush_of_not_due {l : Link} (h : l.due = false) : l.flush = l := by
  obtain ⟨rx, gap, progress, queue, count, attn, sub, due⟩ := l
  cases h
  simp [Link.flush]

@[simp] theorem linkFlush_sub (l : Link) : l.flush.sub = l.sub := by unfold Link.flush Link.push; dsimp only; split <;> rfl

@[simp] theorem linkFlush_rx (l : Link) : l.flush.rx = l.rx := by unfold Link.flush Link.push; dsimp only; split <;> rfl

@[simp] theorem linkFlush_byteGap (l : Link) : l.flush.byteGap = l.byteGap := by unfold Link.flush Link.push; dsimp only; split <;> rfl

@[simp] theorem linkFlush_inProgress (l : Link) : l.flush.inProgress = l.inProgress := by
  unfold Link.flush Link.push; dsimp only; split <;> rfl

@[simp] theorem linkFlush_count (l : Link) : l.flush.count = l.count := by unfold Link.flush Link.push; dsimp only; split <;> rfl

/-- A due attention frame stands behind the queue, unless one waits there already (R195). -/
theorem linkFlush_queue (l : Link) :
    l.flush.queue = if (l.due && !(l.queue.any Frame.isWaiting)) = true then l.queue ++ [.attnWaiting] else l.queue := by
  unfold Link.flush Link.push; dsimp only; split <;> rfl

/-- A link that keeps its queue and its attention count as it takes a request and its reply is answered. -/
theorem linkAnswered_of_push {a l : Link} {tag code : Byte} {st : Status} {p : List Byte} (receiver : l.rx = [] ∧ l.byteGap = .idle)
    (progress : l.inProgress = some (tag, code)) (queue : l.queue = a.queue) (count : l.count = a.count) :
    LinkAnswered a (l.push (.reply tag st p false)).flush tag code st p := by
  refine ⟨by simpa [Link.push] using receiver, by simpa [Link.push] using progress, ?_, by simpa [Link.push] using count⟩
  rw [linkFlush_queue]
  split <;> simp [Link.push, queue]

/-- Settles O18: the owner masks the sender's set, and with no frame due the reply is all that joins a queue. -/
theorem readAttentionClears : Obligations.ReadAttentionClears := by
  intro s d tag free told
  have sets : CommandSets (.readAttention d tag []) s d tag .done told
      ((s.taken d tag 0x0B).modLink d fun l => { l with attn := l.attn &&& ~~~l.sub }) := by
    refine sets_of_query rfl free rfl ?_
    simp only [actReadAttention, args, taken_link_same, told]
  refine ⟨sets, fun quiet => ⟨_, sets, by simp, by simp, by simp, ?_, ?_, fun e he => ?_⟩⟩
  · rw [replied_link_same, modLink_same, taken_link_same]
    exact linkAnswered_of_push ⟨rfl, rfl⟩ rfl rfl rfl
  · rw [replied_link_same, modLink_same, taken_link_same, linkFlush_attn]
    rfl
  · rw [replied_link_other _ _ _ _ he, modLink_other _ _ _ _ he, taken_link_other _ _ _ he, linkFlush_of_not_due (quiet e)]

/-! ## Requests refused BUSY, and the byte that completes a request -/

theorem modLink_modLink (s : State) (d : Desk) (f g : Link → Link) : (s.modLink d f).modLink d g = s.modLink d (g ∘ f) := by
  simp [State.modLink]

/-- A request on a link with one in progress is refused by the link itself (R186). -/
theorem request_busy {s : State} {d : Desk} (h : (s.link d).inProgress ≠ none) (tag code : Byte) (act : State → Answer) :
    s.request_ d tag code act = s.modLink d fun l =>
      { l with rx := [], byteGap := .idle,
               queue := if (l.queue.filter Frame.isLinkBusy).length < 14 then l.queue ++ [.reply tag .busy [] true] else l.queue } := by
  have busy : ((s.hunt d).link d).inProgress.isSome = true := by
    rw [State.hunt, modLink_same]
    exact Option.isSome_iff_ne_none.mpr h
  rw [State.request_, State.handOn, if_pos busy, State.hunt, modLink_modLink]
  congr 1
  funext l
  simp only [Function.comp, Link.refuseBusy, Link.push]
  split
  · rw [if_neg (by omega)]
  · rw [if_pos (by omega)]

/-- A command while settling is refused BUSY whatever its owner would do (R208). -/
theorem request_settling {s : State} {d : Desk} {code : Byte} (free : Free s d) (settling : s.isSettling = true)
    (other : isQuery code = false) (tag : Byte) (act : State → Answer) :
    s.request_ d tag code act = (s.taken d tag code).replied d tag .busy [] := by
  have idle : ((s.hunt d).link d).inProgress.isSome = false := by
    rw [State.hunt, modLink_same]
    simpa [Free] using free
  have settling : ((s.hunt d).modLink d fun l => { l with inProgress := some (tag, code) }).isSettling = true := settling
  simp only [State.request_, State.handOn, idle, Bool.false_eq_true, if_false, State.ownerActs, settling, other, Bool.not_false,
    Bool.and_self, if_true, State.refuse, State.taken, State.replied]

/-- Settles O19: a request meets the busy link, or the settling part, before its owner. -/
theorem busyRequestsDoNothing : Obligations.BusyRequestsDoNothing := by
  intro c s d tag code p request
  constructor
  · intro busy
    obtain runs | ⟨-, runs⟩ := exec_request request s <;> rw [runs, request_busy busy]
  · intro free settling other
    obtain runs | ⟨-, runs⟩ := exec_request request s <;>
      rw [OnlyAnswered, CommandSets, runs, request_settling free settling other]

end Sys2Proof.Machine
end

