-- ==== Sys2Proof/Proofs/Frames.lean ====
section
/-! PROOF. The receiver of a link (R184, R185): what it makes of a frame, and of bytes that hold none. -/

namespace Sys2Proof.Machine

/-! ## Scanning -/

/-- Two bytes that read as a word are its bytes (R184). -/
theorem bytes2_of_numOf {a b : Byte} {w : Word16} (h : numOf [a, b] = w.toNat) : bytes2 w = [a, b] := by
  have value : 256 * a.toNat + b.toNat = w.toNat := by simpa [numOf] using h
  have high : w.extractLsb' 8 8 = a := by
    apply BitVec.eq_of_toNat_eq
    rw [BitVec.extractLsb'_toNat, Nat.shiftRight_eq_div_pow]
    omega
  have low : w.extractLsb' 0 8 = b := by
    apply BitVec.eq_of_toNat_eq
    rw [BitVec.extractLsb'_toNat, Nat.shiftRight_zero]
    omega
  rw [bytes2, high, low]

theorem scan_nil (fuel : Nat) : scan fuel [] = ⟨[], []⟩ := by cases fuel <;> rfl

/-- Bytes other than sync are passed over. -/
theorem scan_append_of_no_sync {before : List Byte} (h : syncByte ∉ before) (fuel : Nat) (bs : List Byte) :
    scan (before.length + fuel) (before ++ bs) = scan fuel bs := by
  induction before with
  | nil => simp
  | cons b rest ih =>
    obtain ⟨hb, hrest⟩ := (by simpa using h : ¬syncByte = b ∧ syncByte ∉ rest)
    have hb : (b != syncByte) = true := by simpa using fun e => hb e.symm
    rw [List.length_cons, Nat.add_right_comm, List.cons_append, scan, if_pos hb, ih hrest]

/-- Bytes without sync leave the receiver hunting. -/
theorem scan_of_no_sync {bs : List Byte} (h : syncByte ∉ bs) (fuel : Nat) : scan (bs.length + fuel) bs = ⟨[], []⟩ := by
  simpa [scan_nil] using scan_append_of_no_sync h fuel []

theorem scanAll_of_no_sync {bs : List Byte} (h : syncByte ∉ bs) : scanAll bs = ⟨[], []⟩ := scan_of_no_sync h 1

/-- What follows the sync byte of a frame of the given payload and check bytes. -/
def frameTail (kind tag code : Byte) (p check : List Byte) : List Byte := [kind, tag, code, BitVec.ofNat 8 p.length] ++ p ++ check

theorem frameBytes_eq (kind tag code : Byte) (p : List Byte) :
    frameBytes kind tag code p =
      syncByte :: frameTail kind tag code p (bytes2 (crc16 ([kind, tag, code, BitVec.ofNat 8 p.length] ++ p))) := rfl

section
variable {kind tag code : Byte} {p check : List Byte}

theorem length_frameTail : (frameTail kind tag code p check).length = 4 + p.length + check.length := by
  simp [frameTail]
  omega

/-- The check of a frame is sound where the check bytes are those of R184. -/
theorem frameSound_frame (h : check.length = 2) :
    frameSound (syncByte :: frameTail kind tag code p check) p.length =
      (numOf check == (crc16 ([kind, tag, code, BitVec.ofNat 8 p.length] ++ p)).toNat) := by
  have drop : (syncByte :: frameTail kind tag code p check).drop (5 + p.length) = check :=
    List.drop_left' (l₁ := syncByte :: ([kind, tag, code, BitVec.ofNat 8 p.length] ++ p)) (by simp; omega)
  have take : ((syncByte :: frameTail kind tag code p check).drop 1).take (4 + p.length) =
      [kind, tag, code, BitVec.ofNat 8 p.length] ++ p := List.take_left' (by simp; omega)
  rw [frameSound, drop, take, List.take_of_length_le (by omega)]

/-- A whole frame with a length of at most 240 is judged by its check: unsound, hunting resumes behind its sync byte; sound, it is passed
over whole, and is a request where its kind is 1 (R185). -/
theorem scan_frame (fuel : Nat) (len : p.length ≤ 240) (h : check.length = 2) :
    scan (fuel + 1) (syncByte :: frameTail kind tag code p check) =
      if (numOf check == (crc16 ([kind, tag, code, BitVec.ofNat 8 p.length] ++ p)).toNat) = true then
        ⟨if (kind == 1) = true then [⟨tag, code, p⟩] else [], []⟩
      else scan fuel (frameTail kind tag code p check) := by
  have number : ((frameTail kind tag code p check).getD 3 0).toNat = p.length := toNat_byte (by omega)
  have whole : (frameTail kind tag code p check).length = 6 + p.length := by rw [length_frameTail, h]; omega
  have payload : ((frameTail kind tag code p check).drop 4).take p.length = p := List.take_left' rfl
  have gone : (frameTail kind tag code p check).drop (6 + p.length) = [] := List.drop_eq_nil_of_le (by omega)
  rw [scan, if_neg (by simp), if_neg (by omega)]
  dsimp only
  rw [number, if_neg (by omega), if_neg (by omega), frameSound_frame h, gone, scan_nil, payload]
  by_cases sound : (numOf check == (crc16 ([kind, tag, code, BitVec.ofNat 8 p.length] ++ p)).toNat) = true
  · simp only [sound, Bool.not_true, Bool.false_eq_true, if_false, if_true]
    show (if (kind == 1) = true then (⟨[⟨tag, code, p⟩], []⟩ : Scanned) else ⟨[], []⟩) = _
    split <;> rfl
  · simp only [sound, Bool.not_false, if_true, Bool.false_eq_true, if_false]

end

/-- A frame with its own check, of any kind, is passed over whole, and one of kind 1 is a request. -/
theorem scan_frameBytes (fuel : Nat) (kind tag code : Byte) {p : List Byte} (len : p.length ≤ 240) :
    scan (fuel + 1) (frameBytes kind tag code p) = ⟨if (kind == 1) = true then [⟨tag, code, p⟩] else [], []⟩ := by
  rw [frameBytes_eq, scan_frame fuel len (length_bytes2 _), if_pos (by rw [numOf_bytes2]; exact beq_self_eq_true _)]

/-- Settles O13: the bytes before are passed over, and the frame is read whole. -/
theorem requestFrameScanned : Obligations.RequestFrameScanned := by
  intro before tag code payload none len
  rw [scanAll, List.length_append, Nat.add_assoc, scan_append_of_no_sync none, scan_frameBytes _ _ _ _ len]
  rfl

/-! ## The receiver -/

/-- Bytes in which a receiver finds nothing leave it hunting, and nothing else changes. -/
theorem examine_nothing {s : State} {d : Desk} {bytes : List Byte} (h : scanAll bytes = ⟨[], []⟩) (gap : Timer) :
    s.examine d bytes gap = s.hunt d := by
  rw [State.examine, h]
  rfl

theorem examine_begun {s : State} {d : Desk} {bytes rest : List Byte} (h : scanAll bytes = ⟨[], rest⟩) (begun : rest ≠ []) (gap : Timer) :
    s.examine d bytes gap = s.modLink d fun l => { l with rx := rest, byteGap := gap } := by
  have begun : rest.isEmpty = false := by simpa using begun
  rw [State.examine, h]
  simp only [begun]
  rfl

/-- The owner of a code outside the table answers that it is unknown. -/
theorem ownerOf_unknown {code : Byte} (h : codeKnown code = false) (d : Desk) (tag : Byte) (p : List Byte) :
    ownerOf d ⟨tag, code, p⟩ = actUnknown := by
  simp only [codeKnown, Bool.or_eq_false_iff, decide_eq_false_iff_not] at h
  unfold ownerOf
  split <;> first | rfl | (dsimp only at *; omega)

/-- Settles O20: the receiver finds the request alone and hands it to the owner of its code. -/
theorem byteArrivalRunsCommand : Obligations.ByteArrivalRunsCommand := by
  intro c s d tag code b p request wf bytes
  have len : p.length ≤ 240 := by
    cases c <;> simp only [Instr.request, Option.some.injEq, Prod.mk.injEq, reduceCtorEq] at request <;>
      simp_all [Instr.wf, payloadOk]
  have found : scanAll ((s.link d).rx ++ [b]) = ⟨[⟨tag, code, p⟩], []⟩ := by
    rw [bytes, scanAll, scan_frameBytes _ _ _ _ len]
    rfl
  have arrives : exec (.deskByteArrival d b) s = .next (s.request_ d tag code (ownerOf d ⟨tag, code, p⟩)) := by
    show Host.Outcome.next (s.examine d _ _) = _
    rw [State.examine, found]
    rfl
  obtain runs | ⟨rfl, runs⟩ := exec_request request s
  · rw [arrives, runs]
  · have unknown : codeKnown code = false := by
      simp only [Instr.wf, Bool.and_eq_true, Bool.not_eq_true'] at wf
      exact wf.1
    rw [arrives, runs, ownerOf_unknown unknown]

/-- Settles O21: by what the receiver makes of the bytes that it then holds. -/
theorem framesDiscarded : Obligations.FramesDiscarded := by
  intro s d
  refine ⟨fun hunting => ⟨fun b hb => ?_, ?_⟩, fun kind tag code len none above held => ?_,
    fun kind tag code b p len other held => ?_, fun kind tag code b c1 c2 p len held wrong none => ?_,
    fun due rest gap held none => ?_, fun idle => ?_⟩
  · have nothing : scanAll ((s.link d).rx ++ [b]) = ⟨[], []⟩ := by
      rw [hunting]
      exact scanAll_of_no_sync (by simpa using fun e => hb e.symm)
    exact congrArg _ (examine_nothing nothing _)
  · have begun : scanAll ((s.link d).rx ++ [syncByte]) = ⟨[], [syncByte]⟩ := by
      rw [hunting]
      rfl
    exact congrArg _ (examine_begun begun (by simp) _)
  · have nothing : scanAll ((s.link d).rx ++ [len]) = ⟨[], []⟩ := by
      rw [held]
      show scan 6 (syncByte :: [kind, tag, code, len]) = _
      rw [scan, if_neg (by simp), if_neg (by simp)]
      dsimp only
      rw [if_pos (by simpa using above)]
      exact scan_of_no_sync none 1
    exact congrArg _ (examine_nothing nothing _)
  · have nothing : scanAll ((s.link d).rx ++ [b]) = ⟨[], []⟩ := by
      rw [held, scanAll, scan_frameBytes _ _ _ _ len, if_neg (by simpa using other)]
    exact congrArg _ (examine_nothing nothing _)
  · have nothing : scanAll ((s.link d).rx ++ [b]) = ⟨[], []⟩ := by
      have split : (s.link d).rx ++ [b] = syncByte :: frameTail kind tag code p [c1, c2] := held
      rw [split, scanAll, scan_frame _ len rfl, if_neg]
      · exact scan_of_no_sync none _
      · intro same
        refine wrong ?_
        exact bytes2_of_numOf (by simpa using same)
    exact congrArg _ (examine_nothing nothing _)
  · have nothing : scanAll (s.link d).rx.tail = ⟨[], []⟩ := by
      rw [held]
      exact scanAll_of_no_sync none
    show Host.Outcome.next _ = _
    rw [gap]
    exact congrArg _ (examine_nothing nothing _)
  · show Host.Outcome.next _ = _
    split
    · next due running => exact absurd running (idle due)
    · rfl

/-! ## The send queue -/

/-- A sent attention frame that leaves the queue leaves the rest of the link as it is. -/
theorem dropSent_eq (l : Link) : l.dropSent = { l with queue := l.dropSent.queue } := by
  unfold Link.dropSent
  split <;> rfl

theorem modLink_congr {s : State} {d : Desk} {f g : Link → Link} (h : f (s.link d) = g (s.link d)) : s.modLink d f = s.modLink d g := by
  unfold State.link at h
  simp only [State.modLink, h]

/-- The reply ends a RESTART exactly where it answers DONE to one in progress (R208). -/
theorem endsRestart_iff (progress : Option (Byte × Byte)) (st : Status) :
    endsRestart progress st = true ↔ st = .done ∧ ∃ x : Byte, progress = some (x, 0x67) := by
  unfold endsRestart
  split
  · next x code => simp [and_comm]
  · simp

/-- Settles O22: by the head of the queue behind a sent attention frame. -/
theorem sendQueueMoves : Obligations.SendQueueMoves := by
  intro s d rest
  refine ⟨fun tag st p busy queue => ?_, fun queue => ?_⟩
  · intro ends u
    have progress : (s.link d).dropSent.inProgress = (s.link d).inProgress := by rw [dropSent_eq]
    have gone : s.replyGone d tag st p rest (if ends then none else (s.link d).inProgress) = u := by
      refine congrArg (fun z : State => z.send _) (modLink_congr ?_)
      rw [dropSent_eq]
    have sent : exec (.replySent d) s =
        .next (if (ends && endsRestart (s.link d).inProgress st) = true then State.event u (u.restart (some d)) else u) := by
      show execReplySent d s = _
      unfold execReplySent
      dsimp only
      rw [queue, progress, ← gone]
      rfl
    refine ⟨fun other => ?_, fun ⟨hends, restart⟩ => ?_⟩
    · rw [sent, if_neg]
      intro both
      obtain ⟨hends, restart⟩ := Bool.and_eq_true_iff.1 both
      obtain ⟨done, x, inProgress⟩ := (endsRestart_iff _ _).1 restart
      obtain h | h | h := other
      · exact Bool.noConfusion (h.symm.trans hends)
      · exact h done
      · exact h x inProgress
    · rw [sent, if_pos]
      rw [hends, (endsRestart_iff _ _).2 restart]
      rfl
  · intro content
    have told : (s.link d).dropSent.attn &&& (s.link d).dropSent.sub = content := by rw [dropSent_eq]
    have count : (s.link d).dropSent.count = (s.link d).count := by rw [dropSent_eq]
    refine ⟨fun nothing => ?_, fun something => ?_⟩
    all_goals
      show execAttentionFrame d s = _
      unfold execAttentionFrame
      dsimp only
      rw [queue]
      dsimp only
      rw [told]
    · rw [if_pos (by simpa using nothing)]
      refine congrArg _ (modLink_congr ?_)
      rw [dropSent_eq]
    · rw [if_neg (by simpa using something), count]
      refine congrArg _ (congrArg (fun z : State => z.send _) (modLink_congr ?_))
      rw [dropSent_eq]

end Sys2Proof.Machine
end

