-- ==== Sys2Proof/Proofs/MemoryBytes.lean ====
section
/-! PROOF. Reading back what has been written to the configuration memory. -/

namespace Sys2Proof.Machine

theorem memRead_of_above {mem : List Host.Cell} {a c : Nat} (h : memAbove a mem = true) (hc : c ≤ a) : memRead mem c = memoryBlank := by
  induction mem with
  | nil => rfl
  | cons x rest ih =>
    obtain ⟨k, b⟩ := x
    have all := (memAbove_iff _ _).1 h
    have hk : a < k := all (k, b) (by simp)
    rw [memRead, if_neg (by omega)]
    exact ih ((memAbove_iff _ _).2 fun y hy => all y (by simp [hy]))

/-- An entry put in front of entries of higher addresses. -/
theorem memRead_memCons {rest : List Host.Cell} {a : Nat} (h : memAbove a rest = true) (b : Byte) (c : Nat) :
    memRead (memCons a b rest) c = if c = a then b else memRead rest c := by
  unfold memCons
  split
  · next blank =>
    split
    · next same => rw [same, memRead_of_above h (Nat.le_refl a), blank]
    · rfl
  · simp only [memRead, eq_comm (a := a)]

/-- Settles O10, by induction on the entries: the byte is put at its place among the rising addresses. -/
theorem memoryReadBack : Obligations.MemoryReadBack := by
  intro mem a b c wf
  induction mem with
  | nil => exact memRead_memCons rfl b c
  | cons x rest ih =>
    obtain ⟨k, d⟩ := x
    obtain ⟨-, -, above, wf⟩ := (wf_cons _ _ _).1 wf
    unfold memWrite
    split
    · next low =>
      refine memRead_memCons ((memAbove_iff _ _).2 (List.forall_mem_cons.2 ⟨low, ?_⟩)) b c
      exact (memAbove_iff _ _).1 (memAbove_of_le low.le above)
    · split
      · next same =>
        subst same
        rw [memRead_memCons above, memRead]
        by_cases same : c = a
        · rw [if_pos same, if_pos same]
        · rw [if_neg same, if_neg same, if_neg fun e => same e.symm]
      · next other =>
        simp only [memRead, ih wf]
        by_cases here : k = c
        · rw [if_pos here, if_neg (by omega), if_pos here]
        · rw [if_neg here, if_neg here]

/-- Bytes written from an address on are read back there, and every other byte is as it was. -/
theorem memRead_memWriteAll (bytes : List Byte) {mem : List Host.Cell} {a : Nat} (wf : Memory.wf mem = true)
    (fits : a + bytes.length ≤ memorySize) (c : Nat) :
    memRead (memWriteAll mem a bytes) c =
      if a ≤ c ∧ c < a + bytes.length then bytes.getD (c - a) 0 else memRead mem c := by
  induction bytes generalizing mem a with
  | nil => rw [memWriteAll, if_neg (by simp)]
  | cons b bs ih =>
    rw [List.length_cons] at *
    rw [memWriteAll, ih (memWrite_wf (by omega) wf) (by omega), memoryReadBack mem a b c wf]
    by_cases h : c = a
    · subst h
      rw [if_neg (by omega), if_pos rfl, if_pos (by omega), Nat.sub_self]
      rfl
    · by_cases g : a + 1 ≤ c ∧ c < a + 1 + bs.length
      · rw [if_pos g, if_pos (by omega), show c - a = (c - (a + 1)) + 1 by omega]
        rfl
      · rw [if_neg g, if_neg h, if_neg (by omega)]

/-- A stretch of the bytes written from the start is read back. -/
theorem memBytes_written {bytes : List Byte} {mem : List Host.Cell} (wf : Memory.wf mem = true) (fits : bytes.length ≤ memorySize)
    (n : Nat) : ∀ k : Nat, k + n ≤ bytes.length → memBytes (memWriteAll mem 0 bytes) k n = (bytes.drop k).take n := by
  induction n with
  | zero => simp [memBytes]
  | succ n ih =>
    intro k h
    have read : memRead (memWriteAll mem 0 bytes) k = bytes[k] := by
      rw [memRead_memWriteAll bytes wf (by omega), if_pos (by omega), Nat.sub_zero, List.getD_eq_getElem _ _ (by omega)]
    rw [memBytes, read, ih (k + 1) (by omega), List.drop_eq_getElem_cons (by omega : k < bytes.length), List.take_succ_cons]

end Sys2Proof.Machine
end

