-- ==== Sys2Proof/Proofs/Items.lean ====
section
/-! PROOF. The items of a configuration (R199, R203): writing one is read back and leaves the others, and a configuration is the values
of its items. -/

namespace Sys2Proof

theorem RotParams.get_put (r : RotParams) {p : Nat} (hp : p < 10) (q : Nat) (hq : q < 10) (v : Nat) :
    (r.put p v).get q = if q = p then v else r.get q := by
  interval_cases p <;> interval_cases q <;> rfl

theorem RotParams.sectors_put (r : RotParams) (p v : Nat) : (r.put p v).sectors = r.sectors := by
  unfold RotParams.put
  split <;> rfl

/-- A value in the range of an item fits into two bytes. -/
theorem CfgItem.lt_of_inRange {i : CfgItem} {v : Nat} (h : i.inRange v = true) : v < 65536 := by
  cases i <;> simp only [CfgItem.inRange, between, bandBound, Bool.or_eq_true, Bool.and_eq_true, decide_eq_true_eq, beq_iff_eq] at h
  case rotParam k p =>
    have top : ∀ p : Fin 10, (rotParamRange p.val).2 ≤ 4095 := by decide
    exact Nat.lt_of_le_of_lt (h.2.trans (top p)) (by decide)
  all_goals omega

/-- A place of a vector written is read back, and every other place is as it was. -/
theorem getElem_set_fin {α : Type} {n : Nat} (xs : Vector α n) (a b : Fin n) (x : α) :
    (xs.set a x)[b] = if b = a then x else xs[b] := by
  by_cases h : b = a
  · subst h
    simp
  · have : (a : Nat) ≠ b := fun e => h (Fin.ext e.symm)
    simp [this, h]

/-- An item written in its range is read back, and every other item is as it was (R203). -/
theorem Configuration.get_put (w : Configuration) (i j : CfgItem) {v : Nat} (h : i.inRange v = true) :
    (w.put i v).get j = if j = i then v else w.get j := by
  have small := CfgItem.lt_of_inRange h
  cases i
  case supported a =>
    cases j <;> simp only [Configuration.put, Configuration.get, getElem_set_fin, reduceCtorEq, if_false, CfgItem.supported.injEq]
    rw [apply_ite BitVec.toNat, BitVec.toNat_ofNat, Nat.mod_eq_of_lt small]
  case rotParam k p =>
    cases j <;> simp only [Configuration.put, Configuration.get, getElem_set_fin, reduceCtorEq, if_false, CfgItem.rotParam.injEq]
    case rotParam k' p' =>
      by_cases hk : k' = k
      · subst hk
        rw [if_pos rfl, RotParams.get_put _ p.isLt _ p'.isLt]
        simp [Fin.ext_iff]
      · simp [hk]
    all_goals
      next k' j' =>
      by_cases hk : k' = k
      · subst hk
        simp [RotParams.sectors_put]
      · simp [hk]
  case sectorFrom k p =>
    cases j <;> simp only [Configuration.put, Configuration.get, getElem_set_fin, reduceCtorEq, if_false, CfgItem.sectorFrom.injEq]
    case rotParam k' p' =>
      by_cases hk : k' = k
      · subst hk
        simp only [if_true]
        unfold RotParams.get
        split <;> rfl
      · simp [hk]
    all_goals
      next k' j' =>
      by_cases hk : k' = k
      · subst hk
        by_cases hj : j' = p <;> simp only [getElem_set_fin, hj, if_true, if_false, true_and]
      · simp [hk]
  case sectorTo k p =>
    cases j <;> simp only [Configuration.put, Configuration.get, getElem_set_fin, reduceCtorEq, if_false, CfgItem.sectorTo.injEq]
    case rotParam k' p' =>
      by_cases hk : k' = k
      · subst hk
        simp only [if_true]
        unfold RotParams.get
        split <;> rfl
      · simp [hk]
    all_goals
      next k' j' =>
      by_cases hk : k' = k
      · subst hk
        by_cases hj : j' = p <;> simp only [getElem_set_fin, hj, if_true, if_false, true_and]
      · simp [hk]
  all_goals cases j <;> simp only [Configuration.put, Configuration.get, getElem_set_fin, reduceCtorEq, if_true, if_false,
    CfgItem.bandLow.injEq, CfgItem.bandHigh.injEq, CfgItem.rotatorOf.injEq]

theorem Sector.eq_of {a b : Sector} (from_ : a.fromB = b.fromB) (to_ : a.toB = b.toB) : a = b := by
  obtain ⟨_, _⟩ := a
  obtain ⟨_, _⟩ := b
  cases from_
  cases to_
  rfl

theorem RotParams.eq_of_get {a b : RotParams} (param : ∀ p : Fin 10, a.get p.val = b.get p.val) (sectors : a.sectors = b.sectors) :
    a = b := by
  obtain ⟨_, _, _, _, _, _, _, _, _, _, _⟩ := a
  obtain ⟨_, _, _, _, _, _, _, _, _, _, _⟩ := b
  cases sectors
  cases param 0
  cases param 1
  cases param 2
  cases param 3
  cases param 4
  cases param 5
  cases param 6
  cases param 7
  cases param 8
  cases param 9
  rfl

/-- A configuration is the values of its items. -/
theorem Configuration.eq_of_get {a b : Configuration} (h : ∀ i, a.get i = b.get i) : a = b := by
  have rot : a.rot = b.rot := Vector.ext fun k hk =>
    RotParams.eq_of_get (fun p => h (.rotParam ⟨k, hk⟩ p)) (Vector.ext fun j hj =>
      Sector.eq_of (h (.sectorFrom ⟨k, hk⟩ ⟨j, hj⟩)) (h (.sectorTo ⟨k, hk⟩ ⟨j, hj⟩)))
  have bandLow : a.bandLow = b.bandLow := Vector.ext fun i hi => h (.bandLow ⟨i, hi⟩)
  have bandHigh : a.bandHigh = b.bandHigh := Vector.ext fun i hi => h (.bandHigh ⟨i, hi⟩)
  have supported : a.supported = b.supported := Vector.ext fun m hm => BitVec.eq_of_toNat_eq (h (.supported ⟨m, hm⟩))
  have rotatorOf : a.rotatorOf = b.rotatorOf := Vector.ext fun m hm => h (.rotatorOf ⟨m, hm⟩)
  obtain ⟨_, _, _, _, _, _, _, _, _, _, _, _, _, _, _, _, _, _, _, _⟩ := a
  obtain ⟨_, _, _, _, _, _, _, _, _, _, _, _, _, _, _, _, _, _, _, _⟩ := b
  cases rot
  cases bandLow
  cases bandHigh
  cases supported
  cases rotatorOf
  cases h .txCount
  cases h .antCount
  cases h .grantLimit
  cases h .selTravel
  cases h .outTravel
  cases h .rfDrop
  cases h .tuneTimeout
  cases h .recycleWindow
  cases h .tripLimit
  cases h .recycleDelay
  cases h .lead
  cases h .grace
  cases h .accessInterval
  cases h .supplyInterval
  cases h .rfInterval
  rfl

/-- The identifier of an item names that item alone (R199). -/
theorem CfgItem.ofId_id (i : CfgItem) : CfgItem.ofId i.id = some i := by
  cases i
  case bandLow a => revert a; decide
  case bandHigh a => revert a; decide
  case supported a => revert a; decide
  case rotatorOf a => revert a; decide
  case rotParam k p => revert k p; decide
  case sectorFrom k j => revert k j; decide
  case sectorTo k j => revert k j; decide
  all_goals rfl

/-- An item found by an identifier has it. -/
theorem CfgItem.id_of_ofId {n : Nat} {i : CfgItem} (h : CfgItem.ofId n = some i) : n = i.id := by
  unfold CfgItem.ofId at h
  dsimp only at h
  split at h
  case h_1 high =>
    have low : n % 256 < 15 := by
      obtain ⟨bound, -⟩ := List.getElem?_eq_some_iff.1 h
      exact bound
    have value : n = 256 + n % 256 := by omega
    generalize n % 256 = r at *
    interval_cases r <;> (obtain rfl := Option.some.inj h; exact value)
  case h_8 => cases h
  all_goals
    repeat' split at h
    all_goals first | (obtain rfl := Option.some.inj h; simp only [CfgItem.id]; omega) | cases h

theorem CfgItem.ofId_eq_some_iff (i : CfgItem) (n : Nat) : CfgItem.ofId n = some i ↔ n = i.id :=
  ⟨id_of_ofId, fun h => h ▸ ofId_id i⟩

theorem CfgItem.id_lt (i : CfgItem) : i.id < 65536 := by
  cases i <;> simp only [CfgItem.id] <;> omega

end Sys2Proof

namespace Sys2Proof.Machine

theorem mem_allItems (i : CfgItem) : i ∈ allItems := by
  cases i
  case bandLow a => revert a; decide
  case bandHigh a => revert a; decide
  case supported a => revert a; decide
  case rotatorOf a => revert a; decide
  case rotParam k p => revert k p; decide
  case sectorFrom k j => revert k j; decide
  case sectorTo k j => revert k j; decide
  all_goals decide

/-! ## Items applied one by one -/

/-- Of a configuration under construction one bearing of a sector may still be the default 0xFFFF: the two are not equal then, but
where both are unused. -/
theorem not_degenerate_unused_to (a : Nat) : (⟨a, 65535⟩ : Sector).degenerate = false := by
  simp [Sector.degenerate]

theorem not_degenerate_unused_from (b : Nat) : (⟨65535, b⟩ : Sector).degenerate = false := by
  simp [Sector.degenerate]

theorem default_sectorFrom (k : Rot) (j : Fin 4) : Configuration.default.get (.sectorFrom k j) = 65535 := by revert k j; decide

theorem default_sectorTo (k : Rot) (j : Fin 4) : Configuration.default.get (.sectorTo k j) = 65535 := by revert k j; decide

/-- An item written does not make its sector's bearings equal where the sector of the goal `c` has unequal ones and every other item
has the value of `c` or its default (R203). -/
theorem degenerateAt_put {w c : Configuration} {i : CfgItem} (sound : ∀ (k : Rot) (j : Fin 4), ((c.rot[k]).sectors[j]).degenerate = false)
    (range : i.inRange (c.get i) = true) (mixed : ∀ j, w.get j = c.get j ∨ w.get j = Configuration.default.get j) :
    (w.put i (c.get i)).degenerateAt i = false := by
  have read (j : CfgItem) := w.get_put i j range
  cases i
  case sectorFrom k j =>
    have from_ := (read (.sectorFrom k j)).trans (if_pos rfl)
    have to_ := (read (.sectorTo k j)).trans (if_neg (by simp))
    obtain old | old := mixed (.sectorTo k j)
    · rw [Configuration.degenerateAt, Sector.eq_of from_ (to_.trans old)]
      exact sound k j
    · rw [Configuration.degenerateAt, Sector.eq_of (b := ⟨_, 65535⟩) from_ (to_.trans (old.trans (default_sectorTo k j)))]
      exact not_degenerate_unused_to _
  case sectorTo k j =>
    have to_ := (read (.sectorTo k j)).trans (if_pos rfl)
    have from_ := (read (.sectorFrom k j)).trans (if_neg (by simp))
    obtain old | old := mixed (.sectorFrom k j)
    · rw [Configuration.degenerateAt, Sector.eq_of (from_.trans old) to_]
      exact sound k j
    · rw [Configuration.degenerateAt, Sector.eq_of (b := ⟨65535, _⟩) (from_.trans (old.trans (default_sectorFrom k j))) to_]
      exact not_degenerate_unused_from _
  all_goals rfl

/-- The items of a configuration, applied to one whose items have its values or the defaults, leave every listed item at its value and
every other as it was. -/
theorem applyItems_get {c : Configuration} (valid : ItemsValid c) (is : List CfgItem) {w : Configuration}
    (mixed : ∀ j, w.get j = c.get j ∨ w.get j = Configuration.default.get j) :
    ∃ w', applyItems w (is.map fun i => (i.id, c.get i)) = some w' ∧ ∀ j, (j ∈ is ∨ w.get j = c.get j) → w'.get j = c.get j := by
  obtain ⟨ranges, sound⟩ := valid
  induction is generalizing w with
  | nil => exact ⟨w, rfl, fun j h => h.resolve_left (List.not_mem_nil)⟩
  | cons i is ih =>
    have range := ranges i (mem_allItems i)
    have read (j : CfgItem) := w.get_put i j range
    have fine := degenerateAt_put sound range mixed
    have mixed' (j : CfgItem) : (w.put i (c.get i)).get j = c.get j ∨ (w.put i (c.get i)).get j = Configuration.default.get j := by
      rw [read j]
      split
      · next same => exact .inl (by rw [same])
      · exact mixed j
    obtain ⟨w', applied, values⟩ := ih mixed'
    refine ⟨w', ?_, fun j h => values j ?_⟩
    · rw [List.map_cons, applyItems, Configuration.apply, CfgItem.ofId_id]
      simp only [range, fine, Bool.not_false, Bool.and_self, if_true]
      exact applied
    · rw [read j]
      by_cases same : j = i
      · exact .inr (by rw [if_pos same, same])
      · rw [if_neg same]
        simpa [same] using h

/-! ## The image -/

theorem idsDistinct_iff (xs : List (Nat × Nat)) : idsDistinct xs = true ↔ (xs.map Prod.fst).Nodup := by
  induction xs with
  | nil => simp [idsDistinct]
  | cons x xs ih =>
    simp only [idsDistinct, Bool.and_eq_true, List.all_eq_true, bne_iff_ne, ih, List.map_cons, List.nodup_cons, List.mem_map,
      Prod.exists, exists_and_right, exists_eq_right]
    grind

/-- The items of an item area are read back pair by pair (R200). -/
theorem itemPairs_flatMap {c : Configuration} (small : ∀ i, c.get i < 65536) (is : List CfgItem) :
    itemPairs is.length (is.flatMap fun i => bytes2 (BitVec.ofNat 16 i.id) ++ bytes2 (BitVec.ofNat 16 (c.get i))) =
      is.map fun i => (i.id, c.get i) := by
  induction is with
  | nil => rfl
  | cons i is ih =>
    rw [List.length_cons, itemPairs, List.flatMap_cons, List.map_cons]
    have id : numOf (bytes2 (BitVec.ofNat 16 i.id)) = i.id := numOf_wordArg i.id_lt
    have value : numOf (bytes2 (BitVec.ofNat 16 (c.get i))) = c.get i := numOf_wordArg (small i)
    rw [← ih]
    congr 1
    exact congrArg₂ Prod.mk id value

/-- The part of an image that its check covers (R200). -/
def imageBody (c : Configuration) : List Byte := bytes2 imageMarker ++ bytes2 (BitVec.ofNat 16 668) ++ itemBytes c

theorem length_allItems : allItems.length = 167 := by decide +kernel

theorem imageBytes_eq (c : Configuration) : imageBytes c = imageBody c ++ bytes2 (crc16 (imageBody c)) := by
  rw [imageBytes, length_allItems]
  rfl

theorem length_itemBytes_eq (c : Configuration) : (itemBytes c).length = 668 := by rw [length_itemBytes, length_allItems]

theorem length_imageBody (c : Configuration) : (imageBody c).length = 672 := by
  simp [imageBody, length_itemBytes_eq, length_bytes2]

/-- The fields of an image read back from a memory to which it was written. -/
theorem image_fields (c : Configuration) {mem : List Host.Cell} (wf : Memory.wf mem = true) :
    let written := memWriteAll mem 0 (imageBytes c)
    memBytes written 0 2 = bytes2 imageMarker ∧ memBytes written 2 2 = bytes2 (BitVec.ofNat 16 668) ∧
      memBytes written 4 668 = itemBytes c ∧ memBytes written 0 672 = imageBody c ∧
      memBytes written 672 2 = bytes2 (crc16 (imageBody c)) := by
  intro written
  have length : (imageBytes c).length = 674 := by rw [imageBytes_eq, List.length_append, length_imageBody, length_bytes2]
  have read (k n : Nat) (h : k + n ≤ 674) : memBytes written k n = ((imageBytes c).drop k).take n :=
    memBytes_written wf (length_imageBytes c) n k (by omega)
  have split : imageBytes c = bytes2 imageMarker ++ (bytes2 (BitVec.ofNat 16 668) ++ (itemBytes c ++ bytes2 (crc16 (imageBody c)))) := by
    rw [imageBytes_eq, imageBody]
    simp only [List.append_assoc]
  refine ⟨?_, ?_, ?_, ?_, ?_⟩
  · rw [read 0 2 (by omega), split]
    exact List.take_left' (length_bytes2 _)
  · rw [read 2 2 (by omega), split, List.drop_left' (length_bytes2 _)]
    exact List.take_left' (length_bytes2 _)
  · rw [read 4 668 (by omega), split, ← List.append_assoc, List.drop_left' (by rfl)]
    exact List.take_left' (length_itemBytes_eq c)
  · rw [read 0 672 (by omega), imageBytes_eq]
    exact List.take_left' (length_imageBody c)
  · rw [read 672 2 (by omega), imageBytes_eq, List.drop_left' (length_imageBody c)]
    exact List.take_of_length_le (Nat.le_refl 2)

theorem allItems_ids_nodup : (allItems.map CfgItem.id).Nodup := by decide +kernel

/-- Settles O15: the image is read back field by field, its items pair by pair, and the items give the configuration. -/
theorem imageRoundTrip : Obligations.ImageRoundTrip := by
  intro mem c wf valid
  have small (i : CfgItem) : c.get i < 65536 := CfgItem.lt_of_inRange (valid.1 i (mem_allItems i))
  obtain ⟨marker, count, items, covered, check⟩ := image_fields c wf
  have lc : numOf (bytes2 (BitVec.ofNat 16 668)) = 668 := numOf_wordArg (by decide)
  have pairs : itemPairs 167 (itemBytes c) = allItems.map fun i => (i.id, c.get i) := by
    rw [← length_allItems]
    exact itemPairs_flatMap small allItems
  have distinct : idsDistinct (allItems.map fun i => (i.id, c.get i)) = true := by
    rw [idsDistinct_iff, List.map_map]
    exact allItems_ids_nodup
  obtain ⟨w, applied, values⟩ := applyItems_get valid allItems (w := Configuration.default) fun _ => .inr rfl
  have whole : w = c := Configuration.eq_of_get fun i => values i (.inl (mem_allItems i))
  have sound : (numOf (bytes2 imageMarker) == imageMarker.toNat && 668 % 4 == 0 && decide (668 ≤ 8184) &&
      numOf (bytes2 (crc16 (imageBody c))) == (crc16 (imageBody c)).toNat) = true := by
    rw [numOf_bytes2, numOf_bytes2]
    simp
  rw [readImage]
  simp only [count, lc, marker, covered, check, items, sound, if_true]
  rw [show 668 / 4 = 167 from rfl, pairs, distinct, if_pos rfl, applied, whole]

end Sys2Proof.Machine
end

