-- ==== Sys2Proof/Proofs/Computations.lean ====
section
/-! PROOF. The entry record (R113, R184), the overlap of weekly intervals (R116) and the vernier computation (R55 to R58). -/

namespace Sys2Proof.Machine

/-! ## The overlap of weekly intervals -/

/-- Settles O59: the later of the two beginnings, on the circle, is the shared minute. -/
theorem overlapExact : Obligations.OverlapExact := by
  intro a p b q ha hb hp hp' hq hq'
  rw [intervalsOverlap, Bool.or_eq_true, decide_eq_true_eq, decide_eq_true_eq]
  constructor
  · rintro (within | within)
    · exact ⟨(((b : Int) - a) % 10080).toNat, 0, by omega, by omega, by omega⟩
    · exact ⟨0, (((a : Int) - b) % 10080).toNat, by omega, by omega, by omega⟩
  · rintro ⟨i, j, hi, hj, same⟩
    omega

end Sys2Proof.Machine

namespace Sys2Proof

section
variable (p : RotParams) (phiF phiV : Nat)

theorem RotParams.fine_lt : p.fine phiF < 4096 := by unfold RotParams.fine; omega

theorem RotParams.vernier_lt : p.vernier phiV < 4096 := by unfold RotParams.vernier; omega

theorem RotParams.difference_lt : p.difference phiF phiV < 4096 := by unfold RotParams.difference; omega

theorem RotParams.product_eq : p.product phiF phiV = 4096 * p.nearest phiF phiV + p.residual phiF phiV := by
  unfold RotParams.residual; omega

theorem RotParams.residual_bounds : -2048 ≤ p.residual phiF phiV ∧ p.residual phiF phiV ≤ 2047 := by
  unfold RotParams.residual RotParams.nearest
  omega

/-- The product lies between the least and the greatest that its factors allow (R56). -/
theorem RotParams.product_bounds : -4095 ≤ p.product phiF phiV ∧ p.product phiF phiV ≤ 4095 * p.periods := by
  have f := p.fine_lt phiF
  have d := p.difference_lt phiF phiV
  have low : (0 : Int) ≤ (p.difference phiF phiV : Int) * p.periods := by positivity
  have high : (p.difference phiF phiV : Int) * p.periods ≤ 4095 * p.periods := by gcongr; omega
  unfold RotParams.product
  omega

end

end Sys2Proof

namespace Sys2Proof.Machine

/-- Settles O58. -/
theorem vernier : Obligations.Vernier := by
  intro p phiF phiV valid hF hV product
  obtain ⟨⟨p16, p64⟩, offF, offV, zero, tol, tol'⟩ := valid
  have hf := p.fine_lt phiF
  have hd := p.difference_lt phiF phiV
  obtain ⟨low, high⟩ := p.product_bounds phiF phiV
  obtain ⟨res, res'⟩ := p.residual_bounds phiF phiV
  have eq := p.product_eq phiF phiV
  have nearest : -1 ≤ p.nearest phiF phiV ∧ p.nearest phiF phiV ≤ p.periods := by omega
  have index : (p.periodIndex phiF phiV : Int) = p.nearest phiF phiV % p.periods := by
    unfold RotParams.periodIndex
    have := Int.emod_nonneg (p.nearest phiF phiV) (b := p.periods) (by omega)
    omega
  have indexLt : p.periodIndex phiF phiV < p.periods := by
    have := Int.emod_lt_of_pos (p.nearest phiF phiV) (b := p.periods) (by omega)
    omega
  have count : p.fineCount phiF phiV < 4096 * p.periods := by unfold RotParams.fineCount; omega
  refine ⟨hf, p.vernier_lt phiV, hd, ?_, ?_, ?_, low, high, eq, res, res', nearest.1, nearest.2, indexLt, ?_, ?_, rfl, count, ?_, ?_⟩
  · unfold RotParams.fine; omega
  · unfold RotParams.vernier; omega
  · unfold RotParams.difference; omega
  · exact ⟨p.nearest phiF phiV / p.periods, by rw [index]; exact (Int.emod_add_mul_ediv _ _).symm⟩
  · unfold RotParams.isGood
    rw [decide_eq_true_eq]
    omega
  · have bound : p.fineCount phiF phiV * 3600 + 2048 * p.periods < 4096 * p.periods * 3601 := by omega
    have whole := Nat.div_lt_of_lt_mul bound
    refine ⟨by omega, ?_⟩
    unfold RotParams.bearing
    generalize (p.fineCount phiF phiV * 3600 + 2048 * p.periods) / (4096 * p.periods) = whole at *
    split <;> omega
  · intro a j ha same close
    have part : 4096 * (p.periods : Int) * j = 4096 * (p.periods * j) := by ring
    have shaft : p.product phiF phiV = (p.difference phiF phiV : Int) * p.periods - p.fine phiF := rfl
    have rounds : p.nearest phiF phiV = (a / 4096 : Nat) + p.periods * j := by
      unfold RotParams.nearest
      omega
    have indexed : p.periodIndex phiF phiV = a / 4096 := by
      have small : ((a / 4096 : Nat) : Int) % p.periods = (a / 4096 : Nat) := Int.emod_eq_of_lt (by omega) (by omega)
      rw [rounds, Int.add_mul_emod_self_left, small] at index
      omega
    constructor
    · unfold RotParams.isGood
      rw [decide_eq_true_eq]
      omega
    · unfold RotParams.fineCount
      omega

/-! ## The entry record -/

section
variable {e : Entry}

/-- A number of two bytes stands in a record as its two bytes. -/
theorem num2_bytes {n : Nat} (h : n < 65536) :
    num2 n = [(BitVec.ofNat 16 n).extractLsb' 8 8, (BitVec.ofNat 16 n).extractLsb' 0 8] := num2_eq_wordArg h

theorem word2_bytes {n : Nat} (h : n < 65536) :
    word2 ((BitVec.ofNat 16 n).extractLsb' 8 8) ((BitVec.ofNat 16 n).extractLsb' 0 8) = n := by
  have read := numOf_wordArg h
  simpa [word2, wordArg, bytes2, numOf] using read

/-- The azimuth of a record: its number, or all bits set where absent (R184). -/
def azWord : Option Nat → Nat
  | some z => z
  | none => 65535

theorem ones2_eq (az : Option Nat) (h : ∀ z, az = some z → z < 3600) : ones2 az = num2 (azWord az) := by
  cases az with
  | none => rfl
  | some z => rfl

/-- The alternate antenna of a record: its number, or 0 where absent (R184). -/
def altNumber : Option Ant → Nat
  | some m => m.val + 1
  | none => 0

theorem opt1_eq (alt : Option Ant) : opt1 (alt.map fun m => m.val + 1) = num1 (altNumber alt) := by
  cases alt <;> rfl

theorem altNumber_lt (alt : Option Ant) : altNumber alt < 256 := by
  cases alt with
  | none => decide
  | some m => simp only [altNumber]; omega

theorem antOf_altNumber (alt : Option Ant) : antOf (altNumber alt) = alt := by
  cases alt with
  | none => rfl
  | some m => exact antOf_antNumber m

theorem altNumber_range {alt : Option Ant} {m : Ant} (h : alt ≠ some m) :
    altNumber alt = 0 ∨ alt.isSome = true ∧ (alt != some m) = true := by
  cases alt with
  | none => exact .inl rfl
  | some k => exact .inr ⟨rfl, bne_iff_ne.2 h⟩

theorem azWord_range {az : Option Nat} (h : ∀ z, az = some z → z < 3600) : azWord az < 3600 ∨ azWord az = 65535 := by
  cases az with
  | none => exact .inr rfl
  | some z => exact .inl (h z rfl)

theorem az_of_azWord {az : Option Nat} (h : ∀ z, az = some z → z < 3600) :
    (if (azWord az == 65535) = true then none else some (azWord az)) = az := by
  cases az with
  | none => rfl
  | some z => exact if_neg (by have := h z rfl; simp only [azWord, beq_iff_eq]; omega)

theorem levelCode_lt (l : Level) : levelCode l < 256 := by cases l <;> decide

theorem powerOf_levelCode {l : Level} (h : l ≠ .off) : powerOf (levelCode l) = some l := by
  cases l with
  | off => exact absurd rfl h
  | low => rfl
  | full => rfl

end

/-- Settles O14: the fields of the record are read back one by one. -/
theorem entryRecordRoundTrip : Obligations.EntryRecordRoundTrip := by
  intro e valid
  obtain ⟨⟨id1, id2⟩, days, start, ⟨dur1, dur2⟩, freq, feed, alt, az, power⟩ := valid
  have freqLt : e.freq < 65536 := by
    simp only [freqOk, Bool.and_eq_true, decide_eq_true_eq] at freq
    omega
  have feedLt : e.feed < 256 := by
    simp only [feedOk, decide_eq_true_eq] at feed
    omega
  have azLt : azWord e.az < 65536 := by
    cases h : e.az with
    | none => decide
    | some z => have := az z h; simp only [azWord]; omega
  have daysPos : 1 ≤ e.days.toNat := by
    have : e.days.toNat ≠ 0 := fun h => days (BitVec.eq_of_toNat_eq h)
    omega
  have daysLt := e.days.isLt
  have daysByte : (e.days.setWidth 8).toNat = e.days.toNat := by rw [BitVec.toNat_setWidth]; omega
  rw [entryBytes, ones2_eq _ az, opt1_eq, num2_bytes (show e.id < 65536 by omega), num2_bytes (show e.start < 65536 by omega),
    num2_bytes (show e.dur < 65536 by omega), num2_bytes freqLt, num2_bytes azLt]
  simp only [num1, List.cons_append, List.nil_append, List.take_succ_cons, List.take_zero]
  simp only [entryOfRecord, recWord, recByte, List.getD_cons_zero, List.getD_cons_succ]
  rw [word2_bytes (show e.id < 65536 by omega), word2_bytes (show e.start < 65536 by omega),
    word2_bytes (show e.dur < 65536 by omega), word2_bytes freqLt, word2_bytes azLt, toNat_byte (show e.tx.val + 1 < 256 by omega),
    toNat_byte (show e.primary.val + 1 < 256 by omega), toNat_byte (altNumber_lt e.alt), toNat_byte (levelCode_lt e.power),
    toNat_byte feedLt, daysByte, txOf_txNumber, antOf_antNumber, powerOf_levelCode power, antOf_altNumber, BitVec.ofNat_toNat,
    BitVec.setWidth_eq]
  dsimp only
  rw [if_pos, az_of_azWord az]
  simp only [Bool.and_eq_true, Bool.or_eq_true, decide_eq_true_eq, beq_iff_eq]
  exact ⟨⟨⟨⟨⟨⟨⟨⟨id1, id2⟩, daysPos, daysLt⟩, start⟩, dur1, dur2⟩, freq⟩, feed⟩, azWord_range az⟩, altNumber_range alt⟩

end Sys2Proof.Machine
end

