-- ==== Sys2Proof/Proofs/Trail.lean ====
section
/-! SUPPORT. What the consequences of an act do to the matrix, the notices and the outcome list: they start a move only by a grant, they
add notices and take none back, and the outcome list keeps its bound. As `Calm`, operation by operation. -/

namespace Sys2Proof.Machine

/-- What the consequences of an act do to the grants, the notices and the outcomes (R10, R11, R133). -/
structure Trail (a b : State) : Prop where
  kept : b.kept = a.kept
  permitted : b.mx.permitted = a.mx.permitted
  notices : a.notices <+: b.notices
  moving : b.mx.movingCount ≤ a.mx.movingCount ∨
    (a.mx.permitted = true ∧ a.drivesPermitted = true ∧ b.mx.movingCount ≤ a.cfg.active.grantLimit)
  outcomes : b.run.outcomes.length ≤ max 32 a.run.outcomes.length

/-- What drive permission and the grant limit are read off is kept by every consequence. -/
theorem gates_of_kept {a b : State} (h : b.kept = a.kept) :
    b.drivesPermitted = a.drivesPermitted ∧ b.cfg.active = a.cfg.active ∧ b.isOpen = a.isOpen ∧
      b.cfg.configured = a.cfg.configured ∧ b.cfg.image = a.cfg.image ∧ b.cfg.saving = a.cfg.saving := by
  have cfg := congrArg Kept.cfg h
  have waits := congrArg (fun k => k.waits.isSome) h
  have hall := congrArg Kept.hall h
  have held := congrArg Kept.supplyHeld h
  simp only [State.kept, Option.isSome_map] at cfg waits hall held
  have active := congrArg ConfigStore.active cfg
  have opened := congrArg ConfigStore.openDesk cfg
  have configured := congrArg ConfigStore.configured cfg
  have image := congrArg ConfigStore.image cfg
  have saving := congrArg ConfigStore.saving cfg
  dsimp only at active opened configured image saving
  refine ⟨?_, active, ?_, configured, image, saving⟩
  · simp only [State.drivesPermitted, State.isOpen, State.isSettling, held, hall, opened, configured, waits]
  · simp only [State.isOpen, opened]

theorem Trail.refl (s : State) : Trail s s := ⟨rfl, rfl, List.prefix_refl _, .inl (Nat.le_refl _), by omega⟩

theorem Trail.trans {a b c : State} (h : Trail a b) (k : Trail b c) : Trail a c where
  kept := k.kept.trans h.kept
  permitted := k.permitted.trans h.permitted
  notices := h.notices.trans k.notices
  moving := by
    obtain ⟨drives, active, -⟩ := gates_of_kept h.kept
    have first := h.moving
    have second := k.moving
    rw [h.permitted, drives, active] at second
    obtain less | ⟨permitted, drives, within⟩ := second
    · obtain fewer | ⟨permitted, drives, within⟩ := first
      · exact .inl (by omega)
      · exact .inr ⟨permitted, drives, by omega⟩
    · exact .inr ⟨permitted, drives, within⟩
  outcomes := by
    have := h.outcomes
    have := k.outcomes
    omega

/-- Only fields that no trail reads differ. -/
theorem trail_of {a b : State} (hk : b.kept = a.kept) (hm : b.mx = a.mx) (hn : b.notices = a.notices) (hr : b.run = a.run) :
    Trail a b := ⟨hk, by rw [hm], by rw [hn], .inl (by rw [hm]), by rw [hr]; omega⟩

/-- Of the matrix other fields than the switch records, the judgement and the timers have changed. -/
theorem trail_mx {z : State} (s : State) (x : Matrix)
    (hx : x = { s.mx with reports := x.reports, safety := x.safety, nextArrival := x.nextArrival }) (h : Trail z s) :
    Trail z { s with mx := x } := by
  refine h.trans ?_
  rw [hx]
  exact ⟨rfl, rfl, List.prefix_refl _, .inl (Nat.le_refl _), by dsimp only; omega⟩

/-- The outcome list is as long as it was, or within its bound. -/
theorem trail_run {z : State} (s : State) (r : RunTable) (hr : r.outcomes.length ≤ max 32 s.run.outcomes.length) (h : Trail z s) :
    Trail z { s with run := r } := h.trans ⟨rfl, rfl, List.prefix_refl _, .inl (Nat.le_refl _), hr⟩

/-! ## The operations, each as one that goes on from a trail -/

theorem trail_notify {z : State} (s : State) (x : Notice) (h : Trail z s) : Trail z (s.notify x) :=
  h.trans ⟨rfl, rfl, List.prefix_append _ _, .inl (Nat.le_refl _), by dsimp only [State.notify]; omega⟩

theorem trail_notifyAll {z : State} (s : State) (x : List Notice) (h : Trail z s) : Trail z (s.notifyAll x) :=
  h.trans ⟨rfl, rfl, List.prefix_append _ _, .inl (Nat.le_refl _), by dsimp only [State.notifyAll]; omega⟩

theorem trail_report {z : State} (s : State) (x : MxReport) (h : Trail z s) : Trail z (s.report x) := trail_mx s _ rfl h

theorem trail_leaveSafety {z : State} (s : State) (w : Sw) (h : Trail z s) : Trail z (s.leaveSafety w) := trail_mx s _ rfl h

theorem trail_arrival {z : State} (s : State) (n : Nat) (h : Trail z s) : Trail z { s with mx := { s.mx with nextArrival := n } } :=
  trail_mx s _ rfl h

theorem setSw_kept (s : State) (w : Sw) (r : SwRec) : (s.setSw w r).kept = s.kept := by cases w <;> rfl

theorem setSw_permitted (s : State) (w : Sw) (r : SwRec) : (s.setSw w r).mx.permitted = s.mx.permitted := by cases w <;> rfl

theorem movingCount_eq (s : State) : s.mx.movingCount = allSw.countP fun w => (s.sw w).state == .moving :=
  List.countP_eq_length_filter.symm

/-- A record written that moves only where the one before moved makes no more switches MOVING. -/
theorem movingCount_setSw_le (s : State) (w : Sw) (r : SwRec) (hr : r.state = .moving → (s.sw w).state = .moving) :
    (s.setSw w r).mx.movingCount ≤ s.mx.movingCount := by
  rw [movingCount_eq, movingCount_eq]
  refine List.countP_mono_left fun v _ hv => ?_
  by_cases e : v = w
  · subst e
    rw [setSw_same, beq_iff_eq] at hv
    exact beq_iff_eq.2 (hr hv)
  · rwa [setSw_other s w v r e] at hv

/-- One record written makes at most one switch more MOVING. -/
theorem movingCount_setSw_succ (s : State) (w : Sw) (r : SwRec) : (s.setSw w r).mx.movingCount ≤ s.mx.movingCount + 1 := by
  have once : allSw.count w ≤ 1 := List.nodup_iff_count_le_one.1 (by decide) w
  have split : (allSw.countP fun v => ((s.setSw w r).sw v).state == .moving) ≤
      allSw.countP fun v => (s.sw v).state == .moving || v == w := by
    refine List.countP_mono_left fun v _ hv => ?_
    by_cases e : v = w
    · simp [e]
    · rw [setSw_other s w v r e] at hv
      simp [hv]
  have parts : ∀ xs : List Sw, (xs.countP fun v => (s.sw v).state == .moving || v == w) ≤
      (xs.countP fun v => (s.sw v).state == .moving) + xs.count w := by
    intro xs
    induction xs with
    | nil => exact Nat.le_refl _
    | cons x xs ih =>
      rw [List.countP_cons, List.countP_cons, List.count_cons]
      cases (s.sw x).state == .moving <;> cases x == w <;> simp <;> omega
  rw [movingCount_eq, movingCount_eq]
  have := parts allSw
  omega

theorem trail_setSw {z : State} (s : State) (w : Sw) (r : SwRec) (hr : r.state = .moving → (s.sw w).state = .moving) (h : Trail z s) :
    Trail z (s.setSw w r) :=
  h.trans ⟨setSw_kept s w r, setSw_permitted s w r, List.prefix_refl _, .inl (movingCount_setSw_le s w r hr),
    by dsimp only [State.setSw]; omega⟩

theorem trail_setTask {z : State} (s : State) (n : Tx) (t : Option Task) (h : Trail z s) : Trail z (s.setTask n t) :=
  h.trans (trail_of rfl rfl rfl rfl)

theorem trail_modSlew {z : State} (s : State) (k : Rot) (f : SlewRec → SlewRec) (h : Trail z s) : Trail z (s.modSlew k f) :=
  h.trans (trail_of rfl rfl rfl rfl)

theorem trail_setSlot {z : State} (s : State) (n : Tx) (k : Slot) (r : Option RunRec) (h : Trail z s) : Trail z (s.setSlot n k r) := by
  cases k <;> exact trail_run s _ (by dsimp only; omega) h

theorem trail_setEarth {z : State} (s : State) (m : Ant) (e : Option EarthRec) (h : Trail z s) : Trail z (s.setEarth m e) :=
  h.trans (trail_of rfl rfl rfl rfl)

theorem trail_send {z : State} (s : State) (o : Output) (h : Trail z s) : Trail z (s.send o) := h.trans (trail_of rfl rfl rfl rfl)

theorem trail_raise {z : State} (s : State) (a : Attn) (h : Trail z s) : Trail z (s.raise a) := h.trans (trail_of rfl rfl rfl rfl)

theorem trail_raiseIf {z : State} (s : State) (c : Bool) (a : Attn) (h : Trail z s) : Trail z (s.raiseIf c a) := by
  cases c
  · exact h
  · exact trail_raise s a h

theorem trail_choose {z : State} (s : State) (n : Nat) (h : Trail z s) : Trail z (s.choose n).2 := by
  refine h.trans ?_
  unfold State.choose; split <;> exact trail_of rfl rfl rfl rfl

theorem trail_modPermit {z : State} (s : State) (n : Tx) (f : PermitRec → PermitRec) (h : Trail z s) : Trail z (s.modPermit n f) :=
  h.trans (trail_of rfl rfl rfl rfl)

theorem trail_modHolds {z : State} (s : State) (n : Tx) (f : Holds → Holds) (h : Trail z s) : Trail z (s.modHolds n f) :=
  trail_modPermit s n _ h

theorem trail_modForces {z : State} (s : State) (n : Tx) (f : Forces → Forces) (h : Trail z s) : Trail z (s.modForces n f) :=
  trail_modPermit s n _ h

theorem trail_modTx {z : State} (s : State) (n : Tx) (f : TxRec → TxRec) (hf : (f s.tx[n]).kept = (s.tx[n]).kept) (h : Trail z s) :
    Trail z (s.modTx n f) := h.trans (trail_of (calm_modTx s n f hf (Calm.refl s)).kept rfl rfl rfl)

theorem trail_forAll {z : State} {α : Type} (xs : List α) (f : α → State → State) (hf : ∀ x s, Trail z s → Trail z (f x s))
    (s : State) (h : Trail z s) : Trail z (forAll xs f s) := by
  induction xs generalizing s with
  | nil => exact h
  | cons x xs ih => exact ih (f x s) (hf x s h)

theorem trail_arrangeAux {z : State} {α : Type} (n : Nat) (xs : List α) (s : State) (h : Trail z s) :
    Trail z (State.arrangeAux n xs s).2 := by
  induction n generalizing xs s with
  | zero => exact h
  | succ n ih =>
    cases xs with
    | nil => exact h
    | cons x xs => exact ih _ _ (trail_choose s _ h)

theorem trail_arrange {z : State} {α : Type} (s : State) (xs : List α) (h : Trail z s) : Trail z (s.arrange xs).2 :=
  trail_arrangeAux _ _ _ h

end Sys2Proof.Machine
end

