-- ==== Sys2Proof/Proofs/TrailMatrix.lean ====
section
/-! SUPPORT. `Trail` of the matrix and route controllers. -/

namespace Sys2Proof.Machine

theorem trail_swComplete {z : State} (s : State) (w : Sw) (h : Trail z s) : Trail z (s.swComplete w) :=
  trail_report _ _ (trail_setSw s w _ nofun h)

theorem trail_swFault {z : State} (s : State) (w : Sw) (f : SwFault) (h : Trail z s) : Trail z (s.swFault w f) :=
  trail_raise _ _ (trail_notifyAll _ _ (trail_report _ _ (trail_setSw s w _ nofun h)))

/-- A grant made where drives are permitted and another is free (R11). -/
theorem trail_grant {z : State} (s : State) (w : Sw) (permitted : s.mx.permitted = true) (drives : s.drivesPermitted = true)
    (free : s.mx.movingCount < s.cfg.active.grantLimit) (h : Trail z s) : Trail z (s.grant w) := by
  unfold State.grant
  dsimp only
  refine trail_report _ _ (trail_send _ _ (h.trans ⟨setSw_kept s w _, setSw_permitted s w _, List.prefix_refl _, .inr ⟨permitted, drives, ?_⟩, ?_⟩))
  · exact Nat.le_trans (movingCount_setSw_succ s w _) free
  · dsimp only [State.setSw]; omega

theorem trail_grantLoop {z : State} (fuel : Nat) (s : State) (h : Trail z s) : Trail z (State.grantLoop fuel s) := by
  induction fuel generalizing s with
  | zero => exact h
  | succ n ih =>
    unfold State.grantLoop
    split
    · next may =>
      simp only [Bool.and_eq_true, decide_eq_true_eq] at may
      obtain ⟨⟨permitted, drives⟩, free⟩ := may
      split
      · exact h
      · exact ih _ (trail_grant s _ permitted drives free h)
    · exact h

theorem trail_grants {z : State} (s : State) (h : Trail z s) : Trail z (s.grants) := by
  grind [State.grants, trail_grantLoop]

theorem trail_commandOne {z : State} (s : State) (w : Sw) (p : Pos) (h : Trail z s) : Trail z (s.commandOne w p) := by
  have left : Trail z (if (s.sw w).commanded == p then s else s.leaveSafety w) := by
    split
    · exact h
    · exact trail_leaveSafety s w h
  have same : ((if (s.sw w).commanded == p then s else s.leaveSafety w).sw w) = s.sw w := by split <;> rfl
  have set := trail_setSw _ w { s.sw w with commanded := p } (fun moving => by rw [same]; exact moving) left
  unfold State.commandOne
  dsimp only
  split
  · exact trail_swComplete _ w set
  · exact set

theorem trail_command {z : State} (s : State) (ws : List (Sw × Pos)) (h : Trail z s) : Trail z (s.command ws).2 := by
  unfold State.command
  have (ws : List (Sw × Pos)) : Trail z (ws.foldl (fun s x => s.commandOne x.1 x.2) s) :=
    trail_forAll ws (fun x s => s.commandOne x.1 x.2) (fun x s h => trail_commandOne s x.1 x.2 h) s h
  grind

theorem trail_eq_command {z : State} (s : State) (ws : List (Sw × Pos)) (a : Status) (t : State) (h : Trail z s) (e : s.command ws = (a, t)) :
    Trail z t := by
  have := trail_command s ws h
  rwa [e] at this



theorem trail_joinQueue {z : State} (s : State) (w : Sw) (c : MoveClass) (h : Trail z s) : Trail z (s.joinQueue w c) := by
  unfold State.joinQueue
  dsimp only
  split
  · exact trail_swComplete s w h
  · exact trail_arrival _ _ (trail_setSw s w _ nofun h)

theorem trail_admitCore {z : State} (s : State) (w : Sw) (c : MoveClass) (retry : Bool) (h : Trail z s) :
    Trail z (s.admitCore w c retry).2 := by
  grind [State.admitCore, trail_joinQueue, trail_setSw]

theorem trail_eq_admitCore {z : State} (s : State) (w : Sw) (c : MoveClass) (retry : Bool) (a : Status) (t : State) (h : Trail z s) (e : s.admitCore w c retry = (a, t)) :
    Trail z t := by
  have := trail_admitCore s w c retry h
  rwa [e] at this

theorem trail_admit {z : State} (s : State) (w : Sw) (c : MoveClass) (retry : Bool) (h : Trail z s) :
    Trail z (s.admitMove w c retry).2 := by
  grind [State.admitMove, trail_admitCore, trail_eq_admitCore, trail_grants, trail_leaveSafety]

theorem trail_eq_admit {z : State} (s : State) (w : Sw) (c : MoveClass) (retry : Bool) (a : Status) (t : State) (h : Trail z s) (e : s.admitMove w c retry = (a, t)) :
    Trail z t := by
  have := trail_admit s w c retry h
  rwa [e] at this

theorem trail_withdrawToEarth {z : State} (s : State) (w : Sw) (h : Trail z s) : Trail z (s.withdrawToEarth w) := by
  grind [State.withdrawToEarth, trail_admitCore, trail_eq_admitCore, trail_grants, trail_setSw]

theorem trail_withdraw {z : State} (s : State) (w : Sw) (rest : List Sw) (h : Trail z s) : Trail z (s.withdraw w rest).2 := by
  grind [State.withdraw, trail_setSw, trail_swComplete, trail_withdrawToEarth]

theorem trail_stopSw {z : State} (s : State) (w : Sw) (h : Trail z s) : Trail z (s.stopSw w) :=
  trail_send _ _ (trail_setSw s w _ nofun h)

theorem trail_stopAll {z : State} (s : State) (h : Trail z s) : Trail z (s.stopAll) := by
  refine trail_forAll _ _ (fun x s h => ?_) _ h
  grind [trail_stopSw]

theorem trail_requeue {z : State} (s : State) (w : Sw) (h : Trail z s) : Trail z (s.requeue w) :=
  trail_report _ _ (trail_arrival _ _ (trail_setSw s w _ nofun h))

theorem trail_requeueAll {z : State} (s : State) (h : Trail z s) : Trail z (s.requeueAll) := by
  refine trail_forAll _ _ (fun x s h => ?_) _ h
  grind [trail_requeue]

theorem trail_clearSafety {z : State} (s : State) (h : Trail z s) : Trail z { s with mx := { s.mx with safety := [] } } :=
  trail_mx s _ rfl h

theorem trail_admitSafety {z : State} (s : State) (h : Trail z s) : Trail z (s.admitSafety) := by
  have admitted : Trail z (forAll allSw (fun w s =>
      if s.mx.safety.contains w && s.cfg.swOk w then (s.admitCore w .safety true).2 else s) s) := by
    refine trail_forAll _ _ (fun w s h => ?_) _ h
    split
    · exact trail_admitCore s w .safety true h
    · exact h
  exact trail_clearSafety _ admitted



theorem trail_movingReport {z : State} (s : State) (w : Sw) (x : Confirmed) (h : Trail z s) : Trail z (s.movingReport w x) := by
  grind [State.movingReport, trail_grants, trail_leaveSafety, trail_setSw, trail_swComplete, trail_swFault]

theorem trail_steadyReport {z : State} (s : State) (w : Sw) (x : Confirmed) (h : Trail z s) : Trail z (s.steadyReport w x) := by
  grind [State.steadyReport, trail_leaveSafety, trail_setSw, trail_swFault]

theorem trail_pendingReport {z : State} (s : State) (w : Sw) (x : Confirmed) (h : Trail z s) :
    Trail z (s.pendingReport w x) := by
  grind [State.pendingReport, trail_leaveSafety, trail_setSw, trail_swComplete, trail_swFault]

theorem trail_stoppedReport {z : State} (s : State) (w : Sw) (x : Confirmed) (h : Trail z s) :
    Trail z (s.stoppedReport w x) := by
  grind [State.stoppedReport, trail_leaveSafety, trail_setSw, trail_swComplete]

theorem trail_faultReport {z : State} (s : State) (w : Sw) (x : Confirmed) (h : Trail z s) : Trail z (s.faultReport w x) := by
  grind [State.faultReport, trail_leaveSafety, trail_setSw, trail_swComplete]

theorem trail_takeReport {z : State} (s : State) (w : Sw) (x : Confirmed) (h : Trail z s) : Trail z (s.takeReport w x) := by
  grind [State.takeReport, trail_faultReport, trail_movingReport, trail_pendingReport, trail_steadyReport, trail_stoppedReport]

theorem trail_travelExpired {z : State} (s : State) (w : Sw) (h : Trail z s) : Trail z (s.travelExpired w) :=
  trail_grants _ (trail_swFault _ w _ (trail_setSw _ w _ id (trail_send s _ h)))

theorem trail_endTask {z : State} (s : State) (n : Tx) (failure : Option TaskFail) (byReplacement ownCancel : Bool) (h : Trail z s) :
    Trail z (s.endTask n failure byReplacement ownCancel) := by
  grind [State.endTask, trail_notifyAll, trail_raise, trail_setTask]

theorem trail_withdrawAll {z : State} (ws : List Sw) (s : State) (h : Trail z s) : Trail z (State.withdrawAll ws s) := by
  induction ws generalizing s with
  | nil => exact h
  | cons w rest ih => exact ih _ (trail_withdraw s w rest h)

theorem trail_withdrawSet {z : State} (s : State) (t : Task) (h : Trail z s) : Trail z (s.withdrawSet t) :=
  trail_withdrawAll _ s h

theorem trail_failAndWithdraw {z : State} (s : State) (n : Tx) (f : TaskFail) (ownCancel : Bool) (h : Trail z s) :
    Trail z (s.failAndWithdraw n f ownCancel) := by
  grind [State.failAndWithdraw, trail_endTask, trail_withdrawSet]

theorem trail_taskTake {z : State} (s : State) (r : MxReport) (n : Tx) (h : Trail z s) : Trail z (s.taskTake r n) := by
  grind [State.taskTake, trail_endTask, trail_failAndWithdraw, trail_setTask]

theorem trail_absorb {z : State} (fuel : Nat) (s : State) (h : Trail z s) : Trail z (State.absorb fuel s) := by
  induction fuel generalizing s with
  | zero => exact h
  | succ n ih =>
    unfold State.absorb
    split
    · exact h
    · next r rest _ =>
      refine ih _ (trail_forAll _ _ (fun n s h => trail_taskTake s r n h) _ (trail_arrange _ _ ?_))
      exact trail_mx s _ rfl h

theorem trail_absorbAll {z : State} (s : State) (h : Trail z s) : Trail z (s.absorbAll) := by
  grind [State.absorbAll, trail_absorb]

theorem trail_admitFor {z : State} (s : State) (n : Tx) (w : Sw) (h : Trail z s) : Trail z (s.admitFor n w) := by
  grind [State.admitFor, trail_absorbAll, trail_admit, trail_eq_admit, trail_endTask, trail_setTask]

theorem trail_enterMoving {z : State} (s : State) (n : Tx) (h : Trail z s) : Trail z (s.enterMoving n) := by
  unfold State.enterMoving
  split
  · exact h
  · exact trail_forAll _ _ (fun w s h => trail_admitFor s n w h) _ (trail_setTask s _ _ h)

theorem trail_startTask {z : State} (s : State) (src : RouteSource) (n : Tx) (dest : Dest) (earthed : Option Ant) (h : Trail z s) :
    Trail z (s.startTask src n dest earthed) := by
  grind [State.startTask, trail_absorbAll, trail_command, trail_eq_command, trail_endTask, trail_enterMoving, trail_setTask]

theorem trail_routeRequest {z : State} (s : State) (src : RouteSource) (n : Tx) (dest : Dest) (earthed : Option Ant) (h : Trail z s) :
    Trail z (s.routeRequest src n dest earthed).2 := by
  grind [State.routeRequest, trail_startTask]

theorem trail_eq_routeRequest {z : State} (s : State) (src : RouteSource) (n : Tx) (dest : Dest) (earthed : Option Ant) (a : Status) (t : State) (h : Trail z s) (e : s.routeRequest src n dest earthed = (a, t)) :
    Trail z t := by
  have := trail_routeRequest s src n dest earthed h
  rwa [e] at this

theorem trail_looseEarth {z : State} (s : State) (src : RouteSource) (m : Ant) (h : Trail z s) :
    Trail z (s.looseEarth src m).2 := by
  grind [State.looseEarth, trail_absorbAll, trail_admit, trail_eq_admit]

theorem trail_eq_looseEarth {z : State} (s : State) (src : RouteSource) (m : Ant) (a : Status) (t : State) (h : Trail z s) (e : s.looseEarth src m = (a, t)) :
    Trail z t := by
  have := trail_looseEarth s src m h
  rwa [e] at this

theorem trail_earthRequest {z : State} (s : State) (src : RouteSource) (m : Ant) (h : Trail z s) :
    Trail z (s.earthRequest src m).2 := by
  unfold State.earthRequest
  split
  · exact trail_routeRequest s src _ _ _ h
  · exact trail_looseEarth s src m h

theorem trail_earthTask {z : State} (s : State) (m : Ant) (n : Tx) (h : Trail z s) : Trail z (s.earthTask m n).2 := by
  grind [State.earthTask, trail_startTask]

theorem trail_setRouteTrip {z : State} (s : State) (n : Tx) (b : Bool) (h : Trail z s) : Trail z (s.setRouteTrip n b) := by
  grind [State.setRouteTrip, trail_modHolds]

theorem trail_routeRf {z : State} (s : State) (n : Tx) (h : Trail z s) : Trail z (s.routeRf n) := by
  unfold State.routeRf
  split
  · exact h
  · dsimp only
    refine trail_absorbAll _ (trail_forAll _ _ (fun u s h => ?_) _ (trail_arrange _ _ (trail_setRouteTrip s n false h)))
    grind [trail_enterMoving]

theorem trail_routeHallSafe {z : State} (s : State) (h : Trail z s) : Trail z (s.routeHallSafe) := by
  refine trail_absorbAll _ (trail_forAll _ _ (fun u s h => ?_) _ h)
  grind [trail_failAndWithdraw]

theorem trail_routeLocked {z : State} (s : State) (g : Target) (h : Trail z s) : Trail z (s.routeLocked g) := by
  refine trail_absorbAll _ (trail_forAll _ _ (fun u s h => ?_) _ h)
  grind [trail_failAndWithdraw]

theorem trail_routeLeft {z : State} (s : State) (w : Sw) (h : Trail z s) : Trail z (s.routeLeft w) := by
  unfold State.routeLeft
  dsimp only
  exact trail_absorbAll _ (trail_forAll _ _ (fun n s h => trail_admitFor s n w h) _ (trail_arrange _ _ h))

theorem trail_cancelTask {z : State} (s : State) (n : Tx) (o : RouteOrigin) (h : Trail z s) : Trail z (s.cancelTask n o).2 := by
  grind [State.cancelTask, trail_absorbAll, trail_failAndWithdraw]

theorem trail_eq_cancelTask {z : State} (s : State) (n : Tx) (o : RouteOrigin) (a : Status) (t : State) (h : Trail z s) (e : s.cancelTask n o = (a, t)) :
    Trail z t := by
  have := trail_cancelTask s n o h
  rwa [e] at this

theorem trail_routeSettled {z : State} (s : State) (h : Trail z s) : Trail z (s.routeSettled) := by
  refine trail_forAll _ _ (fun x s h => ?_) _ h
  grind [trail_setTask]

end Sys2Proof.Machine
end

