-- ==== Sys2Proof/Proofs/TrailUnits.lean ====
section
/-! SUPPORT. `Trail` of the slew controller, the supervisor, the guard and the permit logic, and of the changeover. -/

namespace Sys2Proof.Machine

theorem trail_slewReport {z : State} (s : State) (k : Rot) (x : SlewReport) (h : Trail z s) : Trail z (s.slewReport k x) := by
  grind [State.slewReport, trail_notify]

theorem trail_slewFault {z : State} (s : State) (k : Rot) (f : SlewFault) (h : Trail z s) : Trail z (s.slewFault k f) := by
  grind [State.slewFault, trail_modSlew, trail_raise, trail_slewReport]

theorem trail_enterInPosition {z : State} (s : State) (k : Rot) (attention report : Bool) (h : Trail z s) :
    Trail z (s.enterInPosition k attention report) := by
  grind [State.enterInPosition, trail_modSlew, trail_raiseIf, trail_slewReport]

theorem trail_enterSettle {z : State} (s : State) (k : Rot) (h : Trail z s) : Trail z (s.enterSettle k) := by
  grind [State.enterSettle, trail_modSlew]

theorem trail_enterDrive {z : State} (s : State) (k : Rot) (h : Trail z s) : Trail z (s.enterDrive k) := by
  grind [State.enterDrive, trail_enterSettle, trail_modSlew]

theorem trail_judgePower {z : State} (s : State) (k : Rot) (h : Trail z s) : Trail z (s.judgePower k) := by
  grind [State.judgePower, trail_enterDrive, trail_slewFault]

theorem trail_enterAwait {z : State} (s : State) (k : Rot) (h : Trail z s) : Trail z (s.enterAwait k) := by
  grind [State.enterAwait, trail_judgePower, trail_modSlew]

theorem trail_dwellOrAwait {z : State} (s : State) (k : Rot) (d : Dir) (h : Trail z s) : Trail z (s.dwellOrAwait k d) := by
  grind [State.dwellOrAwait, trail_enterAwait, trail_modSlew]

theorem trail_startDrive {z : State} (s : State) (k : Rot) (e : Int) (h : Trail z s) : Trail z (s.startDrive k e) := by
  grind [State.startDrive, trail_dwellOrAwait, trail_modSlew]

theorem trail_reverseDrive {z : State} (s : State) (k : Rot) (e : Int) (h : Trail z s) : Trail z (s.reverseDrive k e) := by
  grind [State.reverseDrive, trail_dwellOrAwait, trail_modSlew]

theorem trail_restartSlew {z : State} (s : State) (k : Rot) (h : Trail z s) : Trail z (s.restartSlew k) := by
  grind [State.restartSlew, trail_modSlew]

theorem trail_judgeSpeed {z : State} (s : State) (k : Rot) (e : Int) (h : Trail z s) : Trail z (s.judgeSpeed k e) := by
  grind [State.judgeSpeed, trail_modSlew]

theorem trail_pursue {z : State} (s : State) (k : Rot) (attention report : Bool) (h : Trail z s) :
    Trail z (s.pursue k attention report) := by
  grind [State.pursue, trail_enterInPosition, trail_restartSlew, trail_startDrive]

theorem trail_displace {z : State} (s : State) (k : Rot) (o : Origin) (h : Trail z s) : Trail z (s.displace k o) := by
  grind [State.displace, trail_slewReport]

theorem trail_takeTarget {z : State} (s : State) (k : Rot) (az : Nat) (o : Origin) (h : Trail z s) :
    Trail z (s.takeTarget k az o) := by
  unfold State.takeTarget
  dsimp only
  have h0 := trail_modSlew _ k (fun r => { r with
    target := some az, origin := some o, fault := none, settleCount := 0, reported := false,
    state := if (s.slew[k]).state == .fault then .idle else (s.slew[k]).state }) (trail_displace s k o h)
  revert h0
  generalize (s.displace k o).modSlew k _ = t
  intro h0
  split
  · exact h0
  · split <;> grind [trail_modSlew, trail_pursue, trail_restartSlew, trail_startDrive, trail_reverseDrive, trail_enterAwait,
      trail_judgeSpeed]

theorem trail_slewRequest {z : State} (s : State) (d : Desk) (m : Ant) (az : Nat) (h : Trail z s) :
    Trail z (s.slewRequest d m az).2 := by
  grind [State.slewRequest, trail_takeTarget]

theorem trail_eq_slewRequest {z : State} (s : State) (d : Desk) (m : Ant) (az : Nat) (a : Status) (t : State) (h : Trail z s) (e : s.slewRequest d m az = (a, t)) :
    Trail z t := by
  have := trail_slewRequest s d m az h
  rwa [e] at this

theorem trail_slewStop {z : State} (s : State) (d : Desk) (m : Ant) (h : Trail z s) : Trail z (s.slewStop d m).2 := by
  grind [State.slewStop, trail_modSlew, trail_slewReport]

theorem trail_eq_slewStop {z : State} (s : State) (d : Desk) (m : Ant) (a : Status) (t : State) (h : Trail z s) (e : s.slewStop d m = (a, t)) :
    Trail z t := by
  have := trail_slewStop s d m h
  rwa [e] at this

theorem trail_slewSchedule {z : State} (s : State) (run : Nat) (m : Ant) (az : Nat) (h : Trail z s) :
    Trail z (s.slewSchedule run m az).2 := by
  grind [State.slewSchedule, trail_modSlew, trail_takeTarget]

theorem trail_eq_slewSchedule {z : State} (s : State) (run : Nat) (m : Ant) (az : Nat) (a : Status) (t : State) (h : Trail z s) (e : s.slewSchedule run m az = (a, t)) :
    Trail z t := by
  have := trail_slewSchedule s run m az h
  rwa [e] at this

theorem trail_slewWithdraw {z : State} (s : State) (run : Nat) (h : Trail z s) : Trail z (s.slewWithdraw run) := by
  refine trail_forAll _ _ (fun x s h => ?_) _ h
  grind [trail_modSlew]

theorem trail_slewHalt {z : State} (s : State) (h : Trail z s) : Trail z (s.slewHalt) := by
  refine trail_forAll _ _ (fun x s h => ?_) _ h
  grind [trail_modSlew]

theorem trail_slewResume {z : State} (s : State) (k : Rot) (h : Trail z s) : Trail z (s.slewResume k) := by
  grind [State.slewResume, trail_pursue]

theorem trail_slewResumeAll {z : State} (s : State) (h : Trail z s) : Trail z (s.slewResumeAll) := by
  refine trail_forAll _ _ (fun x s h => ?_) _ h
  grind [trail_slewResume]

theorem trail_slewPower {z : State} (s : State) (h : Trail z s) : Trail z (s.slewPower) := by
  refine trail_forAll _ _ (fun x s h => ?_) _ h
  grind [trail_judgePower]

theorem trail_slewInvalid {z : State} (s : State) (k : Rot) (h : Trail z s) : Trail z (s.slewInvalid k) := by
  grind [State.slewInvalid, trail_slewFault]

theorem trail_slewSettledOne {z : State} (s : State) (k : Rot) (h : Trail z s) : Trail z (s.slewSettledOne k) := by
  grind [State.slewSettledOne, trail_dwellOrAwait, trail_restartSlew, trail_slewFault, trail_slewResume]

theorem trail_slewSettled {z : State} (s : State) (h : Trail z s) : Trail z (s.slewSettled) := by
  refine trail_forAll _ _ (fun x s h => ?_) _ h
  grind [trail_slewSettledOne]

theorem trail_slewLocked {z : State} (s : State) (m : Ant) (h : Trail z s) : Trail z (s.slewLocked m) := by
  grind [State.slewLocked, trail_modSlew, trail_raise, trail_slewReport]

theorem trail_slewJudge {z : State} (s : State) (h : Trail z s) : Trail z (s.slewJudge) := by
  grind [State.slewJudge, trail_slewHalt, trail_slewResumeAll]

theorem trail_moveRefs {z : State} (s : State) (k : Rot) (a : Nat) (h : Trail z s) : Trail z (s.moveRefs k a) := by
  grind [State.moveRefs, trail_modSlew]

theorem trail_driveFrame {z : State} (s : State) (k : Rot) (a : Nat) (e : Int) (h : Trail z s) :
    Trail z (s.driveFrame k a e) := by
  grind [State.driveFrame, trail_enterSettle, trail_judgeSpeed, trail_moveRefs, trail_reverseDrive, trail_slewFault]

theorem trail_settleFrame {z : State} (s : State) (k : Rot) (e : Int) (h : Trail z s) : Trail z (s.settleFrame k e) := by
  grind [State.settleFrame, trail_enterInPosition, trail_modSlew, trail_startDrive]

theorem trail_dwellFrame {z : State} (s : State) (k : Rot) (e : Int) (h : Trail z s) : Trail z (s.dwellFrame k e) := by
  grind [State.dwellFrame, trail_enterSettle, trail_modSlew]

theorem trail_holdFrame {z : State} (s : State) (k : Rot) (e : Int) (h : Trail z s) : Trail z (s.holdFrame k e) := by
  grind [State.holdFrame, trail_raise, trail_restartSlew, trail_startDrive]

theorem trail_slewGood {z : State} (s : State) (k : Rot) (h : Trail z s) : Trail z (s.slewGood k) := by
  grind [State.slewGood, trail_driveFrame, trail_dwellFrame, trail_holdFrame, trail_settleFrame, trail_slewResume]

theorem trail_slewBad {z : State} (s : State) (k : Rot) (h : Trail z s) : Trail z (s.slewBad k) := by
  grind [State.slewBad, trail_modSlew, trail_slewInvalid]

theorem trail_followLast {z : State} (s : State) (n : Tx) (h : Trail z s) : Trail z (s.modTx n TxRec.followLast) :=
  trail_modTx s n _ (kept_followLast _) h

theorem trail_endOrder {z : State} (s : State) (n : Tx) (failure : Option OrderFail) (h : Trail z s) :
    Trail z (s.endOrder n failure) := by
  grind [State.endOrder, trail_notify, trail_raise, trail_modTx, TxRec.kept]

theorem trail_failOrder {z : State} (s : State) (n : Tx) (f : OrderFail) (h : Trail z s) : Trail z (s.failOrder n f) := by
  grind [State.failOrder, trail_endOrder, trail_followLast]

theorem trail_guardTrip {z : State} (s : State) (n : Tx) (h : Trail z s) : Trail z (s.guardTrip n) := by
  grind [State.guardTrip, trail_endOrder, trail_modForces, trail_notify, trail_modTx, TxRec.kept]

theorem trail_sendTune {z : State} (s : State) (n : Tx) (h : Trail z s) : Trail z (s.sendTune n) := by
  grind [State.sendTune, trail_send, trail_modTx, TxRec.kept]

theorem trail_takeFeed {z : State} (s : State) (n : Tx) (feed : Nat) (o : Origin) (h : Trail z s) :
    Trail z (s.takeFeed n feed o) := by
  grind [State.takeFeed, trail_endOrder, trail_send, trail_modTx, TxRec.kept]

theorem trail_takeTune {z : State} (s : State) (n : Tx) (freq feed : Nat) (o : Origin) (h : Trail z s) :
    Trail z (s.takeTune n freq feed o) := by
  grind [State.takeTune, trail_endOrder, trail_sendTune, trail_modTx, TxRec.kept]

theorem trail_acceptTune {z : State} (s : State) (n : Tx) (freq feed : Nat) (o : Origin) (h : Trail z s) :
    Trail z (s.acceptTune n freq feed o).2 := by
  grind [State.acceptTune, trail_takeFeed, trail_takeTune]

theorem trail_eq_acceptTune {z : State} (s : State) (n : Tx) (freq feed : Nat) (o : Origin) (a : Status) (t : State) (h : Trail z s) (e : s.acceptTune n freq feed o = (a, t)) :
    Trail z t := by
  have := trail_acceptTune s n freq feed o h
  rwa [e] at this

theorem trail_tuneRequest {z : State} (s : State) (n : Tx) (freq feed : Nat) (o : Origin) (h : Trail z s) :
    Trail z (s.tuneRequest n freq feed o).2 := by
  grind [State.tuneRequest, trail_acceptTune, trail_eq_acceptTune]

theorem trail_eq_tuneRequest {z : State} (s : State) (n : Tx) (freq feed : Nat) (o : Origin) (a : Status) (t : State) (h : Trail z s) (e : s.tuneRequest n freq feed o = (a, t)) :
    Trail z t := by
  have := trail_tuneRequest s n freq feed o h
  rwa [e] at this

theorem trail_feedRequest {z : State} (s : State) (n : Tx) (feed run : Nat) (h : Trail z s) :
    Trail z (s.feedRequest n feed run).2 := by
  grind [State.feedRequest, trail_takeFeed]

theorem trail_eq_feedRequest {z : State} (s : State) (n : Tx) (feed run : Nat) (a : Status) (t : State) (h : Trail z s) (e : s.feedRequest n feed run = (a, t)) :
    Trail z t := by
  have := trail_feedRequest s n feed run h
  rwa [e] at this

theorem trail_cancelOrder {z : State} (s : State) (n : Tx) (run : Nat) (h : Trail z s) : Trail z (s.cancelOrder n run) := by
  grind [State.cancelOrder, trail_failOrder]

theorem trail_txRf {z : State} (s : State) (n : Tx) (h : Trail z s) : Trail z (s.txRf n) := by
  grind [State.txRf, trail_sendTune]

theorem trail_txLocked {z : State} (s : State) (n : Tx) (h : Trail z s) : Trail z (s.txLocked n) := by
  grind [State.txLocked, trail_failOrder]

theorem trail_failHand {z : State} (s : State) (n : Tx) (is : Origin → Bool) (h : Trail z s) : Trail z (s.failHand n is) := by
  grind [State.failHand, trail_failOrder]

theorem trail_txSettled {z : State} (s : State) (h : Trail z s) : Trail z (s.txSettled) := by
  exact trail_forAll _ _ (fun n s h => trail_sendTune _ n (trail_modTx s n _ rfl h)) _ h

theorem trail_guardAct {z : State} (s : State) (n : Tx) (h : Trail z s) : Trail z (s.guardAct n) := by
  grind [State.guardAct, trail_guardTrip, trail_modHolds, trail_raise]

theorem trail_guardOne {z : State} (s : State) (n : Tx) (h : Trail z s) : Trail z (s.guardOne n) := by
  grind [State.guardOne, trail_guardAct, trail_modHolds]

theorem trail_guardSync {z : State} (s : State) (h : Trail z s) : Trail z (s.guardSync) := by
  refine trail_forAll _ _ (fun x s h => ?_) _ h
  grind [trail_guardOne]

theorem trail_permitSync {z : State} (s : State) (h : Trail z s) : Trail z s.permitSync :=
  h.trans (trail_of (calm_permitSync s (Calm.refl s)).kept rfl rfl rfl)

theorem trail_radiateOne {z : State} (s : State) (n : Tx) (h : Trail z s) : Trail z (s.radiateOne n) := by
  grind [State.radiateOne, trail_modTx, TxRec.kept]

theorem trail_watchOne {z : State} (s : State) (n : Tx) (h : Trail z s) : Trail z (s.watchOne n) := by
  grind [State.watchOne, trail_modTx, TxRec.kept]

theorem trail_sync {z : State} (s : State) (h : Trail z s) : Trail z (s.sync) := by
  refine trail_forAll _ _ (fun n s h => trail_watchOne _ n (trail_radiateOne s n h)) _ ?_
  exact trail_permitSync _ (trail_guardSync _ (trail_absorbAll s h))

theorem trail_judgeChangeover {z : State} (s : State) (now : Nat) (h : Trail z s) : Trail z (s.judgeChangeover now) := by
  unfold State.judgeChangeover
  split
  · exact trail_raise _ _ (h.trans (trail_of rfl rfl rfl rfl))
  · exact h

end Sys2Proof.Machine
end

