-- ==== Sys2Proof/Proofs/TrailRun.lean ====
section
/-! SUPPORT. `Trail` of the run scheduler. -/

namespace Sys2Proof.Machine

theorem trail_modRun {z : State} (s : State) (num : Nat) (f : RunRec → RunRec) (h : Trail z s) : Trail z (s.modRun num f) := by
  grind [State.modRun, trail_setSlot]

theorem trail_writeOutcome {z : State} (s : State) (r : RunRec) (st : RunState) (reason : Option RunReason) (now : Nat) (h : Trail z s) :
    Trail z (s.writeOutcome r st reason now) := by
  grind [State.writeOutcome, trail_raise, trail_run, trail_run]

theorem trail_takeBack {z : State} (s : State) (r : RunRec) (h : Trail z s) : Trail z (s.takeBack r) := by
  grind [State.takeBack, trail_cancelOrder, trail_cancelTask, trail_eq_cancelTask, trail_slewWithdraw]

theorem trail_leaveSlot {z : State} (s : State) (n : Tx) (k : Slot) (now : Nat) (h : Trail z s) : Trail z (s.leaveSlot n k now) := by
  grind [State.leaveSlot, trail_notify, trail_setSlot]

theorem trail_closeRun {z : State} (s : State) (n : Tx) (k : Slot) (r : RunRec) (st : RunState) (reason : Option RunReason) (now : Nat) (h : Trail z s) :
    Trail z (s.closeRun n k r st reason now) := by
  exact trail_permitSync _ (trail_writeOutcome _ _ _ _ _ (trail_slewWithdraw _ _ (trail_takeBack _ _ (trail_leaveSlot s n k now h))))

theorem trail_missRun {z : State} (s : State) (n : Tx) (k : Slot) (r : RunRec) (reason : RunReason) (now : Nat) (h : Trail z s) :
    Trail z (s.missRun n k r reason now) := by
  grind [State.missRun, trail_closeRun]

theorem trail_endRun {z : State} (s : State) (n : Tx) (k : Slot) (r : RunRec) (held : Bool) (now : Nat) (h : Trail z s) :
    Trail z (s.endRun n k r held now) := by
  grind [State.endRun, trail_closeRun]

theorem trail_dropRun {z : State} (s : State) (n : Tx) (k : Slot) (reason : RunReason) (now : Nat) (h : Trail z s) :
    Trail z (s.dropRun n k reason now) := by
  grind [State.dropRun, trail_endRun, trail_leaveSlot, trail_missRun]

theorem trail_goOnAir {z : State} (s : State) (num : Nat) (late : Bool) (h : Trail z s) : Trail z (s.goOnAir num late) := by
  grind [State.goOnAir, trail_modRun, trail_permitSync, trail_raise, trail_run]

theorem trail_readyCheck {z : State} (s : State) (num : Nat) (t : RunNow) (h : Trail z s) : Trail z (s.readyCheck num t) := by
  grind [State.readyCheck, trail_goOnAir, trail_setSlot]

theorem trail_setItem {z : State} (s : State) (num : Nat) (i : ItemKind) (x : Item) (h : Trail z s) :
    Trail z (s.setItem num i x) := by
  grind [State.setItem, trail_modRun]

theorem trail_goAlternate {z : State} (req : Nat → State → State) (hr : ∀ num s, Trail z s → Trail z (req num s)) (s : State) (num : Nat) (h : Trail z s) :
    Trail z (s.goAlternate req num).2 := by
  grind [State.goAlternate, trail_modRun, trail_raise, trail_run, trail_takeBack]

theorem trail_eq_goAlternate {z : State} (req : Nat → State → State) (hr : ∀ num s, Trail z s → Trail z (req num s)) (s : State) (num : Nat) (a : Bool) (t : State) (h : Trail z s) (e : s.goAlternate req num = (a, t)) :
    Trail z t := by
  have := trail_goAlternate req hr s num h
  rwa [e] at this

theorem trail_itemFailed {z : State} (req : Nat → State → State) (hr : ∀ num s, Trail z s → Trail z (req num s)) (s : State) (num : Nat) (i : ItemKind) (reason : RunReason) (now : Nat) (h : Trail z s) :
    Trail z (s.itemFailed req num i reason now) := by
  grind [State.itemFailed, trail_goAlternate, trail_eq_goAlternate, trail_missRun, trail_setItem]

theorem trail_antLockedRun {z : State} (req : Nat → State → State) (hr : ∀ num s, Trail z s → Trail z (req num s)) (s : State) (num : Nat) (now : Nat) (h : Trail z s) :
    Trail z (s.antLockedRun req num now) := by
  grind [State.antLockedRun, trail_closeRun, trail_goAlternate, trail_eq_goAlternate, trail_missRun]

theorem trail_txLockedRun {z : State} (s : State) (n : Tx) (k : Slot) (now : Nat) (h : Trail z s) :
    Trail z (s.txLockedRun n k now) := by
  unfold State.txLockedRun
  split
  · exact trail_closeRun _ _ _ _ _ _ _ h
  · split
    · exact h
    · exact trail_missRun _ _ _ _ _ _ h
  · exact h

theorem trail_lockedRun {z : State} (req : Nat → State → State) (hr : ∀ num s, Trail z s → Trail z (req num s)) (s : State) (num : Nat) (now : Nat) (h : Trail z s) :
    Trail z (s.lockedRun req num now) := by
  grind [State.lockedRun, trail_antLockedRun, trail_txLockedRun]

theorem trail_handRun {z : State} (s : State) (n : Tx) (now : Nat) (h : Trail z s) : Trail z (s.handRun n now) := by
  grind [State.handRun, trail_closeRun, trail_dropRun, trail_run]

theorem trail_handOf {z : State} (s : State) (num : Nat) (now : Nat) (h : Trail z s) : Trail z (s.handOf num now) := by
  grind [State.handOf, trail_handRun]

theorem trail_missOf {z : State} (s : State) (num : Nat) (reason : RunReason) (now : Nat) (h : Trail z s) :
    Trail z (s.missOf num reason now) := by
  grind [State.missOf, trail_missRun]

theorem trail_answerItem {z : State} (req : Nat → State → State) (hr : ∀ num s, Trail z s → Trail z (req num s)) (s : State) (num : Nat) (i : ItemKind) (a : Status) (now : RunNow) (h : Trail z s) :
    Trail z (s.answerItem req num i a now) := by
  unfold State.answerItem
  split <;> grind [trail_handOf, trail_itemFailed, trail_lockedRun, trail_missOf, trail_missRun, trail_readyCheck, trail_setItem]

theorem trail_askItem {z : State} (s : State) (r : RunRec) (i : ItemKind) (h : Trail z s) : Trail z (s.askItem r i).2 := by
  unfold State.askItem
  split
  · exact trail_routeRequest _ _ _ _ _ h
  · exact trail_tuneRequest _ _ _ _ _ h
  · exact trail_slewSchedule _ _ _ _ h
  · exact h

theorem trail_eq_askItem {z : State} (s : State) (r : RunRec) (i : ItemKind) (a : Status) (t : State) (h : Trail z s) (e : s.askItem r i = (a, t)) :
    Trail z t := by
  have := trail_askItem s r i h
  rwa [e] at this

theorem trail_requestItem {z : State} (req : Nat → State → State) (hr : ∀ num s, Trail z s → Trail z (req num s)) (s : State) (num : Nat) (i : ItemKind) (now : RunNow) (h : Trail z s) :
    Trail z (s.requestItem req num i now) := by
  grind [State.requestItem, trail_answerItem, trail_askItem, trail_eq_askItem]

theorem trail_requestItems {z : State} (fuel : Nat) (now : RunNow) (num : Nat) (s : State) (h : Trail z s) :
    Trail z (State.requestItems fuel now num s) := by
  induction fuel generalizing num s with
  | zero => exact h
  | succ n ih =>
    unfold State.requestItems
    dsimp only
    refine trail_readyCheck _ _ _ (trail_forAll _ _ (fun i s h => ?_) _ (trail_arrange _ _ h))
    exact trail_requestItem _ (fun num s => ih num s) s _ _ _ h

theorem trail_request {z : State} (s : State) (num : Nat) (now : RunNow) (h : Trail z s) : Trail z (s.request num now) := by
  grind [State.request, trail_requestItems]

theorem trail_alternate {z : State} (s : State) (num : Nat) (now : RunNow) (h : Trail z s) : Trail z (s.alternate num now).2 := by
  exact trail_goAlternate _ (fun num s h => trail_request s num now h) s num h

theorem trail_eq_alternate {z : State} (s : State) (num : Nat) (now : RunNow) (a : Bool) (t : State) (h : Trail z s) (e : s.alternate num now = (a, t)) :
    Trail z t := by
  have := trail_alternate s num now h
  rwa [e] at this

theorem trail_askAgain {z : State} (s : State) (xs : List (Nat × ItemKind)) (now : RunNow) (h : Trail z s) :
    Trail z (s.askAgain xs now) := by
  unfold State.askAgain
  dsimp only
  refine trail_forAll _ _ (fun x s h => ?_) _ (trail_arrange _ _ h)
  exact trail_requestItem _ (fun num s h => trail_request s num now h) s _ _ _ h

theorem trail_prepare {z : State} (s : State) (n : Tx) (now : Nat) (h : Trail z s) : Trail z (s.prepare n now) := by
  grind [State.prepare, trail_missRun, trail_request, trail_run, trail_setSlot]

theorem trail_passToCurrent {z : State} (s : State) (n : Tx) (now : RunNow) (h : Trail z s) : Trail z (s.passToCurrent n now) := by
  grind [State.passToCurrent, trail_goOnAir, trail_request, trail_run, trail_setSlot]

theorem trail_startRun {z : State} (s : State) (n : Tx) (now : Nat) (h : Trail z s) : Trail z (s.startRun n now) := by
  grind [State.startRun, trail_passToCurrent, trail_prepare, trail_run]

theorem trail_prepareDue {z : State} (s : State) (n : Tx) (now : RunNow) (h : Trail z s) : Trail z (s.prepareDue n now) := by
  grind [State.prepareDue, trail_passToCurrent, trail_prepare]

theorem trail_drawNum {z : State} (s : State) (h : Trail z s) : Trail z s.drawNum.2 := trail_run s _ (by dsimp only; omega) h

theorem trail_takeNext {z : State} (s : State) (n : Tx) (o : Occ) (late : Bool) (base : Nat) (h : Trail z s) :
    Trail z (s.takeNext n o late base) := by
  grind [State.takeNext, trail_drawNum, trail_setSlot]

theorem trail_missOcc {z : State} (s : State) (o : Occ) (reason : RunReason) (now : Nat) (h : Trail z s) :
    Trail z (s.missOcc o reason now) := by
  grind [State.missOcc, trail_drawNum, trail_writeOutcome]

theorem trail_chooseEmpty {z : State} (fuel : Nat) (n : Tx) (now : Nat) (s : State) (h : Trail z s) :
    Trail z (State.chooseEmpty fuel n now s) := by
  induction fuel generalizing s with
  | zero => exact h
  | succ k ih => grind [State.chooseEmpty, trail_takeNext, trail_missOcc]

theorem trail_missCarried {z : State} (fuel : Nat) (n : Tx) (stop now : Nat) (s : State) (h : Trail z s) :
    Trail z (State.missCarried fuel n stop now s) := by
  induction fuel generalizing s with
  | zero => exact h
  | succ k ih => grind [State.missCarried, trail_missOcc]

theorem trail_chooseAfter {z : State} (s : State) (n : Tx) (r : RunRec) (now : Nat) (h : Trail z s) :
    Trail z (s.chooseAfter n r now) := by
  grind [State.chooseAfter, trail_missCarried, trail_takeNext]

theorem trail_chooseFor {z : State} (s : State) (n : Tx) (now : RunNow) (h : Trail z s) : Trail z (s.chooseFor n now) := by
  grind [State.chooseFor, trail_chooseAfter, trail_chooseEmpty, trail_passToCurrent, trail_prepare, trail_run]

theorem trail_chooseAll {z : State} (s : State) (now : RunNow) (h : Trail z s) : Trail z (s.chooseAll now) := by
  unfold State.chooseAll
  dsimp only
  exact trail_forAll _ _ (fun n s h => trail_chooseFor s n now h) _ (trail_arrange _ _ h)

theorem trail_runThrough {z : State} (s : State) (n : Tx) (c r : RunRec) (m : Ant) (now : Nat) (h : Trail z s) :
    Trail z (s.runThrough n c r m now) := by
  unfold State.runThrough
  dsimp only
  have h1 (x : RunRec) : Trail z (((((s.setSlot n .nxt none).setSlot n .cur (some x)).writeOutcome c .ended none
      now).permitSync).raise .run) :=
    trail_raise _ .run (trail_permitSync _ (trail_writeOutcome _ c .ended none now
      (trail_setSlot _ n .cur _ (trail_setSlot s n .nxt none h))))
  refine trail_slewWithdraw _ _ ?_
  split <;> split <;> grind [trail_feedRequest, trail_slewSchedule, trail_raise]

theorem trail_lateEnd {z : State} (s : State) (n : Tx) (r : RunRec) (now : Nat) (h : Trail z s) :
    Trail z (s.lateEnd n r now) := by
  grind [State.lateEnd, trail_endRun, trail_missRun]

theorem trail_endPhase {z : State} (s : State) (n : Tx) (now : Nat) (h : Trail z s) : Trail z (s.endPhase n now) := by
  grind [State.endPhase, trail_endRun, trail_lateEnd, trail_run, trail_runThrough]

theorem trail_gracePhase {z : State} (s : State) (n : Tx) (now : Nat) (h : Trail z s) : Trail z (s.gracePhase n now) := by
  grind [State.gracePhase, trail_lateEnd, trail_run]

theorem trail_newGraces {z : State} (s : State) (now : Nat) (h : Trail z s) : Trail z (s.newGraces now) := by
  unfold State.newGraces
  dsimp only
  exact trail_forAll _ _ (fun n s h => trail_gracePhase s n now h) _ (trail_arrange _ _ h)

theorem trail_runBoundary {z : State} (s : State) (now : Nat) (h : Trail z s) : Trail z (s.runBoundary now) := by
  unfold State.runBoundary
  dsimp only
  refine trail_newGraces _ _ (trail_chooseAll _ _ (trail_forAll _ _ (fun n s h => trail_prepareDue s n _ h) _ ?_))
  refine trail_askAgain _ _ _ (trail_forAll _ _ (fun n s h => trail_gracePhase s n now h) _ ?_)
  refine trail_forAll _ _ (fun n s h => trail_startRun s n now h) _ ?_
  exact trail_forAll _ _ (fun n s h => trail_endPhase s n now h) _ (trail_arrange _ _ h)

theorem trail_routeEnd {z : State} (s : State) (e : TaskEnd) (run : Nat) (now : Nat) (h : Trail z s) :
    Trail z (s.routeEnd e run now) := by
  have hq' : ∀ num s, Trail z s → Trail z (State.request s num ⟨now, false⟩) := fun num s => trail_request s num _
  grind [State.routeEnd, trail_itemFailed, trail_lockedRun, trail_antLockedRun, trail_missOf, trail_readyCheck, trail_setItem]

theorem trail_runTask {z : State} (s : State) (e : TaskEnd) (h : Trail z s) : Trail z (s.runTask e) := by
  grind [State.runTask, trail_askAgain, trail_routeEnd]

theorem trail_slewEnd {z : State} (s : State) (run : Nat) (k : Rot) (x : SlewReport) (now : Nat) (h : Trail z s) :
    Trail z (s.slewEnd run k x now) := by
  have hq' : ∀ num s, Trail z s → Trail z (State.request s num ⟨now, false⟩) := fun num s => trail_request s num _
  grind [State.slewEnd, trail_itemFailed, trail_lockedRun, trail_antLockedRun, trail_missOf, trail_readyCheck, trail_setItem]

theorem trail_runSlew {z : State} (s : State) (run : Nat) (k : Rot) (x : SlewReport) (h : Trail z s) :
    Trail z (s.runSlew run k x) := by
  grind [State.runSlew, trail_askAgain, trail_slewEnd]

theorem trail_orderEnd {z : State} (s : State) (run : Nat) (kind : OrderKind) (f : Option OrderFail) (now : Nat) (h : Trail z s) :
    Trail z (s.orderEnd run kind f now) := by
  grind [State.orderEnd, trail_handRun, trail_missRun, trail_raiseIf, trail_readyCheck, trail_run, trail_setItem, trail_txLockedRun]

theorem trail_runOrder {z : State} (s : State) (run : Nat) (kind : OrderKind) (f : Option OrderFail) (h : Trail z s) :
    Trail z (s.runOrder run kind f) := by
  grind [State.runOrder, trail_askAgain, trail_orderEnd]

theorem trail_tripCur {z : State} (s : State) (n : Tx) (now : Nat) (h : Trail z s) : Trail z (s.tripCur n now) := by
  grind [State.tripCur, trail_closeRun, trail_run]

theorem trail_tripNxt {z : State} (s : State) (n : Tx) (now : Nat) (h : Trail z s) : Trail z (s.tripNxt n now) := by
  grind [State.tripNxt, trail_missRun, trail_run]

theorem trail_leaveMarked {z : State} (s : State) (n : Tx) (m : Ant) (now : Nat) (h : Trail z s) :
    Trail z (s.leaveMarked n m now) := by
  unfold State.leaveMarked
  dsimp only
  exact trail_forAll _ _ (fun num s h => trail_alternate s num _ h) _ (trail_arrange _ _ h)

theorem trail_tripOwn {z : State} (s : State) (n : Tx) (now : Nat) (h : Trail z s) : Trail z (s.tripOwn n now) := by
  grind [State.tripOwn, trail_tripCur, trail_tripNxt]

theorem trail_runFinalTrip {z : State} (s : State) (n : Tx) (mark : Option Ant) (h : Trail z s) :
    Trail z (s.runFinalTrip n mark) := by
  unfold State.runFinalTrip
  dsimp only
  split <;> grind [trail_tripOwn, trail_leaveMarked, trail_choose]

theorem trail_onAirLocked {z : State} (s : State) (num : Nat) (now : Nat) (h : Trail z s) :
    Trail z (s.onAirLocked num now) := by
  grind [State.onAirLocked, trail_alternate, trail_eq_alternate, trail_closeRun, trail_modRun, trail_permitSync]

theorem trail_runLockout {z : State} (s : State) (t : Target) (h : Trail z s) : Trail z (s.runLockout t) := by
  unfold State.runLockout
  split
  · exact trail_txLockedRun _ _ _ _ (trail_txLockedRun s _ _ _ h)
  · dsimp only
    refine trail_forAll _ _ (fun num s h => ?_) _ (trail_arrange _ _ h)
    split
    · split
      · exact trail_onAirLocked _ _ _ h
      · exact trail_antLockedRun _ (fun num s h => trail_request s num _ h) _ _ _ h
    · exact h

theorem trail_runSelFault {z : State} (s : State) (m : Ant) (h : Trail z s) : Trail z (s.runSelFault m) := by
  unfold State.runSelFault
  dsimp only
  refine trail_forAll _ _ (fun num s h => ?_) _ (trail_arrange _ _ h)
  grind [trail_alternate, trail_endRun, trail_missRun]

theorem trail_runSlot {z : State} (s : State) (n : Tx) (now : Nat) (h : Trail z s) : Trail z (s.runSlot n now) := by
  grind [State.runSlot, trail_passToCurrent, trail_prepare, trail_request, trail_run, trail_setSlot]

theorem trail_runAgain {z : State} (s : State) (h : Trail z s) : Trail z (s.runAgain) := by
  grind [State.runAgain, trail_askAgain]

theorem trail_runJudge {z : State} (s : State) (h : Trail z s) : Trail z (s.runJudge) := by
  unfold State.runJudge
  dsimp only
  split
  · exact trail_chooseAll _ _ (trail_forAll _ _ (fun n s h => trail_prepareDue s n _ h) _ (trail_arrange _ _ h))
  · exact h

theorem trail_runEdit {z : State} (s : State) (_t : TableId) (fromClose : Bool) (h : Trail z s) :
    Trail z (s.runEdit _t fromClose) := by
  unfold State.runEdit
  refine trail_chooseAll _ _ (trail_forAll _ _ (fun n s h => ?_) _ h)
  grind [trail_dropRun]

theorem trail_runChangeover {z : State} (s : State) (t : TableId) (now : Nat) (h : Trail z s) :
    Trail z (s.runChangeover t now) := by
  unfold State.runChangeover
  refine trail_chooseAll _ _ (trail_forAll _ _ (fun n s h => ?_) _ h)
  grind [trail_dropRun]

theorem trail_stepCurrent {z : State} (s : State) (n : Tx) (now : Nat) (h : Trail z s) : Trail z (s.stepCurrent n now) := by
  grind [State.stepCurrent, trail_dropRun, trail_endRun, trail_run]

theorem trail_runStep {z : State} (s : State) (e : StepEvent) (h : Trail z s) : Trail z (s.runStep e) := by
  obtain ⟨kind, before, now⟩ := e
  unfold State.runStep
  dsimp only
  have hs (now : Nat) : Trail z (forAll allTx (fun n s => (s.dropRun n .nxt .dropped now).stepCurrent n now) s) :=
    trail_forAll _ _ (fun n s h => trail_stepCurrent _ _ _ (trail_dropRun s _ _ _ _ h)) _ h
  cases kind
  · exact trail_chooseAll _ _ (hs _)
  · exact trail_chooseAll _ _ h
  · exact trail_chooseAll _ _ (hs _)
  · exact trail_chooseAll _ _ (trail_run _ _ (by dsimp only; omega) (hs _))

theorem trail_heldOne {z : State} (s : State) (n : Tx) (h : Trail z s) : Trail z (s.heldOne n) := by
  grind [State.heldOne, trail_raise, trail_run, trail_setSlot]

theorem trail_runSettled {z : State} (s : State) (h : Trail z s) : Trail z (s.runSettled) := by
  exact trail_runAgain _ (trail_forAll _ _ (fun n s h => trail_heldOne s n h) _ h)

end Sys2Proof.Machine
end

