-- ==== Sys2Proof/Proofs/TrailAll.lean ====
section
/-! SUPPORT. `Trail` of the lockout table and the hall monitor, and of every notice that a block takes. -/

namespace Sys2Proof.Machine

theorem trail_setEffective {z : State} (s : State) (g : Target) (b : Bool) (h : Trail z s) : Trail z (s.setEffective g b) := by
  unfold State.setEffective
  dsimp only
  split
  · refine trail_raise _ _ (h.trans (trail_of ?_ rfl rfl rfl))
    have : (s.locks.records.map fun r => if r.target == g then { r with effective := b } else r).map LockRec.kept =
        s.locks.records.map LockRec.kept := by
      rw [List.map_map]
      refine List.map_congr_left fun r _ => ?_
      simp only [Function.comp]
      split <;> rfl
    simp only [State.kept, State.modLocks]
    rw [this]
  · exact h

theorem trail_askEarth {z : State} (s : State) (m : Ant) (h : Trail z s) : Trail z (s.askEarth m) := by
  grind [State.askEarth, trail_earthRequest, trail_setEarth]

theorem trail_askEarths {z : State} (s : State) (except : Option Ant) (h : Trail z s) : Trail z (s.askEarths except) := by
  unfold State.askEarths
  dsimp only
  exact trail_forAll _ _ (fun m s h => trail_askEarth s m h) _ (trail_arrange _ _ h)

theorem trail_earthFailed {z : State} (s : State) (m : Ant) (f : EarthFail) (h : Trail z s) : Trail z (s.earthFailed m f) := by
  grind [State.earthFailed, trail_raise, trail_setEarth]

theorem trail_earthDone {z : State} (s : State) (m : Ant) (h : Trail z s) : Trail z (s.earthDone m) := by
  grind [State.earthDone, trail_setEarth]

theorem trail_judgeAnt {z : State} (s : State) (m : Ant) (h : Trail z s) : Trail z (s.judgeAnt m) := by
  grind [State.judgeAnt, trail_earthDone, trail_earthFailed, trail_setEffective]

theorem trail_lockSw {z : State} (s : State) (m : Ant) (leftMoving intoFault : Bool) (h : Trail z s) :
    Trail z (s.lockSw m leftMoving intoFault) := by
  grind [State.lockSw, trail_askEarth, trail_earthFailed, trail_judgeAnt]

theorem trail_lockRf {z : State} (s : State) (n : Tx) (h : Trail z s) : Trail z (s.lockRf n) := by
  grind [State.lockRf, trail_setEffective]

theorem trail_earthEnd {z : State} (s : State) (m : Ant) (e : TaskEnd) (h : Trail z s) : Trail z (s.earthEnd m e) := by
  grind [State.earthEnd, trail_earthDone, trail_earthFailed, trail_setEarth]

theorem trail_lockTask {z : State} (s : State) (e : TaskEnd) (h : Trail z s) : Trail z (s.lockTask e) := by
  grind [State.lockTask, trail_askEarths, trail_earthEnd]

theorem trail_lockSettled {z : State} (s : State) (h : Trail z s) : Trail z (s.lockSettled) := by
  exact trail_forAll _ _ (fun m s h => trail_lockSw s m _ _ h) _ (trail_forAll _ _ (fun n s h => trail_lockRf s n h) _ h)

theorem trail_setHallTrip {z : State} (s : State) (n : Tx) (b : Bool) (h : Trail z s) : Trail z (s.setHallTrip n b) := by
  grind [State.setHallTrip, trail_modHolds]

theorem trail_hallRf {z : State} (s : State) (n : Tx) (h : Trail z s) : Trail z (s.hallRf n) := by
  grind [State.hallRf, trail_setHallTrip]

theorem trail_toRun {z : State} (s : State) (x : Notice) (act : State → State) (hact : ∀ t, Trail z t → Trail z (act t))
    (h : Trail z s) : Trail z (s.toRun x act) := by
  unfold State.toRun
  split
  · exact trail_run _ _ (by dsimp only; omega) h
  · exact hact s h

theorem trail_seasonMinute {z : State} (s : State) (minute : Nat) (h : Trail z s) : Trail z (s.seasonMinute minute) := by
  unfold State.seasonMinute
  split
  · next u _ => exact trail_toRun _ _ _ (fun t h => trail_runChangeover t u minute h) (trail_judgeChangeover s _ h)
  · exact trail_judgeChangeover s _ h

theorem trail_clockGives {z : State} (s : State) (minute : Nat) (x : Notice) (act : State → State)
    (hact : ∀ t, Trail z t → Trail z (act t)) (h : Trail z s) : Trail z (s.clockGives minute x act) := by
  unfold State.clockGives
  generalize hc : s.choose _ = c
  have ht : Trail z c.2 := hc ▸ trail_choose s _ h
  dsimp only
  split
  · exact trail_toRun _ _ _ hact (trail_seasonMinute _ _ ht)
  · exact trail_seasonMinute _ _ (trail_toRun _ _ _ hact ht)

theorem trail_lockAsk {z : State} (s : State) (m : Ant) (h : Trail z s) : Trail z (s.lockAsk m) := by
  grind [State.lockAsk, trail_askEarth]

theorem trail_lockTaskNow {z : State} (s : State) (e : TaskEnd) (h : Trail z s) : Trail z (s.lockTaskNow e) := by
  grind [State.lockTaskNow, trail_earthEnd, trail_lockTask]

theorem trail_takeOne {z : State} (s : State) (n : Notice) (other : n ≠ .mxJudge) (h : Trail z s) : Trail z (s.takeOne n) := by
  cases n with
  | mxJudge => exact absurd rfl other
  | routeRf n => exact trail_routeRf _ _ h
  | routeSafe => exact trail_routeHallSafe _ h
  | routeLeft w => exact trail_routeLeft _ _ h
  | routeSettled => exact trail_routeSettled _ h
  | slewPower => exact trail_slewPower _ h
  | slewAllowed => exact trail_slewJudge _ h
  | slewInvalid k => exact trail_slewInvalid _ _ h
  | slewSettled => exact trail_slewSettled _ h
  | txRf n => exact trail_txRf _ _ h
  | txSettled => exact trail_txSettled _ h
  | lockRf n => exact trail_lockRf _ _ h
  | lockSw m a b => exact trail_lockSw _ _ _ _ h
  | lockTask e => exact trail_lockTaskNow _ _ h
  | lockAsk m => exact trail_lockAsk _ _ h
  | lockSettled => exact trail_lockSettled _ h
  | hallRf n => exact trail_hallRf _ _ h
  | boundary minute => exact trail_clockGives _ _ _ _ (fun t h => trail_runBoundary t _ h) h
  | step e => exact trail_clockGives _ _ _ _ (fun t h => trail_runStep t _ h) h
  | runBoundary minute => exact trail_runBoundary _ _ h
  | runStep e => exact trail_runStep _ _ h
  | runEdit t c => exact trail_runEdit _ t _ h
  | runChangeover t minute => exact trail_runChangeover _ _ _ h
  | runTask e => exact trail_runTask _ _ h
  | runSlew run k r => exact trail_runSlew _ _ _ _ h
  | runOrder run kind f => exact trail_runOrder _ _ _ _ h
  | runFinalTrip n m => exact trail_runFinalTrip _ _ _ h
  | runLockout t => exact trail_runLockout _ _ h
  | runTx n => exact trail_runAgain _ h
  | runHall => exact trail_runAgain _ h
  | runSelFault m => exact trail_runSelFault _ _ h
  | runSlot n now => exact trail_runSlot _ _ _ h
  | runJudge => exact trail_runJudge _ h
  | runHeld n => exact trail_heldOne _ _ h
  | runSettled => exact trail_runSettled _ h

theorem trail_takeOrKeep {z : State} (s : State) (n : Notice) (other : n ≠ .mxJudge) (h : Trail z s) : Trail z (s.takeOrKeep n) := by
  unfold State.takeOrKeep
  split
  · exact trail_toRun _ _ _ (fun t h => trail_takeOne t n other h) h
  · exact trail_takeOne s n other h

theorem trail_observe {z : State} (before s : State) (h : Trail z s) : Trail z (State.observe before s) :=
  trail_notifyAll _ _ (trail_sync s h)

end Sys2Proof.Machine
end

