-- ==== Sys2Proof/Proofs/Grants.lean ====
section
/-! SUPPORT. The bounds of the grants and the judgement of drive permission under the consequences of an act, and the bound of the
outcome list (R10, R11, R20, R133). -/

namespace Sys2Proof.Machine

/-- The bounds of the grants, apart from the judgement of drive permission (R10, R11). -/
structure MovesBounded (s : State) : Prop where
  limit : s.mx.movingCount ≤ s.cfg.active.grantLimit
  closed : s.isOpen = true ∨ s.cfg.configured = false → s.mx.movingCount = 0
  permitted : s.mx.permitted = false → s.mx.movingCount = 0

/-- The judgement of drive permission stands, or is still to be made. -/
def Judged (s : State) : Prop := .mxJudge ∈ s.notices ∨ s.mx.permitted = s.drivesPermitted

theorem drivesPermitted_iff (s : State) : s.drivesPermitted = true ↔
    s.mx.supplyHeld = true ∧ s.hall.state = .normal ∧ s.isOpen = false ∧ s.cfg.configured = true ∧ s.isSettling = false := by
  simp only [State.drivesPermitted, Bool.and_eq_true, beq_iff_eq, Bool.not_eq_true', and_assoc]

theorem grantsBounded_iff (s : State) : GrantsBounded s ↔ MovesBounded s ∧ Judged s := by
  have judged : Judged s ↔ (.mxJudge ∉ s.notices → (s.mx.permitted = true ↔ s.drivesPermitted = true)) := by
    unfold Judged
    rw [Bool.coe_iff_coe]
    exact Classical.or_iff_not_imp_left
  rw [judged, drivesPermitted_iff]
  exact ⟨fun ⟨limit, closed, permitted, judged⟩ => ⟨⟨limit, closed, permitted⟩, judged⟩,
    fun ⟨⟨limit, closed, permitted⟩, judged⟩ => ⟨limit, closed, permitted, judged⟩⟩

theorem MovesBounded.of_rest {s : State} (h : s.mx.movingCount = 0) : MovesBounded s :=
  ⟨by omega, fun _ => h, fun _ => h⟩

theorem Trail.moves {a b : State} (h : Trail a b) (k : MovesBounded a) : MovesBounded b := by
  obtain ⟨limit, closed, permitted⟩ := k
  obtain ⟨-, active, opened, configured, -, -⟩ := gates_of_kept h.kept
  obtain fewer | ⟨may, drives, within⟩ := h.moving
  · refine ⟨by rw [active]; omega, fun c => ?_, fun c => ?_⟩
    · rw [opened, configured] at c
      have := closed c
      omega
    · rw [h.permitted] at c
      have := permitted c
      omega
  · obtain ⟨-, -, shut, set, -⟩ := (drivesPermitted_iff a).1 drives
    refine ⟨active ▸ within, fun c => ?_, fun c => ?_⟩
    · rw [opened, configured, shut, set] at c
      simp at c
    · rw [h.permitted, may] at c
      cases c

theorem Trail.judged {a b : State} (h : Trail a b) (k : Judged a) : Judged b := by
  obtain waits | same := k
  · exact .inl (h.notices.subset waits)
  · exact .inr (by rw [h.permitted, (gates_of_kept h.kept).1, same])

/-! ## The judgement -/

theorem drivesPermitted_congr {a b : State} (held : b.mx.supplyHeld = a.mx.supplyHeld) (hall : b.hall = a.hall) (cfg : b.cfg = a.cfg) :
    b.drivesPermitted = a.drivesPermitted := by
  simp only [State.drivesPermitted, State.isOpen, State.isSettling, held, hall, cfg]

/-- Where every MOVING switch is stopped, none moves. -/
theorem movingCount_stopAll (s : State) : s.stopAll.mx.movingCount = 0 := by
  have others : ∀ (z : State) (w v : Sw), (v = w ∨ (z.sw v).state ≠ .moving) →
      ((if (z.sw w).state == .moving then z.stopSw w else z).sw v).state ≠ .moving := by
    intro z w v h
    split
    · next moving =>
      by_cases e : v = w
      · subst e
        have : ((z.stopSw v).sw v).state = .stopped := by
          show ((z.setSw v _).sw v).state = _
          rw [setSw_same]
        rw [this]
        nofun
      · have : (z.stopSw w).sw v = z.sw v := setSw_other z w v _ e
        rw [this]
        exact h.resolve_left e
    · next rests =>
      obtain rfl | h := h
      · simpa using rests
      · exact h
  have all : ∀ (ws : List Sw) (z : State) (v : Sw), (v ∈ ws ∨ (z.sw v).state ≠ .moving) →
      ((forAll ws (fun w s => if (s.sw w).state == .moving then s.stopSw w else s) z).sw v).state ≠ .moving := by
    intro ws
    induction ws with
    | nil => exact fun z v h => h.resolve_left List.not_mem_nil
    | cons w ws ih =>
      intro z v h
      refine ih _ v ?_
      by_cases e : v ∈ ws
      · exact .inl e
      · exact .inr (others z w v (by simpa [e] using h))
  rw [movingCount_eq, List.countP_eq_zero]
  intro v _
  rw [beq_iff_eq]
  exact all _ s v (.inl (mem_allSw v))

/-- Everything that the judgement of drive permission leaves of notices and outcomes, and that it is right afterwards (R20, R21). -/
theorem mxJudge_permitted (s : State) : s.mxJudge.mx.permitted = s.drivesPermitted := by
  unfold State.mxJudge
  split
  · next drives =>
    split
    · next may => rw [may, drives]
    · exact (trail_grants _ (trail_admitSafety _ (trail_requeueAll _ (Trail.refl _)))).permitted.trans drives.symm
  · next shut =>
    have shut : s.drivesPermitted = false := by simpa using shut
    split
    · exact (trail_stopAll _ (Trail.refl _)).permitted.trans shut.symm
    · next may => rw [shut]; simpa using may

theorem mxJudge_outcomes (s : State) : s.mxJudge.run.outcomes.length ≤ max 32 s.run.outcomes.length := by
  unfold State.mxJudge
  repeat' split
  · omega
  · exact (trail_grants _ (trail_admitSafety _ (trail_requeueAll _ (Trail.refl _)))).outcomes
  · exact (trail_stopAll _ (Trail.refl _)).outcomes
  · omega

theorem mxJudge_moves (s : State) (h : MovesBounded s) : MovesBounded s.mxJudge := by
  unfold State.mxJudge
  split
  · split
    · exact h
    · next shut =>
      have rests := h.permitted (by simpa using shut)
      exact (trail_grants _ (trail_admitSafety _ (trail_requeueAll _ (Trail.refl _)))).moves (.of_rest rests)
  · split
    · exact .of_rest (movingCount_stopAll _)
    · exact h

theorem mxJudge_judged (s : State) : Judged s.mxJudge :=
  .inr (by rw [mxJudge_permitted, (gates_of_kept (calm_mxJudge s (Calm.refl s)).kept).1])

/-! ## The notices taken one by one -/

/-- The outcome list within its bound (R133). -/
def OutcomesBounded (s : State) : Prop := s.run.outcomes.length ≤ 32

theorem Trail.outcomesBounded {a b : State} (h : Trail a b) (k : OutcomesBounded a) : OutcomesBounded b := by
  have := h.outcomes
  unfold OutcomesBounded at *
  omega

/-- A notice that is not the one taken is still there. -/
theorem mem_eraseP_of_ne_find {α : Type} (p : α → Bool) (x d : α) (xs : List α) (h : x ∈ xs) (k : x ≠ (xs.find? p).getD d) :
    x ∈ xs.eraseP p := by
  induction xs with
  | nil => exact h
  | cons y ys ih =>
    by_cases hy : p y = true
    · rw [List.eraseP_cons_of_pos hy]
      rw [List.find?_cons_of_pos hy] at k
      exact (List.mem_cons.1 h).resolve_left k
    · rw [List.eraseP_cons_of_neg hy]
      rw [List.find?_cons_of_neg hy] at k
      obtain rfl | h := List.mem_cons.1 h
      · exact List.mem_cons_self
      · exact List.mem_cons_of_mem _ (ih h k)

/-- The state with a notice taken out differs in the notices and the choices, and keeps every other notice. -/
theorem takeNotice_rest {s t : State} {n : Notice} (h : s.takeNotice = some (n, t)) :
    t.mx = s.mx ∧ t.cfg = s.cfg ∧ t.hall = s.hall ∧ t.run = s.run ∧ ∀ x ∈ s.notices, x ≠ n → x ∈ t.notices := by
  unfold State.takeNotice at h
  split at h
  · cases h
  · simp only [Option.some.injEq, Prod.mk.injEq] at h
    obtain ⟨rfl, rfl⟩ := h
    have choice : ∀ k : Nat, (s.choose k).2.mx = s.mx ∧ (s.choose k).2.cfg = s.cfg ∧ (s.choose k).2.hall = s.hall ∧
        (s.choose k).2.run = s.run ∧ (s.choose k).2.notices = s.notices := by
      intro k
      unfold State.choose
      split <;> exact ⟨rfl, rfl, rfl, rfl, rfl⟩
    obtain ⟨mx, cfg, hall, run, notices⟩ := choice (waitingBlocks s.notices).length
    refine ⟨mx, cfg, hall, run, fun x hx other => ?_⟩
    dsimp only
    rw [notices]
    exact mem_eraseP_of_ne_find _ x _ _ hx other

/-- What the blocks do to the grants and the outcomes until no notice is left. -/
theorem drain_ordered (fuel : Nat) (s : State) :
    (MovesBounded s → MovesBounded (State.drain fuel s)) ∧ (Judged s → Judged (State.drain fuel s)) ∧
      (OutcomesBounded s → OutcomesBounded (State.drain fuel s)) := by
  induction fuel generalizing s with
  | zero => exact ⟨id, id, id⟩
  | succ k ih =>
    unfold State.drain
    split
    · exact ⟨id, id, id⟩
    · next n t e =>
      obtain ⟨mx, cfg, hall, run, notices⟩ := takeNotice_rest e
      have moves : MovesBounded s → MovesBounded t := fun ⟨limit, closed, permitted⟩ =>
        ⟨by rw [mx, cfg]; exact limit, by rw [State.isOpen, mx, cfg]; exact closed, by rw [mx]; exact permitted⟩
      have outcomes : OutcomesBounded s → OutcomesBounded t := by unfold OutcomesBounded; rw [run]; exact id
      obtain ⟨moved, decided, closed⟩ := ih (State.observe t (t.takeOrKeep n))
      by_cases judge : n = .mxJudge
      · subst judge
        have seen := trail_observe t _ (trail_absorbAll _ (Trail.refl t.mxJudge))
        refine ⟨fun m => moved (seen.moves (mxJudge_moves t (moves m))), fun _ => decided (seen.judged (mxJudge_judged t)),
          fun o => closed (seen.outcomesBounded ?_)⟩
        have := mxJudge_outcomes t
        have := outcomes o
        unfold OutcomesBounded at *
        omega
      · have seen := trail_observe t _ (trail_takeOrKeep t n judge (Trail.refl t))
        refine ⟨fun m => moved (seen.moves (moves m)), fun j => decided (seen.judged ?_),
          fun o => closed (seen.outcomesBounded (outcomes o))⟩
        obtain waits | same := j
        · exact .inl (notices _ waits fun e => judge e.symm)
        · exact .inr (by rw [drivesPermitted_congr (by rw [mx]) hall cfg, mx, same])

theorem cascade_ordered (a s : State) :
    (MovesBounded s → MovesBounded (State.cascade a s)) ∧ (Judged s → Judged (State.cascade a s)) ∧
      (OutcomesBounded s → OutcomesBounded (State.cascade a s)) := by
  have seen := trail_observe a s (Trail.refl s)
  obtain ⟨moves, judged, outcomes⟩ := drain_ordered noticeFuel (State.observe a s)
  exact ⟨moves ∘ seen.moves, judged ∘ seen.judged, outcomes ∘ seen.outcomesBounded⟩

end Sys2Proof.Machine
end


-- ==== Sys2Proof/Proofs/Keeps.lean ====
section
/-! SUPPORT. What no act undoes: the queue, the timebase, what was sent, the memory, the bounds of the grants, the tables and the
outcomes, and the enabled masks. `Keeps` of the own effect of every desk command and event. -/

namespace Sys2Proof.Machine

/-- No more than 32 lockouts, no two of one desk on one target (R166). -/
def LocksBounded (ks : List KeptLock) : Prop :=
  ks.length ≤ 32 ∧ ks.Pairwise fun a b => ¬(a.target = b.target ∧ a.desk = b.desk)

/-- No more than 320 entries in a season table (R118). -/
def SeasonsBounded (y : Season) : Prop := y.tableA.length ≤ 320 ∧ y.tableB.length ≤ 320

/-- The lockouts of a state, without their states. -/
def State.keptLocks (s : State) : List KeptLock := s.locks.records.map LockRec.kept

/-- No more than 14 link-BUSY replies and one waiting attention frame in a send queue (R186, R195). -/
def QueueBounded (l : Link) : Prop := (l.queue.filter Frame.isLinkBusy).length ≤ 14 ∧ (l.queue.filter Frame.isWaiting).length ≤ 1

/-- Every send queue within its bounds. -/
def QueuesBounded (s : State) : Prop := ∀ d : Desk, QueueBounded (s.link d)

/-- What no act undoes. -/
structure Keeps (s u : State) : Prop where
  pending : u.pending = s.pending
  time : s.timebase ≤ u.timebase
  sent : s.sent <+: u.sent
  memory : MemoryCanonical s → MemoryCanonical u
  moves : MovesBounded s → MovesBounded u
  judged : Judged s → Judged u
  masks : EnabledWithin s → EnabledWithin u
  locks : LocksBounded s.keptLocks → LocksBounded u.keptLocks
  seasons : SeasonsBounded s.season → SeasonsBounded u.season
  outcomes : OutcomesBounded s → OutcomesBounded u
  queues : QueuesBounded s → QueuesBounded u

theorem Keeps.refl (s : State) : Keeps s s := ⟨rfl, Nat.le_refl _, List.prefix_refl _, id, id, id, id, id, id, id, id⟩

theorem Keeps.trans {a b c : State} (h : Keeps a b) (k : Keeps b c) : Keeps a c where
  pending := k.pending.trans h.pending
  time := Nat.le_trans h.time k.time
  sent := h.sent.trans k.sent
  memory := k.memory ∘ h.memory
  moves := k.moves ∘ h.moves
  judged := k.judged ∘ h.judged
  masks := k.masks ∘ h.masks
  locks := k.locks ∘ h.locks
  seasons := k.seasons ∘ h.seasons
  outcomes := k.outcomes ∘ h.outcomes
  queues := k.queues ∘ h.queues

/-- Where everything that `Keeps` speaks of is as it was, but for notices and time, which may have gone on. -/
theorem keeps_of {s u : State} (pending : u.pending = s.pending) (time : s.timebase ≤ u.timebase) (sent : s.sent <+: u.sent)
    (cfg : u.cfg = s.cfg) (mx : u.mx = s.mx) (hall : u.hall.state = s.hall.state) (notices : s.notices <+: u.notices)
    (enabled : u.enabled = s.enabled) (locks : u.keptLocks = s.keptLocks) (season : u.season = s.season)
    (outcomes : u.run.outcomes = s.run.outcomes) (links : u.links = s.links) : Keeps s u where
  pending := pending
  time := time
  sent := sent
  memory := by unfold MemoryCanonical; rw [cfg]; exact id
  moves := fun ⟨limit, closed, permitted⟩ =>
    ⟨by rw [mx, cfg]; exact limit, by rw [State.isOpen, mx, cfg]; exact closed, by rw [mx]; exact permitted⟩
  judged := by
    have same : u.drivesPermitted = s.drivesPermitted := by
      simp only [State.drivesPermitted, State.isOpen, State.isSettling, mx, cfg, hall]
    unfold Judged
    rw [mx, same]
    exact Or.imp_left fun h => notices.subset h
  masks := by unfold EnabledWithin; rw [enabled, cfg]; exact id
  locks := by rw [locks]; exact id
  seasons := by rw [season]; exact id
  outcomes := by unfold OutcomesBounded; rw [outcomes]; exact id
  queues := by unfold QueuesBounded State.link; rw [links]; exact id

/-- What leaves `Kept` and the queues, and keeps the bounds of grants and outcomes, undoes nothing. -/
theorem keeps_of_calm {s u : State} (c : Calm s u) (moves : MovesBounded s → MovesBounded u) (judged : Judged s → Judged u)
    (outcomes : OutcomesBounded s → OutcomesBounded u) : Keeps s u := by
  obtain ⟨-, active, -, -, image, saving⟩ := gates_of_kept c.kept
  have enabled : u.enabled = s.enabled := congrArg Kept.enabled c.kept
  have locks : u.keptLocks = s.keptLocks := congrArg Kept.locks c.kept
  have tableA : u.season.tableA = s.season.tableA := congrArg Kept.tableA c.kept
  have tableB : u.season.tableB = s.season.tableB := congrArg Kept.tableB c.kept
  have pending : u.pending = s.pending := congrArg Kept.pending c.kept
  have time : u.timebase = s.timebase := congrArg Kept.timebase c.kept
  refine ⟨pending, Nat.le_of_eq time.symm, c.sent, ?_, moves, judged, ?_, ?_, ?_, outcomes, fun k d => ?_⟩
  · unfold MemoryCanonical; rw [image, saving]; exact id
  · unfold EnabledWithin; rw [enabled, active]; exact id
  · rw [locks]; exact id
  · unfold SeasonsBounded; rw [tableA, tableB]; exact id
  · have queue := congrArg Link.queue (c.links d).same
    dsimp only at queue
    unfold QueueBounded
    rw [queue]
    exact k d

/-- What follows from an act undoes none of it. -/
theorem keeps_of_trail {s u : State} (c : Calm s u) (h : Trail s u) : Keeps s u :=
  keeps_of_calm c h.moves h.judged h.outcomesBounded

theorem keeps_cascade (a s : State) : Keeps s (State.cascade a s) :=
  let ⟨moves, judged, outcomes⟩ := cascade_ordered a s
  keeps_of_calm (cascade_calm a s) moves judged outcomes

/-- An operation of the blocks behind an effect. -/
theorem Keeps.act {s u v : State} (h : Keeps s u) (c : ∀ z : State, Calm z u → Calm z v) (t : ∀ z : State, Trail z u → Trail z v) :
    Keeps s v :=
  h.trans (keeps_of_trail (c u (Calm.refl u)) (t u (Trail.refl u)))

section
variable (s : State)

theorem keeps_modTx (n : Tx) (f : TxRec → TxRec) : Keeps s (s.modTx n f) :=
  keeps_of rfl (Nat.le_refl _) (List.prefix_refl _) rfl rfl rfl (List.prefix_refl _) rfl rfl rfl rfl rfl

theorem keeps_modPermit (n : Tx) (f : PermitRec → PermitRec) : Keeps s (s.modPermit n f) :=
  keeps_of rfl (Nat.le_refl _) (List.prefix_refl _) rfl rfl rfl (List.prefix_refl _) rfl rfl rfl rfl rfl

theorem keeps_modClock (f : Clock → Clock) : Keeps s (s.modClock f) :=
  keeps_of rfl (Nat.le_refl _) (List.prefix_refl _) rfl rfl rfl (List.prefix_refl _) rfl rfl rfl rfl rfl

theorem keeps_modRot (k : Rot) (f : RotRec → RotRec) : Keeps s (s.modRot k f) :=
  keeps_of rfl (Nat.le_refl _) (List.prefix_refl _) rfl rfl rfl (List.prefix_refl _) rfl rfl rfl rfl rfl

theorem keeps_faultMark (v : Vector Bool 24) : Keeps s { s with faultMark := v } :=
  keeps_of rfl (Nat.le_refl _) (List.prefix_refl _) rfl rfl rfl (List.prefix_refl _) rfl rfl rfl rfl rfl

/-- The links changed, with every queue within its bounds. -/
theorem keeps_links (ls : Vector Link 3) (hl : QueuesBounded s → QueuesBounded { s with links := ls }) :
    Keeps s { s with links := ls } :=
  ⟨rfl, Nat.le_refl _, List.prefix_refl _, id, fun h => ⟨h.limit, h.closed, h.permitted⟩, id, id, id, id, id, hl⟩

theorem keeps_choose (n : Nat) : Keeps s (s.choose n).2 := (Keeps.refl s).act (fun _ => calm_choose s n) fun _ => trail_choose s n

theorem keeps_send (o : Output) : Keeps s (s.send o) := (Keeps.refl s).act (fun _ => calm_send s o) fun _ => trail_send s o

theorem keeps_raise (a : Attn) : Keeps s (s.raise a) := (Keeps.refl s).act (fun _ => calm_raise s a) fun _ => trail_raise s a

theorem keeps_raiseIf (c : Bool) (a : Attn) : Keeps s (s.raiseIf c a) :=
  (Keeps.refl s).act (fun _ => calm_raiseIf s c a) fun _ => trail_raiseIf s c a

theorem keeps_notify (x : Notice) : Keeps s (s.notify x) := (Keeps.refl s).act (fun _ => calm_notify s x) fun _ => trail_notify s x

theorem keeps_notifyAll (xs : List Notice) : Keeps s (s.notifyAll xs) :=
  (Keeps.refl s).act (fun _ => calm_notifyAll s xs) fun _ => trail_notifyAll s xs

theorem keeps_atExpiry (t : Timer) : Keeps s (s.atExpiry t) := by
  unfold State.atExpiry
  split
  · exact keeps_of rfl (Nat.le_max_left _ _) (List.prefix_refl _) rfl rfl rfl (List.prefix_refl _) rfl rfl rfl rfl rfl
  · exact .refl s

/-- The hall changed in anything but its state. -/
theorem keeps_modHall (f : Hall → Hall) (hf : (f s.hall).state = s.hall.state) : Keeps s (s.modHall f) :=
  keeps_of rfl (Nat.le_refl _) (List.prefix_refl _) rfl rfl hf (List.prefix_refl _) rfl rfl rfl rfl rfl

theorem keeps_season (y : Season) (hy : SeasonsBounded s.season → SeasonsBounded y) : Keeps s { s with season := y } where
  pending := rfl
  time := Nat.le_refl _
  sent := List.prefix_refl _
  memory := id
  moves h := ⟨h.limit, h.closed, h.permitted⟩
  judged := id
  masks := id
  locks := id
  seasons := hy
  outcomes := id
  queues := id

theorem keeps_modLocks (f : LockTable → LockTable)
    (hf : LocksBounded s.keptLocks → LocksBounded ((f s.locks).records.map LockRec.kept)) : Keeps s (s.modLocks f) where
  pending := rfl
  time := Nat.le_refl _
  sent := List.prefix_refl _
  memory := id
  moves h := ⟨h.limit, h.closed, h.permitted⟩
  judged := id
  masks := id
  locks := hf
  seasons := id
  outcomes := id
  queues := id

/-- The matrix changed in a timer or a report. -/
theorem keeps_mx (x : Matrix) (count : x.movingCount = s.mx.movingCount) (permitted : x.permitted = s.mx.permitted)
    (held : x.supplyHeld = s.mx.supplyHeld) : Keeps s { s with mx := x } where
  pending := rfl
  time := Nat.le_refl _
  sent := List.prefix_refl _
  memory := id
  moves h := ⟨by rw [count]; exact h.limit, by rw [count]; exact h.closed, by rw [permitted, count]; exact h.permitted⟩
  judged := by
    unfold Judged
    rw [permitted, show State.drivesPermitted { s with mx := x } = s.drivesPermitted by
      simp only [State.drivesPermitted, State.isOpen, State.isSettling, held]]
    exact id
  masks := id
  locks := id
  seasons := id
  outcomes := id
  queues := id

theorem keeps_forAll {z : State} {α : Type} (xs : List α) (f : α → State → State) (hf : ∀ x s, Keeps s (f x s)) (s : State)
    (h : Keeps z s) : Keeps z (forAll xs f s) := by
  induction xs generalizing s with
  | nil => exact h
  | cons x xs ih => exact ih (f x s) (h.trans (hf x s))

end

end Sys2Proof.Machine
end

