-- ==== Sys2Proof/Proofs/KeepsEffects.lean ====
section
/-! SUPPORT. `Keeps` of the own effect of every desk command. -/

namespace Sys2Proof.Machine

section
variable (s : State)

theorem keeps_setHolder (n : Tx) (d : Option Desk) : Keeps s (s.setHolder n d) := keeps_modTx s n _

theorem keeps_takeFree (n : Tx) (d : Desk) : Keeps s (s.takeFree n d) :=
  (((keeps_setHolder s n _).act (fun _ => calm_failHand _ n _) fun _ => trail_failHand _ n _).act
    (fun _ => calm_handRun _ n _) fun _ => trail_handRun _ n _).trans (keeps_raise _ _)

theorem keeps_takeOver (n : Tx) (d e : Desk) : Keeps s (s.takeOver n d e) :=
  ((keeps_setHolder s n _).act (fun _ => calm_failHand _ n _) fun _ => trail_failHand _ n _).trans (keeps_raise _ _)

theorem keeps_giveBack (n : Tx) (e : Desk) : Keeps s (s.giveBack n e) :=
  ((keeps_setHolder s n _).act (fun _ => calm_failHand _ n _) fun _ => trail_failHand _ n _).trans (keeps_raise _ _)

theorem keeps_clearTrip (n : Tx) : Keeps s (s.clearTrip n) := by
  unfold State.clearTrip
  split
  · exact (keeps_modTx s n _).trans (keeps_modPermit _ n _)
  · exact keeps_modTx s n _

theorem keeps_clearMark (m : Ant) : Keeps s (s.clearMark m) := (keeps_faultMark s _).trans (keeps_raise _ _)

theorem keeps_calibrate (k : Rot) (b : Nat) : Keeps s (s.calibrate k b) := by
  refine Keeps.trans ?_ (keeps_raise _ _)
  exact ⟨rfl, Nat.le_refl _, List.prefix_refl _, id, fun h => ⟨h.limit, h.closed, h.permitted⟩, id, id, id, id, id, id⟩

/-- Enabled bands within the supported ones of their antenna (R191). -/
theorem keeps_enable (m : Ant) (asked : Word16) :
    Keeps s { s with enabled := s.enabled.set m (asked &&& s.cfg.active.supported[m]) } := by
  refine ⟨rfl, Nat.le_refl _, List.prefix_refl _, id, fun h => ⟨h.limit, h.closed, h.permitted⟩, id, fun h j => ?_, id, id, id,
    id⟩
  by_cases e : j = m
  · subst e
    simp only [getElem_set_fin, if_true]
    rw [BitVec.and_assoc, BitVec.and_self]
  · have other := h j
    simp only [getElem_set_fin, e, if_false]
    exact other

/-! ## Lockouts -/

theorem calm_askEarthTask {z : State} (m : Ant) (n : Tx) (h : Calm z s) : Calm z (s.askEarthTask m n) := by
  grind [State.askEarthTask, calm_earthTask, calm_setEarth]

theorem trail_askEarthTask {z : State} (m : Ant) (n : Tx) (h : Trail z s) : Trail z (s.askEarthTask m n) := by
  grind [State.askEarthTask, trail_earthTask, trail_setEarth]

theorem calm_lockTaskAnt {z : State} (m : Ant) (n : Tx) (h : Calm z s) : Calm z (s.lockTaskAnt m n) := by
  grind [State.lockTaskAnt, calm_askEarthTask, calm_routeLocked, calm_choose]

theorem trail_lockTaskAnt {z : State} (m : Ant) (n : Tx) (h : Trail z s) : Trail z (s.lockTaskAnt m n) := by
  grind [State.lockTaskAnt, trail_askEarthTask, trail_routeLocked, trail_choose]

theorem calm_placeEffects {z : State} (g : Target) (h : Calm z s) : Calm z (s.placeEffects g) := by
  cases g with
  | tx n => exact calm_routeLocked _ _ (calm_txLocked s n h)
  | ant m =>
    have earthed := calm_slewLocked _ m (calm_setEarth s m (some (earthPlaced s.locks.earth[m])) h)
    unfold State.placeEffects
    dsimp only
    split
    · exact calm_judgeAnt _ m (calm_lockTaskAnt _ m _ earthed)
    · exact calm_notify _ _ (calm_judgeAnt _ m earthed)

theorem trail_placeEffects {z : State} (g : Target) (h : Trail z s) : Trail z (s.placeEffects g) := by
  cases g with
  | tx n => exact trail_routeLocked _ _ (trail_txLocked s n h)
  | ant m =>
    have earthed := trail_slewLocked _ m (trail_setEarth s m (some (earthPlaced s.locks.earth[m])) h)
    unfold State.placeEffects
    dsimp only
    split
    · exact trail_judgeAnt _ m (trail_lockTaskAnt _ m _ earthed)
    · exact trail_notify _ _ (trail_judgeAnt _ m earthed)

theorem keptLocks_update (rs : List LockRec) (g : Target) (d : Desk) (reason : Nat) :
    (rs.map fun r => if r.target == g && r.desk == d then { r with reason := reason } else r).map LockRec.kept =
      (rs.map LockRec.kept).map fun r => if r.target = g ∧ r.desk = d then { r with reason := reason } else r := by
  rw [List.map_map, List.map_map]
  refine List.map_congr_left fun r _ => ?_
  show LockRec.kept (if _ then _ else _) = if r.target = g ∧ r.desk = d then _ else _
  by_cases h : r.target = g ∧ r.desk = d
  · have both : (r.target == g && r.desk == d) = true := by simpa using h
    rw [if_pos both, if_pos h]
    rfl
  · have apart : ¬((r.target == g && r.desk == d) = true) := by simpa using h
    rw [if_neg apart, if_neg h]

/-- A lockout updated leaves the targets and desks. -/
theorem locksBounded_update {ks : List KeptLock} (h : LocksBounded ks) (g : Target) (d : Desk) (reason : Nat) :
    LocksBounded (ks.map fun r => if r.target = g ∧ r.desk = d then { r with reason := reason } else r) := by
  obtain ⟨length, distinct⟩ := h
  refine ⟨by rw [List.length_map]; exact length, List.pairwise_map.2 (distinct.imp fun {a b} apart => ?_)⟩
  have same : ∀ r : KeptLock, (if r.target = g ∧ r.desk = d then { r with reason := reason } else r).target = r.target ∧
      (if r.target = g ∧ r.desk = d then { r with reason := reason } else r).desk = r.desk := by
    intro r
    split <;> exact ⟨rfl, rfl⟩
  rw [(same a).1, (same a).2, (same b).1, (same b).2]
  exact apart

theorem locksBounded_filter {ks : List KeptLock} (h : LocksBounded ks) {js : List KeptLock} (sub : js.Sublist ks) : LocksBounded js :=
  ⟨Nat.le_trans sub.length_le h.1, h.2.sublist sub⟩

theorem lockOf_isNone (g : Target) (d : Desk) (h : (s.lockOf g d).isNone = true) :
    ∀ r ∈ s.locks.records, ¬(r.target = g ∧ r.desk = d) := by
  intro r hr same
  rw [State.lockOf, Option.isNone_iff_eq_none, List.find?_eq_none] at h
  exact h r hr (by simp [same])

/-- A new lockout, where there is room for it and its desk has none on its target. -/
theorem locksBounded_new (g : Target) (d : Desk) (r : LockRec) (hr : r.target = g ∧ r.desk = d) (free : (s.lockOf g d).isNone = true)
    (room : s.locks.records.length < 32) (h : LocksBounded s.keptLocks) :
    LocksBounded ((s.locks.records ++ [r]).map LockRec.kept) := by
  rw [List.map_append]
  refine ⟨by simp; omega, List.pairwise_append.2 ⟨h.2, List.pairwise_singleton _ _, fun a ha b hb => ?_⟩⟩
  obtain ⟨x, hx, rfl⟩ := List.mem_map.1 ha
  obtain rfl : b = r.kept := by simpa using hb
  rw [show r.kept.target = g from hr.1, show r.kept.desk = d from hr.2]
  exact lockOf_isNone s g d free x hx

theorem keeps_placeLock (g : Target) (d : Desk) (reason : Nat) : Keeps s (s.placeLock g d reason).2 := by
  unfold State.placeLock
  split
  · exact .refl s
  · next accepted =>
    split
    · have updated : Keeps s ((s.modLocks fun t => { t with records := t.records.map fun r =>
          if r.target == g && r.desk == d then { r with reason := reason } else r }).raise .lockout) :=
        (keeps_modLocks s _ fun h => by dsimp only; rw [keptLocks_update]; exact locksBounded_update h g d reason).trans
          (keeps_raise _ _)
      unfold State.placeUpdate
      dsimp only
      repeat' split
      · exact updated
      · exact (updated.act (fun _ => calm_setEarth _ _ _) fun _ => trail_setEarth _ _ _).trans (keeps_notify _ _)
      · exact updated
      · exact updated
    · next free =>
      have free : (s.lockOf g d).isNone = true := by cases h : s.lockOf g d <;> simp_all
      have room : s.locks.records.length < 32 := by
        unfold State.lockRefusal at accepted
        grind
      refine Keeps.trans ?_ (keeps_notify _ _)
      refine Keeps.act ?_ (fun _ => calm_placeEffects _ g) fun _ => trail_placeEffects _ g
      exact (keeps_modLocks s _ (locksBounded_new s g d _ ⟨rfl, rfl⟩ free room)).trans (keeps_raise _ _)

theorem keeps_releaseLock (g : Target) (d : Desk) : Keeps s (s.releaseLock g d) := by
  unfold State.releaseLock
  split
  · exact .refl s
  · have left : Keeps s ((s.modLocks fun t => { t with records := t.records.filter fun r =>
        !(r.target == g && r.desk == d) }).raise .lockout) :=
      (keeps_modLocks s _ fun h => locksBounded_filter h (List.Sublist.map _ List.filter_sublist)).trans (keeps_raise _ _)
    unfold State.dropEarth
    split
    · exact left
    · split
      · exact left
      · exact left.act (fun _ => calm_setEarth _ _ _) fun _ => trail_setEarth _ _ _

/-! ## The season tables -/

theorem SeasonsBounded.setTable {y : Season} (h : SeasonsBounded y) (x : TableId) {es : List Entry} (room : es.length ≤ 320) :
    SeasonsBounded (y.setTable x es) := by
  cases x
  · exact ⟨room, h.2⟩
  · exact ⟨h.1, room⟩

theorem SeasonsBounded.table {y : Season} (h : SeasonsBounded y) (x : TableId) : (y.table x).length ≤ 320 := by
  cases x
  · exact h.1
  · exact h.2

theorem keeps_edited (x : TableId) : Keeps s (s.edited x) := by
  have raised : ∀ y : Season, y.tableA = s.season.tableA → y.tableB = s.season.tableB →
      Keeps s (State.raise { s with season := y } .schedule) := fun y a b =>
    (keeps_season s y fun h => ⟨a ▸ h.1, b ▸ h.2⟩).trans (keeps_raise _ _)
  unfold State.edited
  dsimp only
  cases x <;> repeat' split
  all_goals with_reducible first | refine Keeps.trans ?_ (keeps_notify _ _) | skip
  all_goals exact raised _ rfl rfl

theorem length_removeEntry_le (es : List Entry) (id : Nat) : (removeEntry es id).length ≤ es.length := List.length_filter_le _ _

theorem length_insertEntry (e : Entry) (es : List Entry) : (insertEntry e es).length = es.length + 1 := by
  induction es with
  | nil => rfl
  | cons x xs ih =>
    unfold insertEntry
    split
    · rfl
    · simp [ih]

/-- An entry written for one of its id leaves the table no longer, and else makes it one longer. -/
theorem length_putEntry (es : List Entry) (e : Entry) :
    (putEntry es e).length ≤ es.length + 1 ∧ ((entryOf es e.id).isSome = true → (putEntry es e).length ≤ es.length) := by
  rw [putEntry, length_insertEntry]
  refine ⟨by have := length_removeEntry_le es e.id; omega, fun held => ?_⟩
  obtain ⟨y, hy⟩ := Option.isSome_iff_exists.1 held
  have mem := List.mem_of_find?_eq_some hy
  have same := List.find?_some hy
  have : (removeEntry es e.id).length < es.length :=
    List.length_filter_lt_length_iff_exists.2 ⟨y, mem, by simpa using same⟩
  omega

theorem configCheck_ne_done (e : Entry) (c : ConfigStore) : e.configCheck c ≠ some .done := by
  intro h
  unfold Entry.configCheck at h
  dsimp only at h
  repeat' split at h
  all_goals simp at h

/-- A new entry passes the checks only where the table has room for it (R118). -/
theorem entryCheck_done_room (x : TableId) (e : Entry) (passes : s.entryCheck x e = .done)
    (absent : entryOf (s.season.table x) e.id = none) : (s.season.table x).length < 320 := by
  unfold State.entryCheck at passes
  dsimp only at passes
  split at passes
  · next st h => exact absurd (passes ▸ h) (configCheck_ne_done e s.cfg)
  · rw [absent] at passes
    grind

theorem keeps_writeOne (x : TableId) (b : List Byte) : Keeps s (s.writeOne x b).2 := by
  unfold State.writeOne
  split
  · exact .refl s
  · next e _ =>
    split
    · next passes =>
      refine keeps_season s _ fun h => h.setTable x ?_
      have table := h.table x
      obtain ⟨more, same⟩ := length_putEntry (s.season.table x) e
      by_cases held : (entryOf (s.season.table x) e.id).isSome = true
      · exact Nat.le_trans (same held) table
      · have := entryCheck_done_room s x e passes (by simpa using held)
        omega
    · exact .refl s

theorem keeps_writeAll (x : TableId) (records : List (List Byte)) : Keeps s (s.writeAll x records).2 := by
  induction records generalizing s with
  | nil => exact .refl s
  | cons b bs ih => exact (keeps_writeOne s x b).trans (ih _)

theorem keeps_writeList (x : TableId) (records : List (List Byte)) : Keeps s (s.writeList x records).2 := by
  unfold State.writeList
  dsimp only
  split
  · exact (keeps_writeAll s x records).trans (keeps_edited _ x)
  · exact keeps_writeAll s x records

theorem keeps_deleteEntry (x : TableId) (id : Nat) : Keeps s (s.deleteEntry x id) :=
  (keeps_season s _ fun h => h.setTable x (Nat.le_trans (length_removeEntry_le _ id) (h.table x))).trans (keeps_edited _ x)

theorem keeps_clearTable (x : TableId) : Keeps s (s.clearTable x) :=
  (keeps_season s _ fun h => h.setTable x (Nat.zero_le _)).trans (keeps_edited _ x)

/-! ## The clock -/

theorem keeps_boundary (minute : Nat) : Keeps s (s.boundary minute) := keeps_notify s _

theorem keeps_stepClock (kind : StepKind) (old : Option Civil) (new : Civil) : Keeps s (s.stepClock kind old new) := by
  unfold State.stepClock
  dsimp only
  refine Keeps.trans ?_ (keeps_raise _ _)
  refine Keeps.trans ?_ (keeps_notify _ _)
  split
  · exact keeps_forAll _ _ (fun m s => keeps_boundary s m) _ (keeps_modClock s _)
  · exact keeps_modClock s _

theorem keeps_advance : Keeps s s.advance := by
  unfold State.advance
  split
  · exact .refl s
  · split
    · exact keeps_modClock s _
    · split
      · exact keeps_stepClock s _ _ _
      · dsimp only
        split
        · exact (keeps_modClock s _).trans (keeps_boundary _ _)
        · exact keeps_modClock s _

theorem keeps_markClock : Keeps s s.markClock := keeps_modClock s _

theorem keeps_giveTime (t : Civil) : Keeps s (s.giveTime t) := by
  unfold State.giveTime
  split
  · unfold State.firstSet
    exact ((keeps_markClock s).trans (keeps_modClock _ _)).trans (keeps_stepClock _ _ _ _)
  · unfold State.compareClock
    split
    · exact .refl s
    · dsimp only
      split
      · exact .refl s
      · split
        · exact (keeps_modClock s _).trans (keeps_advance _)
        · split
          · exact keeps_modClock s _
          · split
            · exact keeps_stepClock s _ _ _
            · split <;> exact keeps_stepClock s _ _ _

end

end Sys2Proof.Machine
end

