-- ==== Sys2Proof/Proofs/KeepsConfig.lean ====
section
/-! SUPPORT. `Keeps` of the acts on the configuration, of the warm restart and of the end of settling. -/

namespace Sys2Proof.Machine

section
variable (s : State)

/-- Everything of the configuration store that `Keeps` reads is as it was. -/
theorem keeps_modCfg (f : ConfigStore → ConfigStore)
    (hf : f s.cfg = { s.cfg with workspace := (f s.cfg).workspace, lastClose := (f s.cfg).lastClose }) : Keeps s (s.modCfg f) := by
  unfold State.modCfg
  rw [hf]
  exact ⟨rfl, Nat.le_refl _, List.prefix_refl _, id, fun h => ⟨h.limit, h.closed, h.permitted⟩, id, id, id, id, id, id⟩

theorem keeps_slewResumeAll : Keeps s s.slewResumeAll :=
  (Keeps.refl s).act (fun _ => calm_slewResumeAll s) fun _ => trail_slewResumeAll s

theorem keeps_slewReport (k : Rot) (x : SlewReport) : Keeps s (s.slewReport k x) :=
  (Keeps.refl s).act (fun _ => calm_slewReport s k x) fun _ => trail_slewReport s k x

theorem keeps_modSlew (k : Rot) (f : SlewRec → SlewRec) : Keeps s (s.modSlew k f) :=
  (Keeps.refl s).act (fun _ => calm_modSlew s k f) fun _ => trail_modSlew s k f

/-! ## The blocks brought into line -/

theorem calm_unequip {z : State} (w : Sw) (h : Calm z s) : Calm z (s.unequip w) :=
  calm_report _ _ (calm_setSw _ w _ (calm_leaveSafety s w h))

theorem trail_unequip {z : State} (w : Sw) (h : Trail z s) : Trail z (s.unequip w) :=
  trail_report _ _ (trail_setSw _ w _ nofun (trail_leaveSafety s w h))

theorem keeps_mxReconfig (before : ConfigStore) : Keeps s (s.mxReconfig before) := by
  refine keeps_forAll _ _ (fun w s => ?_) s (.refl s)
  split
  · exact (Keeps.refl s).act (fun _ => calm_unequip s w) fun _ => trail_unequip s w
  · exact .refl s

theorem movingCount_powerUp : Matrix.powerUp.movingCount = 0 := by decide

theorem keeps_setTask (n : Tx) (t : Option Task) : Keeps s (s.setTask n t) :=
  (Keeps.refl s).act (fun _ => calm_setTask s n t) fun _ => trail_setTask s n t

theorem keeps_routeReconfig (before : ConfigStore) : Keeps s (s.routeReconfig before) := by
  refine keeps_forAll _ _ (fun n s => ?_) s (.refl s)
  split
  · exact (keeps_setTask s n none).act (fun _ => calm_setRouteTrip _ n false) fun _ => trail_setRouteTrip _ n false
  · exact .refl s

theorem keeps_rotReconfig (before : ConfigStore) : Keeps s (s.rotReconfig before) := by
  refine keeps_forAll _ _ (fun k s => ?_) s (.refl s)
  unfold State.rotReconfigOne
  dsimp only
  repeat' split
  · exact keeps_modRot s k _
  · exact keeps_modRot s k _
  · exact (keeps_modRot s k _).trans (keeps_raiseIf _ _ _)
  · exact (keeps_modRot s k _).trans (keeps_raise _ _)
  · exact .refl s

theorem keeps_slewReconfig (before : ConfigStore) : Keeps s (s.slewReconfig before) := by
  refine keeps_forAll _ _ (fun k s => ?_) s (.refl s)
  unfold State.slewReconfigOne
  dsimp only
  repeat' split
  · exact keeps_modSlew s k _
  · exact .refl s
  · exact ((keeps_raise s _).trans (keeps_slewReport _ k _)).trans (keeps_modSlew _ k _)
  · exact keeps_modSlew s k _
  · exact ((keeps_raise s _).trans (keeps_slewReport _ k _)).trans (keeps_modSlew _ k _)
  · exact .refl s
  · exact .refl s

theorem keeps_endOrder (n : Tx) (f : Option OrderFail) : Keeps s (s.endOrder n f) :=
  (Keeps.refl s).act (fun _ => calm_endOrder s n f) fun _ => trail_endOrder s n f

theorem keeps_txReconfig (before : ConfigStore) : Keeps s (s.txReconfig before) := by
  refine keeps_forAll _ _ (fun n s => ?_) s (.refl s)
  unfold State.txReconfigOne
  repeat' split
  · exact ((keeps_endOrder s n _).trans (keeps_modTx _ n _)).trans (keeps_modPermit _ n _)
  · exact keeps_modTx s n _
  · exact .refl s

theorem keeps_marksReconfig : Keeps s s.marksReconfig := by
  refine keeps_forAll _ _ (fun m s => ?_) s (.refl s)
  split
  · exact .refl s
  · exact keeps_faultMark s _

theorem keeps_seasonReconfig : Keeps s s.seasonReconfig := by
  have checked : Keeps s { s with season := { s.season with
      tableA := s.season.tableA.map (Entry.recheck s.cfg), tableB := s.season.tableB.map (Entry.recheck s.cfg) } } :=
    keeps_season s _ fun h => ⟨by rw [List.length_map]; exact h.1, by rw [List.length_map]; exact h.2⟩
  unfold State.seasonReconfig
  dsimp only
  split
  · exact (checked.trans (keeps_raiseIf _ _ _)).trans (keeps_notify _ _)
  · exact checked.trans (keeps_raiseIf _ _ _)

theorem keeps_run (r : RunTable) (hr : r.outcomes.length ≤ max 32 s.run.outcomes.length) : Keeps s { s with run := r } :=
  (Keeps.refl s).act (fun _ => calm_run s r) fun _ => trail_run s r hr

theorem keeps_dropRun (n : Tx) (k : Slot) (why : RunReason) (now : Nat) : Keeps s (s.dropRun n k why now) :=
  (Keeps.refl s).act (fun _ => calm_dropRun s n k why now) fun _ => trail_dropRun s n k why now

theorem keeps_runReconfig (before : ConfigStore) : Keeps s (s.runReconfig before) := by
  refine keeps_forAll _ _ (fun n s => ?_) s (.refl s)
  split
  · dsimp only
    refine Keeps.trans ?_ (keeps_run _ _ (by dsimp only; omega))
    split
    · exact ((Keeps.refl s).act (fun _ => calm_closeRun s n _ _ _ _ _) fun _ => trail_closeRun s n _ _ _ _ _).trans
        (keeps_dropRun _ _ _ _ _)
    · exact keeps_dropRun _ _ _ _ _
  · exact .refl s

theorem keeps_lockReconfig : Keeps s s.lockReconfig := by
  have left : Keeps s (s.modLocks fun t => { t with records := t.records.filter fun r => s.cfg.targetOk r.target }) :=
    keeps_modLocks s _ fun h => locksBounded_filter h (List.Sublist.map _ List.filter_sublist)
  unfold State.lockReconfig
  dsimp only
  refine keeps_forAll _ _ (fun m s => ?_) _ ?_
  · exact (Keeps.refl s).act (fun _ => calm_lockSw s m _ _) fun _ => trail_lockSw s m _ _
  refine keeps_forAll _ _ (fun n s => ?_) _ ?_
  · exact (Keeps.refl s).act (fun _ => calm_lockRf s n) fun _ => trail_lockRf s n
  refine keeps_forAll _ _ (fun m s => ?_) _ (left.trans (keeps_raiseIf _ _ _))
  split
  · refine keeps_forAll _ _ (fun n s => ?_) _ ?_
    · exact (Keeps.refl s).act (fun _ => calm_cancelTask s n _) fun _ => trail_cancelTask s n _
    · exact (Keeps.refl s).act (fun _ => calm_setEarth s m none) fun _ => trail_setEarth s m none
  · exact .refl s

theorem keeps_hallReconfig (before : ConfigStore) : Keeps s (s.hallReconfig before) := by
  have filtered : ∀ (c : Bool) (z : State) (f : Hall → Hall), (f z.hall).state = z.hall.state →
      Keeps z (if c = true then z else z.modHall f) := by
    intro c z f hf
    split
    · exact .refl z
    · exact keeps_modHall z f hf
  have twice := (filtered (before.active.accessInterval == s.cfg.active.accessInterval) s (fun h =>
    { h with access := { h.access with candidate := false } }) rfl).trans
      (filtered (before.active.supplyInterval == s.cfg.active.supplyInterval) _ (fun h =>
        { h with supply := { h.supply with candidate := false } }) rfl)
  unfold State.hallReconfig
  dsimp only
  split
  · exact twice
  · exact keeps_forAll _ _ (fun n s => keeps_modHall s _ rfl) _ twice

/-- Every mask after a close lies within the supported one (R192). -/
theorem maskAfter_within (before after : ConfigStore) (m : Ant) (now : Word16) :
    maskAfter before after m now &&& after.active.supported[m] = maskAfter before after m now := by
  unfold maskAfter
  dsimp only
  split
  · exact BitVec.zero_and
  · split
    · ext i hi
      simp only [BitVec.getElem_and, BitVec.getElem_or, BitVec.getElem_not]
      grind
    · exact BitVec.and_self

theorem maskReconfig_within (before : ConfigStore) : EnabledWithin (s.maskReconfig before) := by
  have all : ∀ (ms : List Ant) (v : Vector Word16 24) (m : Ant),
      (m ∈ ms ∨ v[m] &&& s.cfg.active.supported[m] = v[m]) →
        (ms.foldl (fun v (m : Ant) => v.set m (maskAfter before s.cfg m v[m])) v)[m] &&& s.cfg.active.supported[m] =
          (ms.foldl (fun v (m : Ant) => v.set m (maskAfter before s.cfg m v[m])) v)[m] := by
    intro ms
    induction ms with
    | nil => exact fun v m h => h.resolve_left List.not_mem_nil
    | cons j ms ih =>
      intro v m h
      refine ih _ m ?_
      by_cases e : m = j
      · subst e
        refine .inr ?_
        simp only [getElem_set_fin, if_true]
        exact maskAfter_within before s.cfg m _
      · obtain h | h := h
        · exact .inl ((List.mem_cons.1 h).resolve_left e)
        · refine .inr ?_
          simp only [getElem_set_fin, e, if_false]
          exact h
  exact fun m => all allAnt s.enabled m (.inl (mem_allAnt m))

/-- The enabled masks changed, within the supported ones. -/
theorem keeps_masks (v : Vector Word16 24) (hv : EnabledWithin { s with enabled := v }) : Keeps s { s with enabled := v } :=
  ⟨rfl, Nat.le_refl _, List.prefix_refl _, id, fun h => ⟨h.limit, h.closed, h.permitted⟩, id, fun _ => hv, id, id, id, id⟩

/-! ## Open, close, abandon -/

/-- The state is as `Keeps` has it but for what is judged at the end of the act: the bounds of the grants, for which nothing moves, the
judgement, which waits then, and the masks, which are formed anew on the way. -/
theorem keeps_through {s x u : State} (pending : x.pending = s.pending) (time : s.timebase ≤ x.timebase) (sent : s.sent <+: x.sent)
    (memory : x.cfg.image = s.cfg.image ∧ x.cfg.saving = s.cfg.saving) (rests : MovesBounded s → x.mx.movingCount = 0)
    (locks : x.keptLocks = s.keptLocks) (season : x.season = s.season) (run : x.run = s.run)
    (links : x.links = s.links) (before : ConfigStore) {y : State} (head : Keeps x y) (tail : Keeps (y.maskReconfig before) u) (waits : .mxJudge ∈ u.notices) :
    Keeps s u := by
  have masks : Keeps y (y.maskReconfig before) := keeps_masks y _ (maskReconfig_within y before)
  have all : Keeps x u := (head.trans masks).trans tail
  refine ⟨all.pending.trans pending, Nat.le_trans time all.time, sent.trans all.sent,
    ?_, fun h => all.moves (.of_rest (rests h)), fun _ => .inl waits,
    fun _ => tail.masks (maskReconfig_within y before), ?_, ?_, ?_, ?_⟩
  · have := all.memory
    unfold MemoryCanonical at *
    rwa [memory.1, memory.2] at this
  · rw [← locks]; exact all.locks
  · rw [← season]; exact all.seasons
  · have := all.outcomes
    unfold OutcomesBounded at *
    rwa [run] at this
  · have := all.queues
    unfold QueuesBounded State.link at *
    rwa [links] at this

theorem closeJudged_waits : .mxJudge ∈ (s.closeJudged).notices := by
  unfold State.closeJudged State.notifyAll
  simp

theorem keeps_closeJudged : Keeps s s.closeJudged :=
  ((keeps_raise s _).trans (keeps_slewResumeAll _)).trans (keeps_notifyAll _ _)

/-- The workspace as the active configuration, before the blocks are brought into line with it (R204). -/
def State.withActive (s : State) (w : Configuration) : State :=
  s.modCfg fun c => { c with active := w, openDesk := none, workspace := none, configured := true, lastClose := some .done }

/-- The blocks behind the matrix and before the masks. -/
def State.lineHead (s : State) (before : ConfigStore) : State :=
  (((((s.routeReconfig before).absorbAll).rotReconfig before).slewReconfig before).txReconfig before).marksReconfig

/-- The blocks behind the masks. -/
def State.lineTail (s : State) (before : ConfigStore) : State :=
  (((s.seasonReconfig).runReconfig before).lockReconfig).hallReconfig before

theorem applyConfig_eq (w : Configuration) : s.applyConfig w =
    (((if s.cfg.configured then (s.withActive w).mxReconfig s.cfg
      else (s.withActive w).mxFresh s.mx.supplyHold s.mx.supplyHeld).lineHead s.cfg).maskReconfig s.cfg |>.lineTail s.cfg).closeJudged :=
  rfl

theorem keeps_lineHead (before : ConfigStore) : Keeps s (s.lineHead before) :=
  ((((keeps_routeReconfig s before).act (fun _ => calm_absorbAll _) fun _ => trail_absorbAll _).trans (keeps_rotReconfig _ _)).trans
    (keeps_slewReconfig _ _)).trans (keeps_txReconfig _ _) |>.trans (keeps_marksReconfig _)

theorem keeps_lineTail (before : ConfigStore) : Keeps s (s.lineTail before) :=
  (((keeps_seasonReconfig s).trans (keeps_runReconfig _ _)).trans (keeps_lockReconfig _)).trans (keeps_hallReconfig _ _)

/-- The workspace applied: nothing moves while a configuration is open (R202, R204). -/
theorem keeps_applyConfig (w : Configuration) (d : Desk) (opened : s.cfg.openDesk = some d) : Keeps s (s.applyConfig w) := by
  have isOpen : s.isOpen = true := by rw [State.isOpen, opened]; rfl
  rw [applyConfig_eq]
  have tail := fun y : State => (keeps_lineTail y s.cfg).trans (keeps_closeJudged _)
  have waits := closeJudged_waits
  split
  · exact keeps_through (s := s) (x := s.withActive w) rfl (Nat.le_refl _) (List.prefix_refl _) ⟨rfl, rfl⟩
      (fun h => h.closed (.inl isOpen)) rfl rfl rfl rfl s.cfg ((keeps_mxReconfig _ _).trans (keeps_lineHead _ _)) (tail _) (waits _)
  · exact keeps_through (s := s) (x := (s.withActive w).mxFresh s.mx.supplyHold s.mx.supplyHeld) rfl (Nat.le_refl _)
      (List.prefix_append _ _) ⟨rfl, rfl⟩ (fun _ => movingCount_powerUp) rfl rfl rfl rfl s.cfg (keeps_lineHead _ _) (tail _) (waits _)

/-- A change behind which the blocks act and the judgement of drive permission waits. -/
theorem keeps_behind {s x u : State} (pending : x.pending = s.pending) (time : s.timebase ≤ x.timebase) (sent : s.sent <+: x.sent)
    (memory : x.cfg.image = s.cfg.image ∧ x.cfg.saving = s.cfg.saving) (moves : MovesBounded s → MovesBounded x)
    (active : x.cfg.active = s.cfg.active) (enabled : x.enabled = s.enabled) (locks : x.keptLocks = s.keptLocks)
    (season : x.season = s.season) (outcomes : x.run.outcomes = s.run.outcomes) (links : x.links = s.links) (tail : Keeps x u) (waits : .mxJudge ∈ u.notices) :
    Keeps s u := by
  refine ⟨tail.pending.trans pending, Nat.le_trans time tail.time, sent.trans tail.sent, ?_, tail.moves ∘ moves,
    fun _ => .inl waits, ?_, ?_, ?_, ?_, ?_⟩
  · have := tail.memory
    unfold MemoryCanonical at *
    rwa [memory.1, memory.2] at this
  · have := tail.masks
    unfold EnabledWithin at *
    rwa [enabled, active] at this
  · rw [← locks]; exact tail.locks
  · rw [← season]; exact tail.seasons
  · have := tail.outcomes
    unfold OutcomesBounded at *
    rwa [outcomes] at this
  · have := tail.queues
    unfold QueuesBounded State.link at *
    rwa [links] at this

theorem mem_notifyAll {x : Notice} {xs : List Notice} (h : x ∈ xs) : x ∈ (s.notifyAll xs).notices :=
  List.mem_append_right s.notices h

theorem keeps_openConfig (d : Desk) (rests : s.hallBusy = false) : Keeps s (s.openConfig d) := by
  have still : s.mx.movingCount = 0 := by
    unfold State.hallBusy at rests
    simp only [Bool.or_eq_false_iff] at rests
    obtain ⟨⟨-, still⟩, -⟩ := rests
    rw [movingCount_eq, List.countP_eq_zero]
    intro w hw moving
    rw [List.any_eq_false] at still
    exact still w hw moving
  exact keeps_behind (x := s.modCfg fun c =>
      { c with openDesk := some d, workspace := some (if s.cfg.configured then s.cfg.active else Configuration.default) })
    rfl (Nat.le_refl _) (List.prefix_refl _) ⟨rfl, rfl⟩ (fun _ => .of_rest still) rfl rfl rfl rfl rfl rfl
    ((keeps_raise _ _).trans (keeps_notifyAll _ _)) (mem_notifyAll _ List.mem_cons_self)

theorem keeps_abandonConfig (d : Desk) (opened : s.cfg.openDesk = some d) : Keeps s s.abandonConfig := by
  have isOpen : s.isOpen = true := by rw [State.isOpen, opened]; rfl
  exact keeps_behind (x := s.modCfg fun c => { c with openDesk := none, workspace := none }) rfl (Nat.le_refl _)
    (List.prefix_refl _) ⟨rfl, rfl⟩ (fun h => .of_rest (h.closed (.inl isOpen))) rfl rfl rfl rfl rfl rfl (keeps_closeJudged _)
    (closeJudged_waits _)

/-- The hall state changed, with what follows, and the judgement of drive permission to come. -/
theorem keeps_hallState {u : State} (f : Hall → Hall) (tail : Keeps (s.modHall f) u) (waits : .mxJudge ∈ u.notices) : Keeps s u :=
  keeps_behind (x := s.modHall f) rfl (Nat.le_refl _) (List.prefix_refl _) ⟨rfl, rfl⟩ (fun h => ⟨h.limit, h.closed, h.permitted⟩)
    rfl rfl rfl rfl rfl rfl tail waits

theorem keeps_enterNormal : Keeps s s.enterNormal :=
  keeps_hallState s _ (((keeps_raise _ _).trans (keeps_slewResumeAll _)).trans (keeps_notifyAll _ _))
    (mem_notifyAll _ (List.mem_cons_self))

end

/-- The own effect of every desk command undoes nothing. -/
theorem Effect.keeps {d : Desk} {s u : State} (h : Effect d s u) : Keeps s u := by
  cases h with
  | takeFree n => exact keeps_takeFree s n d
  | takeOver n e => exact keeps_takeOver s n d e
  | giveBack n e => exact keeps_giveBack s n e
  | setRequested n l => exact keeps_modPermit s n _
  | tune n f g => exact (Keeps.refl s).act (fun _ => calm_tuneRequest s n f g _) fun _ => trail_tuneRequest s n f g _
  | clearTrip n => exact keeps_clearTrip s n
  | clearMark m => exact keeps_clearMark s m
  | enable m asked => exact keeps_enable s m asked
  | route n x => exact (Keeps.refl s).act (fun _ => calm_routeRequest s _ n x none) fun _ => trail_routeRequest s _ n x none
  | unroute m => exact (Keeps.refl s).act (fun _ => calm_earthRequest s _ m) fun _ => trail_earthRequest s _ m
  | slew m az => exact (Keeps.refl s).act (fun _ => calm_slewRequest s d m az) fun _ => trail_slewRequest s d m az
  | stopSlew m => exact (Keeps.refl s).act (fun _ => calm_slewStop s d m) fun _ => trail_slewStop s d m
  | calibrate k b => exact keeps_calibrate s k b
  | placeLock g reason _ => exact keeps_placeLock s g d reason
  | releaseLock g e => exact keeps_releaseLock s g e
  | enterNormal _ _ => exact keeps_enterNormal s
  | giveTime t => exact keeps_giveTime s t
  | openConfig _ rests => exact keeps_openConfig s d rests
  | applyConfig w opened _ _ => exact keeps_applyConfig s w d opened
  | abandonConfig opened => exact keeps_abandonConfig s d opened
  | writeList x records => exact keeps_writeList s x records
  | deleteEntry x id => exact keeps_deleteEntry s x id
  | clearTable x => exact keeps_clearTable s x

end Sys2Proof.Machine
end

