-- ==== Sys2Proof/Proofs/KeepsEvents.lean ====
section
/-! SUPPORT. `Keeps` of the own effect of every event, of the links' traffic, and of every step. -/

namespace Sys2Proof.Machine

/-! ## The send queues -/

theorem queueBounded_link {s : State} {d : Desk} {l : Link} (hl : QueueBounded l) (h : QueuesBounded s) :
    QueuesBounded (s.modLink d fun _ => l) := by
  intro e
  by_cases same : e = d
  · subst same
    rw [modLink_same]
    exact hl
  · rw [modLink_other _ _ _ _ same]
    exact h e

theorem keeps_modLink (s : State) (d : Desk) (f : Link → Link) (hf : QueueBounded (s.link d) → QueueBounded (f (s.link d))) :
    Keeps s (s.modLink d f) :=
  keeps_links s _ fun h => queueBounded_link (hf (h d)) h

/-- A reply of a taken request joins no bounded part of the queue. -/
theorem QueueBounded.push_reply {l : Link} (h : QueueBounded l) (tag : Byte) (st : Status) (p : List Byte) :
    QueueBounded (l.push (.reply tag st p false)) := by
  unfold QueueBounded Link.push at *
  simpa [List.filter_append, List.filter_cons, Frame.isLinkBusy, Frame.isWaiting] using h

theorem QueueBounded.refuseBusy {l : Link} (h : QueueBounded l) (tag : Byte) : QueueBounded (l.refuseBusy tag) := by
  obtain ⟨busy, waiting⟩ := h
  unfold Link.refuseBusy
  split
  · exact ⟨busy, waiting⟩
  · next room =>
    refine ⟨?_, ?_⟩
    · simp only [Link.push, List.filter_append, List.length_append]
      simp [Frame.isLinkBusy, List.filter_cons]
      omega
    · simpa [Link.push, List.filter_append, List.filter_cons, Frame.isWaiting] using waiting

theorem QueueBounded.flush {l : Link} (h : QueueBounded l) : QueueBounded l.flush := by
  obtain ⟨busy, waiting⟩ := h
  unfold Link.flush
  dsimp only
  split
  · next due =>
    have none : l.queue.filter Frame.isWaiting = [] := by
      rw [Bool.and_eq_true, Bool.not_eq_true'] at due
      rw [List.filter_eq_nil_iff]
      simpa using due.2
    refine ⟨?_, ?_⟩
    · simpa [Link.push, List.filter_append, List.filter_cons, Frame.isLinkBusy] using busy
    · simp [Link.push, List.filter_append, List.filter_cons, Frame.isWaiting, none]
  · exact ⟨busy, waiting⟩

/-- Frames that leave a queue leave it within its bounds. -/
theorem QueueBounded.sublist {l m : Link} (h : QueueBounded l) (sub : m.queue.Sublist l.queue) : QueueBounded m :=
  ⟨Nat.le_trans (sub.filter _).length_le h.1, Nat.le_trans (sub.filter _).length_le h.2⟩

theorem dropSent_sublist (l : Link) : l.dropSent.queue.Sublist l.queue := by
  unfold Link.dropSent
  split
  · next h => rw [h]; exact List.sublist_cons_self _ _
  · exact List.Sublist.refl _

theorem begun_sublist (l : Link) (left : Bool) : (l.begun left).Sublist l.queue := by
  unfold Link.begun
  split
  · exact List.nil_sublist _
  · exact List.nil_sublist _
  · next t c g st p b rest h =>
    rw [h]
    split
    · exact ((List.nil_sublist rest).cons_cons _).cons _
    · exact (List.nil_sublist _).cons_cons _
  · next f rest h => rw [h]; exact (List.nil_sublist _).cons_cons _

section
variable (s : State)

theorem keeps_flush : Keeps s s.flush := by
  refine keeps_links s _ fun h d => ?_
  have flushed : ({ s with links := #v[s.links[0].flush, s.links[1].flush, s.links[2].flush] } : State).link d = (s.link d).flush := by
    cases d <;> rfl
  rw [flushed]
  exact (h d).flush

theorem keeps_handOn {d : Desk} {tag code : Byte} {act : State → Answer} (acts : ∀ z, Keeps z (act z).state) :
    Keeps s (s.handOn d tag code act) := by
  unfold State.handOn
  split
  · exact keeps_modLink s d _ fun h => h.refuseBusy tag
  · refine Keeps.trans ?_ (keeps_flush _)
    refine Keeps.trans ?_ (keeps_modLink _ d _ fun h => h.push_reply _ _ _)
    have taken : Keeps s (s.modLink d fun l => { l with inProgress := some (tag, code) }) := keeps_modLink s d _ id
    unfold State.ownerActs
    split
    · exact taken
    · exact taken.trans (acts _)

/-! ## Warm restart and settling -/

theorem keeps_linkRestart (asked : Option Desk) : Keeps s (s.linkRestart asked) := by
  refine keeps_forAll _ _ (fun d s => ?_) s (.refl s)
  unfold State.linkRestartOne
  split
  · exact keeps_modLink s d _ fun h => h.sublist (List.nil_sublist _)
  · exact (keeps_choose s _).trans (keeps_modLink _ d _ fun h => h.sublist (begun_sublist _ _))

/-- What a warm restart leaves of the state before nothing moves and settling begins (R208). -/
structure Restarting (s u : State) : Prop where
  pending : u.pending = s.pending
  time : u.timebase = s.timebase
  sent : s.sent <+: u.sent
  memory : u.cfg.image = s.cfg.image ∧ u.cfg.saving = s.cfg.saving
  active : u.cfg.active = s.cfg.active
  enabled : u.enabled = s.enabled
  locks : u.keptLocks = s.keptLocks
  season : u.season = s.season
  outcomes : u.run.outcomes = s.run.outcomes
  queues : ∀ d : Desk, (u.link d).queue = (s.link d).queue

theorem Restarting.refl : Restarting s s := ⟨rfl, rfl, List.prefix_refl _, ⟨rfl, rfl⟩, rfl, rfl, rfl, rfl, rfl, fun _ => rfl⟩

theorem Restarting.trans {a b c : State} (h : Restarting a b) (k : Restarting b c) : Restarting a c :=
  ⟨k.pending.trans h.pending, k.time.trans h.time, h.sent.trans k.sent,
    ⟨k.memory.1.trans h.memory.1, k.memory.2.trans h.memory.2⟩, k.active.trans h.active, k.enabled.trans h.enabled,
    k.locks.trans h.locks, k.season.trans h.season, k.outcomes.trans h.outcomes,
    fun d => (k.queues d).trans (h.queues d)⟩

theorem restarting_forAll {α : Type} (xs : List α) (f : α → State → State) (hf : ∀ x s, Restarting s (f x s)) (s : State) :
    Restarting s (forAll xs f s) := by
  induction xs generalizing s with
  | nil => exact .refl s
  | cons x xs ih => exact (hf x s).trans (ih _)

/-- The rest of the blocks at a warm restart (R25, R41, R70, R89, R111, R178). -/
def State.blocksRestart (s : State) : State :=
  ((((s.mxRestart.routeRestart).rotRestart).slewRestart).txRestart).hallRestart

theorem restarting_setSw (w : Sw) (r : SwRec) : Restarting s (s.setSw w r) := by
  cases w <;> exact ⟨rfl, rfl, List.prefix_refl _, ⟨rfl, rfl⟩, rfl, rfl, rfl, rfl, rfl, fun _ => rfl⟩

theorem restarting_send (o : Output) : Restarting s (s.send o) :=
  ⟨rfl, rfl, List.prefix_append _ _, ⟨rfl, rfl⟩, rfl, rfl, rfl, rfl, rfl, fun _ => rfl⟩

theorem restarting_stopAll : Restarting s s.stopAll := by
  unfold State.stopAll
  refine restarting_forAll _ _ (fun w s => ?_) s
  split
  · exact (restarting_setSw s w _).trans (restarting_send _ _)
  · exact .refl s

theorem restarting_permitted (b : Bool) : Restarting s { s with mx := { s.mx with permitted := b } } :=
  ⟨rfl, rfl, List.prefix_refl _, ⟨rfl, rfl⟩, rfl, rfl, rfl, rfl, rfl, fun _ => rfl⟩

theorem restarting_mxRestart : Restarting s s.mxRestart := by
  unfold State.mxRestart
  exact ((restarting_stopAll s).trans (restarting_permitted _ false)).trans (restarting_send _ _)

theorem restarting_routeRestart : Restarting s s.routeRestart := by
  refine restarting_forAll _ _ (fun n s => ?_) s
  split
  · exact ⟨rfl, rfl, List.prefix_refl _, ⟨rfl, rfl⟩, rfl, rfl, rfl, rfl, rfl, fun _ => rfl⟩
  · exact .refl s

theorem restarting_rotRestart : Restarting s s.rotRestart := by
  refine restarting_forAll _ _ (fun k s => ?_) s
  split
  · exact ⟨rfl, rfl, List.prefix_refl _, ⟨rfl, rfl⟩, rfl, rfl, rfl, rfl, rfl, fun _ => rfl⟩
  · exact .refl s

theorem restarting_slewRestart : Restarting s s.slewRestart := by
  refine restarting_forAll _ _ (fun k s => ?_) s
  split
  · exact ⟨rfl, rfl, List.prefix_refl _, ⟨rfl, rfl⟩, rfl, rfl, rfl, rfl, rfl, fun _ => rfl⟩
  · exact .refl s

theorem restarting_txRestart : Restarting s s.txRestart :=
  restarting_forAll allTx (fun n s => s.modTx n TxRec.haltTimers) (fun _ _ => ⟨rfl, rfl, List.prefix_refl _, ⟨rfl, rfl⟩, rfl, rfl, rfl, rfl, rfl, fun _ => rfl⟩) s

theorem restarting_hallRestart : Restarting s s.hallRestart := by
  unfold State.hallRestart
  split
  · exact ⟨rfl, rfl, List.prefix_refl _, ⟨rfl, rfl⟩, rfl, rfl, rfl, rfl, rfl, fun _ => rfl⟩
  · exact .refl s

theorem restarting_blocks : Restarting s s.blocksRestart :=
  ((((restarting_mxRestart s).trans (restarting_routeRestart _)).trans (restarting_rotRestart _)).trans
    (restarting_slewRestart _)).trans ((restarting_txRestart _).trans (restarting_hallRestart _))

theorem restarting_restartAbandons : Restarting s s.restartAbandons := by
  unfold State.restartAbandons
  split
  · exact ⟨rfl, rfl, List.prefix_refl _, ⟨rfl, rfl⟩, rfl, rfl, rfl, rfl, rfl, fun d => by cases d <;> rfl⟩
  · exact .refl s

/-- Operations over records that are not the matrix's leave it. -/
theorem mx_forAll {α : Type} (xs : List α) (f : α → State → State) (hf : ∀ x s, (f x s).mx = s.mx) (s : State) :
    (forAll xs f s).mx = s.mx := by
  induction xs generalizing s with
  | nil => rfl
  | cons x xs ih => exact (ih _).trans (hf x s)

theorem routeRestart_mx : s.routeRestart.mx = s.mx := by
  unfold State.routeRestart
  exact mx_forAll _ _ (fun n s => by split <;> rfl) s

theorem rotRestart_mx : s.rotRestart.mx = s.mx := by
  unfold State.rotRestart
  exact mx_forAll _ _ (fun n s => by split <;> rfl) s

theorem slewRestart_mx : s.slewRestart.mx = s.mx := by
  unfold State.slewRestart
  exact mx_forAll _ _ (fun n s => by split <;> rfl) s

theorem txRestart_mx : s.txRestart.mx = s.mx := by
  unfold State.txRestart
  exact mx_forAll _ (fun n s => s.modTx n TxRec.haltTimers) (fun _ _ => rfl) s

theorem hallRestart_mx : s.hallRestart.mx = s.mx := by
  unfold State.hallRestart
  split <;> rfl

/-- The blocks behind the matrix leave it as its restart made it. -/
theorem blocksRestart_mx : s.blocksRestart.mx = s.mxRestart.mx := by
  unfold State.blocksRestart
  rw [hallRestart_mx, txRestart_mx, slewRestart_mx, rotRestart_mx, routeRestart_mx]

theorem settleEnd_waits : .mxJudge ∈ s.settleEnd.notices := by
  unfold State.settleEnd
  simp

theorem keeps_settleEnd : Keeps s s.settleEnd := by
  refine ⟨rfl, Nat.le_refl _, List.prefix_refl _, id, fun h => ⟨h.limit, h.closed, h.permitted⟩, fun _ => .inl (settleEnd_waits s),
    id, id, id, id, id⟩

theorem keeps_settleCheck : Keeps s s.settleCheck := by
  unfold State.settleCheck
  split
  · split
    · exact keeps_settleEnd s
    · exact .refl s
  · exact .refl s

/-- What is left of the state, where nothing moves, drives are not permitted and settling has begun. -/
theorem Restarting.keeps {s u : State} (h : Restarting s u) (rests : u.mx.movingCount = 0) (shut : u.mx.permitted = false)
    (settles : u.isSettling = true) : Keeps s u where
  pending := h.pending
  time := Nat.le_of_eq h.time.symm
  sent := h.sent
  memory := by unfold MemoryCanonical; rw [h.memory.1, h.memory.2]; exact id
  moves _ := .of_rest rests
  judged _ := .inr (by simp [shut, State.drivesPermitted, settles])
  masks := by unfold EnabledWithin; rw [h.enabled, h.active]; exact id
  locks := by rw [h.locks]; exact id
  seasons := by rw [h.season]; exact id
  outcomes := by unfold OutcomesBounded; rw [h.outcomes]; exact id
  queues k d := by unfold QueueBounded; rw [h.queues d]; exact k d

/-- The settling record formed. -/
theorem restarting_settling (x : Option Settling) : Restarting s (s.modCfg fun c => { c with settling := x }) :=
  ⟨rfl, rfl, List.prefix_refl _, ⟨rfl, rfl⟩, rfl, rfl, rfl, rfl, rfl, fun _ => rfl⟩

theorem movingCount_permitted (x : Matrix) (b : Bool) : { x with permitted := b }.movingCount = x.movingCount := rfl

theorem mxRestart_mx : s.mxRestart.mx = { s.stopAll.mx with permitted := false } := by unfold State.mxRestart; rfl

theorem movingCount_mxRestart : s.mxRestart.mx.movingCount = 0 := by
  rw [mxRestart_mx, movingCount_permitted]
  exact movingCount_stopAll s

theorem restart_eq (asked : Option Desk) (h : s.isSettling = false) : s.restart asked =
    (((s.linkRestart asked).restartAbandons.blocksRestart).modCfg fun c => { c with settling := some s.settlingRecord }).settleCheck := by
  unfold State.restart
  rw [if_neg (by simp [h])]
  rfl

/-- A warm restart stops every moving switch and takes drive permission back (R25, R208). -/
theorem keeps_restart (asked : Option Desk) : Keeps s (s.restart asked) := by
  by_cases settles : s.isSettling = true
  · rw [State.restart, if_pos settles]
    exact .refl s
  · rw [restart_eq s asked (by simpa using settles)]
    refine ((keeps_linkRestart s asked).trans ?_).trans (keeps_settleCheck _)
    have all := ((restarting_restartAbandons (s.linkRestart asked)).trans (restarting_blocks _)).trans
      (restarting_settling _ (some s.settlingRecord))
    refine all.keeps ?_ ?_ rfl
    · rw [State.modCfg]
      dsimp only
      rw [blocksRestart_mx, movingCount_mxRestart]
    · rw [State.modCfg]
      dsimp only
      rw [blocksRestart_mx, mxRestart_mx]

theorem keeps_modSettling (f : Settling → Settling) : Keeps s (s.modSettling f) := by
  refine Keeps.trans ?_ (keeps_settleCheck _)
  have same : (s.modCfg fun c => { c with settling := c.settling.map f }).isSettling = s.isSettling := by
    simp [State.isSettling, State.modCfg]
  have drives : (s.modCfg fun c => { c with settling := c.settling.map f }).drivesPermitted = s.drivesPermitted := by
    unfold State.drivesPermitted
    rw [same]
    rfl
  refine ⟨rfl, Nat.le_refl _, List.prefix_refl _, id, fun h => ⟨h.limit, h.closed, h.permitted⟩, ?_, id, id, id, id, id⟩
  unfold Judged
  rw [drives]
  exact id

/-! ## The field, the rotators and the transmitters -/

theorem keeps_absorbAll : Keeps s s.absorbAll := (Keeps.refl s).act (fun _ => calm_absorbAll s) fun _ => trail_absorbAll s

theorem keeps_takeReport (w : Sw) (x : Confirmed) : Keeps s (s.takeReport w x) :=
  (Keeps.refl s).act (fun _ => calm_takeReport s w x) fun _ => trail_takeReport s w x

theorem keeps_travelExpired (w : Sw) : Keeps s (s.travelExpired w) :=
  (Keeps.refl s).act (fun _ => calm_travelExpired s w) fun _ => trail_travelExpired s w

theorem keeps_setSw (w : Sw) (r : SwRec) (hr : r.state = .moving → (s.sw w).state = .moving) : Keeps s (s.setSw w r) :=
  (Keeps.refl s).act (fun _ => calm_setSw s w r) fun _ => trail_setSw s w r hr

theorem keeps_windowOne (found : Found) (w : Sw) : Keeps s (s.windowOne found w) := by
  have add : ∀ z : State, Keeps z { z with mx := { z.mx with safety := z.mx.safety ++ [w] } } := fun z => keeps_mx z _ rfl rfl rfl
  unfold State.windowOne
  dsimp only
  split
  · exact ((keeps_setSw s w { s.sw w with commanded := .earth } id).act (fun _ => calm_swFault _ w _) fun _ => trail_swFault _ w _).trans
      (add _)
  · exact keeps_setSw s w _ id
  · exact (keeps_setSw s w { s.sw w with commanded := w.home } id).trans (add _)

theorem keeps_windowEnd : Keeps s s.windowEnd := by
  have ended : Keeps s { s with mx := { s.mx with reportWindow := .idle } } := keeps_mx s _ rfl rfl rfl
  have all := keeps_forAll allSw (fun w z => z.windowOne (s.mx.found w) w) (fun w z => keeps_windowOne z _ w) _ ended
  unfold State.windowEnd
  dsimp only
  split
  · exact all.trans (keeps_mx _ _ rfl rfl rfl)
  · split
    · exact all.act (fun _ k => calm_grants _ (calm_admitSafety _ k)) fun _ k => trail_grants _ (trail_admitSafety _ k)
    · exact all

theorem keeps_supplyHeld : Keeps s s.supplyHeldNow.mxJudge := by
  have held : Calm s.supplyHeldNow s.supplyHeldNow.mxJudge := calm_mxJudge _ (Calm.refl _)
  have judged := mxJudge_judged s.supplyHeldNow
  have outcomes := mxJudge_outcomes s.supplyHeldNow
  have judge : Keeps s.supplyHeldNow s.supplyHeldNow.mxJudge :=
    keeps_of_calm held (mxJudge_moves _) (fun _ => judged) fun h => by
      unfold OutcomesBounded at *
      omega
  exact ⟨judge.pending, judge.time, judge.sent, judge.memory, fun h => judge.moves ⟨h.limit, h.closed, h.permitted⟩, fun _ => judged,
    judge.masks, judge.locks, judge.seasons, judge.outcomes, judge.queues⟩

theorem keeps_dropExpired (n : Tx) : Keeps s (s.dropExpired n) := by
  unfold State.dropExpired
  repeat' split
  · exact .refl s
  · dsimp only
    refine Keeps.trans ?_ (keeps_setTask _ n _)
    refine keeps_forAll _ _ (fun u z => ?_) _ (keeps_atExpiry s _)
    split
    · exact (Keeps.refl z).act (fun _ => calm_setRouteTrip z u true) fun _ => trail_setRouteTrip z u true
    · exact .refl z
  · exact .refl s

theorem keeps_tripExpired (n : Tx) : Keeps s (s.tripExpired n) := by
  unfold State.tripExpired
  repeat' split
  · exact .refl s
  · exact (keeps_atExpiry s _).act (fun _ => calm_failAndWithdraw _ n _ _) fun _ => trail_failAndWithdraw _ n _ _
  · exact .refl s

theorem keeps_acceptFrame (k : Rot) (f : SensorFrame) : Keeps s (s.acceptFrame k f) := by
  have taken : Keeps s (s.takeFrame k f) := (keeps_modRot s k _).trans (keeps_raiseIf _ _ _)
  unfold State.acceptFrame
  dsimp only
  refine Keeps.trans ?_ (keeps_modSettling _ _)
  split
  · exact taken.act (fun _ => calm_slewGood _ k) fun _ => trail_slewGood _ k
  · exact taken.act (fun _ => calm_slewBad _ k) fun _ => trail_slewBad _ k

theorem keeps_frameExpired (k : Rot) : Keeps s (s.frameExpired k) := by
  have timed := (keeps_modRot s k RotRec.timedOut).trans (keeps_raiseIf _ ((s.rot[k]).validity != .invalid) .rotator)
  unfold State.frameExpired
  dsimp only
  split
  · exact timed.act (fun _ => calm_slewInvalid _ k) fun _ => trail_slewInvalid _ k
  · exact timed

theorem keeps_dwellExpired (k : Rot) : Keeps s (s.dwellExpired k) := by
  unfold State.dwellExpired
  dsimp only
  split
  · exact (keeps_atExpiry s _).act (fun _ => calm_enterAwait _ k) fun _ => trail_enterAwait _ k
  · exact .refl s

theorem keeps_slewFault (k : Rot) (why : SlewFault) : Keeps s (s.slewFault k why) :=
  (Keeps.refl s).act (fun _ => calm_slewFault s k why) fun _ => trail_slewFault s k why

theorem keeps_failOrder (n : Tx) (f : OrderFail) : Keeps s (s.failOrder n f) :=
  (Keeps.refl s).act (fun _ => calm_failOrder s n f) fun _ => trail_failOrder s n f

theorem keeps_finalTrip (n : Tx) (cause : TripCause) : Keeps s (s.finalTrip n cause) := by
  unfold State.finalTrip
  dsimp only
  refine Keeps.trans ?_ (keeps_notify _ _)
  have forced := (keeps_modTx s n fun r => { r with state := .tripped, recycleTimer := .idle, clearPending := false }).trans
    (keeps_modPermit _ n fun p => { p with forces := { p.forces with trip := true } })
  split
  · exact forced.trans (keeps_faultMark _ _)
  · exact forced

theorem keeps_countTrip (n : Tx) (cause : TripCause) : Keeps s (s.countTrip n cause) := by
  unfold State.countTrip
  dsimp only
  refine Keeps.trans ?_ (keeps_raise _ _)
  split
  · exact ((keeps_endOrder s n _).trans (keeps_modTx _ n _)).trans (keeps_finalTrip _ n cause)
  · exact ((keeps_endOrder s n _).trans (keeps_modTx _ n _)).trans (keeps_modTx _ n _)

theorem keeps_stateReport (n : Tx) (c : TxCond) (r : StatusReport) : Keeps s (s.stateReport n c r) := by
  unfold State.stateReport
  dsimp only
  repeat' split
  · exact (keeps_modTx s n _).trans (keeps_raise _ _)
  · exact .refl s
  · exact keeps_modTx s n _
  · exact .refl s
  · exact (keeps_endOrder s n _).trans (keeps_modTx _ n _)
  · exact .refl s
  · exact keeps_modTx s n _

theorem keeps_feedReport (n : Tx) (feed : Nat) : Keeps s (s.feedReport n feed) := by
  unfold State.feedReport
  repeat' split
  · exact keeps_endOrder s n _
  · exact .refl s
  · exact .refl s

theorem keeps_takeStatus (n : Tx) (r : StatusReport) : Keeps s (s.takeStatus n r) := by
  unfold State.takeStatus
  split
  · exact .refl s
  · dsimp only
    refine Keeps.trans ?_ (keeps_feedReport _ n _)
    have fields := ((keeps_modTx s n fun x => x.fields r (s.superTimer 3000)).trans (keeps_raiseIf _ (!(s.tx[n]).reporting) .transmitter)).trans
      (keeps_raiseIf _ (r.warning && !(s.tx[n]).warning) .transmitter)
    split
    · refine iteInduction (motive := Keeps s) (fun _ => ?_) (fun _ => ?_)
      · exact fields.trans (keeps_countTrip _ n _)
      · exact fields
    · exact fields.trans (keeps_stateReport _ n _ r)

theorem keeps_silenceExpired (n : Tx) : Keeps s (s.silenceExpired n) :=
  ((keeps_modTx s n _).trans (keeps_endOrder _ n _)).trans (keeps_raise _ _)

theorem keeps_tuneExpired (n : Tx) : Keeps s (s.tuneExpired n) := by
  unfold State.tuneExpired
  split
  · exact (keeps_atExpiry s _).trans (keeps_failOrder _ n _)
  · exact .refl s

theorem keeps_feedExpired (n : Tx) : Keeps s (s.feedExpired n) := by
  unfold State.feedExpired
  split
  · exact (keeps_atExpiry s _).trans (keeps_failOrder _ n _)
  · exact .refl s

/-! ## The clock and the hall -/

theorem keeps_pulse : Keeps s s.pulse := by
  unfold State.pulse
  split
  · exact keeps_modClock s _
  · split
    · exact .refl s
    · dsimp only
      split
      · exact ((keeps_markClock s).trans (keeps_modClock _ _)).trans (keeps_raiseIf _ _ _)
      · exact (((keeps_markClock s).trans (keeps_modClock _ _)).trans (keeps_raiseIf _ _ _)).trans (keeps_advance _)

theorem keeps_tickExpired : Keeps s s.tickExpired := by
  unfold State.tickExpired
  dsimp only
  refine Keeps.trans ?_ (keeps_advance _)
  split
  · exact (((keeps_markClock s).trans (keeps_modClock _ _)).trans (keeps_modClock _ _)).trans (keeps_raise _ _)
  · exact (keeps_markClock s).trans (keeps_modClock _ _)

theorem keeps_enterSafe (raises : Bool) : Keeps s (s.enterSafe raises) := by
  unfold State.enterSafe
  dsimp only
  refine keeps_hallState s (fun h => { h with state := .safe, closed := .idle, closedRunOut := false, closedStart := none })
    (Keeps.trans ?_ (keeps_notifyAll _ _)) (mem_notifyAll _ List.mem_cons_self)
  refine keeps_forAll _ _ (fun n z => ?_) _ (keeps_raiseIf _ _ _)
  split
  · exact (Keeps.refl z).act (fun _ => calm_setHallTrip z n true) fun _ => trail_setHallTrip z n true
  · exact .refl z

/-- A change of the hall between two states in which drives are not permitted. -/
theorem keeps_hallShut (f : Hall → Hall) (before : s.hall.state ≠ .normal) (after : (f s.hall).state ≠ .normal) :
    Keeps s (s.modHall f) := by
  have shut : ∀ z : State, z.hall.state ≠ .normal → z.drivesPermitted = false := by
    intro z h
    simp [State.drivesPermitted, h]
  refine ⟨rfl, Nat.le_refl _, List.prefix_refl _, id, fun h => ⟨h.limit, h.closed, h.permitted⟩, ?_, id, id, id, id, id⟩
  unfold Judged
  rw [shut s before, shut (s.modHall f) after]
  exact id

/-- The access input back in SAFE: drives were not permitted, and are not. -/
theorem keeps_enterRestored (safe : s.hall.state = .safe) : Keeps s s.enterRestored :=
  (keeps_hallShut s _ (by rw [safe]; nofun) (by nofun)).trans (keeps_raise _ _)

theorem keeps_setAccess (f : Filter AccessLevel) : Keeps s (s.setAccess f) := by
  have input : Keeps s (s.modHall fun h => { h with access := f }) := keeps_modHall s _ rfl
  unfold State.setAccess
  dsimp only
  split
  · unfold State.accessTaken
    split
    · exact input
    · split
      · exact input.trans (keeps_enterSafe _ _)
      · split
        · next safe => exact input.trans (keeps_enterRestored _ (by simpa using safe))
        · exact input
  · exact input

theorem keeps_setSupply (f : Filter SupplyLevel) : Keeps s (s.setSupply f) := by
  have input : Keeps s (s.modHall fun h => { h with supply := f }) := keeps_modHall s _ rfl
  unfold State.setSupply State.supplyTaken
  dsimp only
  split
  · exact input
  · refine input.trans ?_
    generalize (s.modHall fun h => { h with supply := f }) = z
    have hold : ∀ t : Timer, Keeps z ((State.raise { z with mx := { z.mx with supplyHold := t, supplyHeld := false } } .hall).notify .mxJudge) :=
      fun t => keeps_behind (x := { z with mx := { z.mx with supplyHold := t, supplyHeld := false } }) rfl (Nat.le_refl _)
        (List.prefix_refl _) ⟨rfl, rfl⟩ (fun h => ⟨h.limit, h.closed, h.permitted⟩) rfl rfl rfl rfl rfl rfl
        ((keeps_raise _ _).trans (keeps_notify _ _)) (List.mem_append_right _ List.mem_cons_self)
    unfold State.supplyJudge
    dsimp only
    split
    · exact hold _
    · exact hold _

theorem keeps_setRfSense (n : Tx) (f : Filter RfLevel) : Keeps s (s.setRfSense n f) := by
  have input : Keeps s (s.modHall fun h => { h with rf := h.rf.set n f }) := keeps_modHall s _ rfl
  unfold State.setRfSense State.rfTaken
  dsimp only
  split
  · exact input
  · exact input.trans (keeps_notifyAll _ _)

end

/-- The own effect of every event, and the state that the blocks last saw before it, undo nothing. -/
theorem Event.keeps {s a u : State} (h : Event s a u) : Keeps s u := by
  cases h with
  | warmRestart _ => exact keeps_restart s none
  | settlingTimeout _ => exact (keeps_atExpiry s _).trans (keeps_settleEnd _)
  | position w x _ => exact ((keeps_takeReport s w x).trans (keeps_absorbAll _)).trans (keeps_modSettling _ _)
  | travelTimeout w _ => exact ((keeps_atExpiry s _).trans (keeps_travelExpired _ w)).trans (keeps_absorbAll _)
  | reportWindowEnd _ => exact ((keeps_atExpiry s _).trans (keeps_windowEnd _)).trans (keeps_absorbAll _)
  | supplyHoldExpiry _ => exact ((keeps_atExpiry s _).trans (keeps_supplyHeld _)).trans (keeps_absorbAll _)
  | rfDropTimeout n => exact keeps_dropExpired s n
  | tripWaitExpiry n => exact (keeps_tripExpired s n).trans (keeps_absorbAll _)
  | sensorFrame k f => exact keeps_acceptFrame s k f
  | frameTimeout k => exact (keeps_atExpiry s _).trans (keeps_frameExpired _ k)
  | reverseDwellEnd k => exact keeps_dwellExpired s k
  | powerWaitExpiry k => exact (keeps_atExpiry s _).trans (keeps_slewFault _ k _)
  | stallWindowExpiry k => exact (keeps_atExpiry s _).trans (keeps_slewFault _ k _)
  | slewTimerExpiry k => exact (keeps_atExpiry s _).trans (keeps_slewFault _ k _)
  | status n r => exact (keeps_takeStatus s n r).trans (keeps_modSettling _ _)
  | silenceTimeout n => exact (keeps_atExpiry s _).trans (keeps_silenceExpired _ n)
  | tuneTimerExpiry n => exact keeps_tuneExpired s n
  | feedTimerExpiry n => exact keeps_feedExpired s n
  | recycleTimerExpiry n => exact (keeps_atExpiry s _).trans (keeps_modTx _ n _)
  | rfWatchExpiry n => exact (keeps_atExpiry s _).trans (keeps_countTrip _ n _)
  | timePulse => exact keeps_pulse s
  | tick => exact (keeps_atExpiry s _).trans (keeps_tickExpired _)
  | time t => exact (keeps_modClock s _).trans (keeps_giveTime _ t)
  | access f => exact keeps_setAccess s f
  | supply f => exact keeps_setSupply s f
  | rfSense n f => exact keeps_setRfSense s n f

end Sys2Proof.Machine
end

