-- ==== Sys2Proof/Proofs/StepInvariants.lean ====
section
/-! PROOF. What every command keeps: the queue of commands, what was sent and the timebase, the memory's form, the bounds of grants,
tables and queues, and the enabled masks. -/

namespace Sys2Proof.Machine

/-- The memory's form with a save begun or ended. -/
theorem keeps_memory {s : State} (f : ConfigStore → ConfigStore)
    (hf : f s.cfg = { s.cfg with image := (f s.cfg).image, saving := (f s.cfg).saving, lastSave := (f s.cfg).lastSave,
                                 memoryValid := (f s.cfg).memoryValid })
    (memory : MemoryCanonical s → MemoryCanonical (s.modCfg f)) : Keeps s (s.modCfg f) := by
  refine ⟨rfl, Nat.le_refl _, List.prefix_refl _, memory, ?_, ?_, ?_, id, id, id, id⟩
  all_goals
    unfold State.modCfg
    rw [hf]
  · exact fun h => ⟨h.limit, h.closed, h.permitted⟩
  · exact id
  · exact id

theorem keeps_startSave (s : State) : Keeps s s.startSave := by
  refine keeps_memory _ rfl fun ⟨wf, _⟩ => ⟨memWriteAll_wf [0, 0] (by decide) wf, fun bytes h => ?_⟩
  injection h with h
  exact h ▸ length_imageBytes _

theorem keeps_endSave {s : State} {bytes : List Byte} (answered : Bool) (faults : List (Nat × Byte)) (saving : s.cfg.saving = some bytes)
    (inside : faultsInside faults = true) : Keeps s (s.endSave bytes answered faults) := by
  unfold State.endSave
  dsimp only
  refine Keeps.trans ?_ (keeps_raise _ _)
  refine keeps_memory _ rfl fun ⟨wf, fits⟩ => ⟨memPatch_wf faults inside ?_, fun _ h => by cases h⟩
  split
  · exact memWriteAll_wf bytes (by have := fits bytes saving; omega) wf
  · exact wf

theorem keeps_modSeason (s : State) (f : Season → Season) (hf : (f s.season).tableA = s.season.tableA ∧ (f s.season).tableB = s.season.tableB) :
    Keeps s (s.modSeason f) :=
  keeps_season s _ fun h => ⟨hf.1 ▸ h.1, hf.2 ▸ h.2⟩

theorem Setting.keeps {d : Desk} {s u : State} (h : Setting d s u) : Keeps s u := by
  cases h with
  | nothing => exact .refl s
  | readAttention => exact keeps_modLink s d _ id
  | subscribe mask => exact keeps_modLink s d _ id
  | workspace w => exact keeps_modCfg s _ rfl
  | closeFailed k i => exact keeps_modCfg s _ rfl
  | startSave => exact keeps_startSave s
  | changeover m => exact keeps_modSeason s _ ⟨rfl, rfl⟩
  | arm => exact keeps_modSeason s _ ⟨rfl, rfl⟩
  | disarm => exact (keeps_modSeason s _ ⟨rfl, rfl⟩).trans (keeps_raiseIf _ _ _)

theorem Acts.keeps {d : Desk} {s : State} {a : Answer} (h : Acts d s a) : Keeps s a.state := by
  obtain ⟨_, _, e⟩ | ⟨_, _, e⟩ := h <;> dsimp only
  · exact e.keeps.trans (keeps_cascade s _)
  · exact e.keeps

theorem keeps_event {s u : State} (a : State) (h : Keeps s u) : Keeps s (State.event a u) := by
  have cascaded : Keeps s (State.cascade a u) := h.trans (keeps_cascade a u)
  unfold State.event
  generalize State.cascade a u = t at cascaded ⊢
  exact cascaded.trans (keeps_flush t)

theorem keeps_examine (s : State) (d : Desk) (bytes : List Byte) (gap : Timer) : Keeps s (s.examine d bytes gap) := by
  have all : ∀ (rs : List Request) (z : State),
      Keeps z (rs.foldl (fun s r => s.handOn d r.tag r.code (ownerOf d r)) z) := by
    intro rs
    induction rs with
    | nil => exact fun z => .refl z
    | cons r rs ih => exact fun z => (keeps_handOn z fun y => (acts_ownerOf d r y).keeps).trans (ih _)
  exact (keeps_modLink s d _ id).trans (all _ _)

/-- A queue whose head has been sent or dropped. -/
theorem queueBounded_of_dropSent {l m : Link} {f : Frame} {rest : List Frame} (h : l.dropSent.queue = f :: rest)
    (hm : m.queue = rest) (k : QueueBounded l) : QueueBounded m := by
  refine k.sublist ?_
  rw [hm]
  exact ((List.sublist_cons_self f rest).trans (h ▸ List.Sublist.refl _)).trans (dropSent_sublist l)

theorem keeps_replyGone {s : State} {d : Desk} {tag : Byte} {st : Status} {p : List Byte} {b : Bool} {rest : List Frame}
    (progress : Option (Byte × Byte)) (h : (s.link d).dropSent.queue = .reply tag st p b :: rest) :
    Keeps s (s.replyGone d tag st p rest progress) :=
  (keeps_modLink s d _ (queueBounded_of_dropSent h rfl)).trans (keeps_send _ _)

/-- Every command but POWER_UP undoes nothing. -/
theorem Steps.keeps {s t : State} (h : Steps s t) : Keeps s t := by
  cases h with
  | stays => exact (.refl s)
  | event e => exact (keeps_event _ e.keeps)
  | request d tag code acts => exact ((keeps_modLink s d _ id).trans (keeps_handOn _ fun z => (acts z).keeps))
  | examines d bytes gap => exact (keeps_examine s d bytes gap)
  | gapEnds d due bytes gap => exact ((keeps_atExpiry s _).trans (keeps_examine _ d bytes gap))
  | replySent d tag st p b rest progress queue => exact (keeps_replyGone progress queue)
  | restarts d tag st p b rest progress queue =>
    exact (keeps_event _ ((keeps_replyGone progress queue).trans (keeps_restart _ _)))
  | attentionEmpty d rest queue => exact (keeps_modLink s d _ (queueBounded_of_dropSent queue rfl))
  | attentionSent d rest tag content count frames queue =>
    refine ((keeps_modLink s d _ fun k => ?_).trans (keeps_send _ _))
    have gone : QueueBounded { (s.link d).dropSent with queue := rest } := queueBounded_of_dropSent queue rfl k
    exact gone
  | closedTimer => exact ((keeps_atExpiry s _).trans (keeps_modHall _ _ rfl))
  | saveComplete bytes answered faults saving inside =>
    exact ((keeps_endSave answered faults saving inside).trans (keeps_flush _))

/-! ## The queue of commands -/

theorem powerUp_pending_sent (s : State) : s.powerUp.pending = s.pending ∧ s.sent <+: s.powerUp.sent :=
  ⟨rfl, List.prefix_append _ _⟩

/-- Settles O2: only POWER_UP starts the timebase anew, and it keeps the queue and what was sent. -/
theorem execKeepsQueueAndSent : Obligations.ExecKeepsQueueAndSent := by
  intro c s t h
  obtain ⟨rfl, rfl⟩ | steps := exec_powerUp_or_steps h
  · exact ⟨(powerUp_pending_sent s).1, (powerUp_pending_sent s).2, .inl rfl⟩
  · exact ⟨steps.keeps.pending, steps.keeps.sent, .inr steps.keeps.time⟩

/-! ## The invariants -/

/-- A step is POWER_UP, or undoes nothing: the queue apart, of which none of the invariants speaks. -/
theorem step_keeps {s t : State} (h : step s = .next t) :
    (∃ cs, t = State.powerUp { s with pending := cs }) ∨ ∃ cs, Keeps { s with pending := cs } t := by
  unfold step at h
  split at h
  · injection h with h
    subst h
    exact .inr ⟨_, keeps_of rfl (Nat.le_succ _) (List.prefix_refl _) rfl rfl rfl (List.prefix_refl _) rfl rfl rfl rfl rfl⟩
  · next c cs _ =>
    obtain ⟨-, rfl⟩ | steps := exec_powerUp_or_steps h
    · exact .inl ⟨cs, rfl⟩
    · exact .inr ⟨cs, steps.keeps⟩

theorem powerUp_image (s : State) : s.powerUp.cfg.image = s.cfg.image ∧ s.powerUp.cfg.saving = none := by
  have stored : (storePowerUp s.cfg.image).image = s.cfg.image ∧ (storePowerUp s.cfg.image).saving = none := by
    unfold storePowerUp
    split <;> exact ⟨rfl, rfl⟩
  exact stored

/-- Settles O9: writes keep the form, a save is an image, which fits, and power-up keeps the memory. -/
theorem memoryCanonicalKept : Obligations.MemoryCanonicalKept := by
  intro s t h k
  obtain ⟨cs, rfl⟩ | ⟨cs, keeps⟩ := step_keeps k
  · obtain ⟨image, saving⟩ := powerUp_image { s with pending := cs }
    exact ⟨by rw [image]; exact h.1, fun bytes held => by rw [saving] at held; cases held⟩
  · exact keeps.memory h

/-- The masks at power-up are the supported ones, or empty (R192). -/
theorem maskPowerUp_get (c : ConfigStore) (m : Ant) : (maskPowerUp c)[m] = if c.antOk m then c.active.supported[m] else 0 := by
  have all : ∀ (ms : List Ant) (v : Vector Word16 24),
      (m ∈ ms ∨ v[m] = if c.antOk m then c.active.supported[m] else 0) →
        (ms.foldl (fun v (m : Ant) => v.set m (if c.antOk m then c.active.supported[m] else 0)) v)[m] =
          if c.antOk m then c.active.supported[m] else 0 := by
    intro ms
    induction ms with
    | nil => exact fun v h => h.resolve_left List.not_mem_nil
    | cons j ms ih =>
      intro v h
      refine ih _ ?_
      by_cases e : m = j
      · subst e
        exact .inr (by simp only [getElem_set_fin, if_true])
      · obtain h | h := h
        · exact .inl ((List.mem_cons.1 h).resolve_left e)
        · exact .inr (by simp only [getElem_set_fin, e, if_false]; exact h)
  exact all allAnt _ (.inl (mem_allAnt m))

theorem powerUp_within (s : State) : EnabledWithin s.powerUp := by
  intro m
  have masks := maskPowerUp_get (storePowerUp s.cfg.image) m
  show (maskPowerUp (storePowerUp s.cfg.image))[m] &&& (storePowerUp s.cfg.image).active.supported[m] = _
  rw [show s.powerUp.enabled[m] = (maskPowerUp (storePowerUp s.cfg.image))[m] from rfl, masks]
  split
  · exact BitVec.and_self
  · exact BitVec.zero_and

/-- Settles O12: SET_ENABLED_BANDS and a close write masks within the supported ones, and so does power-up. -/
theorem enabledWithinKept : Obligations.EnabledWithinKept := by
  intro s t h k
  obtain ⟨cs, rfl⟩ | ⟨cs, keeps⟩ := step_keeps k
  · exact powerUp_within _
  · exact keeps.masks h

theorem powerUp_grants (s : State) : MovesBounded s.powerUp ∧ Judged s.powerUp := by
  refine ⟨.of_rest movingCount_powerUp, .inr ?_⟩
  have shut : s.powerUp.mx.permitted = false := rfl
  have safe : s.powerUp.hall.state = .safe := rfl
  rw [shut]
  simp [State.drivesPermitted, safe]

/-- Settles O8: moves start by grants alone, which the limit and drive permission bound, and every change of a condition is judged. -/
theorem grantsBoundedKept : Obligations.GrantsBoundedKept := by
  intro s t h k
  rw [grantsBounded_iff] at h ⊢
  obtain ⟨moves, judged⟩ := h
  obtain ⟨cs, rfl⟩ | ⟨cs, keeps⟩ := step_keeps k
  · exact powerUp_grants _
  · exact ⟨keeps.moves ⟨moves.limit, moves.closed, moves.permitted⟩, keeps.judged judged⟩

theorem locksBounded_iff (rs : List LockRec) : LocksBounded (rs.map LockRec.kept) ↔
    rs.length ≤ 32 ∧ rs.Pairwise fun a b => ¬(a.target = b.target ∧ a.desk = b.desk) := by
  unfold LocksBounded
  rw [List.length_map, List.pairwise_map]
  rfl

theorem tablesBounded_iff (s : State) : TablesBounded s ↔
    LocksBounded s.keptLocks ∧ SeasonsBounded s.season ∧ OutcomesBounded s ∧ QueuesBounded s := by
  rw [show LocksBounded s.keptLocks ↔ _ from locksBounded_iff s.locks.records]
  exact ⟨fun ⟨locks, distinct, seasons, outcomes, busy, waiting⟩ =>
      ⟨⟨locks, distinct⟩, seasons, outcomes, fun d => ⟨busy d, waiting d⟩⟩,
    fun ⟨⟨locks, distinct⟩, seasons, outcomes, queues⟩ =>
      ⟨locks, distinct, seasons, outcomes, fun d => (queues d).1, fun d => (queues d).2⟩⟩

theorem powerUp_tables (s : State) : TablesBounded s.powerUp :=
  ⟨Nat.zero_le _, List.Pairwise.nil, ⟨Nat.zero_le _, Nat.zero_le _⟩, Nat.zero_le _, fun d => by cases d <;> exact Nat.zero_le _,
    fun d => by cases d <;> exact Nat.zero_le _⟩

/-- Settles O11: every table is written behind a check of its bound, and power-up empties them. -/
theorem tablesBoundedKept : Obligations.TablesBoundedKept := by
  intro s t h k
  obtain ⟨cs, rfl⟩ | ⟨cs, keeps⟩ := step_keeps k
  · exact powerUp_tables _
  · rw [tablesBounded_iff] at h ⊢
    obtain ⟨locks, seasons, outcomes, queues⟩ := h
    exact ⟨keeps.locks locks, keeps.seasons seasons, keeps.outcomes outcomes, keeps.queues queues⟩

end Sys2Proof.Machine
end

