-- ==== Sys2Proof/Proofs/PermitLevels.lean ====
section
/-! PROOF. What current permits allow (R44 to R50), the part after reset, and after power-up. -/

namespace Sys2Proof

theorem Level.min_rank (a b : Level) : (a.min b).rank ≤ a.rank ∧ (a.min b).rank ≤ b.rank := by
  unfold Level.min
  split <;> omega

theorem Level.rank_pos {l : Level} (h : l ≠ .off) : 0 < l.rank := by
  cases l with
  | off => exact absurd rfl h
  | low => decide
  | full => decide

theorem Level.min_ne_off {a b : Level} (h : a.min b ≠ .off) : a ≠ .off ∧ b ≠ .off := by
  have pos := Level.rank_pos h
  obtain ⟨left, right⟩ := Level.min_rank a b
  have zero : Level.off.rank = 0 := rfl
  constructor
  · rintro rfl
    omega
  · rintro rfl
    omega

end Sys2Proof

namespace Sys2Proof.Machine

section
variable {s : State} {n : Tx}

/-! ## Permits that allow an output -/

theorem allowedOf_ne_off {r : Reasons} {c : Caps} (h : allowedOf r c ≠ .off) : r.some_ = false := by
  unfold allowedOf at h
  split at h
  · exact absurd rfl h
  · next none => simpa using none

theorem allowedOf_full {r : Reasons} {c : Caps} (h : allowedOf r c = .full) : c.slewLow = false ∧ c.faultMark = false := by
  unfold allowedOf at h
  split at h
  · cases h
  · split at h
    · cases h
    · next clear => simpa using clear

/-- An output above OFF is bounded by the level requested and the level allowed, and no blocking reason stands. -/
theorem output_bounds (current : s.permit[n] = s.permitOf n) (h : (s.permit[n]).output ≠ .off) :
    (s.permit[n]).output.rank ≤ (s.permit[n]).requested.rank ∧
      (s.permit[n]).output.rank ≤ (allowedOf (s.reasonsOf n) (s.capsOf n)).rank ∧ (s.reasonsOf n).some_ = false := by
  rw [current] at h ⊢
  have h : (s.heldLevel n).min ((s.requestedOf n).min (allowedOf (s.reasonsOf n) (s.capsOf n))) ≠ .off := h
  have inner := (Level.min_rank (s.heldLevel n) ((s.requestedOf n).min (allowedOf (s.reasonsOf n) (s.capsOf n)))).2
  obtain ⟨requested, allowed⟩ := Level.min_rank (s.requestedOf n) (allowedOf (s.reasonsOf n) (s.capsOf n))
  exact ⟨Nat.le_trans inner requested, Nat.le_trans inner allowed, allowedOf_ne_off (Level.min_ne_off (Level.min_ne_off h).2).2⟩

theorem txOk_of_clear (h : (s.reasonsOf n).some_ = false) : s.cfg.txOk n = true := by
  unfold State.reasonsOf at h
  split at h
  · cases h
  · next ok => simpa using ok

/-- The reasons of R47 are among those that stand, whether an antenna is fed or not. -/
theorem reasons47_clear (h : (s.reasonsOf n).some_ = false) : (s.reasons47 n).some_ = false := by
  have ok := txOk_of_clear h
  unfold State.reasonsOf at h
  rw [ok] at h
  simp only [Bool.not_true, Bool.false_eq_true, if_false] at h
  split at h
  · exact h
  · next m _ =>
    unfold State.reasons48 at h
    have clear : ∀ r : Reasons, r.antLockout = false → r.band = false → r.rotatorInvalid = false → r.keepOut = false →
        r.slewCapOff = false → r.notConfigured = false →
        (r.hall || r.configOpen || r.txLockout || r.txState || r.forced || r.pathUnsettled || r.outputSwitch || r.busCount) = false →
        r.some_ = false := by
      intro r h1 h2 h3 h4 h5 h6 rest
      simp only [Reasons.some_, h1, h2, h3, h4, h5, h6, rest, Bool.or_false]
    refine clear _ rfl rfl rfl rfl rfl rfl ?_
    cases rot : s.cfg.antRot m <;> simp only [rot, Reasons.some_, Bool.or_eq_false_iff] at h ⊢ <;> simp only [h, and_self]

theorem reasons48_clear {m : Ant} (feeds : s.mx.feeds n = some m) (h : (s.reasonsOf n).some_ = false) :
    (s.reasons48 n m (s.reasons47 n)).some_ = false := by
  have ok := txOk_of_clear h
  unfold State.reasonsOf at h
  rw [ok, feeds] at h
  simpa using h

/-- Where an output switch at ANTENNA has a settled bus, one antenna is fed (R40, R47). -/
theorem feeds_of_busCount {x : Matrix} (antenna : (x.out[n]).confirmed = .stands .antenna) (count : x.busCountBad n = false) :
    ∃ m : Ant, x.feeds n = some m := by
  have one : (x.busConfirmed n).length = 1 := by
    rw [Matrix.busCountBad, antenna] at count
    simpa using count
  obtain ⟨m, hm⟩ := List.length_eq_one_iff.1 one
  exact ⟨m, by simp only [Matrix.feeds, Matrix.routeMap, antenna, hm]⟩

theorem pathGuarded (current : s.permit[n] = s.permitOf n) (clear : (s.reasonsOf n).some_ = false) : PathGuarded s n := by
  have ok := txOk_of_clear clear
  have clear := reasons47_clear clear
  simp only [Reasons.some_, State.reasons47, Reasons.none_, Bool.or_eq_false_iff, Bool.or_false] at clear
  obtain ⟨⟨⟨⟨⟨⟨⟨hall, opened⟩, locked⟩, state⟩, forced⟩, path⟩, output⟩, count⟩ := clear
  have forces : (s.permit[n]).forces = s.forcesOf n := by rw [current]; rfl
  refine ⟨ok, by simpa using hall, opened, locked, ?_, by rw [forces]; exact forced, ?_, fun w hw => ?_, ?_,
    fun antenna => feeds_of_busCount antenna count⟩
  · cases ready : (s.tx[n]).state.isReady <;> simp_all
  · simp only [Forces.some_, State.forcesOf, Bool.or_eq_false_iff] at forced
    exact forced.1.1.1
  · have rests := path
    rw [Matrix.pathUnsettled, List.any_eq_false] at rests
    have here := rests w (List.mem_filter.2 ⟨mem_allSw w, hw⟩)
    rw [Bool.or_eq_true, not_or, bne_iff_ne, not_not, Bool.not_eq_true', Bool.not_eq_false, SwRec.inPlace, beq_iff_eq] at here
    exact here
  · simp only [Matrix.outputBad, Bool.or_eq_false_iff, beq_eq_false_iff_ne] at output
    obtain ⟨⟨between, unknown⟩, -⟩ := output
    cases at_ : (s.mx.out[n]).confirmed with
    | stands p => exact ⟨p, rfl⟩
    | between => exact absurd at_ between
    | unknown => exact absurd at_ unknown

theorem antennaGuarded {m : Ant} (current : s.permit[n] = s.permitOf n) (h : (s.permit[n]).output ≠ .off)
    (feeds : s.mx.feeds n = some m) : AntennaGuarded s n m := by
  obtain ⟨-, allowed, clear⟩ := output_bounds current h
  have ok := txOk_of_clear clear
  have reasons := reasons48_clear feeds clear
  have caps : s.capsOf n = ⟨(match s.cfg.antRot m with | some k => s.capOf k == some .low | none => false), s.faultMark[m]⟩ := by
    unfold State.capsOf
    rw [ok, feeds] <;> rfl
  refine ⟨?_, ?_, fun k rot => ?_, fun marked full => ?_⟩
  · cases rot : s.cfg.antRot m <;> simp_all [State.reasons48, Reasons.some_]
  · cases rot : s.cfg.antRot m <;> simp_all [State.reasons48, Reasons.some_]
  · simp only [State.reasons48, rot, Reasons.some_, Bool.or_eq_false_iff] at reasons
    obtain ⟨⟨⟨⟨-, invalid⟩, keepOut⟩, cap⟩, -⟩ := reasons
    refine ⟨?_, keepOut, by simpa using cap⟩
    cases settling : s.isSettling <;> simp_all
  · rw [full] at allowed
    have top : allowedOf (s.reasonsOf n) (s.capsOf n) = .full := by
      cases level : allowedOf (s.reasonsOf n) (s.capsOf n) <;> rw [level] at allowed <;> simp [Level.rank] at allowed ⊢
    obtain ⟨low, mark⟩ := allowedOf_full top
    rw [caps] at low mark
    obtain marked | ⟨k, rot, cap⟩ := marked
    · exact Bool.noConfusion (mark.symm.trans marked)
    · simp [rot, cap] at low

theorem outputsGuarded (h : PermitsCurrent s) : OutputsGuarded s := fun n above =>
  let ⟨requested, _, clear⟩ := output_bounds (h n) above
  ⟨pathGuarded (h n) clear, fun _ feeds => antennaGuarded (h n) above feeds, requested⟩

end

/-- Settles O6: a reason that stands allows OFF alone, and a cap no more than LOW; the lines are read off the record. -/
theorem permitsGuardOutputs : Obligations.PermitsGuardOutputs := by
  refine ⟨fun _ h => outputsGuarded h, fun s n => ⟨?_, ?_, ?_⟩⟩
  · unfold State.permitLines
    cases (s.permit[n]).output <;> simp [Level.permitLines]
  · unfold State.permitLines
    cases (s.permit[n]).output <;> simp [Level.permitLines]
  · simp only [State.tripLine, Holds.line, Bool.or_eq_true, or_assoc]

/-! ## Reset and power-up -/

/-- Settles O3: reset is a closed state. -/
theorem resetState : Obligations.ResetState := by
  refine ⟨rfl, rfl, rfl, rfl, rfl, rfl, rfl, rfl, rfl, rfl, rfl, rfl, rfl, rfl, ?_, ?_, ?_, ?_⟩
  · intro w
    cases w with
    | sel m => revert m; decide
    | out n => revert n; decide
  · decide
  · decide
  · intro d
    cases d <;> exact ⟨rfl, rfl, rfl, rfl⟩

theorem reset_current : PermitsCurrent State.reset := by
  intro n
  revert n
  decide

theorem reset_tables : TablesBounded State.reset :=
  ⟨Nat.zero_le _, List.Pairwise.nil, ⟨Nat.zero_le _, Nat.zero_le _⟩, Nat.zero_le _, fun d => by cases d <;> exact Nat.zero_le _,
    fun d => by cases d <;> exact Nat.zero_le _⟩

/-- Settles O4. -/
theorem resetInvariants : Obligations.ResetInvariants := by
  refine ⟨reset_current, outputsGuarded reset_current, ⟨reset_memory_wf, fun _ h => by cases h⟩, reset_tables, ?_, ?_, ?_, ?_⟩
  · intro m
    revert m
    decide
  · rw [grantsBounded_iff]
    exact ⟨.of_rest movingCount_powerUp, .inr rfl⟩
  · rw [guardHolds_iff]
    intro n
    revert n
    unfold GuardRight
    decide
  · intro d
    cases d <;> rfl

/-- The store after the load of a valid image, and after that of any other (R201). -/
theorem storePowerUp_some {mem : List Host.Cell} {c : Configuration} (h : loadImage mem = some c) :
    storePowerUp mem = { ConfigStore.powerUp with configured := true, active := c, memoryValid := true, image := mem } := by
  rw [storePowerUp, h]

theorem storePowerUp_none {mem : List Host.Cell} (h : loadImage mem = none) :
    storePowerUp mem = { ConfigStore.powerUp with image := mem } := by
  rw [storePowerUp, h]

theorem storePowerUp_rest (mem : List Host.Cell) : (storePowerUp mem).image = mem ∧ (storePowerUp mem).openDesk = none ∧
    (storePowerUp mem).saving = none ∧ (storePowerUp mem).settling = none := by
  unfold storePowerUp
  split <;> exact ⟨rfl, rfl, rfl, rfl⟩

/-- In a hall that is not NORMAL every transmitter has a blocking reason. -/
theorem reasonsOf_unsafe {s : State} {n : Tx} (h : s.hall.state ≠ .normal) : (s.reasonsOf n).some_ = true := by
  by_contra clear
  have clear := reasons47_clear (by simpa using clear)
  simp only [Reasons.some_, State.reasons47, Bool.or_eq_false_iff] at clear
  simp_all

/-- Current permits in a hall that is not NORMAL hold every output OFF (R47). -/
theorem output_off_of_unsafe {s : State} {n : Tx} (current : s.permit[n] = s.permitOf n) (h : s.hall.state ≠ .normal) :
    (s.permit[n]).output = .off := by
  by_contra above
  obtain ⟨-, -, clear⟩ := output_bounds current above
  rw [reasonsOf_unsafe h] at clear
  cases clear

theorem powerUp_holds (s : State) (n : Tx) : (s.powerUp.permit[n]).holds = ⟨false, false, false⟩ := by
  have reset : (State.reset.permit[n]).holds = ⟨false, false, false⟩ := by revert n; decide
  unfold State.powerUp
  rw [permitSync_permit]
  exact reset

theorem settling_map_none (c : ConfigStore) (f : Settling → Settling) (h : c.settling = none) :
    { c with settling := c.settling.map f } = c := by
  obtain ⟨configured, active, openDesk, workspace, memoryValid, saving, lastSave, lastClose, settling, image⟩ := c
  subst h
  rfl

theorem powerUp_cfg (s : State) : s.powerUp.cfg = storePowerUp s.cfg.image :=
  settling_map_none _ _ (storePowerUp_rest s.cfg.image).2.2.2

theorem powerUp_enabled (s : State) (m : Ant) :
    s.powerUp.enabled[m] = if (storePowerUp s.cfg.image).antOk m then (storePowerUp s.cfg.image).active.supported[m] else 0 :=
  maskPowerUp_get _ m

/-- The records of the blocks after power-up. -/
theorem powerUp_records (s : State) : s.powerUp.mx = Matrix.powerUp ∧ s.powerUp.season = Season.powerUp ∧
    s.powerUp.run = RunTable.powerUp ∧ s.powerUp.clock = Clock.powerUp ∧ s.powerUp.locks = LockTable.powerUp ∧
    s.powerUp.hall = Hall.powerUp ∧ (∀ d : Desk, s.powerUp.link d = Link.powerUp) ∧
    (∀ k : Rot, s.powerUp.rot[k] = RotRec.powerUp ∧ s.powerUp.slew[k] = SlewRec.powerUp) ∧
    ∀ n : Tx, s.powerUp.tx[n] = TxRec.powerUp ∧ s.powerUp.tasks[n] = none := by
  refine ⟨rfl, rfl, rfl, rfl, rfl, rfl, fun d => ?_, fun k => ?_, fun n => ?_⟩
  · cases d <;> rfl
  · exact ⟨Vector.getElem_replicate _, Vector.getElem_replicate _⟩
  · exact ⟨Vector.getElem_replicate _, Vector.getElem_replicate _⟩

/-- Settles O46: the load of R201 goes by the image, and in a hall that is SAFE every output is OFF. -/
theorem powerUp : Obligations.PowerUp := by
  intro s
  obtain ⟨image, openDesk, saving, settling⟩ := storePowerUp_rest s.cfg.image
  obtain ⟨mx, season, run, clock, locks, hall, links, rotators, transmitters⟩ := powerUp_records s
  have current : PermitsCurrent s.powerUp := permitSync_current _
  refine ⟨s.powerUp, rfl, rfl, rfl, ?_⟩
  rw [powerUp_cfg]
  refine ⟨image, openDesk, saving, settling, fun c valid => ?_, fun invalid => ?_, mx, season, run, clock, locks, hall, links,
    rotators, fun n => ⟨(transmitters n).1, (transmitters n).2, output_off_of_unsafe (current n) (by rw [hall]; nofun),
      powerUp_holds s n⟩, current⟩
  · have store := storePowerUp_some valid
    refine ⟨by rw [store], by rw [store], by rw [store], fun m => ?_⟩
    rw [powerUp_enabled, store]
    simp [ConfigStore.antOk]
  · have store := storePowerUp_none invalid
    refine ⟨by rw [store]; rfl, by rw [store]; rfl, fun m => ?_⟩
    rw [powerUp_enabled, store]
    rfl

end Sys2Proof.Machine
end

