-- ==== Sys2Proof/Proofs/SettingCommands.lean ====
section
/-! PROOF. The commands of subscription and configuration but CLOSE_CONFIG, the end of a save, and ACK_HALL_SAFE (R180, R189, R197,
R199, R202, R203, R205, R206). -/

namespace Sys2Proof.Machine

/-! ## Attention that stays -/

/-- What attention stands is not lost in what a block does. -/
theorem raised_of_calm {z u : State} {a : Attn} (h : Calm z u) (raised : z.raised a) : u.raised a := fun d => by
  calc (u.link d).attn &&& a.bit
      = (u.link d).attn &&& ((z.link d).attn &&& a.bit) := by rw [raised d]
    _ = ((z.link d).attn &&& (u.link d).attn) &&& a.bit := by rw [← BitVec.and_assoc, BitVec.and_comm (u.link d).attn]
    _ = a.bit := by rw [(h.links d).grows, raised d]

/-! ## SET_SUBSCRIPTION -/

section
variable {s : State} {d : Desk} {mask : Nat}

theorem actSetSubscription_out_of_range (high : 4096 ≤ mask) (small : mask < 65536) :
    actSetSubscription d (wordArg mask) s = s.refuse .badArgument := by
  simp only [actSetSubscription, args_word small, ge_iff_le, high, if_true]

theorem actSetSubscription_not_configured (h : mask < 4096) (absent : s.cfg.configured = false) :
    actSetSubscription d (wordArg mask) s = s.refuse .notConfigured := by
  simp only [actSetSubscription, args_word (show mask < 65536 by omega), ge_iff_le, Nat.not_le.mpr h, absent, if_false, Bool.not_false,
    if_true]

theorem actSetSubscription_taken (h : mask < 4096) (configured : s.cfg.configured = true) :
    actSetSubscription d (wordArg mask) s = ⟨.done, [], s.modLink d fun l => l.subscribe (BitVec.ofNat 12 mask)⟩ := by
  simp only [actSetSubscription, args_word (show mask < 65536 by omega), ge_iff_le, Nat.not_le.mpr h, configured, if_false,
    Bool.not_true, Bool.false_eq_true]

end

/-- A link on which an attention frame is due holds a waiting one once its queue is filled. -/
theorem attnWaiting_mem_flush {l : Link} (due : l.due = true) : .attnWaiting ∈ l.flush.queue := by
  rw [linkFlush_queue, due]
  by_cases waiting : l.queue.any Frame.isWaiting = true
  · obtain ⟨f, mem, is⟩ := List.any_eq_true.mp waiting
    have frame : f = .attnWaiting := by cases f <;> simp_all [Frame.isWaiting]
    simpa [waiting, frame] using mem
  · simp [waiting]

/-- Settles O40: the owner sets the mask of the sender's link, where a class newly subscribed to makes a frame due. -/
theorem setSubscription : Obligations.SetSubscription := by
  intro s d tag mask serves small c asked
  have sets (h : mask < 4096) (configured : s.cfg.configured = true) : CommandSets c s d tag .done []
      ((s.taken d tag 0x60).modLink d fun l => l.subscribe asked) :=
    sets_of_act rfl serves (actSetSubscription_taken h configured)
  refine ⟨fun high => only_answered_of_refuse rfl serves (actSetSubscription_out_of_range high small),
    fun h absent => only_answered_of_refuse rfl serves (actSetSubscription_not_configured h absent),
    sets, fun h configured quiet => ⟨_, sets h configured, by simp, by simp, by simp, ?_, ?_, ?_, fun newly => ?_, fun e he => ?_⟩⟩
  · rw [replied_link_same, modLink_same, taken_link_same]
    exact linkAnswered_of_push ⟨rfl, rfl⟩ rfl rfl rfl
  · rw [replied_link_same, modLink_same, taken_link_same, linkFlush_sub]
    rfl
  · rw [replied_link_same, modLink_same, taken_link_same, linkFlush_attn]
    rfl
  · rw [replied_link_same, modLink_same, taken_link_same]
    refine attnWaiting_mem_flush ?_
    simpa [Link.push, Link.subscribe] using .inr newly
  · rw [replied_link_other _ _ _ _ he, modLink_other _ _ _ _ he, taken_link_other _ _ _ he, linkFlush_of_not_due (quiet e)]

/-! ## OPEN_CONFIG and ABANDON_CONFIG -/

section
variable {s : State} {d : Desk}

theorem actOpenConfig_held (h : s.cfg.openDesk = some d) : actOpenConfig d [] s = s.tell [] := by
  simp [actOpenConfig, args, h]

theorem actOpenConfig_other {e : Desk} (h : s.cfg.openDesk = some e) (other : e ≠ d) :
    actOpenConfig d [] s = s.refuse .configOpen := by
  simp [actOpenConfig, args, h, other]

theorem actOpenConfig_busy (h : s.cfg.openDesk = none) (busy : s.hallBusy = true) : actOpenConfig d [] s = s.refuse .busy := by
  simp [actOpenConfig, args, h, busy]

theorem actOpenConfig_taken (h : s.cfg.openDesk = none) (still : s.hallBusy = false) :
    actOpenConfig d [] s = s.answer .done [] (s.openConfig d) := by
  simp [actOpenConfig, args, h, still]

theorem actAbandonConfig_none (h : s.cfg.openDesk = none) : actAbandonConfig d [] s = s.tell [] := by
  simp [actAbandonConfig, args, h]

theorem actAbandonConfig_other {e : Desk} (h : s.cfg.openDesk = some e) (other : e ≠ d) :
    actAbandonConfig d [] s = s.refuse .configOpen := by
  simp [actAbandonConfig, args, h, other]

theorem actAbandonConfig_taken (h : s.cfg.openDesk = some d) : actAbandonConfig d [] s = s.answer .done [] s.abandonConfig := by
  simp [actAbandonConfig, args, h]

variable (s d)

/-- Of everything else, the opening of a configuration changes nothing but attention. -/
theorem openConfig_calm : Calm ((s.modCfg fun c => { c with openDesk := some d, workspace := some (if s.cfg.configured then s.cfg.active else Configuration.default) }).raise .config) (s.openConfig d) :=
  calm_notifyAll _ _ (Calm.refl _)

theorem closeJudged_calm : Calm (s.raise .config) s.closeJudged :=
  calm_notifyAll _ _ (calm_slewResumeAll _ (Calm.refl _))

end

/-- Settles O42, by the branches of the two acts. -/
theorem openAndAbandon : Obligations.OpenAndAbandon := by
  intro s d tag serves op ab busy
  refine ⟨fun held => sets_of_act rfl serves (actOpenConfig_held (s := s.taken d tag 0x62) held),
    fun e held other => ⟨?_, ?_⟩, fun free busy => ?_, fun free still => ⟨(s.taken d tag 0x62).openConfig d, ?_, ?_, ?_⟩,
    fun free => sets_of_act rfl serves (actAbandonConfig_none (s := s.taken d tag 0x65) free),
    fun held => ⟨(s.taken d tag 0x65).abandonConfig, ?_, ?_, ?_⟩⟩
  · exact only_answered_of_refuse rfl serves (actOpenConfig_other (s := s.taken d tag 0x62) held other)
  · exact only_answered_of_refuse rfl serves (actAbandonConfig_other (s := s.taken d tag 0x65) held other)
  · exact only_answered_of_refuse rfl serves (actOpenConfig_busy (s := s.taken d tag 0x62) free busy)
  · exact runs_of_act rfl serves (actOpenConfig_taken (s := s.taken d tag 0x62) free still)
      (links_of_calm _ ((calm_raise _ .config (Calm.refl _)).trans (openConfig_calm _ d)) rfl)
  · exact raised_of_calm (openConfig_calm _ d) (raised_raise _ _)
  · exact (openConfig_calm _ d).kept
  · exact runs_of_act rfl serves (actAbandonConfig_taken (s := s.taken d tag 0x65) held)
      (links_of_calm _ ((calm_raise _ .config (Calm.refl _)).trans (closeJudged_calm _)) rfl)
  · exact raised_of_calm (closeJudged_calm _) (raised_raise _ _)
  · exact (closeJudged_calm _).kept

/-! ## CONFIGURE -/

/-- The items of a list are read back from its bytes. -/
theorem itemPairs_words (items : List (Nat × Nat)) (small : ∀ y ∈ items, y.1 < 65536 ∧ y.2 < 65536) :
    itemPairs items.length (items.flatMap fun y => wordArg y.1 ++ wordArg y.2) = items := by
  induction items with
  | nil => rfl
  | cons y ys ih =>
    obtain ⟨⟨id, value⟩, rest⟩ := List.forall_mem_cons.mp small
    have len (n : Nat) : (wordArg n).length = 2 := rfl
    rw [List.length_cons, itemPairs, List.flatMap_cons, List.append_assoc, List.take_left' (len _), List.drop_left' (len _),
      List.take_left' (len _), ← List.append_assoc, List.drop_left' (show _ = 4 from rfl), ih rest, numOf_wordArg id, numOf_wordArg value]

/-- The bytes of an item list: four for each item. -/
theorem length_itemWords (items : List (Nat × Nat)) :
    (items.flatMap fun y => wordArg y.1 ++ wordArg y.2).length = 4 * items.length := by
  induction items with
  | nil => rfl
  | cons y ys ih =>
    have len (n : Nat) : (wordArg n).length = 2 := rfl
    rw [List.flatMap_cons, List.length_append, List.length_append, ih, len, len, List.length_cons]
    omega

/-- One item of a CONFIGURE list taken into a workspace, behind the statuses of the items before it (R203). -/
def takeItem (acc : List Status × Configuration) (y : Nat × Nat) : List Status × Configuration :=
  match acc.2.apply y.1 y.2 with
  | none => (acc.1 ++ [.badArgument], acc.2)
  | some c => (acc.1 ++ [.done], c)

/-- The items of a list are taken one by one, in the order of the list. -/
theorem foldl_takeItem (items : List (Nat × Nat)) (xs : List Status) (w : Configuration) :
    items.foldl takeItem (xs, w) = (xs ++ (configureItems w items).1, (configureItems w items).2) := by
  induction items generalizing xs w with
  | nil => simp [configureItems]
  | cons y ys ih =>
    obtain ⟨id, v⟩ := y
    rw [List.foldl_cons, takeItem, configureItems]
    cases w.apply id v with
    | none => simp [ih]
    | some c => simp [ih]

/-- Each item gets its own status. -/
theorem length_configureItems (items : List (Nat × Nat)) (w : Configuration) : (configureItems w items).1.length = items.length := by
  induction items generalizing w with
  | nil => rfl
  | cons y ys ih =>
    obtain ⟨id, v⟩ := y
    rw [configureItems]
    cases w.apply id v with
    | none => simp [ih]
    | some c => simp [ih]

theorem sectors_put_from (w : Configuration) (k : Rot) (j : Fin 4) (v : Nat) :
    (((w.put (.sectorFrom k j) v).rot[k]).sectors[j]) = { (w.rot[k]).sectors[j] with fromB := v } := by
  simp only [Configuration.put, getElem_set_fin, if_true]

theorem sectors_put_to (w : Configuration) (k : Rot) (j : Fin 4) (v : Nat) :
    (((w.put (.sectorTo k j) v).rot[k]).sectors[j]) = { (w.rot[k]).sectors[j] with toB := v } := by
  simp only [Configuration.put, getElem_set_fin, if_true]

/-- A value that would make the two bearings of a sector equal (R203). -/
def equalBearings (w : Configuration) (i : CfgItem) (v : Nat) : Bool :=
  match i with
  | .sectorFrom k j => v == ((w.rot[k]).sectors[j]).toB && v != 65535
  | .sectorTo k j => v == ((w.rot[k]).sectors[j]).fromB && v != 65535
  | _ => false

/-- A workspace that an item has made degenerate has two equal bearings there. -/
theorem degenerateAt_put_eq (w : Configuration) (i : CfgItem) (v : Nat) : (w.put i v).degenerateAt i = equalBearings w i v := by
  cases i with
  | sectorFrom k j =>
    simp only [Configuration.degenerateAt, sectors_put_from]
    rfl
  | sectorTo k j =>
    simp only [Configuration.degenerateAt, sectors_put_to, Sector.degenerate, equalBearings]
    grind
  | _ => rfl

/-- An item taken, by its identifier, its range and the bearings of its sector. -/
theorem takeItem_eq (acc : List Status × Configuration) (y : Nat × Nat) : takeItem acc y =
    match CfgItem.ofId y.1 with
    | none => (acc.1 ++ [.badArgument], acc.2)
    | some i =>
      if i.inRange y.2 && !equalBearings acc.2 i y.2 then (acc.1 ++ [.done], acc.2.put i y.2) else (acc.1 ++ [.badArgument], acc.2) := by
  rw [takeItem, Configuration.apply]
  cases CfgItem.ofId y.1 with
  | none => rfl
  | some i =>
    dsimp only
    rw [degenerateAt_put_eq]
    cases (i.inRange y.2 && !equalBearings acc.2 i y.2) <;> rfl

section
variable {s : State} {d : Desk}

theorem actConfigure_out_of_range {n : Byte} {rest : List Byte}
    (out : ¬(1 ≤ n.toNat ∧ n.toNat ≤ 59 ∧ rest.length = 4 * n.toNat)) : actConfigure d (n :: rest) s = s.refuse .badArgument := by
  simp only [actConfigure, out, decide_false, Bool.not_false, if_true]

variable {items : List (Nat × Nat)} (low : 1 ≤ items.length) (high : items.length ≤ 59)
include low high

/-- The list of a CONFIGURE that carries its items is sound. -/
theorem configure_form : decide (1 ≤ (BitVec.ofNat 8 items.length).toNat ∧ (BitVec.ofNat 8 items.length).toNat ≤ 59 ∧
    (items.flatMap fun y => wordArg y.1 ++ wordArg y.2).length = 4 * (BitVec.ofNat 8 items.length).toNat) = true := by
  rw [toNat_byte (by omega), length_itemWords]
  exact decide_eq_true ⟨low, high, rfl⟩

theorem actConfigure_not_open (h : s.cfg.openDesk = none) :
    actConfigure d (numArg items.length ++ items.flatMap fun y => wordArg y.1 ++ wordArg y.2) s = s.refuse .notPermitted := by
  simp only [actConfigure, numArg, List.cons_append, List.nil_append, configure_form low high, Bool.not_true, Bool.false_eq_true,
    if_false, h]

theorem actConfigure_other {e : Desk} {w : Configuration} (h : s.cfg.openDesk = some e) (space : s.cfg.workspace = some w)
    (other : e ≠ d) :
    actConfigure d (numArg items.length ++ items.flatMap fun y => wordArg y.1 ++ wordArg y.2) s = s.refuse .configOpen := by
  simp only [actConfigure, numArg, List.cons_append, List.nil_append, configure_form low high, Bool.not_true, Bool.false_eq_true,
    if_false, h, space, bne_iff_ne.mpr other, if_true]

theorem actConfigure_taken {w : Configuration} (h : s.cfg.openDesk = some d) (space : s.cfg.workspace = some w)
    (small : ∀ y ∈ items, y.1 < 65536 ∧ y.2 < 65536) :
    actConfigure d (numArg items.length ++ items.flatMap fun y => wordArg y.1 ++ wordArg y.2) s =
      ⟨.done, numArg items.length ++ (items.foldl takeItem ([], w)).1.flatMap fun st => numArg st.code,
        s.modCfg fun x => { x with workspace := some (items.foldl takeItem ([], w)).2 }⟩ := by
  simp only [actConfigure, numArg, List.cons_append, List.nil_append, configure_form low high, Bool.not_true, Bool.false_eq_true,
    if_false, h, space, bne_self_eq_false]
  simp only [foldl_takeItem, List.nil_append, List.cons_append, configureList, toNat_byte (show items.length < 256 by omega),
    itemPairs_words items small, listOf, num1, length_configureItems]

end

/-- Settles O43: an item in its range is read back, and the list is the fold of the rule of one item. -/
theorem configure : Obligations.Configure := by
  refine ⟨fun w i j v range => Configuration.get_put w i j range, CfgItem.ofId_eq_some_iff, fun s d tag serves => ⟨?_, ?_⟩⟩
  · intro n rest out
    exact only_answered_of_refuse rfl serves (actConfigure_out_of_range out)
  intro items low high small c equals take
  have fold : take = takeItem := by
    funext acc y
    rw [takeItem_eq]
    rfl
  refine ⟨fun closed => only_answered_of_refuse rfl serves (actConfigure_not_open low high (s := s.taken d tag 0x63) closed),
    fun w space => ⟨fun e held other => only_answered_of_refuse rfl serves (actConfigure_other low high (s := s.taken d tag 0x63) held space other),
      fun held => ?_⟩⟩
  intro out
  refine ⟨?_, ?_⟩
  · simp only [out, fold, foldl_takeItem, List.nil_append, length_configureItems]
  · simp only [out, fold]
    exact sets_of_act rfl serves (actConfigure_taken low high (s := s.taken d tag 0x63) held space small)

/-! ## SAVE_CONFIG, RESTART and unknown codes -/

/-- A save begins with the image held and the two bytes of the marker zeroed (R206). -/
theorem startSave_eq (s : State) : s.startSave = s.modCfg fun x =>
    { x with saving := some (imageBytes s.cfg.active), image := memWrite (memWrite s.cfg.image 0 0) 1 0 } := by
  simp only [State.startSave, memWriteAll, State.modCfg, Nat.zero_add]

/-- Settles O45, by the branches of the three acts. -/
theorem saveRestartUnknown : Obligations.SaveRestartUnknown := by
  intro s d tag serves
  refine ⟨fun absent => ?_, fun configured => ⟨fun bytes saving => ?_, fun idle => ?_⟩,
    sets_of_act rfl serves rfl, fun code p => only_answered_of_refuse rfl serves rfl⟩
  · refine only_answered_of_refuse rfl serves ?_
    simp [actSaveConfig, args, absent]
  · refine only_answered_of_refuse rfl serves ?_
    simp [actSaveConfig, args, configured, saving]
  · rw [← taken_cfg s d tag 0x66, ← startSave_eq]
    refine sets_of_act rfl serves ?_
    simp only [actSaveConfig, args, taken_cfg, configured, idle, Bool.not_true, Bool.false_eq_true, if_false, Option.isSome_none]

/-! ## The end of a save -/

/-- The row of the end of a save goes by whether one runs, and whether the bytes it names exist. -/
theorem exec_saveComplete (s : State) (answered : Bool) (faults : List (Nat × Byte)) : exec (.saveComplete answered faults) s =
    match s.cfg.saving with
    | none => .next s
    | some bytes => if faultsInside faults then .next (s.endSave bytes answered faults).flush else .fault .memoryOutside := rfl

theorem faultsInside_iff (faults : List (Nat × Byte)) : faultsInside faults = true ↔ ∀ f ∈ faults, f.1 < 8192 := by
  rw [faultsInside, List.all_eq_true]
  exact forall₂_congr fun f _ => decide_eq_true_iff

/-- Settles O48: the row is the end of the save that runs, where the bytes it names exist. -/
theorem saveComplete : Obligations.SaveComplete := by
  intro s answered faults
  refine ⟨fun idle => ?_, fun bytes saving => ⟨fun ⟨f, named, outside⟩ => ?_, fun inside => ?_⟩⟩
  · rw [exec_saveComplete, idle]
  · have out : faultsInside faults = false := by
      rw [← Bool.not_eq_true, faultsInside_iff]
      exact fun inside => absurd (inside f named) (by omega)
    simp only [exec_saveComplete, saving, out, Bool.false_eq_true, if_false]
  · have inside := (faultsInside_iff faults).mpr inside
    refine ⟨(s.endSave bytes answered faults).flush, ?_, fun d => ?_, rfl, rfl, rfl⟩
    · simp only [exec_saveComplete, saving, inside, if_true]
    · rw [flush_link, linkFlush_attn]
      exact raised_raise _ _ d

/-! ## ACK_HALL_SAFE -/

section
variable {s : State} {d : Desk}

theorem actAckHallSafe_not_configured (absent : s.cfg.configured = false) : actAckHallSafe d [] s = s.refuse .notConfigured := by
  simp [actAckHallSafe, args, absent]

variable (configured : s.cfg.configured = true)
include configured

theorem actAckHallSafe_safe (safe : s.hall.state = .safe) : actAckHallSafe d [] s = s.refuse .hallSafe := by
  simp [actAckHallSafe, args, configured, safe]

theorem actAckHallSafe_normal (normal : s.hall.state = .normal) : actAckHallSafe d [] s = s.tell [] := by
  simp [actAckHallSafe, args, configured, normal]

theorem actAckHallSafe_early (wait : s.hall.state = .restoredWait) (running : s.hall.closed.isRunning = true) (other : d ≠ .dl3) :
    actAckHallSafe d [] s = s.refuse .notPermitted := by
  simp [actAckHallSafe, args, configured, wait, running, other]

theorem actAckHallSafe_taken (wait : s.hall.state = .restoredWait) (ripe : s.hall.closed.isRunning = false ∨ d = .dl3) :
    actAckHallSafe d [] s = s.answer .done [] s.enterNormal := by
  have ripe : (d == .dl3 || !s.hall.closed.isRunning) = true := by simpa using ripe.symm
  simp only [actAckHallSafe, args, configured, wait, ripe, Bool.not_true, Bool.false_eq_true, if_false, if_true]

end

/-- Entry into NORMAL changes the hall state, and of everything else nothing but what blocks do. -/
theorem enterNormal_calm (s : State) : Calm ((s.modHall fun h => { h with state := .normal }).raise .hall) s.enterNormal :=
  calm_notifyAll _ _ (calm_slewResumeAll _ (Calm.refl _))

/-- While a configuration is open drives are not permitted, and no slew drives (R10, R77). -/
theorem not_driving_of_open {u : State} (opened : u.isOpen = true) : u.drivesPermitted = false ∧ u.drivesAllowed = false := by
  simp [State.drivesPermitted, State.drivesAllowed, opened]

/-- Settles O36, by the hall state; while a configuration is open drives stay not permitted whatever the hall state. -/
theorem ackHallSafe : Obligations.AckHallSafe := by
  intro s d tag serves c
  refine ⟨fun absent => only_answered_of_refuse rfl serves (actAckHallSafe_not_configured (s := s.taken d tag 0x2E) absent),
    fun configured => ⟨fun safe => ?_, fun wait running other => ?_, fun wait ripe => ⟨(s.taken d tag 0x2E).enterNormal, ?_, ?_, ?_, fun opened => ?_⟩, fun normal => ?_⟩⟩
  · exact only_answered_of_refuse rfl serves (actAckHallSafe_safe (s := s.taken d tag 0x2E) configured safe)
  · exact only_answered_of_refuse rfl serves (actAckHallSafe_early (s := s.taken d tag 0x2E) configured wait running other)
  · exact runs_of_act rfl serves (actAckHallSafe_taken (s := s.taken d tag 0x2E) configured wait ripe)
      (links_of_calm _ ((calm_raise _ .hall (Calm.refl _)).trans (enterNormal_calm _)) rfl)
  · exact raised_of_calm (enterNormal_calm _) (raised_raise _ _)
  · exact (enterNormal_calm _).kept
  · exact not_driving_of_open ((gates_of_kept (enterNormal_calm (s.taken d tag 0x2E)).kept).2.2.1.trans opened)
  · exact sets_of_act rfl serves (actAckHallSafe_normal (s := s.taken d tag 0x2E) configured normal)

end Sys2Proof.Machine
end

