-- ==== Sys2Proof/Proofs/Routes.lean ====
section
/-! SUPPORT. What the matrix and route controllers leave: no other block's records, no confirmed position, and of a task its
destination, its origin, its switches and that it has entered MOVING. -/

namespace Sys2Proof.Machine

/-- A task later on: its destination, origin, switches and affected transmitters stay, and past the wait for RF it does not go back. -/
structure TaskKept (t t' : Task) : Prop where
  dest : t'.dest = t.dest
  origin : t'.origin = t.origin
  switches : t'.set.map SwMark.sw = t.set.map SwMark.sw
  affected : t'.affected = t.affected
  past : t.waitsRf = false → t'.waitsRf = false

/-- The task records later on: none comes and none goes. -/
def TasksKept (a b : State) : Prop :=
  ∀ n : Tx, (a.tasks[n] = none → b.tasks[n] = none) ∧
    ∀ t : Task, a.tasks[n] = some t → ∃ t' : Task, b.tasks[n] = some t' ∧ TaskKept t t'

/-- What the matrix controller and the route controller leave. -/
structure Routes (a b : State) : Prop where
  outside : { b with mx := a.mx, tasks := a.tasks, notices := a.notices, links := a.links, sent := a.sent, choices := a.choices } = a
  confirmed : ∀ w : Sw, (b.sw w).confirmed = (a.sw w).confirmed
  gates : b.mx.supplyHold = a.mx.supplyHold ∧ b.mx.supplyHeld = a.mx.supplyHeld ∧ b.mx.permitted = a.mx.permitted ∧
    b.mx.reportWindow = a.mx.reportWindow
  tasks : TasksKept a b
  notices : a.notices <+: b.notices

theorem TaskKept.refl (t : Task) : TaskKept t t := ⟨rfl, rfl, rfl, rfl, id⟩

theorem TaskKept.trans {t u v : Task} (h : TaskKept t u) (k : TaskKept u v) : TaskKept t v :=
  ⟨k.dest.trans h.dest, k.origin.trans h.origin, k.switches.trans h.switches, k.affected.trans h.affected, k.past ∘ h.past⟩

theorem TasksKept.of_eq {a b : State} (h : b.tasks = a.tasks) : TasksKept a b := fun n =>
  ⟨fun e => by rw [h, e], fun t e => ⟨t, by rw [h, e], TaskKept.refl t⟩⟩

theorem TasksKept.trans {a b c : State} (h : TasksKept a b) (k : TasksKept b c) : TasksKept a c := fun n =>
  ⟨fun e => (k n).1 ((h n).1 e), fun t e => by
    obtain ⟨u, hu, first⟩ := (h n).2 t e
    obtain ⟨v, hv, second⟩ := (k n).2 u hu
    exact ⟨v, hv, first.trans second⟩⟩

theorem Routes.refl (a : State) : Routes a a :=
  ⟨rfl, fun _ => rfl, ⟨rfl, rfl, rfl, rfl⟩, TasksKept.of_eq rfl, List.prefix_refl _⟩

theorem Routes.trans {a b c : State} (h : Routes a b) (k : Routes b c) : Routes a c where
  outside := by
    calc { c with mx := a.mx, tasks := a.tasks, notices := a.notices, links := a.links, sent := a.sent, choices := a.choices }
        = { ({ c with mx := b.mx, tasks := b.tasks, notices := b.notices, links := b.links, sent := b.sent, choices := b.choices } : State) with mx := a.mx, tasks := a.tasks, notices := a.notices, links := a.links, sent := a.sent, choices := a.choices } := rfl
      _ = { b with mx := a.mx, tasks := a.tasks, notices := a.notices, links := a.links, sent := a.sent, choices := a.choices } := by rw [k.outside]
      _ = a := h.outside
  confirmed w := (k.confirmed w).trans (h.confirmed w)
  gates := by
    obtain ⟨h1, h2, h3, h4⟩ := h.gates
    obtain ⟨k1, k2, k3, k4⟩ := k.gates
    exact ⟨k1.trans h1, k2.trans h2, k3.trans h3, k4.trans h4⟩
  tasks := h.tasks.trans k.tasks
  notices := h.notices.trans k.notices

section
variable {a b : State} (h : Routes a b)
include h

theorem Routes.pending : b.pending = a.pending := (congrArg State.pending h.outside :)
theorem Routes.timebase : b.timebase = a.timebase := (congrArg State.timebase h.outside :)
theorem Routes.cfg : b.cfg = a.cfg := (congrArg State.cfg h.outside :)
theorem Routes.permit : b.permit = a.permit := (congrArg State.permit h.outside :)
theorem Routes.rot : b.rot = a.rot := (congrArg State.rot h.outside :)
theorem Routes.slew : b.slew = a.slew := (congrArg State.slew h.outside :)
theorem Routes.tx : b.tx = a.tx := (congrArg State.tx h.outside :)
theorem Routes.faultMark : b.faultMark = a.faultMark := (congrArg State.faultMark h.outside :)
theorem Routes.enabled : b.enabled = a.enabled := (congrArg State.enabled h.outside :)
theorem Routes.season : b.season = a.season := (congrArg State.season h.outside :)
theorem Routes.run : b.run = a.run := (congrArg State.run h.outside :)
theorem Routes.clock : b.clock = a.clock := (congrArg State.clock h.outside :)
theorem Routes.locks : b.locks = a.locks := (congrArg State.locks h.outside :)
theorem Routes.hall : b.hall = a.hall := (congrArg State.hall h.outside :)

end

/-! ## The operations, each as one that goes on -/

/-- Only reports, safety list and arrival numbers of the matrix, notices, links and outputs differ. -/
theorem routes_of {a b : State}
    (outside : { b with mx := a.mx, tasks := a.tasks, notices := a.notices, links := a.links, sent := a.sent, choices := a.choices } = a)
    (mx : b.mx = { a.mx with reports := b.mx.reports, safety := b.mx.safety, nextArrival := b.mx.nextArrival })
    (tasks : b.tasks = a.tasks) (notices : a.notices <+: b.notices) : Routes a b := by
  have sw (w : Sw) : b.sw w = a.sw w := by
    rw [State.sw, mx]
    cases w <;> rfl
  exact ⟨outside, fun w => by rw [sw], by rw [mx]; exact ⟨rfl, rfl, rfl, rfl⟩, TasksKept.of_eq tasks, notices⟩

theorem routes_notifyAll {z : State} (s : State) (x : List Notice) (h : Routes z s) : Routes z (s.notifyAll x) :=
  h.trans (routes_of rfl rfl rfl (List.prefix_append _ _))

theorem routes_notify {z : State} (s : State) (x : Notice) (h : Routes z s) : Routes z (s.notify x) :=
  h.trans (routes_of rfl rfl rfl (List.prefix_append _ _))

theorem routes_report {z : State} (s : State) (x : MxReport) (h : Routes z s) : Routes z (s.report x) :=
  h.trans (routes_of rfl rfl rfl (List.prefix_refl _))

theorem routes_leaveSafety {z : State} (s : State) (w : Sw) (h : Routes z s) : Routes z (s.leaveSafety w) :=
  h.trans (routes_of rfl rfl rfl (List.prefix_refl _))

theorem routes_arrival {z : State} (s : State) (n : Nat) (h : Routes z s) : Routes z { s with mx := { s.mx with nextArrival := n } } :=
  h.trans (routes_of rfl rfl rfl (List.prefix_refl _))

theorem routes_raise {z : State} (s : State) (a : Attn) (h : Routes z s) : Routes z (s.raise a) :=
  h.trans (routes_of rfl rfl rfl (List.prefix_refl _))

theorem routes_send {z : State} (s : State) (o : Output) (h : Routes z s) : Routes z (s.send o) :=
  h.trans (routes_of rfl rfl rfl (List.prefix_refl _))

theorem routes_choose {z : State} (s : State) (n : Nat) (h : Routes z s) : Routes z (s.choose n).2 := by
  refine h.trans ?_
  unfold State.choose
  split
  · exact Routes.refl s
  · exact routes_of rfl rfl rfl (List.prefix_refl _)

theorem routes_setSw {z : State} (s : State) (w : Sw) (r : SwRec) (hr : r.confirmed = (s.sw w).confirmed) (h : Routes z s) :
    Routes z (s.setSw w r) := by
  refine h.trans ⟨rfl, fun v => ?_, by cases w <;> exact ⟨rfl, rfl, rfl, rfl⟩, TasksKept.of_eq rfl, List.prefix_refl _⟩
  by_cases e : v = w
  · rw [e, setSw_same, hr]
  · rw [setSw_other s w v r e]

/-- A task record replaced by a later one of the same task. -/
theorem routes_setTask {z : State} (s : State) (n : Tx) {t t' : Task} (old : s.tasks[n] = some t) (same : TaskKept t t')
    (h : Routes z s) : Routes z (s.setTask n (some t')) := by
  refine h.trans ⟨rfl, fun _ => rfl, ⟨rfl, rfl, rfl, rfl⟩, fun m => ?_, List.prefix_refl _⟩
  by_cases e : m = n
  · subst e
    rw [setTask_same]
    exact ⟨fun none => (Option.some_ne_none _ (old.symm.trans none)).elim,
      fun u hu => ⟨t', rfl, by obtain rfl := Option.some.inj (old.symm.trans hu); exact same⟩⟩
  · rw [setTask_other s n m _ e]
    exact ⟨id, fun u hu => ⟨u, hu, TaskKept.refl u⟩⟩

theorem switches_setMark (t : Task) (w : Sw) (k : Mark) : (t.setMark w k).set.map SwMark.sw = t.set.map SwMark.sw := by
  rw [Task.setMark, List.map_map]
  refine List.map_congr_left fun x _ => ?_
  dsimp only [Function.comp]
  split <;> rfl

theorem taskKept_setMark (t : Task) (w : Sw) (k : Mark) : TaskKept t (t.setMark w k) := ⟨rfl, rfl, switches_setMark t w k, rfl, id⟩

theorem routes_endTask {z : State} (s : State) (n : Tx) (failure : Option TaskFail) (byReplacement ownCancel : Bool) (h : Routes z s) :
    Routes z (s.endTask n failure byReplacement ownCancel) := by
  unfold State.endTask
  split
  · exact h
  · next t old =>
    refine routes_notifyAll _ _ (routes_raise _ _ (routes_setTask s n old ⟨rfl, rfl, rfl, rfl, fun _ => ?_⟩ h))
    cases failure <;> rfl

theorem routes_forAll {z : State} {α : Type} (xs : List α) (f : α → State → State) (hf : ∀ x s, Routes z s → Routes z (f x s))
    (s : State) (h : Routes z s) : Routes z (forAll xs f s) := by
  induction xs generalizing s with
  | nil => exact h
  | cons x xs ih => exact ih (f x s) (hf x s h)

theorem routes_arrangeAux {z : State} {α : Type} (n : Nat) (xs : List α) (s : State) (h : Routes z s) :
    Routes z (State.arrangeAux n xs s).2 := by
  induction n generalizing xs s with
  | zero => exact h
  | succ n ih =>
    cases xs with
    | nil => exact h
    | cons x xs => exact ih _ _ (routes_choose s _ h)

theorem routes_arrange {z : State} {α : Type} (s : State) (xs : List α) (h : Routes z s) : Routes z (s.arrange xs).2 :=
  routes_arrangeAux _ _ _ h

theorem routes_swComplete {z : State} (s : State) (w : Sw) (h : Routes z s) : Routes z (s.swComplete w) :=
  routes_report _ _ (routes_setSw s w _ rfl h)

theorem routes_grant {z : State} (s : State) (w : Sw) (h : Routes z s) : Routes z (s.grant w) :=
  routes_report _ _ (routes_send _ _ (routes_setSw s w _ rfl h))

theorem routes_grantLoop {z : State} (fuel : Nat) (s : State) (h : Routes z s) : Routes z (State.grantLoop fuel s) := by
  induction fuel generalizing s with
  | zero => exact h
  | succ n ih =>
    unfold State.grantLoop
    split
    · split
      · exact h
      · exact ih _ (routes_grant s _ h)
    · exact h

theorem routes_commandOne {z : State} (s : State) (w : Sw) (p : Pos) (h : Routes z s) : Routes z (s.commandOne w p) := by
  unfold State.commandOne
  dsimp only
  have left : Routes z (if (s.sw w).commanded == p then s else s.leaveSafety w) := by
    split
    · exact h
    · exact routes_leaveSafety s w h
  have same : (if (s.sw w).commanded == p then s else s.leaveSafety w).sw w = s.sw w := by split <;> rfl
  have set := routes_setSw _ w { s.sw w with commanded := p } (by rw [same]) left
  split
  · exact routes_swComplete _ w set
  · exact set

theorem routes_command {z : State} (s : State) (ws : List (Sw × Pos)) (h : Routes z s) : Routes z (s.command ws).2 := by
  unfold State.command
  have each (ws : List (Sw × Pos)) : Routes z (ws.foldl (fun s x => s.commandOne x.1 x.2) s) :=
    routes_forAll ws (fun x s => s.commandOne x.1 x.2) (fun x s h => routes_commandOne s x.1 x.2 h) s h
  grind

theorem routes_grants {z : State} (s : State) (h : Routes z s) : Routes z (s.grants) := by
  grind [State.grants, routes_grantLoop]

theorem routes_eq_command {z : State} (s : State) (ws : List (Sw × Pos)) (a : Status) (t : State) (h : Routes z s) (e : s.command ws = (a, t)) :
    Routes z t := by
  have := routes_command s ws h
  rwa [e] at this

theorem routes_joinQueue {z : State} (s : State) (w : Sw) (c : MoveClass) (h : Routes z s) : Routes z (s.joinQueue w c) := by
  unfold State.joinQueue
  dsimp only
  split
  · exact routes_swComplete s w h
  · exact routes_arrival _ _ (routes_setSw s w _ rfl h)

theorem routes_admitCore {z : State} (s : State) (w : Sw) (c : MoveClass) (retry : Bool) (h : Routes z s) :
    Routes z (s.admitCore w c retry).2 := by
  grind [State.admitCore, routes_joinQueue, routes_setSw]

theorem routes_eq_admitCore {z : State} (s : State) (w : Sw) (c : MoveClass) (retry : Bool) (a : Status) (t : State) (h : Routes z s) (e : s.admitCore w c retry = (a, t)) :
    Routes z t := by
  have := routes_admitCore s w c retry h
  rwa [e] at this

theorem routes_admit {z : State} (s : State) (w : Sw) (c : MoveClass) (retry : Bool) (h : Routes z s) :
    Routes z (s.admitMove w c retry).2 := by
  grind [State.admitMove, routes_admitCore, routes_eq_admitCore, routes_grants, routes_leaveSafety]

theorem routes_eq_admit {z : State} (s : State) (w : Sw) (c : MoveClass) (retry : Bool) (a : Status) (t : State) (h : Routes z s) (e : s.admitMove w c retry = (a, t)) :
    Routes z t := by
  have := routes_admit s w c retry h
  rwa [e] at this

theorem routes_withdrawToEarth {z : State} (s : State) (w : Sw) (h : Routes z s) : Routes z (s.withdrawToEarth w) := by
  grind [State.withdrawToEarth, routes_admitCore, routes_eq_admitCore, routes_grants, routes_setSw]

theorem routes_withdraw {z : State} (s : State) (w : Sw) (rest : List Sw) (h : Routes z s) : Routes z (s.withdraw w rest).2 := by
  grind [State.withdraw, routes_setSw, routes_swComplete, routes_withdrawToEarth]

theorem routes_withdrawAll {z : State} (ws : List Sw) (s : State) (h : Routes z s) : Routes z (State.withdrawAll ws s) := by
  induction ws generalizing s with
  | nil => exact h
  | cons w rest ih => exact ih _ (routes_withdraw s w rest h)

theorem routes_withdrawSet {z : State} (s : State) (t : Task) (h : Routes z s) : Routes z (s.withdrawSet t) :=
  routes_withdrawAll _ s h

theorem routes_failAndWithdraw {z : State} (s : State) (n : Tx) (f : TaskFail) (ownCancel : Bool) (h : Routes z s) :
    Routes z (s.failAndWithdraw n f ownCancel) := by
  grind [State.failAndWithdraw, routes_endTask, routes_withdrawSet]

theorem routes_taskTake {z : State} (s : State) (r : MxReport) (n : Tx) (h : Routes z s) : Routes z (s.taskTake r n) := by
  unfold State.taskTake
  split
  · exact h
  · next t old =>
    have marked (w : Sw) (k : Mark) : Routes z (s.setTask n (some (t.setMark w k))) :=
      routes_setTask s n old (taskKept_setMark t w k) h
    have started (w : Sw) : Routes z (s.setTask n (some { t.setMark w .granted with started := true })) :=
      routes_setTask s n old ⟨rfl, rfl, switches_setMark t w .granted, rfl, id⟩ h
    cases r <;> dsimp only <;> grind [routes_endTask, routes_failAndWithdraw]

theorem routes_absorb {z : State} (fuel : Nat) (s : State) (h : Routes z s) : Routes z (State.absorb fuel s) := by
  induction fuel generalizing s with
  | zero => exact h
  | succ n ih =>
    unfold State.absorb
    split
    · exact h
    · next r rest _ =>
      refine ih _ (routes_forAll _ _ (fun n s h => routes_taskTake s r n h) _ (routes_arrange _ _ ?_))
      exact h.trans (routes_of rfl rfl rfl (List.prefix_refl _))

theorem routes_absorbAll {z : State} (s : State) (h : Routes z s) : Routes z (s.absorbAll) := by
  grind [State.absorbAll, routes_absorb]

/-- A task past the wait for RF replaced by what it was made of, where the controllers have acted in between. -/
theorem routes_setTask_after {z : State} {s s1 : State} {n : Tx} {t t' : Task} (old : s.tasks[n] = some t) (between : Routes s s1)
    (same : TaskKept t t') (past : t'.waitsRf = false) (h : Routes z s) : Routes z (s1.setTask n (some t')) := by
  obtain ⟨t1, now, kept⟩ := (between.tasks n).2 t old
  exact routes_setTask s1 n now ⟨same.dest.trans kept.dest.symm, same.origin.trans kept.origin.symm,
    same.switches.trans kept.switches.symm, same.affected.trans kept.affected.symm, fun _ => past⟩ (h.trans between)

theorem routes_admitFor {z : State} (s : State) (n : Tx) (w : Sw) (h : Routes z s) : Routes z (s.admitFor n w) := by
  unfold State.admitFor
  split
  · exact h
  · next t old =>
    refine iteInduction (motive := Routes z) (fun moving => ?_) (fun _ => h)
    have past (k : Mark) : (t.setMark w k).waitsRf = false := by
      have moving : t.state = .moving := beq_iff_eq.mp moving
      simp only [Task.waitsRf, Task.setMark, moving]
      rfl
    have admitted := routes_admit s w t.origin.moveClass t.origin.retry (Routes.refl s)
    split
    · next s1 e =>
      rw [e] at admitted
      exact routes_absorbAll _ (routes_setTask_after old admitted (taskKept_setMark t w _) (past _) h)
    · next s1 e =>
      rw [e] at admitted
      exact routes_endTask _ n _ _ _ (routes_setTask_after old admitted (taskKept_setMark t w _) (past _) h)
    · next s1 _ _ e =>
      rw [e] at admitted
      exact h.trans admitted

theorem routes_enterMoving {z : State} (s : State) (n : Tx) (h : Routes z s) : Routes z (s.enterMoving n) := by
  unfold State.enterMoving
  split
  · exact h
  · next t old =>
    exact routes_forAll _ _ (fun w s h => routes_admitFor s n w h) _ (routes_setTask s n old ⟨rfl, rfl, rfl, rfl, fun _ => rfl⟩ h)

theorem routes_looseEarth {z : State} (s : State) (src : RouteSource) (m : Ant) (h : Routes z s) :
    Routes z (s.looseEarth src m).2 := by
  grind [State.looseEarth, routes_absorbAll, routes_admit, routes_eq_admit]

theorem routes_eq_looseEarth {z : State} (s : State) (src : RouteSource) (m : Ant) (a : Status) (t : State) (h : Routes z s) (e : s.looseEarth src m = (a, t)) :
    Routes z t := by
  have := routes_looseEarth s src m h
  rwa [e] at this

theorem routes_routeHallSafe {z : State} (s : State) (h : Routes z s) : Routes z (s.routeHallSafe) := by
  refine routes_absorbAll _ (routes_forAll _ _ (fun u s h => ?_) _ h)
  grind [routes_failAndWithdraw]

theorem routes_routeLocked {z : State} (s : State) (g : Target) (h : Routes z s) : Routes z (s.routeLocked g) := by
  refine routes_absorbAll _ (routes_forAll _ _ (fun u s h => ?_) _ h)
  grind [routes_failAndWithdraw]

theorem routes_routeLeft {z : State} (s : State) (w : Sw) (h : Routes z s) : Routes z (s.routeLeft w) := by
  unfold State.routeLeft
  dsimp only
  exact routes_absorbAll _ (routes_forAll _ _ (fun n s h => routes_admitFor s n w h) _ (routes_arrange _ _ h))

theorem routes_cancelTask {z : State} (s : State) (n : Tx) (o : RouteOrigin) (h : Routes z s) : Routes z (s.cancelTask n o).2 := by
  grind [State.cancelTask, routes_absorbAll, routes_failAndWithdraw]

theorem routes_eq_cancelTask {z : State} (s : State) (n : Tx) (o : RouteOrigin) (a : Status) (t : State) (h : Routes z s) (e : s.cancelTask n o = (a, t)) :
    Routes z t := by
  have := routes_cancelTask s n o h
  rwa [e] at this

end Sys2Proof.Machine
end

