-- ==== Sys2Proof/Proofs/RunRecords.lean ====
section
/-! SUPPORT. The ends of orders, and what a run record takes back and leaves as it is closed. -/

namespace Sys2Proof.Machine

/-! ## The end of an order -/

@[simp] theorem followLast_order (r : TxRec) : r.followLast.order = r.order := by
  unfold TxRec.followLast
  split
  · next c _ => cases c <;> rfl
  · rfl

@[simp] theorem followLast_lastEnd (r : TxRec) : r.followLast.lastEnd = r.lastEnd := by
  unfold TxRec.followLast
  split
  · next c _ => cases c <;> rfl
  · rfl

section
variable (s : State) (n : Tx)

theorem endOrder_none (f : Option OrderFail) (h : (s.tx[n]).order = none) : s.endOrder n f = s := by
  simp only [State.endOrder, h]

theorem failOrder_none (f : OrderFail) (h : (s.tx[n]).order = none) : s.failOrder n f = s := by
  simp only [State.failOrder, endOrder_none s n _ h, TxRec.hasTune, h, Bool.false_eq_true, if_false]

/-- A standing order that ends is recorded. -/
theorem endOrder_tx {o : Order} (f : Option OrderFail) (h : (s.tx[n]).order = some o) :
    (s.endOrder n f).tx = s.tx.set n { s.tx[n] with order := none, lastEnd := some ⟨o.kind, o.origin, f⟩ } := by
  simp only [State.endOrder, h]
  cases o.origin <;> rfl

/-- A standing order that fails is recorded, and behind a TUNE order the record follows its last reported condition (R97). -/
theorem failOrder_tx {o : Order} (f : OrderFail) (h : (s.tx[n]).order = some o) :
    (s.failOrder n f).tx[n] =
      if (s.tx[n]).hasTune then
        TxRec.followLast { s.tx[n] with order := none, lastEnd := some ⟨o.kind, o.origin, some f⟩ }
      else { s.tx[n] with order := none, lastEnd := some ⟨o.kind, o.origin, some f⟩ } := by
  unfold State.failOrder
  dsimp only
  split
  · simp only [modTx_tx, endOrder_tx s n _ h, getElem_set_fin, if_true]
  · simp only [endOrder_tx s n _ h, getElem_set_fin, if_true]

theorem failOrder_other (f : OrderFail) {m : Tx} (other : m ≠ n) : (s.failOrder n f).tx[m] = s.tx[m] := by
  cases h : (s.tx[n]).order with
  | none => rw [failOrder_none s n f h]
  | some o =>
    unfold State.failOrder
    dsimp only
    split
    · simp only [modTx_tx, endOrder_tx s n _ h, getElem_set_fin, if_neg other]
    · simp only [endOrder_tx s n _ h, getElem_set_fin, if_neg other]

/-- No order stands behind one that has failed. -/
theorem failOrder_order (f : OrderFail) : ((s.failOrder n f).tx[n]).order = none := by
  cases h : (s.tx[n]).order with
  | none => rwa [failOrder_none s n f h]
  | some o =>
    rw [failOrder_tx s n f h]
    split
    · exact followLast_order _
    · rfl

theorem failOrder_lastEnd {o : Order} (f : OrderFail) (h : (s.tx[n]).order = some o) :
    ((s.failOrder n f).tx[n]).lastEnd = some ⟨o.kind, o.origin, some f⟩ := by
  rw [failOrder_tx s n f h]
  split
  · exact followLast_lastEnd _
  · rfl

/-- An order of an origin that is to fail has failed, and any other stands. -/
theorem failHand_of {o : Order} (is : Origin → Bool) (h : (s.tx[n]).order = some o) :
    s.failHand n is = if is o.origin then s.failOrder n .hand else s := by
  simp only [State.failHand, h]

end

/-! ## What a record takes back -/

/-- What the taking back of a record's requests leaves: orders may fail, tasks and slews be cancelled, and nothing else changes. -/
structure TakesBack (a b : State) : Prop where
  outside : { b with mx := a.mx, tasks := a.tasks, notices := a.notices, links := a.links, sent := a.sent, choices := a.choices, slew := a.slew, tx := a.tx } = a
  orders : ∀ n : Tx, (a.tx[n]).order = none → b.tx[n] = a.tx[n]
  records : ∀ n : Tx, (b.tx[n]).kept = (a.tx[n]).kept
  confirmed : ∀ w : Sw, (b.sw w).confirmed = (a.sw w).confirmed

theorem TakesBack.trans {a b c : State} (h : TakesBack a b) (k : TakesBack b c) : TakesBack a c where
  outside := by
    calc { c with mx := a.mx, tasks := a.tasks, notices := a.notices, links := a.links, sent := a.sent, choices := a.choices, slew := a.slew, tx := a.tx }
        = { ({ c with mx := b.mx, tasks := b.tasks, notices := b.notices, links := b.links, sent := b.sent, choices := b.choices, slew := b.slew, tx := b.tx } : State) with mx := a.mx, tasks := a.tasks, notices := a.notices, links := a.links, sent := a.sent, choices := a.choices, slew := a.slew, tx := a.tx } := rfl
      _ = { b with mx := a.mx, tasks := a.tasks, notices := a.notices, links := a.links, sent := a.sent, choices := a.choices, slew := a.slew, tx := a.tx } := by rw [k.outside]
      _ = a := h.outside
  orders n none := by
    have same := h.orders n none
    rw [k.orders n (by rw [same, none]), same]
  records n := (k.records n).trans (h.records n)
  confirmed w := (k.confirmed w).trans (h.confirmed w)

theorem TakesBack.refl (a : State) : TakesBack a a := ⟨rfl, fun _ _ => rfl, fun _ => rfl, fun _ => rfl⟩

theorem Routes.takesBack {a b : State} (h : Routes a b) : TakesBack a b where
  outside := by
    have tx := h.tx
    have slew := h.slew
    have outside := h.outside
    rw [← tx, ← slew]
    exact outside
  orders n _ := by simp only [h.tx]
  records n := by simp only [h.tx]
  confirmed := h.confirmed

/-- An end of an order writes its record, and tells its origin. -/
theorem endOrder_cases (s : State) (n : Tx) (f : Option OrderFail) : s.endOrder n f = s ∨
    ∃ g : TxRec → TxRec, (∃ x : Notice, s.endOrder n f = (s.modTx n g).notify x) ∨ s.endOrder n f = (s.modTx n g).raise .transmitter := by
  unfold State.endOrder
  split
  · exact .inl rfl
  · next o _ =>
    cases o.origin with
    | schedule run => exact .inr ⟨_, .inl ⟨_, rfl⟩⟩
    | desk d => exact .inr ⟨_, .inr rfl⟩

theorem takesBack_failOrder (s : State) (n : Tx) (f : OrderFail) : TakesBack s (s.failOrder n f) where
  outside := by
    unfold State.failOrder
    obtain e | ⟨g, ⟨x, e⟩ | e⟩ := endOrder_cases s n (some f) <;> rw [e] <;> dsimp only <;> split <;> rfl
  orders m none := by
    by_cases e : m = n
    · subst e
      rw [failOrder_none s m f none]
    · rw [failOrder_other s n f e]
  records m := by
    have kept := congrArg Kept.tx (calm_failOrder s n f (Calm.refl s)).kept
    simpa [State.kept] using congrArg (fun v : Vector KeptTx 8 => v[m]) kept
  confirmed w := by
    unfold State.failOrder
    obtain e | ⟨g, ⟨x, e⟩ | e⟩ := endOrder_cases s n (some f) <;> rw [e] <;> dsimp only <;> split <;> rfl

theorem takesBack_cancelOrder (s : State) (n : Tx) (run : Nat) : TakesBack s (s.cancelOrder n run) := by
  unfold State.cancelOrder
  split
  · split
    · exact takesBack_failOrder s n _
    · exact TakesBack.refl s
  · exact TakesBack.refl s

theorem takesBack_slewWithdraw (s : State) (run : Nat) : TakesBack s (s.slewWithdraw run) := by
  unfold State.slewWithdraw
  generalize allRot = ks
  induction ks generalizing s with
  | nil => exact TakesBack.refl s
  | cons k ks ih =>
    refine TakesBack.trans ?_ (ih _)
    dsimp only
    split
    · exact ⟨rfl, fun _ _ => rfl, fun _ => rfl, fun _ => rfl⟩
    · exact TakesBack.refl s

theorem takesBack_takeBack (s : State) (r : RunRec) : TakesBack s (s.takeBack r) := by
  unfold State.takeBack
  dsimp only
  have route : TakesBack s (if r.route == .inProgress then (s.cancelTask r.tx (.schedule r.num)).2 else s) := by
    split
    · exact (routes_cancelTask s _ _ (Routes.refl s)).takesBack
    · exact TakesBack.refl s
  revert route
  generalize (if r.route == .inProgress then (s.cancelTask r.tx (.schedule r.num)).2 else s) = a
  intro route
  have tune : TakesBack s (if r.tune == .inProgress then a.cancelOrder r.tx r.num else a) := by
    split
    · exact route.trans (takesBack_cancelOrder a _ _)
    · exact route
  revert tune
  generalize (if r.tune == .inProgress then a.cancelOrder r.tx r.num else a) = b
  intro tune
  split
  · exact tune.trans (takesBack_slewWithdraw b _)
  · exact tune

section
variable {a b : State} (h : TakesBack a b)
include h

theorem TakesBack.cfg : b.cfg = a.cfg := (congrArg State.cfg h.outside :)
theorem TakesBack.permit : b.permit = a.permit := (congrArg State.permit h.outside :)
theorem TakesBack.rot : b.rot = a.rot := (congrArg State.rot h.outside :)
theorem TakesBack.run : b.run = a.run := (congrArg State.run h.outside :)
theorem TakesBack.hall : b.hall = a.hall := (congrArg State.hall h.outside :)
theorem TakesBack.locks : b.locks = a.locks := (congrArg State.locks h.outside :)
theorem TakesBack.faultMark : b.faultMark = a.faultMark := (congrArg State.faultMark h.outside :)
theorem TakesBack.enabled : b.enabled = a.enabled := (congrArg State.enabled h.outside :)

end

/-! ## A record closed -/

@[simp] theorem permitSync_tx (s : State) : s.permitSync.tx = s.tx := rfl
@[simp] theorem permitSync_run (s : State) : s.permitSync.run = s.run := rfl
@[simp] theorem permitSync_hall (s : State) : s.permitSync.hall = s.hall := rfl
@[simp] theorem permitSync_mx (s : State) : s.permitSync.mx = s.mx := rfl
@[simp] theorem permitSync_links (s : State) : s.permitSync.links = s.links := rfl

theorem writeOutcome_tx (s : State) (r : RunRec) (st : RunState) (reason : Option RunReason) (now : Nat) :
    (s.writeOutcome r st reason now).tx = s.tx := rfl

section
variable (s : State) (n : Tx) (k : Slot) (r : RunRec) (st : RunState) (reason : Option RunReason) (now : Nat)

/-- A slot is left as the record in it goes; the rest is told, not changed. -/
theorem leaveSlot_run : (s.leaveSlot n k now).run = (s.setSlot n k none).run := by
  unfold State.leaveSlot
  dsimp only
  split <;> rfl

theorem leaveSlot_tx : (s.leaveSlot n k now).tx = s.tx := by
  unfold State.leaveSlot
  cases k <;> rfl

/-- A closed record leaves its slot and is written to the outcome list, with its mark (R133, R134). -/
theorem closeRun_run : (s.closeRun n k r st reason now).run = ((s.setSlot n k none).writeOutcome r st reason now).run := by
  have back := (takesBack_takeBack (s.leaveSlot n k now) r).trans (takesBack_slewWithdraw _ r.num)
  have run := back.run.trans (leaveSlot_run s n k now)
  simp only [State.closeRun, State.writeOutcome, permitSync_run, raise_run, run]

/-- The transmitter records after a record is closed: where no order stood nothing has changed. -/
theorem closeRun_tx {m : Tx} (h : (s.tx[m]).order = none) : (s.closeRun n k r st reason now).tx[m] = s.tx[m] := by
  have back := (takesBack_takeBack (s.leaveSlot n k now) r).trans (takesBack_slewWithdraw _ r.num)
  have same := back.orders m (by simpa only [leaveSlot_tx] using h)
  simp only [leaveSlot_tx] at same
  simp only [State.closeRun, permitSync_tx, writeOutcome_tx, same]

end

/-! ## The slots after a record is closed -/

section
variable (s : State) (n : Tx) (r : RunRec) (st : RunState) (reason : Option RunReason) (now : Nat)

theorem closeRun_cur_cur (m : Tx) : (s.closeRun n .cur r st reason now).run.cur[m] = if m = n then none else s.run.cur[m] := by
  simp only [closeRun_run, State.writeOutcome, raise_run, State.setSlot, getElem_set_fin]

theorem closeRun_cur_nxt : (s.closeRun n .cur r st reason now).run.nxt = s.run.nxt := by
  simp only [closeRun_run, State.writeOutcome, raise_run, State.setSlot]

theorem closeRun_nxt_nxt (m : Tx) : (s.closeRun n .nxt r st reason now).run.nxt[m] = if m = n then none else s.run.nxt[m] := by
  simp only [closeRun_run, State.writeOutcome, raise_run, State.setSlot, getElem_set_fin]

theorem closeRun_nxt_cur : (s.closeRun n .nxt r st reason now).run.cur = s.run.cur := by
  simp only [closeRun_run, State.writeOutcome, raise_run, State.setSlot]

/-- A record dropped from NEXT leaves that slot empty and CURRENT as it was (R149). -/
theorem dropRun_nxt (why : RunReason) : (s.dropRun n .nxt why now).run.nxt[n] = none ∧ (s.dropRun n .nxt why now).run.cur = s.run.cur := by
  unfold State.dropRun
  split
  · next empty => exact ⟨empty, rfl⟩
  · refine iteInduction (motive := fun u : State => u.run.nxt[n] = none ∧ u.run.cur = s.run.cur) (fun _ => ?_) fun _ => ?_
    · simp [leaveSlot_run, State.setSlot]
    · refine iteInduction (motive := fun u : State => u.run.nxt[n] = none ∧ u.run.cur = s.run.cur) (fun _ => ?_) fun _ => ?_
      · exact ⟨by rw [State.endRun, closeRun_nxt_nxt, if_pos rfl], closeRun_nxt_cur ..⟩
      · exact ⟨by rw [State.missRun, closeRun_nxt_nxt, if_pos rfl], closeRun_nxt_cur ..⟩

/-- The transmitter records after a record is dropped: where no order stood nothing has changed. -/
theorem dropRun_tx (k : Slot) (why : RunReason) {m : Tx} (h : (s.tx[m]).order = none) : (s.dropRun n k why now).tx[m] = s.tx[m] := by
  unfold State.dropRun
  split
  · rfl
  · refine iteInduction (motive := fun u : State => u.tx[m] = s.tx[m]) (fun _ => ?_) fun _ => ?_
    · simp only [leaveSlot_tx]
    · exact iteInduction (motive := fun u : State => u.tx[m] = s.tx[m]) (fun _ => closeRun_tx _ _ _ _ _ _ _ h)
        fun _ => closeRun_tx _ _ _ _ _ _ _ h

/-- Hand empties both slots of the run scheduler (R148). -/
theorem handRun_slots : (s.handRun n now).run.cur[n] = none ∧ (s.handRun n now).run.nxt[n] = none := by
  unfold State.handRun
  dsimp only
  split
  · next r _ =>
    obtain ⟨nxt, cur⟩ := dropRun_nxt (s.closeRun n .cur r .aborted (some .hand) now) n now .hand
    exact ⟨by simp only [cur, closeRun_cur_cur, if_true], nxt⟩
  · next empty =>
    obtain ⟨nxt, cur⟩ := dropRun_nxt s n now .hand
    exact ⟨by simpa only [cur] using empty, nxt⟩

theorem handRun_tx {m : Tx} (h : (s.tx[m]).order = none) : (s.handRun n now).tx[m] = s.tx[m] := by
  unfold State.handRun
  dsimp only
  split
  · next r _ =>
    have same := closeRun_tx s n .cur r .aborted (some .hand) now h
    rw [dropRun_tx _ _ _ _ _ (by rw [same]; exact h), same]
  · exact dropRun_tx s n now _ _ h

end

end Sys2Proof.Machine
end

