-- ==== Sys2Proof/Proofs/HandCommands.lean ====
section
/-! PROOF. TAKE_HAND, RETURN_HAND, CLEAR_TRIP and SET_ENABLED_BANDS (R106, R174, R175, R191). -/

namespace Sys2Proof.Machine

/-- A transmitter record changed in a field that only commands change. -/
theorem modTx_kept_of (s : State) (n : Tx) {f : TxRec → TxRec} {k : KeptTx} (h : (f s.tx[n]).kept = k) :
    (s.modTx n f).kept = { s.kept with tx := s.kept.tx.set n k } := by
  subst h
  simp only [State.kept, modTx_tx, Vector.map_set, modTx_pending, modTx_timebase, modTx_cfg, modTx_clock, modTx_hall, modTx_rot,
    modTx_enabled, modTx_faultMark, modTx_season, modTx_locks, modTx_mx]

theorem kept_tx_get (s : State) (n : Tx) : s.kept.tx[n] = (s.tx[n]).kept := by simp [State.kept]

/-- The holder written, and nothing else that only commands change. -/
theorem setHolder_kept (s : State) (n : Tx) (d : Option Desk) :
    (s.setHolder n d).kept = { s.kept with tx := s.kept.tx.set n { s.kept.tx[n] with holder := d } } := by
  refine modTx_kept_of s n ?_
  rw [kept_tx_get]
  rfl

@[simp] theorem setHolder_same (s : State) (n : Tx) (d : Option Desk) : (s.setHolder n d).tx[n] = { s.tx[n] with holder := d } :=
  modTx_same s n _

/-! ## TAKE_HAND -/

section
variable (s : State) (n : Tx) (d : Desk)

theorem actTakeHand_not_configured (h : s.cfg.txOk n = false) : actTakeHand d (txArg n) s = s.refuse .notConfigured := by
  simp only [actTakeHand, args_tx, txOf_txNumber, h, Bool.not_false, if_true]

section
variable (ok : s.cfg.txOk n = true)
include ok

theorem actTakeHand_own (h : (s.tx[n]).holder = some d) : actTakeHand d (txArg n) s = s.tell [] := by
  simp only [actTakeHand, args_tx, txOf_txNumber, ok, h, Bool.not_true, Bool.false_eq_true, if_false, beq_self_eq_true, if_true]

theorem actTakeHand_held {e : Desk} (h : (s.tx[n]).holder = some e) (other : e ≠ d) (lower : d ≠ .dl3) :
    actTakeHand d (txArg n) s = s.refuse .heldByOther := by
  simp only [actTakeHand, args_tx, txOf_txNumber, ok, h, Bool.not_true, Bool.false_eq_true, if_false, beq_eq_false_iff_ne.mpr other,
    beq_eq_false_iff_ne.mpr lower]

theorem actTakeHand_free (h : (s.tx[n]).holder = none) : actTakeHand d (txArg n) s = s.answer .done [] (s.takeFree n d) := by
  simp only [actTakeHand, args_tx, txOf_txNumber, ok, h, Bool.not_true, Bool.false_eq_true, if_false]

theorem actTakeHand_over {e : Desk} (h : (s.tx[n]).holder = some e) (other : e ≠ d) (upper : d = .dl3) :
    actTakeHand d (txArg n) s = s.answer .done [] (s.takeOver n d e) := by
  have dl3 : (d == .dl3) = true := beq_iff_eq.mpr upper
  simp only [actTakeHand, args_tx, txOf_txNumber, ok, h, Bool.not_true, Bool.false_eq_true, if_false, beq_eq_false_iff_ne.mpr other,
    dl3, if_true]

end

/-- A taking of hand behind the holder written. -/
theorem takeFree_calm : Calm (s.setHolder n (some d)) (s.takeFree n d) :=
  calm_raise _ _ (calm_handRun _ n _ (calm_failHand _ n _ (Calm.refl _)))

theorem takeOver_calm (e : Desk) : Calm (s.setHolder n (some d)) (s.takeOver n d e) :=
  calm_raise _ _ (calm_failHand _ n _ (Calm.refl _))

/-- From an absent holder an order of the schedule has ended (R174). -/
theorem takeFree_order {o : Order} (h : (s.tx[n]).order = some o) (schedule : o.origin.isSchedule = true) :
    ((s.takeFree n d).tx[n]).order = none := by
  have stands : ((s.setHolder n (some d)).tx[n]).order = some o := by rw [setHolder_same]; exact h
  have ended : (((s.setHolder n (some d)).failHand n Origin.isSchedule).tx[n]).order = none := by
    rw [failHand_of _ n _ stands, if_pos schedule]
    exact failOrder_order _ n _
  simp only [State.takeFree, raise_tx, handRun_tx _ n _ ended, ended]

/-- At a takeover an order of the previous holder has ended (R174). -/
theorem takeOver_order {o : Order} {e : Desk} (h : (s.tx[n]).order = some o) (origin : o.origin = .desk e) :
    ((s.takeOver n d e).tx[n]).order = none := by
  have stands : ((s.setHolder n (some d)).tx[n]).order = some o := by rw [setHolder_same]; exact h
  have ended : (((s.setHolder n (some d)).failHand n fun o => o == .desk e).tx[n]).order = none := by
    rw [failHand_of _ n _ stands, origin, if_pos (beq_self_eq_true _)]
    exact failOrder_order _ n _
  simp only [State.takeOver, raise_tx, ended]

variable {s n d}

/-- In hand newly taken the transmitter has OFF requested, and OFF as its output (R45, R49). -/
theorem off_in_new_hand {z t : State} (z_permit : z.permit = s.permit)
    (hand : HandKept z.permit[n] t.permit[n] d) (before : PermitsCurrent s) (other : (s.tx[n]).holder ≠ some d)
    (after : PermitsCurrent t) (holder : (t.tx[n]).holder = some d) :
    (t.permit[n]).requester = .hand d ∧ (t.permit[n]).requested = .off ∧ (t.permit[n]).output = .off := by
  have was : (s.permit[n]).requester ≠ .hand d := by
    rw [before n]
    show s.requesterOf n ≠ _
    unfold State.requesterOf
    split
    · next e he => exact fun same => other (by injection same with same; rw [he, same])
    · split <;> nofun
    · nofun
  have requester : (t.permit[n]).requester = .hand d := by
    rw [after n]
    exact requesterOf_hand holder
  have requested : (t.permit[n]).requested = .off := by
    simp only [z_permit] at hand
    obtain ⟨same, -⟩ | ⟨-, level⟩ := hand
    · exact absurd (same.symm.trans requester) was
    · rw [level, if_neg was]
  refine ⟨requester, requested, ?_⟩
  by_contra on
  have within := (output_bounds (after n) on).1
  rw [requested] at within
  revert on within
  cases (t.permit[n]).output <;> decide

end

/-- A taking of hand that the act makes of the holder written is followed in hand, with OFF requested. -/
theorem takeHand_runs {s u : State} {n : Tx} {d : Desk} {tag : Byte} (serves : Serves s d)
    (calm : Calm ((s.taken d tag 0x20).setHolder n (some d)) u)
    (act : actTakeHand d (txArg n) (s.taken d tag 0x20) = (s.taken d tag 0x20).answer .done [] u) (other : (s.tx[n]).holder ≠ some d) :
    CommandRuns (.takeHand d tag (txArg n)) s d tag 0x20 .done [] u ∧
      u.kept = { s.kept with tx := s.kept.tx.set n { s.kept.tx[n] with holder := some d } } ∧
      (PermitsCurrent s → ∀ t, exec (.takeHand d tag (txArg n)) s = .next t →
        (t.permit[n]).requester = .hand d ∧ (t.permit[n]).requested = .off ∧ (t.permit[n]).output = .off) := by
  have runs : CommandRuns (.takeHand d tag (txArg n)) s d tag 0x20 .done [] u :=
    runs_of_act rfl serves act (links_of_calm _ calm rfl)
  have kept := calm.kept.trans (setHolder_kept _ n (some d))
  refine ⟨runs, kept, fun current t ht => ?_⟩
  obtain ⟨t', ht', -, follows, -⟩ := runs
  obtain rfl : t' = t := by simpa [ht'] using ht
  have holder (v : State) (hv : v.kept = u.kept) : (v.tx[n]).holder = some d := by
    have same := kept_tx_get v n
    simp only [hv, kept, getElem_set_fin, if_true] at same
    exact (congrArg KeptTx.holder same).symm
  exact off_in_new_hand (s := s) (z := (s.taken d tag 0x20).setHolder n (some d)) rfl
    ((calm.hand n d (congrArg TxRec.holder (setHolder_same _ n _))).trans (follows.hand n d (holder u rfl))) current other follows.permits
    (holder _ follows.kept)

/-- Settles O23, by the holder; what follows keeps OFF requested in a hand newly taken. -/
theorem takeHand : Obligations.TakeHand := by
  intro s d tag n serves c
  refine ⟨fun absent => only_answered_of_refuse rfl serves (actTakeHand_not_configured (s.taken d tag 0x20) n d absent), fun ok =>
    ⟨fun own => sets_of_act rfl serves (actTakeHand_own (s.taken d tag 0x20) n d ok own),
      fun e held other lower => only_answered_of_refuse rfl serves (actTakeHand_held (s.taken d tag 0x20) n d ok held other lower), ?_⟩⟩
  rintro (free | ⟨e, held, other, upper⟩)
  · obtain ⟨runs, kept, off⟩ := takeHand_runs serves (takeFree_calm (s.taken d tag 0x20) n d)
      (actTakeHand_free (s.taken d tag 0x20) n d ok free) (by rw [free]; nofun)
    refine ⟨_, runs, raised_raise _ _, kept, fun _ => handRun_slots _ n _, fun o stands origin => ?_, off⟩
    obtain ⟨-, schedule⟩ | ⟨e, held, -⟩ := origin
    · exact takeFree_order (s.taken d tag 0x20) n d stands schedule
    · rw [free] at held
      cases held
  · obtain ⟨runs, kept, off⟩ := takeHand_runs serves (takeOver_calm (s.taken d tag 0x20) n d e)
      (actTakeHand_over (s.taken d tag 0x20) n d ok held other upper) (by rw [held]; exact fun same => other (Option.some.inj same))
    refine ⟨_, runs, raised_raise _ _, kept, fun free => ?_, fun o stands origin => ?_, off⟩
    · rw [held] at free
      cases free
    · obtain ⟨free, -⟩ | ⟨e', held', origin⟩ := origin
      · rw [held] at free
        cases free
      · obtain rfl := Option.some.inj (held.symm.trans held')
        exact takeOver_order (s.taken d tag 0x20) n d stands origin

/-! ## RETURN_HAND -/

section
variable (s : State) (n : Tx) (d : Desk)

theorem actReturnHand_not_configured (h : s.cfg.txOk n = false) : actReturnHand d (txArg n) s = s.refuse .notConfigured := by
  simp only [actReturnHand, args_tx, txOf_txNumber, h, Bool.not_false, if_true]

section
variable (ok : s.cfg.txOk n = true)
include ok

theorem actReturnHand_none (h : (s.tx[n]).holder = none) : actReturnHand d (txArg n) s = s.refuse .notInHand := by
  simp only [actReturnHand, args_tx, txOf_txNumber, ok, h, Bool.not_true, Bool.false_eq_true, if_false]

theorem actReturnHand_held {e : Desk} (h : (s.tx[n]).holder = some e) (other : e ≠ d) (lower : d ≠ .dl3) :
    actReturnHand d (txArg n) s = s.refuse .heldByOther := by
  simp only [actReturnHand, args_tx, txOf_txNumber, ok, h, Bool.not_true, Bool.false_eq_true, if_false, beq_eq_false_iff_ne.mpr other,
    beq_eq_false_iff_ne.mpr lower, Bool.or_self]

theorem actReturnHand_taken {e : Desk} (h : (s.tx[n]).holder = some e) (may : e = d ∨ d = .dl3) :
    actReturnHand d (txArg n) s = s.answer .done [] (s.giveBack n e) := by
  have may : (e == d || d == .dl3) = true := by simpa using may
  simp only [actReturnHand, args_tx, txOf_txNumber, ok, h, Bool.not_true, Bool.false_eq_true, if_false, may, if_true]

end

theorem giveBack_calm : Calm (s.setHolder n none) (s.giveBack n d) := calm_raise _ _ (calm_failHand _ n _ (Calm.refl _))

/-- The standing order of the holder's origin has failed HAND, and one of another origin stands (R175). -/
theorem giveBack_order {o : Order} (h : (s.tx[n]).order = some o) :
    (o.origin = .desk d →
      ((s.giveBack n d).tx[n]).order = none ∧ ((s.giveBack n d).tx[n]).lastEnd = some ⟨o.kind, .desk d, some .hand⟩) ∧
    (o.origin ≠ .desk d → ((s.giveBack n d).tx[n]).order = some o) := by
  have stands : ((s.setHolder n none).tx[n]).order = some o := by rw [setHolder_same]; exact h
  refine ⟨fun origin => ?_, fun origin => ?_⟩
  · have failed : (s.setHolder n none).failHand n (fun o => o == .desk d) = (s.setHolder n none).failOrder n .hand := by
      rw [failHand_of _ n _ stands, origin, if_pos (beq_self_eq_true _)]
    simp only [State.giveBack, raise_tx, failed]
    exact ⟨failOrder_order _ n _, by rw [failOrder_lastEnd _ n _ stands, origin]⟩
  · have same : (s.setHolder n none).failHand n (fun o => o == .desk d) = s.setHolder n none := by
      rw [failHand_of _ n _ stands, if_neg (by simpa using origin)]
    simp only [State.giveBack, raise_tx, same, stands]

end

/-- Settles O24, by the holder and the sender. -/
theorem returnHand : Obligations.ReturnHand := by
  intro s d tag n serves c
  refine ⟨fun absent => only_answered_of_refuse rfl serves (actReturnHand_not_configured (s.taken d tag 0x21) n d absent), fun ok =>
    ⟨fun free => only_answered_of_refuse rfl serves (actReturnHand_none (s.taken d tag 0x21) n d ok free),
      fun e held other lower => only_answered_of_refuse rfl serves (actReturnHand_held (s.taken d tag 0x21) n d ok held other lower),
      fun e held may => ?_⟩⟩
  have calm := giveBack_calm (s.taken d tag 0x21) n e
  exact ⟨_, runs_of_act rfl serves (actReturnHand_taken (s.taken d tag 0x21) n d ok held may) (links_of_calm _ calm rfl),
    raised_raise _ _, calm.kept.trans (setHolder_kept _ n none), fun o stands => giveBack_order (s.taken d tag 0x21) n e stands⟩

/-! ## CLEAR_TRIP -/

section
variable (s : State) (n : Tx) (d : Desk)

/-- The model's checks are the table of R106, in its order. -/
theorem clearRefusal_eq_table : s.clearRefusal d n = firstOf
    [(!s.cfg.txOk n, .notConfigured),
     ((s.tx[n]).holder != none && (s.tx[n]).holder != some d, .notPermitted),
     ((s.tx[n]).state == .recycle && (s.tx[n]).recycleTimer != .idle, .notPermitted)] := by
  have held : ((s.tx[n]).holder != none) = (s.tx[n]).holder.isSome := by cases (s.tx[n]).holder <;> rfl
  simp only [firstOf_cons, firstOf_nil, held]
  rfl

theorem actClearTrip_out_of_range {a : Byte} (h : ¬(1 ≤ a.toNat ∧ a.toNat ≤ 8)) : actClearTrip d [a] s = s.refuse .badArgument := by
  simp only [actClearTrip, args_byte, txOf_eq_none h]

theorem actClearTrip_refused {e : Status} (h : s.clearRefusal d n = some e) : actClearTrip d (txArg n) s = s.refuse e := by
  simp only [actClearTrip, args_tx, txOf_txNumber, h]

theorem actClearTrip_taken (h : s.clearRefusal d n = none) :
    actClearTrip d (txArg n) s = s.answer .done [] (s.clearTrip n) := by
  simp only [actClearTrip, args_tx, txOf_txNumber, h]

theorem clearTrip_of_tripped (h : (s.tx[n]).state = .tripped) : s.clearTrip n =
    (s.modTx n fun r => { r with history := [], clearPending := true }).modForces n fun f => { f with trip := false } := by
  rw [State.clearTrip, h, if_pos (beq_self_eq_true _)]

theorem clearTrip_of_other (h : (s.tx[n]).state ≠ .tripped) : s.clearTrip n = s.modTx n fun r => { r with history := [] } := by
  rw [State.clearTrip, if_neg (by simpa using h)]

/-- Of what only commands change, CLEAR_TRIP empties the trip history and changes nothing else. -/
theorem clearTrip_kept : (s.clearTrip n).kept = { s.kept with tx := s.kept.tx.set n { s.kept.tx[n] with history := [] } } := by
  by_cases h : (s.tx[n]).state = .tripped
  · rw [clearTrip_of_tripped s n h]
    refine (calm_modForces _ n _ (Calm.refl _)).kept.trans (modTx_kept_of s n ?_)
    rw [kept_tx_get]
    rfl
  · rw [clearTrip_of_other s n h]
    refine modTx_kept_of s n ?_
    rw [kept_tx_get]
    rfl

theorem clearTrip_links (e : Desk) : LinkCalm (s.link e) ((s.clearTrip n).link e) := by
  unfold State.clearTrip
  split <;> exact LinkCalm.refl _

end

/-- Settles O26: the refusals are the model's own checks; the force TRIP of a TRIPPED record is lifted. -/
theorem clearTrip : Obligations.ClearTrip := by
  intro s d tag serves
  refine ⟨fun a out => only_answered_of_refuse rfl serves (actClearTrip_out_of_range _ d out), fun n => ?_⟩
  dsimp only
  rw [← clearRefusal_eq_table s n d]
  refine ⟨fun e refused => only_answered_of_refuse rfl serves (actClearTrip_refused (s.taken d tag 0x29) n d refused), fun none =>
    ⟨_, runs_of_act rfl serves (actClearTrip_taken (s.taken d tag 0x29) n d none) (clearTrip_links _ n), clearTrip_kept _ n,
      fun tripped => ?_, fun other => ?_⟩⟩
  · rw [clearTrip_of_tripped (s.taken d tag 0x29) n tripped]
    refine ⟨?_, ?_⟩
    · simp [State.modForces]
    · simp [State.modForces]
  · rw [clearTrip_of_other (s.taken d tag 0x29) n other]
    exact ⟨modTx_same _ n _, rfl⟩

/-! ## SET_ENABLED_BANDS -/

section
variable (s : State) (m : Ant) (mask : Word16)

theorem args_antMask : args [1, 2] (antArg m ++ bytes2 mask) = some [m.val + 1, mask.toNat] := by
  have word : bytes2 mask = wordArg mask.toNat := by rw [wordArg, BitVec.ofNat_toNat, BitVec.setWidth_eq]
  rw [word, antArg, args_num_append (by omega), args_word mask.isLt]
  rfl

theorem actSetEnabledBands_out_of_range {a : Byte} (h : ¬(1 ≤ a.toNat ∧ a.toNat ≤ 24)) :
    actSetEnabledBands (a :: bytes2 mask) s = s.refuse .badArgument := by
  have word : bytes2 mask = wordArg mask.toNat := by rw [wordArg, BitVec.ofNat_toNat, BitVec.setWidth_eq]
  rw [word, actSetEnabledBands, args_byte_word a mask.isLt]
  simp only [antOf_eq_none h]

theorem actSetEnabledBands_not_configured (h : s.cfg.antOk m = false) :
    actSetEnabledBands (antArg m ++ bytes2 mask) s = s.refuse .notConfigured := by
  simp only [actSetEnabledBands, args_antMask, antOf_antNumber, h, Bool.not_false, if_true]

theorem actSetEnabledBands_taken (h : s.cfg.antOk m = true) : actSetEnabledBands (antArg m ++ bytes2 mask) s =
    s.answer (if mask &&& s.cfg.active.supported[m] = mask then .done else .doneClamped) (bytes2 (mask &&& s.cfg.active.supported[m]))
      { s with enabled := s.enabled.set m (mask &&& s.cfg.active.supported[m]) } := by
  simp only [actSetEnabledBands, args_antMask, antOf_antNumber, h, Bool.not_true, Bool.false_eq_true, if_false, BitVec.ofNat_toNat,
    BitVec.setWidth_eq, beq_iff_eq]

end

/-- Settles O28, by the three branches of the act. -/
theorem setEnabledBands : Obligations.SetEnabledBands := by
  intro s d tag mask serves
  refine ⟨fun a out => only_answered_of_refuse rfl serves (actSetEnabledBands_out_of_range _ mask out), fun m => ?_⟩
  intro c now
  exact ⟨fun absent => only_answered_of_refuse rfl serves (actSetEnabledBands_not_configured (s.taken d tag 0x2B) m mask absent),
    fun ok => ⟨_, runs_of_act rfl serves (actSetEnabledBands_taken (s.taken d tag 0x2B) m mask ok) fun _ => LinkCalm.refl _, rfl⟩⟩

end Sys2Proof.Machine
end

