-- ==== Sys2Proof/Proofs/LockoutCommands.lean ====
section
/-! PROOF. PLACE_LOCKOUT and RELEASE_LOCKOUT (R166 to R171). -/

namespace Sys2Proof.Machine

/-! ## A task started -/

/-- What the matrix and route controllers leave where a task may be started: all but matrix, tasks, notices, links and outputs, and every
confirmed position. -/
structure Moves (a b : State) : Prop where
  outside : { b with mx := a.mx, tasks := a.tasks, notices := a.notices, links := a.links, sent := a.sent, choices := a.choices } = a
  confirmed : ∀ w : Sw, (b.sw w).confirmed = (a.sw w).confirmed

theorem Moves.refl (a : State) : Moves a a := ⟨rfl, fun _ => rfl⟩

theorem Moves.trans {a b c : State} (h : Moves a b) (k : Moves b c) : Moves a c where
  outside := by
    calc { c with mx := a.mx, tasks := a.tasks, notices := a.notices, links := a.links, sent := a.sent, choices := a.choices }
        = { ({ c with mx := b.mx, tasks := b.tasks, notices := b.notices, links := b.links, sent := b.sent, choices := b.choices } : State) with mx := a.mx, tasks := a.tasks, notices := a.notices, links := a.links, sent := a.sent, choices := a.choices } := rfl
      _ = { b with mx := a.mx, tasks := a.tasks, notices := a.notices, links := a.links, sent := a.sent, choices := a.choices } := by rw [k.outside]
      _ = a := h.outside
  confirmed w := (k.confirmed w).trans (h.confirmed w)

theorem Routes.moves {a b : State} (h : Routes a b) : Moves a b := ⟨h.outside, h.confirmed⟩

theorem Moves.locks {a b : State} (h : Moves a b) : b.locks = a.locks := (congrArg State.locks h.outside :)
theorem Moves.tx {a b : State} (h : Moves a b) : b.tx = a.tx := (congrArg State.tx h.outside :)

theorem Moves.earthed {a b : State} (h : Moves a b) (m : Ant) : b.earthed m = a.earthed m := by
  have same : (b.mx.sel[m]).confirmed = (a.mx.sel[m]).confirmed := h.confirmed (.sel m)
  rw [State.earthed, State.earthed, same]

theorem moves_setTask (s : State) (n : Tx) (t : Option Task) : Moves s (s.setTask n t) := ⟨rfl, fun _ => rfl⟩

theorem moves_startTask (s : State) (src : RouteSource) (n : Tx) (dest : Dest) (earthed : Option Ant) :
    Moves s (s.startTask src n dest earthed) := by
  unfold State.startTask
  dsimp only
  have ended : Moves s (if s.taskRunning n then s.endTask n (some .cancelled) true false else s) := by
    split
    · exact (routes_endTask s n _ _ _ (Routes.refl s)).moves
    · exact Moves.refl s
  revert ended
  generalize (if s.taskRunning n then s.endTask n (some .cancelled) true false else s) = a
  generalize s.routeCommand n dest earthed = cmd
  intro ended
  have commanded : Moves s (if cmd.isEmpty then a else (a.command cmd).2) := by
    split
    · exact ended
    · exact ended.trans (routes_command a cmd (Routes.refl a)).moves
  revert commanded
  generalize (if cmd.isEmpty then a else (a.command cmd).2) = b
  intro commanded
  have absorbed := commanded.trans (routes_absorbAll b (Routes.refl b)).moves
  revert absorbed
  generalize b.absorbAll = c
  intro absorbed
  split
  · split
    · exact absorbed.trans ((moves_setTask c n _).trans (moves_setTask _ n _))
    · exact absorbed.trans (moves_setTask c n _)
  · exact absorbed.trans ((moves_setTask c n _).trans (routes_enterMoving _ n (Routes.refl _)).moves)

theorem moves_earthTask (s : State) (m : Ant) (n : Tx) : Moves s (s.earthTask m n).2 := by
  unfold State.earthTask
  split
  · exact Moves.refl s
  · exact moves_startTask s _ n _ _

/-! ## Arguments -/

theorem targetOf_ant (m : Ant) : targetOf 2 (m.val + 1) = some (.ant m) := by rw [targetOf, antOf_antNumber]; rfl

theorem targetOf_tx (n : Tx) : targetOf 1 (n.val + 1) = some (.tx n) := by rw [targetOf, txOf_txNumber]; rfl

theorem deskOf_number (e : Desk) : deskOf e.number = some e := by cases e <;> rfl

/-- The arguments of a target and a number of one byte are read back as the target and the number. -/
theorem args_targetNum (g : Target) {x : Nat} (h : x < 256) :
    ∃ kind num : Nat, args [1, 1, 1] (targetArg g ++ numArg x) = some [kind, num, x] ∧ targetOf kind num = some g := by
  cases g with
  | tx n =>
    refine ⟨1, n.val + 1, ?_, targetOf_tx n⟩
    rw [targetArg, List.append_assoc, args_num_append (by decide), txArg, args_num_append (by omega), args_num h]
    rfl
  | ant m =>
    refine ⟨2, m.val + 1, ?_, targetOf_ant m⟩
    rw [targetArg, List.append_assoc, args_num_append (by decide), antArg, args_num_append (by omega), args_num h]
    rfl

/-! ## PLACE_LOCKOUT -/

section
variable (s : State) (g : Target) (d : Desk)

theorem lockOf_isSome : (s.lockOf g d).isSome = s.locks.records.any fun r => r.target == g && r.desk == d := by
  rw [State.lockOf, Bool.eq_iff_iff, List.find?_isSome, List.any_eq_true]

/-- Behind the reason code stand the model's own checks, in their order (R167). -/
theorem lockRefusal_eq_table {reason : Nat} (reasoned : reason ≠ 0) : s.lockRefusal g d = firstOf
    [(reason == 0, .badArgument),
     (!s.cfg.targetOk g, .notConfigured),
     (!(s.locks.records.any fun r => r.target == g && r.desk == d) && decide (32 ≤ s.locks.records.length), .tableFull)] := by
  have zero : (reason == 0) = false := beq_eq_false_iff_ne.mpr reasoned
  have free : (s.lockOf g d).isNone = !(s.locks.records.any fun r => r.target == g && r.desk == d) := by
    rw [← lockOf_isSome]
    cases s.lockOf g d <;> rfl
  simp only [firstOf_cons, firstOf_nil, zero, Bool.false_eq_true, if_false, State.lockRefusal, free, ge_iff_le]

section
variable {reason : Nat} (small : reason < 256)
include small

theorem actPlaceLockout_no_reason (h : reason = 0) : actPlaceLockout d (targetArg g ++ numArg reason) s = s.refuse .badArgument := by
  obtain ⟨kind, num, read, target⟩ := args_targetNum g small
  have out : decide (1 ≤ reason ∧ reason ≤ 255) = false := decide_eq_false (by omega)
  simp only [actPlaceLockout, read, target, out]

theorem actPlaceLockout_of (h : reason ≠ 0) :
    actPlaceLockout d (targetArg g ++ numArg reason) s = s.answerOf (s.placeLock g d reason) := by
  obtain ⟨kind, num, read, target⟩ := args_targetNum g small
  have within : decide (1 ≤ reason ∧ reason ≤ 255) = true := decide_eq_true (by omega)
  simp only [actPlaceLockout, read, target, within]

end
end

/-- The lockout of a desk on a target stands, EFFECTIVE or not. -/
def LockStands (u : State) (g : Target) (d : Desk) (effective : Bool) : Prop :=
  ∃ r ∈ u.locks.records, r.target = g ∧ r.desk = d ∧ r.effective = effective

/-- A lockout that has the state judged keeps it. -/
theorem lockStands_setEffective {u : State} {g : Target} {d : Desk} {b : Bool} (h : LockStands u g d b) :
    LockStands (u.setEffective g b) g d b := by
  obtain ⟨r, mem, target, desk, effective⟩ := h
  unfold State.setEffective
  dsimp only
  split
  · refine ⟨if r.target == g then { r with effective := b } else r, List.mem_map_of_mem mem, ?_⟩
    rw [target, if_pos (beq_self_eq_true _)]
    exact ⟨rfl, desk, rfl⟩
  · exact ⟨r, mem, target, desk, effective⟩

/-- A new lockout on an antenna while its effects are made: it stands as the selector's position gives, with an earthing record. -/
structure Earthing (u : State) (m : Ant) (d : Desk) (safe : Bool) : Prop where
  stands : LockStands u (.ant m) d safe
  record : (u.locks.earth[m]).isSome = true
  position : u.earthed m = safe

section
variable {u v : State} {m : Ant} {d : Desk} {safe : Bool}

theorem earthing_of_same (locks : v.locks = u.locks) (position : v.earthed m = u.earthed m) (h : Earthing u m d safe) :
    Earthing v m d safe := by
  obtain ⟨stands, record, now⟩ := h
  exact ⟨by unfold LockStands; rw [locks]; exact stands, by simpa only [locks] using record, position.trans now⟩

theorem earthing_of_moves (moves : Moves u v) (h : Earthing u m d safe) : Earthing v m d safe :=
  earthing_of_same moves.locks (moves.earthed m) h

theorem earthing_setEarth (e : EarthRec) (h : Earthing u m d safe) : Earthing (u.setEarth m (some e)) m d safe := by
  refine ⟨h.stands, ?_, h.position⟩
  simp [State.setEarth]

theorem earthing_setEffective (h : Earthing u m d safe) : Earthing (u.setEffective (.ant m) safe) m d safe := by
  refine ⟨lockStands_setEffective h.stands, ?_, ?_⟩
  · have record := h.record
    unfold State.setEffective
    dsimp only
    split
    · exact record
    · exact record
  · have position := h.position
    unfold State.setEffective
    dsimp only
    split
    · exact position
    · exact position

theorem earthing_judgeAnt (h : Earthing u m d safe) : Earthing (u.judgeAnt m) m d safe := by
  have judged := earthing_setEffective h
  have position := h.position
  unfold State.judgeAnt
  split
  · exact h
  · next e _ =>
    split
    · next earthed =>
      obtain rfl : true = safe := earthed.symm.trans position
      exact earthing_setEarth _ judged
    · next bare =>
      obtain rfl : false = safe := (Bool.not_eq_true _ ▸ bare).symm.trans position
      dsimp only
      split
      · exact earthing_of_moves (routes_raise _ .lockout (Routes.refl _)).moves (earthing_setEarth _ judged)
      · exact judged

theorem earthing_askEarthTask (n : Tx) (h : Earthing u m d safe) : Earthing (u.askEarthTask m n) m d safe :=
  earthing_setEarth _ (earthing_of_moves (moves_earthTask u m n) h)

theorem earthing_routeLocked (h : Earthing u m d safe) : Earthing (u.routeLocked (.ant m)) m d safe :=
  earthing_of_moves (routes_routeLocked u _ (Routes.refl u)).moves h

theorem earthing_lockTaskAnt (n : Tx) (h : Earthing u m d safe) : Earthing (u.lockTaskAnt m n) m d safe := by
  unfold State.lockTaskAnt
  split
  · dsimp only
    have chosen := earthing_of_moves (routes_choose u 2 (Routes.refl u)).moves h
    split
    · exact earthing_routeLocked (earthing_askEarthTask n chosen)
    · exact earthing_askEarthTask n (earthing_routeLocked chosen)
  · exact earthing_routeLocked h

/-- The cancelling of an antenna's slew leaves the lockout table and the matrix. -/
theorem slewLocked_frame (u : State) (m : Ant) : (u.slewLocked m).locks = u.locks ∧ (u.slewLocked m).mx = u.mx := by
  unfold State.slewLocked State.slewReport
  repeat' split
  all_goals exact ⟨rfl, rfl⟩

theorem earthing_slewLocked (h : Earthing u m d safe) : Earthing (u.slewLocked m) m d safe := by
  obtain ⟨locks, mx⟩ := slewLocked_frame u m
  exact earthing_of_same locks (by rw [State.earthed, State.earthed, mx]) h

/-- A new lockout on an antenna leaves an earthing record, and stands as the selector's position gives. -/
theorem earthing_placeEffects (h : LockStands u (.ant m) d (u.earthed m)) :
    Earthing (u.placeEffects (.ant m)) m d (u.earthed m) := by
  have first : Earthing (u.setEarth m (some (earthPlaced u.locks.earth[m]))) m d (u.earthed m) :=
    ⟨h, by simp [State.setEarth], rfl⟩
  have slewed := earthing_slewLocked first
  unfold State.placeEffects
  dsimp only
  split
  · exact earthing_judgeAnt (earthing_lockTaskAnt _ slewed)
  · exact earthing_of_moves (routes_notify _ _ (Routes.refl _)).moves (earthing_judgeAnt slewed)

/-- A new lockout on a transmitter stands as RF there gives, and ends its standing order. -/
theorem placeEffects_tx (n : Tx) : (u.placeEffects (.tx n)).locks = u.locks ∧ ((u.placeEffects (.tx n)).tx[n]).order = none := by
  have locked := routes_routeLocked (u.txLocked n) (.tx n) (Routes.refl _)
  have failed : (u.txLocked n).locks = u.locks := (takesBack_failOrder u n .lockedOut).locks
  refine ⟨locked.locks.trans failed, ?_⟩
  have order := failOrder_order u n .lockedOut
  simp only [State.placeEffects, locked.tx]
  exact order

end

section
variable (s : State) (g : Target) (d : Desk) (reason : Nat)

/-- The table with a new lockout, before its effects. -/
def State.withLock : State :=
  (s.modLocks fun t => { t with records := t.records ++ [⟨g, d, reason, s.safeNow g, s.placedNow⟩] }).raise .lockout

theorem withLock_stands : LockStands (s.withLock g d reason) g d (s.safeNow g) :=
  ⟨⟨g, d, reason, s.safeNow g, s.placedNow⟩, List.mem_append_right _ (List.mem_singleton_self _), rfl, rfl, rfl⟩

theorem placeNew_eq : s.placeNew g d reason =
    (if s.safeNow g then .done else .accepted, ((s.withLock g d reason).placeEffects g).notify (.runLockout g)) := rfl

/-- What a new lockout leaves of its target. -/
theorem placeNew_target : LockStands (s.placeNew g d reason).2 g d (s.safeNow g) ∧
    (∀ n : Tx, g = .tx n → ((s.placeNew g d reason).2.tx[n]).order = none) ∧
    ∀ m : Ant, g = .ant m → ((s.placeNew g d reason).2.locks.earth[m]).isSome = true := by
  have stands := withLock_stands s g d reason
  rw [placeNew_eq]
  dsimp only
  cases g with
  | tx n =>
    obtain ⟨locks, order⟩ := placeEffects_tx (u := s.withLock (.tx n) d reason) n
    refine ⟨?_, fun j same => ?_, fun _ same => Target.noConfusion same⟩
    · unfold LockStands
      rw [notify_locks, locks]
      exact stands
    · obtain rfl := Target.tx.inj same
      simpa only [notify_tx] using order
  | ant m =>
    have earthing := earthing_placeEffects (u := s.withLock (.ant m) d reason) (d := d) stands
    obtain ⟨stands, record, -⟩ := earthing_of_moves (routes_notify _ (.runLockout (.ant m)) (Routes.refl _)).moves earthing
    refine ⟨stands, fun _ same => Target.noConfusion same, fun j same => ?_⟩
    obtain rfl := Target.ant.inj same
    exact record

theorem placeNew_calm : Calm (s.withLock g d reason) (s.placeNew g d reason).2 := by
  rw [placeNew_eq]
  exact calm_notify _ _ (calm_placeEffects _ g (Calm.refl _))

theorem withLock_kept : (s.withLock g d reason).kept =
    { s.kept with locks := s.kept.locks ++ [⟨g, d, reason, s.clock.now.map (fun t => (t.day * 1440 + t.minute, t.second))⟩] } := by
  simp only [State.withLock, State.kept, State.modLocks, raise_locks, List.map_append, List.map_cons, List.map_nil]
  rfl

/-- The table with the reason of a desk's own lockout updated. -/
def State.withReason : State :=
  (s.modLocks fun t =>
    { t with records := t.records.map fun r => if r.target == g && r.desk == d then { r with reason := reason } else r }).raise .lockout

theorem placeUpdate_fst : (s.placeUpdate g d reason).1 = .done := by
  unfold State.placeUpdate
  dsimp only
  repeat' split
  all_goals rfl

theorem placeUpdate_calm : Calm (s.withReason g d reason) (s.placeUpdate g d reason).2 := by
  have refl := Calm.refl (s.withReason g d reason)
  unfold State.placeUpdate
  dsimp only
  split
  · exact refl
  · split
    · split
      · exact calm_notify _ _ (calm_setEarth _ _ _ refl)
      · exact refl
    · exact refl

theorem withReason_kept : (s.withReason g d reason).kept =
    { s.kept with locks := s.kept.locks.map fun r => if r.target = g ∧ r.desk = d then { r with reason := reason } else r } := by
  have locks := keptLocks_update s.locks.records g d reason
  simp only [State.withReason, State.kept, State.modLocks, raise_locks, locks]
  rfl

end

/-- An act answered DONE or ACCEPTED runs to its end. -/
theorem answerOf_good (s : State) {a : Status} {u : State} (h : a.good = true) : s.answerOf (a, u) = s.answer a [] u := by
  simp only [State.answerOf, h, if_true]

theorem answerOf_bad (s : State) {a : Status} {u : State} (h : a.good = false) : s.answerOf (a, u) = s.refuse a := by
  simp only [State.answerOf, h, Bool.false_eq_true, if_false]

theorem lockRefusal_bad {s : State} {g : Target} {d : Desk} {e : Status} (h : s.lockRefusal g d = some e) : e.good = false := by
  unfold State.lockRefusal at h
  split at h
  · obtain rfl := Option.some.inj h; rfl
  · split at h
    · obtain rfl := Option.some.inj h; rfl
    · cases h

/-- Settles O34: the reason code and the model's checks are the table; a new lockout and an update are made by their own functions. -/
theorem placeLockout : Obligations.PlaceLockout := by
  intro s d tag g reason serves small c own safe refusal
  by_cases zero : reason = 0
  · have refused : refusal = some .badArgument := by simp only [refusal, zero, firstOf_cons, beq_self_eq_true, if_true]
    rw [refused]
    exact ⟨fun e same => by
      obtain rfl := Option.some.inj same
      exact only_answered_of_refuse rfl serves (actPlaceLockout_no_reason _ g d small zero), nofun, nofun⟩
  have table : refusal = s.lockRefusal g d := (lockRefusal_eq_table s g d zero).symm
  have act := actPlaceLockout_of (s.taken d tag 0x2C) g d small zero
  have ownSome : (s.lockOf g d).isSome = own := lockOf_isSome s g d
  rw [table]
  refine ⟨fun e refused => ?_, fun none fresh => ?_, fun none held => ?_⟩
  · refine only_answered_of_refuse rfl serves (act.trans ?_)
    have : (s.taken d tag 0x2C).lockRefusal g d = some e := refused
    simp only [State.placeLock, this]
    exact answerOf_bad _ (lockRefusal_bad refused)
  · have safeNow : s.safeNow g = safe := by cases g <;> rfl
    have placed : (s.taken d tag 0x2C).placeLock g d reason = (s.taken d tag 0x2C).placeNew g d reason := by
      have none : (s.taken d tag 0x2C).lockRefusal g d = .none := none
      have own : ((s.taken d tag 0x2C).lockOf g d).isSome = false := ownSome.trans fresh
      simp only [State.placeLock, none, own, Bool.false_eq_true, if_false]
    obtain ⟨stands, order, earth⟩ := placeNew_target (s.taken d tag 0x2C) g d reason
    have calm := placeNew_calm (s.taken d tag 0x2C) g d reason
    refine ⟨((s.taken d tag 0x2C).placeNew g d reason).2, runs_of_act rfl serves (act.trans ?_)
      (links_of_calm _ ((calm_raise _ .lockout (Calm.refl _)).trans calm) rfl),
      raised_of_calm calm (raised_raise _ _), calm.kept.trans (withLock_kept _ g d reason), ?_, order, earth⟩
    · rw [placed, placeNew_eq, ← safeNow]
      refine answerOf_good _ ?_
      split <;> rfl
    · rw [← safeNow]
      exact stands
  · have placed : (s.taken d tag 0x2C).placeLock g d reason = (s.taken d tag 0x2C).placeUpdate g d reason := by
      have none : (s.taken d tag 0x2C).lockRefusal g d = .none := none
      have own : ((s.taken d tag 0x2C).lockOf g d).isSome = true := ownSome.trans held
      simp only [State.placeLock, none, own, if_true]
    have calm := placeUpdate_calm (s.taken d tag 0x2C) g d reason
    refine ⟨((s.taken d tag 0x2C).placeUpdate g d reason).2, runs_of_act rfl serves (act.trans ?_)
      (links_of_calm _ ((calm_raise _ .lockout (Calm.refl _)).trans calm) rfl),
      raised_of_calm calm (raised_raise _ _), calm.kept.trans (withReason_kept _ g d reason)⟩
    have done : (s.taken d tag 0x2C).placeUpdate g d reason = (.done, ((s.taken d tag 0x2C).placeUpdate g d reason).2) :=
      Prod.ext (placeUpdate_fst _ g d reason) rfl
    rw [placed, done]
    exact answerOf_good _ rfl

/-! ## RELEASE_LOCKOUT -/

section
variable (s : State) (g : Target) (d e : Desk)

theorem actReleaseLockout_not_configured (h : s.cfg.configured = false) :
    actReleaseLockout d (targetArg g ++ numArg e.number) s = s.refuse .notConfigured := by
  obtain ⟨kind, num, read, target⟩ := args_targetNum g (show e.number < 256 by cases e <;> decide)
  simp only [actReleaseLockout, read, target, deskOf_number, h, Bool.not_false, if_true]

section
variable (configured : s.cfg.configured = true)
include configured

theorem actReleaseLockout_not_permitted (h : (d != .dl3 && e != d) = true) :
    actReleaseLockout d (targetArg g ++ numArg e.number) s = s.refuse .notPermitted := by
  obtain ⟨kind, num, read, target⟩ := args_targetNum g (show e.number < 256 by cases e <;> decide)
  simp only [actReleaseLockout, read, target, deskOf_number, configured, h, Bool.not_true, Bool.false_eq_true, if_false, if_true]

variable (may : (d != .dl3 && e != d) = false)
include may

theorem actReleaseLockout_none (h : (s.lockOf g e).isNone = true) :
    actReleaseLockout d (targetArg g ++ numArg e.number) s = s.tell [] := by
  obtain ⟨kind, num, read, target⟩ := args_targetNum g (show e.number < 256 by cases e <;> decide)
  simp only [actReleaseLockout, read, target, deskOf_number, configured, may, h, Bool.not_true, Bool.false_eq_true, if_false, if_true]

theorem actReleaseLockout_released (h : (s.lockOf g e).isNone = false) :
    actReleaseLockout d (targetArg g ++ numArg e.number) s = s.answer .done [] (s.releaseLock g e) := by
  obtain ⟨kind, num, read, target⟩ := args_targetNum g (show e.number < 256 by cases e <;> decide)
  simp only [actReleaseLockout, read, target, deskOf_number, configured, may, h, Bool.not_true, Bool.false_eq_true, if_false]

end

/-- The table without the lockout of a desk on a target. -/
def State.withoutLock : State :=
  (s.modLocks fun t => { t with records := t.records.filter fun r => !(r.target == g && r.desk == d) }).raise .lockout

theorem withoutLock_kept : (s.withoutLock g d).kept =
    { s.kept with locks := s.kept.locks.filter fun r => !(r.target == g && r.desk == d) } := by
  simp only [State.withoutLock, State.kept, State.modLocks, raise_locks, List.filter_map]
  rfl

theorem releaseLock_eq (h : (s.lockOf g d).isNone = false) : s.releaseLock g d = (s.withoutLock g d).dropEarth g := by
  simp only [State.releaseLock, h, Bool.false_eq_true, if_false]
  rfl

theorem dropEarth_calm : Calm s (s.dropEarth g) := by
  unfold State.dropEarth
  split
  · exact Calm.refl s
  · split
    · exact Calm.refl s
    · exact calm_setEarth s _ _ (Calm.refl s)

/-- The earthing record of an antenna goes with its last lockout (R166). -/
theorem dropEarth_earth (m : Ant) :
    ((s.dropEarth (.ant m)).locked (.ant m) = false → (s.dropEarth (.ant m)).locks.earth[m] = none) ∧
    ((s.dropEarth (.ant m)).locked (.ant m) = true → (s.dropEarth (.ant m)).locks.earth[m] = s.locks.earth[m]) := by
  by_cases locked : s.locked (.ant m) = true
  · rw [State.dropEarth, if_pos locked]
    exact ⟨fun free => absurd locked (by rw [free]; decide), fun _ => rfl⟩
  · rw [State.dropEarth, if_neg locked]
    exact ⟨fun _ => by simp [State.setEarth], fun still => absurd still locked⟩

end

/-- Settles O35, by the branches of the act. -/
theorem releaseLockout : Obligations.ReleaseLockout := by
  intro s d e tag g serves c stands refusal
  have held : ((s.taken d tag 0x2D).lockOf g e).isSome = stands := lockOf_isSome s g e
  have isNone : ((s.taken d tag 0x2D).lockOf g e).isNone = !stands := by
    rw [← held]
    cases (s.taken d tag 0x2D).lockOf g e <;> rfl
  by_cases absent : s.cfg.configured = false
  · have refused : refusal = some .notConfigured := by simp [refusal, absent]
    rw [refused]
    refine ⟨fun x same => ?_, nofun, nofun⟩
    obtain rfl := Option.some.inj same
    exact only_answered_of_refuse rfl serves (actReleaseLockout_not_configured (s.taken d tag 0x2D) g d e absent)
  have configured : s.cfg.configured = true := by simpa using absent
  by_cases other : (d != .dl3 && e != d) = true
  · have refused : refusal = some .notPermitted := by simp only [refusal, configured, other, firstOf_cons]; rfl
    rw [refused]
    refine ⟨fun x same => ?_, nofun, nofun⟩
    obtain rfl := Option.some.inj same
    exact only_answered_of_refuse rfl serves (actReleaseLockout_not_permitted (s.taken d tag 0x2D) g d e configured other)
  have may : (d != .dl3 && e != d) = false := by simpa using other
  have taken : refusal = none := by simp only [refusal, configured, may, firstOf_cons]; rfl
  rw [taken]
  refine ⟨nofun, fun _ free => ?_, fun _ present => ?_⟩
  · exact sets_of_act rfl serves (actReleaseLockout_none (s.taken d tag 0x2D) g d e configured may (by rw [isNone, free]; rfl))
  · have some_ : ((s.taken d tag 0x2D).lockOf g e).isNone = false := by rw [isNone, present]; rfl
    have act := actReleaseLockout_released (s.taken d tag 0x2D) g d e configured may some_
    rw [releaseLock_eq _ g e some_] at act
    have calm := dropEarth_calm ((s.taken d tag 0x2D).withoutLock g e) g
    refine ⟨_, runs_of_act rfl serves act (links_of_calm _ ((calm_raise _ .lockout (Calm.refl _)).trans calm) rfl),
      raised_of_calm calm (raised_raise _ _), calm.kept.trans (withoutLock_kept _ g e), fun m same => ?_⟩
    subst same
    exact dropEarth_earth ((s.taken d tag 0x2D).withoutLock (.ant m) e) m

end Sys2Proof.Machine
end

