-- ==== Sys2Proof/Proofs/SiteClock.lean ====
section
/-! PROOF. SET_CLOCK and the inputs of the site clock (R156 to R163): what a step, an advance and a comparison make of the clock, and
whom they tell. -/

namespace Sys2Proof.Machine

/-- The clock has become `k` and the notices `told` have been given; but for attention nothing else has changed. -/
structure Clocked (s u : State) (k : Clock) (told : List Notice) : Prop where
  outside : { u with clock := s.clock, notices := s.notices, links := s.links } = s
  clock : u.clock = k
  notices : u.notices = s.notices ++ told
  links : ∀ d : Desk, LinkCalm (s.link d) (u.link d)

section
variable {s u v : State} {k k' : Clock} {told told' : List Notice}

theorem Clocked.kept (h : Clocked s u k told) : u.kept = { s.kept with clock := k } := by
  have outside := congrArg State.kept h.outside
  rw [← h.clock, ← outside]
  rfl

theorem Clocked.trans (h : Clocked s u k told) (h' : Clocked u v k' told') : Clocked s v k' (told ++ told') where
  outside := by
    calc { v with clock := s.clock, notices := s.notices, links := s.links }
        = { ({ v with clock := u.clock, notices := u.notices, links := u.links } : State) with clock := s.clock, notices := s.notices, links := s.links } := rfl
      _ = { u with clock := s.clock, notices := s.notices, links := s.links } := by rw [h'.outside]
      _ = s := h.outside
  clock := h'.clock
  notices := by rw [h'.notices, h.notices, List.append_assoc]
  links d := (h.links d).trans (h'.links d)

/-- Attention that stands stays. -/
theorem Clocked.raised (h : Clocked s u k told) {a : Attn} (raised : s.raised a) : u.raised a := fun d => by
  calc (u.link d).attn &&& a.bit
      = (u.link d).attn &&& ((s.link d).attn &&& a.bit) := by rw [raised d]
    _ = ((s.link d).attn &&& (u.link d).attn) &&& a.bit := by rw [← BitVec.and_assoc, BitVec.and_comm (u.link d).attn]
    _ = a.bit := by rw [(h.links d).grows, raised d]

end

section
variable (s : State)

theorem clocked_modClock (f : Clock → Clock) : Clocked s (s.modClock f) (f s.clock) [] :=
  ⟨rfl, rfl, (List.append_nil _).symm, fun _ => LinkCalm.refl _⟩

theorem clocked_raise (a : Attn) : Clocked s (s.raise a) s.clock [] :=
  ⟨rfl, rfl, (List.append_nil _).symm, (calm_raise s a (Calm.refl s)).links⟩

theorem clocked_raiseIf (b : Bool) (a : Attn) : Clocked s (s.raiseIf b a) s.clock [] := by
  cases b
  · exact ⟨rfl, rfl, (List.append_nil _).symm, fun _ => LinkCalm.refl _⟩
  · exact clocked_raise s a

theorem clocked_notify (x : Notice) : Clocked s (s.notify x) s.clock [x] := ⟨rfl, rfl, rfl, fun _ => LinkCalm.refl _⟩

theorem minutesAfter_eq (a n : Nat) : minutesAfter a n = (List.range n).map fun i => a + 1 + i := by
  induction n with
  | zero => rfl
  | succ n ih =>
    rw [minutesAfter, ih, List.range_succ, List.map_append, List.map_singleton]
    congr 2
    omega

/-- Boundaries are told one after the other. -/
theorem clocked_boundaries (ms : List Nat) : Clocked s (forAll ms (fun m s => s.boundary m) s) s.clock (ms.map Notice.boundary) := by
  induction ms generalizing s with
  | nil => exact ⟨rfl, rfl, (List.append_nil _).symm, fun _ => LinkCalm.refl _⟩
  | cons m ms ih => exact (clocked_notify s (.boundary m)).trans (ih (s.boundary m))

/-- The boundaries that a step of the clock passes (R162). -/
def passedBy (kind : StepKind) (was is : Nat) : List Notice :=
  if kind = .smallForward then (List.range (is - was)).map fun i => .boundary (was + 1 + i) else []

/-- A step takes the clock to the new time, passes its boundaries and is told (R162). -/
theorem clocked_step (kind : StepKind) (old new : Civil) :
    Clocked s (s.stepClock kind (some old) new)
      { s.clock with now := some new, owed := false, lastStep := some ⟨kind, some ((new.siteSecond : Int) - old.siteSecond), some old.site, new.site⟩ }
      (passedBy kind old.site new.site ++ [.step ⟨kind, some old.site, new.site⟩]) := by
  have set := clocked_modClock s fun c =>
    { c with now := some new, owed := false, lastStep := some ⟨kind, some ((new.siteSecond : Int) - old.siteSecond), some old.site, new.site⟩ }
  have told (t : State) {k : Clock} (same : t.clock = k) : Clocked t ((t.notify (.step ⟨kind, some old.site, new.site⟩)).raise .clock) k
      [.step ⟨kind, some old.site, new.site⟩] := same ▸ (clocked_notify t _).trans (clocked_raise _ .clock)
  cases kind with
  | smallForward =>
    have passed (t : State) := clocked_boundaries t (minutesAfter old.site (new.site - old.site))
    have listed : (minutesAfter old.site (new.site - old.site)).map Notice.boundary = passedBy .smallForward old.site new.site := by
      rw [minutesAfter_eq, List.map_map, passedBy, if_pos rfl]
      rfl
    have unfolded : s.stepClock .smallForward (some old) new = ((forAll (minutesAfter old.site (new.site - old.site)) (fun m s => s.boundary m) (s.modClock fun c => { c with now := some new, owed := false, lastStep := some ⟨.smallForward, some ((new.siteSecond : Int) - old.siteSecond), some old.site, new.site⟩ })).notify (.step ⟨.smallForward, some old.site, new.site⟩)).raise .clock := rfl
    rw [← listed, unfolded]
    exact set.trans ((passed _).trans (told _ (passed _).clock))
  | _ => exact set.trans (told _ rfl)

/-- The first setting of a clock is a step without a time before (R160). -/
theorem clocked_firstStep (new : Civil) :
    Clocked s (s.stepClock .firstSet none new)
      { s.clock with now := some new, owed := false, lastStep := some ⟨.firstSet, none, none, new.site⟩ } [.step ⟨.firstSet, none, new.site⟩] :=
  (clocked_modClock s _).trans ((clocked_notify _ _).trans (clocked_raise _ .clock))

theorem step_raised (kind : StepKind) (old : Option Civil) (new : Civil) : (s.stepClock kind old new).raised .clock := raised_raise _ _

/-! ## The advance of a second -/

/-- The second after a time, within a day or into the next (R158). -/
def Civil.Follows (now x : Civil) : Prop :=
  (now.second < 59 ∧ x = { now with second := now.second + 1 }) ∨
    (now.second = 59 ∧ now.minute < 1439 ∧ x = { now with minute := now.minute + 1, second := 0 }) ∨
    (now.second = 59 ∧ now.minute = 1439 ∧ now.day < 36524 ∧ x = ⟨now.day + 1, 0, 0⟩)

theorem next_of_follows {now x : Civil} (h : Civil.Follows now x) : now.next = some x := by
  obtain ⟨second, rfl⟩ | ⟨second, minute, rfl⟩ | ⟨second, minute, day, rfl⟩ := h
  · rw [Civil.next, if_pos (by omega)]
  · rw [Civil.next, if_neg (by omega), if_pos (by omega)]
  · rw [Civil.next, if_neg (by omega), if_neg (by omega), if_pos (by omega)]

/-- A time one second ahead of another is the one after it. -/
theorem follows_of_diff {now x : Civil} (ok : x.ok = true) (minute : now.minute ≤ 1439) (second : now.second ≤ 59)
    (diff : (x.siteSecond : Int) - now.siteSecond = 1) : Civil.Follows now x := by
  obtain ⟨day', minute', second'⟩ := x
  obtain ⟨day, min, sec⟩ := now
  simp only [Civil.ok, decide_eq_true_eq, Civil.siteSecond] at ok diff minute second
  obtain ⟨d, m, t⟩ := ok
  simp only [Civil.Follows, Civil.mk.injEq]
  omega

section
variable {s} {now : Civil} (h : s.clock.now = some now)
include h

/-- An owed second is taken back (R158). -/
theorem clocked_advance_owed (owed : s.clock.owed = true) : Clocked s s.advance { s.clock with owed := false } [] := by
  have e : s.advance = s.modClock fun c => { c with owed := false } := by simp only [State.advance, h, owed, if_true]
  rw [e]
  exact clocked_modClock s _

variable (free : s.clock.owed = false)
include free

/-- A counted second moves the clock on, and a boundary of a minute that it begins is told (R158). -/
theorem clocked_advance {x : Civil} (next : now.next = some x) : Clocked s s.advance { s.clock with now := some x }
    (if x.second = 0 then [.boundary (x.day * 1440 + x.minute)] else []) := by
  have set := clocked_modClock s fun c => { c with now := some x }
  by_cases zero : x.second = 0
  · have e : s.advance = (s.modClock fun c => { c with now := some x }).boundary x.site := by
      simp only [State.advance, h, free, next, zero, Bool.false_eq_true, if_false, beq_self_eq_true, if_true]
    rw [e, if_pos zero]
    exact set.trans (clocked_notify _ _)
  · have e : s.advance = s.modClock fun c => { c with now := some x } := by
      simp only [State.advance, h, free, next, Bool.false_eq_true, if_false, beq_eq_false_iff_ne.mpr zero]
    rw [e, if_neg zero]
    exact set

/-- From the last second of the last day the clock steps back to its first (R158). -/
theorem advance_last (last : now = ⟨36524, 1439, 59⟩) : s.advance = s.stepClock .backward (some now) ⟨0, 0, 0⟩ := by
  have next : now.next = none := by subst last; decide
  simp only [State.advance, h, free, next, Bool.false_eq_true, if_false]

end

/-! ## The comparison of a time -/

/-- The kind of a step by a difference of seconds (R162). -/
def stepKind (by_ : Int) : StepKind := if by_ < 0 then .backward else if by_ ≤ 300 then .smallForward else .largeForward

section
variable {s} {now t : Civil} (h : s.clock.now = some now)
include h

theorem compareClock_same (diff : (t.siteSecond : Int) - now.siteSecond = 0) : s.compareClock t = s := by
  simp only [State.compareClock, h, diff, beq_self_eq_true, if_true]

theorem compareClock_ahead (diff : (t.siteSecond : Int) - now.siteSecond = 1) : s.compareClock t =
    (s.modClock fun c => { c with lastCounted := some s.timebase, lastMark := some s.timebase }).advance := by
  simp only [State.compareClock, h, diff]
  rfl

theorem compareClock_behind (diff : (t.siteSecond : Int) - now.siteSecond = -1) :
    s.compareClock t = s.modClock fun c => { c with owed := true } := by
  simp only [State.compareClock, h, diff]
  rfl

theorem compareClock_far (diff : 2 ≤ (t.siteSecond : Int) - now.siteSecond ∨ (t.siteSecond : Int) - now.siteSecond ≤ -2) :
    s.compareClock t = s.stepClock (stepKind ((t.siteSecond : Int) - now.siteSecond)) (some now) t := by
  simp only [State.compareClock, h]
  generalize (t.siteSecond : Int) - now.siteSecond = by_ at diff ⊢
  have zero : (by_ == 0) = false := beq_eq_false_iff_ne.mpr (by omega)
  have one : (by_ == 1) = false := beq_eq_false_iff_ne.mpr (by omega)
  have minus : (by_ == -1) = false := beq_eq_false_iff_ne.mpr (by omega)
  simp only [zero, one, minus, Bool.false_eq_true, if_false, stepKind]
  split
  · rfl
  · split <;> rfl

end

/-- The setting of an UNSET clock (R160). -/
theorem clocked_firstSet (t : Civil) : Clocked s (s.firstSet t)
    { s.clock with state := .running, now := some t, lastMark := some s.timebase, tick := .running (s.timebase + 1000), missed := 0,
                   owed := false, lastStep := some ⟨.firstSet, none, none, t.site⟩ } [.step ⟨.firstSet, none, t.site⟩] :=
  (clocked_modClock s _).trans ((clocked_modClock _ _).trans (clocked_firstStep _ t))

end

/-! ## SET_CLOCK -/

theorem args_wordWordNum {a b c : Nat} (ha : a < 65536) (hb : b < 65536) (hc : c < 256) :
    args [2, 2, 1] (wordArg a ++ wordArg b ++ numArg c) = some [a, b, c] := by
  rw [List.append_assoc, args_word_append ha, args_word_append hb, args_num hc]
  rfl

section
variable (s : State) {day minute second : Nat} (hd : day < 65536) (hm : minute < 65536) (hs : second < 256)

/-- The rows of R163, first to last. -/
def State.setClockRows (t : Civil) : List (Bool × Status) :=
  [(!(decide (t.day ≤ 36524 ∧ t.minute ≤ 1439 ∧ t.second ≤ 59)), .badArgument), (!s.cfg.configured, .notConfigured),
   (s.clock.state == .running, .busy)]

theorem civil_ok_eq (t : Civil) : t.ok = decide (t.day ≤ 36524 ∧ t.minute ≤ 1439 ∧ t.second ≤ 59) := by
  rw [Civil.ok, decide_eq_decide]
  omega

include hd hm hs

/-- SET_CLOCK goes by its rows. -/
theorem actSetClock_eq : actSetClock (wordArg day ++ wordArg minute ++ numArg second) s =
    match firstOf (s.setClockRows ⟨day, minute, second⟩) with
    | some e => s.refuse e
    | none => s.answer .done [] (s.giveTime ⟨day, minute, second⟩) := by
  simp only [State.setClockRows, firstOf_cons, firstOf_nil, actSetClock, args_wordWordNum hd hm hs, civil_ok_eq]
  cases decide (day ≤ 36524 ∧ minute ≤ 1439 ∧ second ≤ 59)
  · rfl
  · cases s.cfg.configured
    · rfl
    · cases s.clock.state <;> rfl

theorem actSetClock_refused {e : Status} (h : firstOf (s.setClockRows ⟨day, minute, second⟩) = some e) :
    actSetClock (wordArg day ++ wordArg minute ++ numArg second) s = s.refuse e := by
  rw [actSetClock_eq s hd hm hs, h]

theorem actSetClock_taken (h : firstOf (s.setClockRows ⟨day, minute, second⟩) = none) :
    actSetClock (wordArg day ++ wordArg minute ++ numArg second) s = s.answer .done [] (s.giveTime ⟨day, minute, second⟩) := by
  rw [actSetClock_eq s hd hm hs, h]

end

theorem giveTime_unset {s : State} (h : s.clock.state = .unset) (t : Civil) : s.giveTime t = s.firstSet t := by
  simp only [State.giveTime, h]

theorem giveTime_set {s : State} (h : s.clock.state ≠ .unset) (t : Civil) : s.giveTime t = s.compareClock t := by
  unfold State.giveTime
  split
  · next unset => exact absurd unset h
  · rfl

/-- Settles O41, by the clock state and the difference of the times. -/
theorem setClock : Obligations.SetClock := by
  intro s d tag day minute second serves hd hm hs c refusal
  have table : refusal = firstOf ((s.taken d tag 0x61).setClockRows ⟨day, minute, second⟩) := rfl
  refine ⟨fun e refused => only_answered_of_refuse rfl serves (actSetClock_refused _ hd hm hs (table ▸ refused)),
    fun none unset => ?_, fun now none holdover clock => ?_⟩
  · have act := actSetClock_taken (s.taken d tag 0x61) hd hm hs (table ▸ none)
    rw [giveTime_unset (s := s.taken d tag 0x61) unset] at act
    have set := clocked_firstSet (s := s.taken d tag 0x61) ⟨day, minute, second⟩
    exact ⟨(s.taken d tag 0x61).firstSet ⟨day, minute, second⟩, runs_of_act rfl serves act set.links, step_raised _ _ _ _, set.kept, set.notices⟩
  have act := actSetClock_taken (s.taken d tag 0x61) hd hm hs (table ▸ none)
  rw [giveTime_set (s := s.taken d tag 0x61) (by rw [taken_clock, holdover]; nofun)] at act
  have clock : (s.taken d tag 0x61).clock.now = some now := clock
  have within : Civil.ok ⟨day, minute, second⟩ = true := by
    by_contra out
    have out : decide (day ≤ 36524 ∧ minute ≤ 1439 ∧ second ≤ 59) = false := (civil_ok_eq _).symm.trans (Bool.eq_false_iff.mpr out)
    simp only [refusal, firstOf_cons, out] at none
    cases none
  intro by_ runs
  have by_eq : by_ = ((⟨day, minute, second⟩ : Civil).siteSecond : Int) - now.siteSecond := by simp only [by_, Civil.siteSecond]
  clear_value by_
  subst by_eq
  refine ⟨fun same => ?_, fun behind => ?_, fun ahead owed => ?_, fun ahead free minutes seconds => ?_, fun far => ?_⟩
  · rw [compareClock_same clock same] at act
    exact runs_of_act rfl serves act fun _ => LinkCalm.refl _
  · rw [compareClock_behind clock behind] at act
    have set := clocked_modClock (s.taken d tag 0x61) fun c => { c with owed := true }
    exact ⟨_, runs_of_act rfl serves act set.links, set.kept, set.notices, False.elim⟩
  · rw [compareClock_ahead clock ahead] at act
    have set := (clocked_modClock (s.taken d tag 0x61) _).trans (clocked_advance_owed (s := (s.taken d tag 0x61).modClock fun c => { c with lastCounted := some s.timebase, lastMark := some s.timebase }) clock owed)
    exact ⟨_, runs_of_act rfl serves act set.links, set.kept, set.notices, False.elim⟩
  · rw [compareClock_ahead clock ahead] at act
    have set := (clocked_modClock (s.taken d tag 0x61) _).trans (clocked_advance (s := (s.taken d tag 0x61).modClock fun c => { c with lastCounted := some s.timebase, lastMark := some s.timebase }) clock free
      (next_of_follows (follows_of_diff within minutes seconds ahead)))
    exact ⟨_, runs_of_act rfl serves act set.links, set.kept, set.notices, False.elim⟩
  · rw [compareClock_far clock far] at act
    have set := clocked_step (s.taken d tag 0x61) (stepKind (((⟨day, minute, second⟩ : Civil).siteSecond : Int) - now.siteSecond)) now ⟨day, minute, second⟩
    exact ⟨_, runs_of_act rfl serves act set.links, set.kept, set.notices, fun _ => step_raised _ _ _ _⟩

end Sys2Proof.Machine
end

