-- ==== Sys2Proof/Proofs/ClockInputs.lean ====
section
/-! PROOF. TIME_PULSE, TICK and TIME (R157 to R162). -/

namespace Sys2Proof.Machine

theorem withinHalf_of {now : Nat} {since : Option Nat} (h : ∃ p : Nat, since = some p ∧ now < p + 500) : withinHalf now since = true := by
  obtain ⟨p, rfl, near⟩ := h
  exact decide_eq_true near

theorem withinHalf_of_far {now : Nat} {since : Option Nat} (h : ∀ p : Nat, since = some p → p + 500 ≤ now) :
    withinHalf now since = false := by
  cases since with
  | none => rfl
  | some p => exact decide_eq_false (by have := h p rfl; omega)

/-! ## TIME_PULSE -/

section
variable (s : State)

theorem pulse_unset (h : s.clock.state = .unset) : s.pulse = s.modClock fun c => { c with lastPulse := some s.timebase } := by
  simp only [State.pulse, h]

theorem pulse_close (h : s.clock.state ≠ .unset) (near : withinHalf s.timebase s.clock.lastPulse = true) : s.pulse = s := by
  unfold State.pulse
  split
  · next unset => exact absurd unset h
  · rw [if_pos near]

/-- A pulse taken: its mark, its state and the attention of a change of state (R157, R159). -/
def State.marked (s : State) : State :=
  (s.markClock.modClock fun c => { c with lastPulse := some s.timebase, missed := 0, state := .running }).raiseIf
    (s.clock.state == .holdover) .clock

theorem pulse_taken (h : s.clock.state ≠ .unset) (far : withinHalf s.timebase s.clock.lastPulse = false) :
    s.pulse = if withinHalf s.timebase s.clock.lastCounted then s.marked else s.marked.advance := by
  unfold State.pulse
  split
  · next unset => exact absurd unset h
  · simp only [far, Bool.false_eq_true, if_false]
    rfl

theorem clocked_marked : Clocked s s.marked { s.clock with
    state := .running, lastMark := some s.timebase, tick := .running (s.timebase + 1000), missed := 0,
    lastPulse := some s.timebase } [] :=
  (clocked_modClock s _).trans ((clocked_modClock _ _).trans (clocked_raiseIf _ _ _))

theorem marked_raised (h : s.clock.state = .holdover) : s.marked.raised .clock := by
  rw [State.marked, h]
  exact raised_raise _ _

/-! ## TICK -/

/-- A tick taken, before it counts its second: its mark and its moment, and HOLDOVER at the second pulse missed (R157, R159). -/
def State.ticked (s : State) : State :=
  let t := s.markClock.modClock fun c => { c with lastCounted := some s.timebase, missed := min 2 (s.clock.missed + 1) }
  if s.clock.state == .running && min 2 (s.clock.missed + 1) == 2 then (t.modClock fun c => { c with state := .holdover }).raise .clock
  else t

theorem tickExpired_eq : s.tickExpired = s.ticked.advance := rfl

theorem clocked_ticked : Clocked s s.ticked { s.clock with
    state := if s.clock.state = .running ∧ 1 ≤ s.clock.missed then .holdover else s.clock.state,
    lastMark := some s.timebase, lastCounted := some s.timebase, tick := .running (s.timebase + 1000),
    missed := min 2 (s.clock.missed + 1) } [] := by
  have marked := (clocked_modClock s _).trans (clocked_modClock s.markClock fun c =>
    { c with lastCounted := some s.timebase, missed := min 2 (s.clock.missed + 1) })
  by_cases holdover : s.clock.state = .running ∧ 1 ≤ s.clock.missed
  · have test : (s.clock.state == .running && min 2 (s.clock.missed + 1) == 2) = true := by
      simp only [holdover.1, beq_self_eq_true, Bool.true_and, beq_iff_eq]
      omega
    rw [if_pos holdover, State.ticked]
    dsimp only
    rw [if_pos test]
    exact marked.trans ((clocked_modClock _ _).trans (clocked_raise _ _))
  · have test : ¬(s.clock.state == .running && min 2 (s.clock.missed + 1) == 2) = true := by
      simp only [Bool.and_eq_true, beq_iff_eq]
      exact fun ⟨running, two⟩ => holdover ⟨running, by omega⟩
    rw [if_neg holdover, State.ticked]
    dsimp only
    rw [if_neg test]
    exact marked

theorem ticked_raised (h : s.clock.state = .running ∧ 1 ≤ s.clock.missed) : s.ticked.raised .clock := by
  have test : (s.clock.state == .running && min 2 (s.clock.missed + 1) == 2) = true := by
    simp only [h.1, beq_self_eq_true, Bool.true_and, beq_iff_eq]
    omega
  rw [State.ticked, if_pos test]
  exact raised_raise _ _

end

/-! ## A counted second as an event -/

/-- The clock becomes `k` by an event, telling `told`; where `r` holds attention CLOCK stands. -/
def ClockEvent (c : Instr) (s a : State) (k : Clock) (told : List Notice) (r : Prop) : Prop :=
  ∃ u, EventRuns c s a u ∧ u.kept = { a.kept with clock := k } ∧ u.notices = s.notices ++ told ∧ (r → u.raised .clock)

/-- An event that makes of the clock `k` and then counts a second, as the obligation gives it case by case. -/
def CountsSecond (c : Instr) (s a : State) (k : Clock) (r : Prop) : Prop :=
  ∀ now : Civil, s.clock.now = some now →
    (s.clock.owed = true → ClockEvent c s a { k with owed := false } [] r) ∧
    (s.clock.owed = false →
      (∀ x : Civil, Civil.Follows now x →
        ClockEvent c s a { k with now := some x } (if x.second = 0 then [.boundary (x.day * 1440 + x.minute)] else []) r) ∧
      (now = ⟨36524, 1439, 59⟩ →
        ClockEvent c s a { k with now := some ⟨0, 0, 0⟩, lastStep := some ⟨.backward, some (-3155759999), some 52595999, 0⟩ }
          [.step ⟨.backward, some 52595999, 0⟩] True))

/-- From the last second of the last day the clock steps back to the first, and no second is owed then (R158). -/
theorem clocked_advance_last {v : State} (h : v.clock.now = some ⟨36524, 1439, 59⟩) (free : v.clock.owed = false) :
    Clocked v v.advance { v.clock with now := some ⟨0, 0, 0⟩, lastStep := some ⟨.backward, some (-3155759999), some 52595999, 0⟩ }
      [.step ⟨.backward, some 52595999, 0⟩] := by
  have step := clocked_step v .backward ⟨36524, 1439, 59⟩ ⟨0, 0, 0⟩
  rw [← advance_last h free rfl, ← free] at step
  exact step

section
variable {c : Instr} {s a v : State} {k : Clock} {r : Prop}

theorem clockEvent_of {told : List Notice} (hc : exec c s = .next (State.event a v)) (links : a.links = s.links)
    (notices : a.notices = s.notices) (set : Clocked a v k told) (raised : r → v.raised .clock) : ClockEvent c s a k told r := by
  refine ⟨v, runs_of_event hc fun d => ?_, set.kept, by rw [set.notices, notices], raised⟩
  have calm := set.links d
  rwa [State.link, links] at calm

/-- An event that makes of the clock `k` and then advances it. -/
theorem countsSecond_of (hc : exec c s = .next (State.event a v.advance)) (links : a.links = s.links) (notices : a.notices = s.notices)
    (set : Clocked a v k []) (now_ : k.now = s.clock.now) (owed_ : k.owed = s.clock.owed) (raised : r → v.raised .clock) :
    CountsSecond c s a k r := by
  intro now h
  have clock := set.clock
  have h : v.clock.now = some now := by rw [clock, now_, h]
  refine ⟨fun owed => ?_, fun free => ⟨fun x follows => ?_, fun last => ?_⟩⟩
  · have adv := clocked_advance_owed (s := v) h (by rw [clock, owed_, owed])
    rw [clock] at adv
    exact clockEvent_of hc links notices (set.trans adv) fun hr => adv.raised (raised hr)
  · have adv := clocked_advance (s := v) h (by rw [clock, owed_, free]) (next_of_follows follows)
    rw [clock] at adv
    exact clockEvent_of hc links notices (set.trans adv) fun hr => adv.raised (raised hr)
  · have free : v.clock.owed = false := by rw [clock, owed_, free]
    rw [last] at h
    have adv := clocked_advance_last h free
    rw [clock] at adv
    refine clockEvent_of hc links notices (set.trans adv) fun _ => ?_
    rw [advance_last h free rfl]
    exact step_raised _ _ _ _

end

/-! ## TIME -/

section
variable (s : State) (m : TimeMessage)

theorem exec_time_ignored (h : m.sound = false ∨ 36524 < m.day ∨ 1439 < m.minute ∨ 59 < m.second) : exec (.time m) s = .next s := by
  have out : ¬(m.sound && (timeOf m).ok) = true := by
    rw [civil_ok_eq, Bool.and_eq_true, decide_eq_true_eq, timeOf]
    rintro ⟨sound, day, minute, second⟩
    rw [sound] at h
    dsimp only at day minute second
    simp only [Bool.true_eq_false, false_or] at h
    omega
  exact congrArg Host.Outcome.next (if_neg out)

variable {s m} (within : m.day ≤ 36524 ∧ m.minute ≤ 1439 ∧ m.second ≤ 59)
include within

theorem timeOf_ok : (timeOf m).ok = true := by rw [civil_ok_eq]; exact decide_eq_true within

theorem exec_time_taken (sound : m.sound = true) : exec (.time m) s = .next (State.event s (s.takeTime ⟨m.day, m.minute, m.second⟩)) := by
  have taken : (m.sound && (timeOf m).ok) = true := by rw [sound, timeOf_ok within]; rfl
  exact congrArg Host.Outcome.next (if_pos taken)

end

/-- The state with the reference of a TIME message recorded (R160). -/
def State.referred (s : State) (t : Civil) : State := s.modClock fun c => { c with lastRef := some ⟨t, s.timebase⟩ }

theorem clocked_referred (s : State) (t : Civil) : Clocked s (s.referred t) { s.clock with lastRef := some ⟨t, s.timebase⟩ } [] :=
  clocked_modClock s _

/-- Settles O56, by the state of the clock and the moments of its marks; an expiry acts at the moment of its timer. -/
theorem clockInputs : Obligations.ClockInputs := by
  intro s seconds following runs counts
  refine ⟨fun unset => ?_, fun set near => ?_, fun set far => ?_, fun due set tick => ?_, fun unset => ?_,
    fun m => ?_⟩
  · refine ⟨s.modClock fun c => { c with lastPulse := some s.timebase }, runs_of_event ?_ fun _ => LinkCalm.refl _, rfl⟩
    rw [← pulse_unset s unset]
    rfl
  · refine runs_of_event ?_ fun _ => LinkCalm.refl _
    have same := pulse_close s set (withinHalf_of near)
    show Host.Outcome.next (State.event s s.pulse) = _
    rw [same]
  · have pulse := pulse_taken s set (withinHalf_of_far far)
    intro marked
    refine ⟨fun counted => ?_, fun uncounted => ?_⟩
    · rw [if_pos (withinHalf_of counted)] at pulse
      refine clockEvent_of (v := s.marked) ?_ rfl rfl (clocked_marked s) (marked_raised s)
      rw [← pulse]
      rfl
    · rw [withinHalf_of_far uncounted, if_neg Bool.false_ne_true] at pulse
      refine countsSecond_of (v := s.marked) ?_ rfl rfl (clocked_marked s) rfl rfl (marked_raised s)
      rw [← pulse]
      rfl
  · intro a holdover
    refine countsSecond_of (v := a.ticked) ?_ rfl rfl (clocked_ticked a) rfl rfl (ticked_raised a)
    have armed : (s.clock.state != .unset && s.clock.tick.isRunning) = true := by
      rw [tick, bne_iff_ne.mpr set]
      rfl
    show Host.Outcome.next (if s.clock.state != .unset && s.clock.tick.isRunning then _ else s) = _
    rw [if_pos armed, tick]
    rfl
  · show Host.Outcome.next (if s.clock.state != .unset && s.clock.tick.isRunning then _ else s) = _
    rw [unset]
    rfl
  · intro given
    refine ⟨exec_time_ignored s m, fun sound day minute second => ?_⟩
    intro k
    constructor
    · intro unset
      have hc := exec_time_taken (s := s) ⟨day, minute, second⟩ sound
      have set := (clocked_referred s given).trans (clocked_firstSet (s := s.referred given) given)
      have act : s.takeTime given = (s.referred given).firstSet given := giveTime_unset (s := s.referred given) unset given
      rw [act] at hc
      exact clockEvent_of hc rfl rfl set fun _ => step_raised _ _ _ _
    · intro now set clock
      have hc := exec_time_taken (s := s) ⟨day, minute, second⟩ sound
      have act : s.takeTime given = (s.referred given).compareClock given := giveTime_set (s := s.referred given) set given
      have clock : (s.referred given).clock.now = some now := clock
      have referred := clocked_referred s given
      intro by_
      have by_eq : by_ = (given.siteSecond : Int) - now.siteSecond := by simp only [by_, seconds, Civil.siteSecond]
      clear_value by_
      subst by_eq
      rw [act] at hc
      refine ⟨fun same => ?_, fun ahead minutes seconds => ?_, fun behind => ?_, fun far => ?_⟩
      · rw [compareClock_same clock same] at hc
        exact clockEvent_of hc rfl rfl referred False.elim
      · rw [compareClock_ahead clock ahead] at hc
        exact countsSecond_of hc rfl rfl (referred.trans (clocked_modClock _ _)) rfl rfl False.elim
      · rw [compareClock_behind clock behind] at hc
        exact clockEvent_of hc rfl rfl (referred.trans (clocked_modClock _ _)) False.elim
      · rw [compareClock_far clock far] at hc
        exact clockEvent_of hc rfl rfl (referred.trans (clocked_step _ _ now given)) fun _ => step_raised _ _ _ _

end Sys2Proof.Machine
end

