-- ==== Sys2Proof/Proofs/SeasonCommands.lean ====
section
/-! PROOF. SET_CHANGEOVER, ARM_SEASON, DISARM, the changeover that falls due, and WRITE_ENTRIES (R117, R118, R121, R124 to R128). -/

namespace Sys2Proof.Machine

/-! ## SET_CHANGEOVER -/

section
variable (s : State) {day minute : Nat} (hd : day < 65536) (hm : minute < 65536)

/-- The rows of R125, first to last. -/
def State.changeoverRows (s : State) (day minute : Nat) : List (Bool × Status) :=
  [(!(decide (day ≤ 36524 ∧ minute ≤ 1439)), .badArgument), (!s.cfg.configured, .notConfigured),
   (s.clock.state == .unset || s.clock.now == none, .notPermitted),
   ((match s.clock.now with
     | some t => decide (day * 1440 + minute ≤ t.day * 1440 + t.minute)
     | none => false), .badArgument)]

/-- The model's checks are the rows of R125, in their order. -/
theorem changeoverRefusal_eq_rows (day minute : Nat) : s.changeoverRefusal ⟨day, minute⟩ = firstOf (s.changeoverRows day minute) := by
  have range : (decide (day ≤ 36524) && decide (minute < 1440)) = decide (day ≤ 36524 ∧ minute ≤ 1439) := by
    rw [← Bool.decide_and, decide_eq_decide]
    omega
  simp only [State.changeoverRefusal, State.changeoverRows, firstOf_cons, firstOf_nil, range, State.clockSet, State.siteMinute]
  cases s.clock.now with
  | none => simp
  | some t => cases s.clock.state <;> simp [Civil.site, DayMinute.site] <;> rfl

include hd hm

theorem args_wordWord : args [2, 2] (wordArg day ++ wordArg minute) = some [day, minute] := by
  rw [args_word_append hd, args_word hm]
  rfl

theorem actSetChangeover_refused {e : Status} (h : firstOf (s.changeoverRows day minute) = some e) :
    actSetChangeover (wordArg day ++ wordArg minute) s = s.refuse e := by
  rw [← changeoverRefusal_eq_rows] at h
  simp only [actSetChangeover, args_wordWord hd hm, h]

theorem actSetChangeover_taken (h : firstOf (s.changeoverRows day minute) = none) :
    actSetChangeover (wordArg day ++ wordArg minute) s =
      ⟨.done, [], s.modSeason fun x => { x with changeover := some ⟨day, minute⟩ }⟩ := by
  rw [← changeoverRefusal_eq_rows] at h
  simp only [actSetChangeover, args_wordWord hd hm, h]

end

/-! ## ARM_SEASON and DISARM -/

section
variable (s : State) (x : TableId)

theorem actArmSeason_out_of_range {a : Byte} (h : ¬(1 ≤ a.toNat ∧ a.toNat ≤ 2)) : actArmSeason [a] s = s.refuse .badArgument := by
  simp only [actArmSeason, args_byte, tableOf_eq_none h]

theorem actArmSeason_active (h : x = s.season.active) : actArmSeason (tableArg x) s = s.refuse .badArgument := by
  have active : (x == s.season.active) = true := beq_iff_eq.mpr h
  simp only [actArmSeason, args_table, tableOf_code, active, if_true]

theorem actArmSeason_not_configured (h : x ≠ s.season.active) (absent : s.cfg.configured = false) :
    actArmSeason (tableArg x) s = s.refuse .notConfigured := by
  simp only [actArmSeason, args_table, tableOf_code, beq_eq_false_iff_ne.mpr h, absent, Bool.false_eq_true, if_false, Bool.not_false,
    if_true]

theorem actArmSeason_armed (h : x ≠ s.season.active) (configured : s.cfg.configured = true) : actArmSeason (tableArg x) s =
    ⟨.done, num2 (s.season.table x).length ++ num2 ((s.season.table x).filter fun e => e.failed.isSome).length,
      s.modSeason fun y => { y with armed := true }⟩ := by
  simp only [actArmSeason, args_table, tableOf_code, beq_eq_false_iff_ne.mpr h, configured, Bool.false_eq_true, if_false, Bool.not_true,
    flaggedCount]

theorem actDisarm_not_configured (absent : s.cfg.configured = false) : actDisarm [] s = s.refuse .notConfigured := by
  simp [actDisarm, args, absent]

theorem actDisarm_taken (configured : s.cfg.configured = true) : actDisarm [] s =
    ⟨.done, [], (s.modSeason fun y => { y with armed := false }).raiseIf s.season.armed .schedule⟩ := by
  simp [actDisarm, args, configured]

end

/-! ## A changeover that falls due -/

section
variable (s : State) (now : Nat)

theorem seasonMinute_none (h : s.season.changeover = none) : s.seasonMinute now = s := by
  simp [State.seasonMinute, Season.notice, State.judgeChangeover, Season.changeoverDue, h]

variable {m : DayMinute} (h : s.season.changeover = some m)
include h

theorem seasonMinute_before (before : now < m.day * 1440 + m.minute) : s.seasonMinute now = s := by
  have due : s.season.changeoverDue now = false := by
    simp only [Season.changeoverDue, h, DayMinute.site]
    exact decide_eq_false (by omega)
  simp [State.seasonMinute, Season.notice, State.judgeChangeover, due]

theorem changeoverDue_of (due : m.day * 1440 + m.minute ≤ now) : s.season.changeoverDue now = true := by
  simp only [Season.changeoverDue, h, DayMinute.site]
  exact decide_eq_true due

/-- An unarmed changeover is recorded as skipped (R128). -/
theorem seasonMinute_skipped (due : m.day * 1440 + m.minute ≤ now) (unarmed : s.season.armed = false) :
    s.seasonMinute now = (s.modSeason fun y => { y with changeover := none, last := some ⟨false, m⟩ }).raise .schedule := by
  have notice : s.season.notice now = none := by
    simp only [Season.notice, unarmed, Bool.and_false, Bool.false_eq_true, if_false]
  have season : s.season.changeOver = { s.season with changeover := none, last := some ⟨false, m⟩ } := by
    simp only [Season.changeOver, unarmed, h, Bool.false_eq_true, if_false, Option.map_some]
  simp only [State.seasonMinute, notice, State.judgeChangeover, changeoverDue_of s now h due, if_true, season, State.modSeason]

/-- The season store after a changeover taken (R128). -/
def State.changedOver (s : State) (m : DayMinute) : State :=
  (s.modSeason fun y => { y with active := y.active.other, armed := false, changeover := none, last := some ⟨true, m⟩ }).raise .schedule

/-- An armed changeover is taken, and the run scheduler is given its notice (R128). -/
theorem seasonMinute_taken (due : m.day * 1440 + m.minute ≤ now) (armed : s.season.armed = true) :
    s.seasonMinute now = (s.changedOver m).toRun (.runChangeover s.season.active.other now) fun t =>
      t.runChangeover s.season.active.other now := by
  have dueAt := changeoverDue_of s now h due
  have notice : s.season.notice now = some s.season.active.other := by
    simp only [Season.notice, dueAt, armed, Bool.and_self, if_true]
  have season : s.season.changeOver =
      { s.season with active := s.season.active.other, armed := false, changeover := none, last := some ⟨true, m⟩ } := by
    simp only [Season.changeOver, armed, h, if_true, Option.map_some]
  simp only [State.seasonMinute, notice, State.judgeChangeover, dueAt, if_true, season, State.changedOver, State.modSeason]

end

/-- Settles O39, by the rows of R125 and R126, and by the moment and the arming of the changeover record. -/
theorem changeoverAndArming : Obligations.ChangeoverAndArming := by
  refine ⟨fun s d tag serves => ⟨fun day minute hd hm => ?_, fun a out => ?_, fun x => ?_, fun absent => ?_, fun configured => ⟨fun unarmed => ?_,
    fun armed => ?_⟩⟩, fun s now => ⟨seasonMinute_none s now, fun m h => ⟨seasonMinute_before s now h, fun due =>
      ⟨seasonMinute_skipped s now h due, fun armed => ?_⟩⟩⟩⟩
  · intro c past refusal
    have table : refusal = firstOf ((s.taken d tag 0x43).changeoverRows day minute) := rfl
    exact ⟨fun e refused => only_answered_of_refuse rfl serves (actSetChangeover_refused _ hd hm (table ▸ refused)),
      fun none => sets_of_act rfl serves (actSetChangeover_taken _ hd hm (table ▸ none))⟩
  · exact only_answered_of_refuse rfl serves (actArmSeason_out_of_range _ out)
  · exact ⟨fun active => only_answered_of_refuse rfl serves (actArmSeason_active (s.taken d tag 0x44) x active),
      fun standby absent => only_answered_of_refuse rfl serves (actArmSeason_not_configured (s.taken d tag 0x44) x standby absent),
      fun standby configured => sets_of_act rfl serves (actArmSeason_armed (s.taken d tag 0x44) x standby configured)⟩
  · exact only_answered_of_refuse rfl serves (actDisarm_not_configured (s.taken d tag 0x45) absent)
  · have act := actDisarm_taken (s.taken d tag 0x45) configured
    rw [taken_season, unarmed] at act
    exact sets_of_act rfl serves act
  · have act := actDisarm_taken (s.taken d tag 0x45) configured
    rw [taken_season, armed] at act
    exact sets_of_act rfl serves act
  · have taken := seasonMinute_taken s now h due armed
    intro v
    refine ⟨fun free => ?_, fun settling => ?_⟩
    · rw [taken, State.toRun, if_neg (by rw [show (s.changedOver m).isSettling = s.isSettling from rfl, free]; decide)]
      rfl
    · rw [taken, State.toRun, if_pos (show (s.changedOver m).isSettling = true from settling)]
      rfl

end Sys2Proof.Machine
end

