-- ==== Sys2Proof/Proofs/WriteEntries.lean ====
section
/-! PROOF. WRITE_ENTRIES (R117, R118, R121, R124): the model's checks of one record are the table of R118, and its list is the fold of
that rule. -/

namespace Sys2Proof.Machine

/-! ## The checks of one entry -/

/-- The rows of R118 that depend on the configuration, first to last (R129). -/
def Entry.configRows (e : Entry) (c : ConfigStore) : List (Bool × Status) :=
  [(!c.txOk e.tx || !c.antOk e.primary || e.alt.any (fun m => !c.antOk m), .notConfigured),
   (!e.bandIn c e.primary || e.alt.any (fun m => !e.bandIn c m), .bandMismatch),
   (e.az.isSome && (c.antRot e.primary).isNone, .badArgument),
   (e.az.any (fun z => azKeptOut c e.primary z || e.alt.any fun m => azKeptOut c m z), .keepOut)]

/-- The rows of R118 against a table as it stands, behind those of the configuration. -/
def State.tableRows (s : State) (x : TableId) (es : List Entry) (e : Entry) : List (Bool × Status) :=
  [(es.any (fun y => y.id != e.id && y.tx == e.tx && y.overlaps e), .overlap),
   (es.any (fun y => y.id != e.id && y.tx != e.tx && y.primary == e.primary && y.overlaps e), .antennaConflict),
   (es.all (fun y => y.id != e.id) && decide (320 ≤ es.length), .tableFull),
   ((entryOf es e.id).any (s.run.inUse x), .inUse)]

/-- The refusal of an entry of sound form against a table as it stands: the first row of R118 that applies. -/
def State.entryRefusal (s : State) (x : TableId) (es : List Entry) (e : Entry) : Option Status :=
  firstOf (e.configRows s.cfg ++ s.tableRows x es e)

theorem firstOf_append (a b : List (Bool × Status)) : firstOf (a ++ b) = (firstOf a).or (firstOf b) := by
  rw [firstOf, firstOf, firstOf, List.find?_append]
  cases a.find? Prod.fst <;> rfl

theorem configCheck_eq_rows (c : ConfigStore) (e : Entry) : e.configCheck c = firstOf (e.configRows c) := by
  have alts (p : Ant → Bool) : e.alt.toList.all p = !e.alt.any fun m => !p m := by cases e.alt <;> simp
  have some_ (p : Ant → Bool) : e.alt.toList.any p = e.alt.any p := by cases e.alt <;> simp
  simp only [Entry.configCheck, Entry.configRows, firstOf_cons, firstOf_nil, alts, some_, Bool.not_and, Bool.not_not]
  cases e.az with
  | none => simp
  | some z => simp

theorem any_removeEntry (es : List Entry) (id : Nat) (p : Entry → Bool) :
    (removeEntry es id).any p = es.any fun y => y.id != id && p y := by
  rw [removeEntry, List.any_filter]

theorem entryOf_isNone (es : List Entry) (id : Nat) : (entryOf es id).isNone = es.all fun y => y.id != id := by
  rw [entryOf, Bool.eq_iff_iff, Option.isNone_iff_eq_none, List.find?_eq_none, List.all_eq_true]
  simp

/-- The model's checks of an entry of sound form are the rows of R118, in their order. -/
theorem entryCheck_eq_rows (s : State) (x : TableId) (e : Entry) :
    s.entryCheck x e = (s.entryRefusal x (s.season.table x) e).getD .done := by
  unfold State.entryCheck
  rw [State.entryRefusal, firstOf_append, configCheck_eq_rows]
  cases firstOf (e.configRows s.cfg) with
  | some st => rfl
  | none =>
    simp only [State.tableRows, firstOf_cons, firstOf_nil, any_removeEntry, entryOf_isNone, ← Bool.and_assoc, ge_iff_le, Option.none_or]
    repeat' split
    all_goals rfl

/-- No row of R118 answers DONE. -/
theorem entryRefusal_ne_done (s : State) (x : TableId) (es : List Entry) (e : Entry) : s.entryRefusal x es e ≠ some .done := by
  intro done
  unfold State.entryRefusal firstOf at done
  obtain ⟨row, found, status⟩ := Option.map_eq_some_iff.mp done
  have mem := List.mem_of_find?_eq_some found
  simp only [Entry.configRows, State.tableRows, List.cons_append, List.nil_append, List.mem_cons, List.not_mem_nil, or_false] at mem
  rcases mem with rfl | rfl | rfl | rfl | rfl | rfl | rfl | rfl <;> cases status

/-! ## The list -/

/-- The state with the entries of a table written. -/
def State.withTable (s : State) (x : TableId) (es : List Entry) : State := s.modSeason fun y => y.setTable x es

section
variable (s : State) (x : TableId) (es : List Entry)

theorem withTable_withTable (fs : List Entry) : (s.withTable x es).withTable x fs = s.withTable x fs := by cases x <;> rfl

theorem withTable_same : s.withTable x (s.season.table x) = s := by cases x <;> rfl

@[simp] theorem withTable_table : (s.withTable x es).season.table x = es := setTable_table s.season x es

/-- The rows of R118 read of the tables only the one that they are told. -/
theorem withTable_refusal (fs : List Entry) (e : Entry) : (s.withTable x es).entryRefusal x fs e = s.entryRefusal x fs e := rfl

/-- One entry record taken into a table, behind the statuses of the records before it (R117, R118). -/
def State.takeRecord (acc : List Status × List Entry) (b : List Byte) : List Status × List Entry :=
  match entryOfRecord b with
  | none => (acc.1 ++ [.badArgument], acc.2)
  | some e =>
    match s.entryRefusal x acc.2 e with
    | some st => (acc.1 ++ [st], acc.2)
    | none => (acc.1 ++ [.done], putEntry acc.2 e)

/-- One record written is that rule. -/
theorem writeOne_eq (b : List Byte) : (s.withTable x es).writeOne x b =
    (((s.takeRecord x ([], es) b).1.headD .done), s.withTable x (s.takeRecord x ([], es) b).2) := by
  unfold State.writeOne State.takeRecord
  cases entryOfRecord b with
  | none => rfl
  | some e =>
    dsimp only
    rw [entryCheck_eq_rows, withTable_table, withTable_refusal]
    have other := entryRefusal_ne_done s x es e
    cases h : s.entryRefusal x es e with
    | none =>
      exact congrArg (Prod.mk Status.done) (withTable_withTable s x es _)
    | some st =>
      dsimp only [Option.getD_some]
      split
      · exact absurd h other
      · rfl

/-- The statuses before a record are not read by it. -/
theorem takeRecord_behind (xs : List Status) (b : List Byte) : s.takeRecord x (xs, es) b =
    (xs ++ [(s.takeRecord x ([], es) b).1.headD .done], (s.takeRecord x ([], es) b).2) := by
  unfold State.takeRecord
  cases entryOfRecord b with
  | none => rfl
  | some e =>
    dsimp only
    cases s.entryRefusal x es e <;> rfl

/-- The list written is the fold of the rule of one record. -/
theorem foldl_takeRecord (records : List (List Byte)) (xs : List Status) :
    ∃ ys fs, records.foldl (s.takeRecord x) (xs, es) = (xs ++ ys, fs) ∧
      (s.withTable x es).writeAll x records = (ys, s.withTable x fs) ∧ ys.length = records.length := by
  induction records generalizing es xs with
  | nil => exact ⟨[], es, by simp, rfl, rfl⟩
  | cons b bs ih =>
    obtain ⟨ys, fs, fold, all, length⟩ := ih (s.takeRecord x ([], es) b).2 (xs ++ [(s.takeRecord x ([], es) b).1.headD .done])
    refine ⟨(s.takeRecord x ([], es) b).1.headD .done :: ys, fs, ?_, ?_, by simp [length]⟩
    · rw [List.foldl_cons, takeRecord_behind, fold, List.append_assoc]
      rfl
    · rw [State.writeAll, writeOne_eq]
      dsimp only
      rw [all]

/-- Where no record is accepted the table is as it was. -/
theorem foldl_takeRecord_none (records : List (List Byte)) (xs : List Status)
    (none : ∀ st ∈ (records.foldl (s.takeRecord x) (xs, es)).1, st ≠ .done) : (records.foldl (s.takeRecord x) (xs, es)).2 = es := by
  induction records generalizing es xs with
  | nil => rfl
  | cons b bs ih =>
    rw [List.foldl_cons, takeRecord_behind] at none ⊢
    have same : (s.takeRecord x ([], es) b).2 = es := by
      obtain ⟨ys, fs, fold, -, -⟩ := foldl_takeRecord s x (s.takeRecord x ([], es) b).2 bs (xs ++ [(s.takeRecord x ([], es) b).1.headD .done])
      rw [fold] at none
      have refused := none ((s.takeRecord x ([], es) b).1.headD .done) (by simp)
      unfold State.takeRecord at refused ⊢
      cases hb : entryOfRecord b with
      | none => rfl
      | some e =>
        rw [hb] at refused
        dsimp only at refused ⊢
        cases hr : s.entryRefusal x es e with
        | some st => rfl
        | none =>
          rw [hr] at refused
          exact absurd rfl refused
    rw [same] at none ⊢
    exact ih es _ none

end

/-! ## The request -/

theorem records16_flatten {records : List (List Byte)} (sized : ∀ b ∈ records, b.length = 16) :
    records16 records.length records.flatten = records := by
  induction records with
  | nil => rfl
  | cons b bs ih =>
    obtain ⟨len, rest⟩ := List.forall_mem_cons.mp sized
    rw [List.length_cons, records16, List.flatten_cons, List.take_left' len, List.drop_left' len, ih rest]

theorem length_flatten16 {records : List (List Byte)} (sized : ∀ b ∈ records, b.length = 16) :
    records.flatten.length = 16 * records.length := by
  induction records with
  | nil => rfl
  | cons b bs ih =>
    obtain ⟨len, rest⟩ := List.forall_mem_cons.mp sized
    rw [List.flatten_cons, List.length_append, ih rest, len, List.length_cons]
    omega

section
variable (s : State)

theorem actWriteEntries_out_of_form {payload : List Byte}
    (out : ∀ (a n : Byte) (rest : List Byte), payload = a :: n :: rest →
      ¬(1 ≤ a.toNat ∧ a.toNat ≤ 2 ∧ 1 ≤ n.toNat ∧ n.toNat ≤ 8 ∧ rest.length = 16 * n.toNat)) :
    actWriteEntries payload s = s.refuse .badArgument := by
  match payload, out with
  | [], _ => rfl
  | [_], _ => rfl
  | a :: n :: rest, out =>
    have out := out a n rest rfl
    rw [actWriteEntries]
    by_cases table : 1 ≤ a.toNat ∧ a.toNat ≤ 2
    · have form : decide (1 ≤ n.toNat ∧ n.toNat ≤ 8 ∧ rest.length = 16 * n.toNat) = false :=
        decide_eq_false fun form => out ⟨table.1, table.2, form⟩
      rw [form]
      cases tableOf a.toNat <;> rfl
    · rw [tableOf_eq_none table]

variable (x : TableId) {records : List (List Byte)} (low : 1 ≤ records.length) (high : records.length ≤ 8)
  (sized : ∀ b ∈ records, b.length = 16)
include low high sized

/-- A list of sound form, once no configuration is open (R117). -/
theorem actWriteEntries_of_form : actWriteEntries (tableArg x ++ numArg records.length ++ records.flatten) s =
    if !s.cfg.configured then s.refuse .notConfigured
    else if s.isOpen then s.refuse .configOpen
    else s.answer .done (listOf (fun st : Status => num1 st.code) (s.writeList x records).1 ++
      num2 ((s.writeList x records).2.season.table x).length ++ num2 ((s.writeList x records).2.season.edit x)) (s.writeList x records).2 := by
  have count : (BitVec.ofNat 8 records.length).toNat = records.length := toNat_byte (by omega)
  have form : decide (1 ≤ records.length ∧ records.length ≤ 8 ∧ records.flatten.length = 16 * records.length) = true :=
    decide_eq_true ⟨low, high, length_flatten16 sized⟩
  simp only [tableArg, numArg, List.cons_append, List.nil_append, actWriteEntries, tableByte_toNat, tableOf_code, count, form,
    records16_flatten sized]

end

/-- The list written, with the effects of an edit where a record was accepted (R117, R124). -/
theorem writeList_eq (s : State) (x : TableId) (records : List (List Byte)) : s.writeList x records =
    ((records.foldl (s.takeRecord x) ([], s.season.table x)).1,
      if (records.foldl (s.takeRecord x) ([], s.season.table x)).1.any fun st => st == .done then
        (s.withTable x (records.foldl (s.takeRecord x) ([], s.season.table x)).2).edited x
      else s.withTable x (records.foldl (s.takeRecord x) ([], s.season.table x)).2) := by
  obtain ⟨ys, fs, fold, all, -⟩ := foldl_takeRecord s x (s.season.table x) records []
  rw [withTable_same] at all
  rw [State.writeList, all, fold]
  rfl

theorem raiseEdit_edit_other (y : Season) (x : TableId) : (y.raiseEdit x).edit x.other = y.edit x.other := by cases x <;> rfl

/-- What an accepted list leaves of the season store and of the rest (R124). -/
theorem written_edited (s : State) (x : TableId) (es : List Entry) :
    ((s.withTable x es).edited x).season.table x = es ∧
      ((s.withTable x es).edited x).season.edit x = (s.season.edit x + 1) % 65536 ∧
      ((s.withTable x es).edited x).season.table x.other = s.season.table x.other ∧
      ((s.withTable x es).edited x).season.edit x.other = s.season.edit x.other ∧
      ((s.withTable x es).edited x).season.active = s.season.active ∧
      ((s.withTable x es).edited x).season.armed = (s.season.armed && x == s.season.active) ∧
      ((s.withTable x es).edited x).season.changeover = s.season.changeover ∧ ((s.withTable x es).edited x).raised .schedule ∧
      ((s.withTable x es).edited x).run = s.run ∧ ((s.withTable x es).edited x).permit = s.permit ∧
      (x = s.season.active → .runEdit x false ∈ ((s.withTable x es).edited x).notices) := by
  obtain ⟨table, other, edit, armed, raised, changeover, told⟩ := tableEdited_setTable s x es
  refine ⟨table, edit, other, ?_, ?_, armed, changeover, raised, ?_, ?_, told⟩
  · rw [edited_season]
    exact (raiseEdit_edit_other _ x).trans (setTable_edit s.season x es x.other)
  · rw [edited_season]
    exact (raiseEdit_active _ x).trans (setTable_active s.season x es)
  · unfold State.edited
    dsimp only
    split <;> rfl
  · unfold State.edited
    dsimp only
    split <;> rfl

/-- Settles O37: the rule of one record is the model's check and writing of it, and the list is its fold. -/
theorem writeEntries : Obligations.WriteEntries := by
  intro s d tag serves
  refine ⟨fun payload out => only_answered_of_refuse rfl serves (actWriteEntries_out_of_form _ out), fun x records low high sized => ?_⟩
  intro c inUse refusal take out reply
  have rule : take = s.takeRecord x := by
    funext acc b
    have same : inUse = s.run.inUse x := funext fun e => (inUse_eq_any s.run x e).symm
    simp only [take, refusal, same]
    rfl
  have act := actWriteEntries_of_form (s.taken d tag 0x40) x low high sized
  have list := writeList_eq (s.taken d tag 0x40) x records
  have fold : out = records.foldl ((s.taken d tag 0x40).takeRecord x) ([], (s.taken d tag 0x40).season.table x) := by
    simp only [out, rule]
    rfl
  rw [← fold] at list
  have length : out.1.length = records.length := by
    obtain ⟨ys, fs, folded, -, length⟩ := foldl_takeRecord (s.taken d tag 0x40) x ((s.taken d tag 0x40).season.table x) records []
    rw [fold, folded]
    exact length
  have told : listOf (fun st : Status => num1 st.code) out.1 = numArg records.length ++ out.1.flatMap (fun st => numArg st.code) := by
    rw [listOf, length]
    rfl
  refine ⟨fun absent => ?_, fun configured opened => ?_, fun configured closed => ⟨length, fun none => ?_, fun some_ => ?_⟩⟩
  · rw [taken_cfg, absent] at act
    exact only_answered_of_refuse rfl serves act
  · rw [taken_cfg, taken_isOpen, configured, opened] at act
    exact only_answered_of_refuse rfl serves act
  · rw [taken_cfg, taken_isOpen, configured, closed, list] at act
    have same : out.2 = s.season.table x := by
      rw [fold] at none ⊢
      exact foldl_takeRecord_none (s.taken d tag 0x40) x _ records [] none
    have refused : (out.1.any fun st => st == .done) = false := by
      rw [List.any_eq_false]
      exact fun st mem => by simpa using none st mem
    refine ⟨same, ?_⟩
    simp only [refused, Bool.not_true, Bool.false_eq_true, if_false, told, same] at act
    rw [show (s.taken d tag 0x40).withTable x (s.season.table x) = s.taken d tag 0x40 from withTable_same _ x] at act
    rw [same]
    exact runs_of_act rfl serves act fun _ => LinkCalm.refl _
  · rw [taken_cfg, taken_isOpen, configured, closed, list] at act
    have accepted : (out.1.any fun st => st == .done) = true := by
      obtain ⟨st, mem, done⟩ := some_
      exact List.any_eq_true.mpr ⟨st, mem, beq_iff_eq.mpr done⟩
    have left := written_edited (s.taken d tag 0x40) x out.2
    have table := left.1
    have edit := left.2.1
    simp only [accepted, Bool.not_true, Bool.false_eq_true, if_false, if_true, told, table, edit] at act
    exact ⟨_, runs_of_act rfl serves act (fun e => edited_links ((s.taken d tag 0x40).withTable x out.2) x e), left⟩

end Sys2Proof.Machine
end

