-- ==== Sys2Proof/Proofs/HallInputs.lean ====
section
/-! PROOF. The access, supply and RF sense inputs and the closed timer (R10, R176 to R179). -/

namespace Sys2Proof.Machine

/-! ## Holds placed on several transmitters at once -/

/-- Nothing but permit records has changed. -/
def PermitsOnly (a b : State) : Prop := { b with permit := a.permit } = a

theorem PermitsOnly.out {a b : State} (h : PermitsOnly a b) : { b with permit := a.permit } = a := h

theorem PermitsOnly.trans {a b c : State} (h : PermitsOnly a b) (k : PermitsOnly b c) : PermitsOnly a c := by
  have first := congrArg (fun s : State => { s with permit := a.permit }) k.out
  exact first.trans h.out

theorem PermitsOnly.kept {a b : State} (h : PermitsOnly a b) : b.kept = a.kept := by
  have same := congrArg State.kept h.out
  exact same

theorem PermitsOnly.links {a b : State} (h : PermitsOnly a b) : b.links = a.links := by
  have same := congrArg State.links h.out
  exact same

theorem PermitsOnly.hall {a b : State} (h : PermitsOnly a b) : b.hall = a.hall := by
  have same := congrArg State.hall h.out
  exact same

theorem PermitsOnly.cfg {a b : State} (h : PermitsOnly a b) : b.cfg = a.cfg := by
  have same := congrArg State.cfg h.out
  exact same

theorem PermitsOnly.tasks {a b : State} (h : PermitsOnly a b) : b.tasks = a.tasks := by
  have same := congrArg State.tasks h.out
  exact same

theorem PermitsOnly.timebase {a b : State} (h : PermitsOnly a b) : b.timebase = a.timebase := by
  have same := congrArg State.timebase h.out
  exact same

theorem modHolds_same (s : State) (n : Tx) (f : Holds → Holds) :
    (s.modHolds n f).permit[n] = { s.permit[n] with holds := f s.permit[n].holds } := modPermit_same s n _

theorem modHolds_other (s : State) (n : Tx) {m : Tx} (f : Holds → Holds) (h : m ≠ n) : (s.modHolds n f).permit[m] = s.permit[m] :=
  modPermit_other s n m _ h

/-- A hold placed on those of a list of transmitters that a test names, where the test does not read the permit records and placing the
hold twice is placing it once. -/
theorem forAll_hold (f : Holds → Holds) (idem : ∀ h, f (f h) = f h) (test : State → Tx → Bool)
    (fixed : ∀ a b : State, PermitsOnly a b → test b = test a) (xs : List Tx) (s : State) :
    PermitsOnly s (forAll xs (fun n s => if test s n then s.modHolds n f else s) s) ∧
      ∀ n : Tx, (forAll xs (fun n s => if test s n then s.modHolds n f else s) s).permit[n] =
        if n ∈ xs ∧ test s n = true then { s.permit[n] with holds := f s.permit[n].holds } else s.permit[n] := by
  induction xs generalizing s with
  | nil => exact ⟨rfl, fun n => (if_neg fun h => List.not_mem_nil h.1).symm⟩
  | cons m xs ih =>
    have step : PermitsOnly s (if test s m then s.modHolds m f else s) := by split <;> rfl
    obtain ⟨only, each⟩ := ih (if test s m then s.modHolds m f else s)
    refine ⟨step.trans only, fun n => (each n).trans ?_⟩
    rw [fixed _ _ step]
    by_cases same : n = m
    · subst same
      by_cases named : test s n = true
      · simp only [modHolds_same, List.mem_cons_self, named, idem, and_true, if_true, ite_self]
      · simp only [named, and_false, if_false, Bool.false_eq_true]
    · have other : (if test s m then s.modHolds m f else s).permit[n] = s.permit[n] := by
        split
        · exact modHolds_other s m f same
        · rfl
      simp only [other, List.mem_cons, same, false_or]

/-! ## The hall -/

section
variable (s : State)

/-- SAFE entered: what the hall monitor holds then, and the hall trip holds (R178, R179). -/
theorem enterSafe_eq (raises : Bool) :
    (s.enterSafe raises).kept = { s.kept with
        hall := { s.hall with state := .safe, closed := .idle, closedRunOut := false, closedStart := none } } ∧
      (∀ d : Desk, LinkCalm (s.link d) ((s.enterSafe raises).link d)) ∧
      (raises = true → (s.enterSafe raises).raised .hall) ∧
      ∀ n : Tx, (s.enterSafe raises).permit[n] =
        if s.cfg.txOk n = true ∧ s.rfPresent n = true then { s.permit[n] with holds := { s.permit[n].holds with hall := true } }
        else s.permit[n] := by
  let v := (s.modHall fun h => { h with state := .safe, closed := .idle, closedRunOut := false, closedStart := none }).raiseIf raises
    .hall
  have calm : Calm (s.modHall fun h => { h with state := .safe, closed := .idle, closedRunOut := false, closedStart := none }) v :=
    calm_raiseIf _ _ _ (Calm.refl _)
  obtain ⟨only, each⟩ := forAll_hold (fun h => { h with hall := true }) (fun _ => rfl) (fun s n => s.cfg.txOk n && s.rfPresent n)
    (fun a b h => by funext n; simp only [State.rfPresent, h.hall, h.cfg]) allTx v
  have same : v.cfg = s.cfg ∧ v.permit = s.permit ∧ ∀ n, v.rfPresent n = s.rfPresent n := by
    cases raises <;> exact ⟨rfl, rfl, fun _ => rfl⟩
  obtain ⟨cfg, permit, rf⟩ := same
  refine ⟨only.kept.trans calm.kept, fun d => ?_, fun h d => ?_, fun n => (each n).trans ?_⟩
  · have := calm.links d
    rw [State.link, State.link, ← only.links] at this
    exact this
  · subst h
    have := raised_raise (s.modHall fun h => { h with state := .safe, closed := .idle, closedRunOut := false, closedStart := none })
      .hall d
    rwa [State.link, show ((s.modHall fun h =>
      { h with state := .safe, closed := .idle, closedRunOut := false, closedStart := none }).raise .hall).links = _ from
      only.links.symm] at this
  · simp only [mem_allTx, true_and, Bool.and_eq_true, cfg, permit, rf]

theorem setAccess_eq (f : Filter AccessLevel) (l : AccessLevel) (h : f.accepted = some l) :
    s.setAccess f = (s.modHall fun h => { h with access := f }).accessTaken s.hall.access.accepted l := by
  simp only [State.setAccess, h]

/-- A level that is not accepted yet writes the filter alone. -/
theorem setAccess_unaccepted (f : Filter AccessLevel) (h : f.accepted = none ∨ f.accepted = s.hall.access.accepted) :
    s.setAccess f = { s with hall := { s.hall with access := f } } := by
  unfold State.setAccess
  dsimp only
  split
  · next l accepted =>
    rcases h with none_ | same
    · rw [accepted] at none_
      exact absurd none_ (Option.some_ne_none l)
    · exact if_pos (by rw [← same, accepted]; exact beq_self_eq_true _)
  · rfl

theorem setSupply_unaccepted (f : Filter SupplyLevel) (h : f.accepted = s.hall.supply.accepted) :
    s.setSupply f = { s with hall := { s.hall with supply := f } } := by
  unfold State.setSupply State.supplyTaken
  dsimp only
  rw [if_pos (by rw [← h]; exact beq_self_eq_true _)]
  rfl

theorem setRfSense_unaccepted (n : Tx) (f : Filter RfLevel) (h : f.accepted = (s.hall.rf[n]).accepted) :
    s.setRfSense n f = { s with hall := { s.hall with rf := s.hall.rf.set n f } } := by
  have same : (s.modHall fun h => { h with rf := h.rf.set n f }).rfPresent n = ((s.hall.rf[n]).accepted != some .absent) := by
    rw [State.rfPresent, modHall_hall, getElem_set_fin, if_pos rfl, h]
  unfold State.setRfSense State.rfTaken
  dsimp only
  rw [same, if_pos (beq_self_eq_true _)]
  rfl

/-- The supply level changed: the hold of 2 s starts or ends, and attention HALL is raised (R10). -/
theorem setSupply_changed (f : Filter SupplyLevel) (h : (s.hall.supply.accepted == some .good) ≠ (f.accepted == some .good)) :
    s.setSupply f = ((({ s with
      hall := { s.hall with supply := f },
      mx := { s.mx with
        supplyHold := if f.accepted == some .good then .running (s.timebase + 2000) else .idle, supplyHeld := false } } :
      State).raise .hall).notify .mxJudge) := by
  unfold State.setSupply State.supplyTaken
  dsimp only
  have changed : ¬((s.hall.supply.accepted == some .good) == (s.modHall fun h => { h with supply := f }).supplyGood) = true :=
    fun same => h (beq_iff_eq.mp same)
  rw [if_neg changed, State.supplyJudge]
  by_cases good : (f.accepted == some .good) = true
  · rw [if_pos (show (s.modHall fun h => { h with supply := f }).supplyGood = true from good), if_pos good]
    rfl
  · rw [if_neg (show ¬(s.modHall fun h => { h with supply := f }).supplyGood = true from good), if_neg good]
    rfl

end

/-! ## Samples -/

section
variable {α : Type} [DecidableEq α] {f : Filter α} {l : α}

theorem take_first (accepted : f.accepted = none) (first : f.firstSample ≠ some l) : f.take l = { f with firstSample := some l } := by
  rw [Filter.take, accepted]
  dsimp only
  rw [if_neg first]

theorem take_repeat (accepted : f.accepted = some l) : f.take l = { f with candidate := false } := by
  rw [Filter.take, accepted]
  dsimp only
  rw [if_pos rfl]

theorem take_candidate {x : α} (accepted : f.accepted = some x) (other : x ≠ l) (fresh : f.candidate = false) :
    f.take l = { f with candidate := true } := by
  rw [Filter.take, accepted]
  dsimp only
  rw [if_neg other, fresh, if_neg Bool.false_ne_true]

/-- The second sample of a level is the change of the accepted level (R177). -/
theorem take_accept (h : (f.accepted = none ∧ f.firstSample = some l) ∨
    (f.firstSample = none ∧ f.candidate = true ∧ ∃ x, f.accepted = some x ∧ x ≠ l)) : f.take l = Filter.accept l := by
  rcases h with ⟨accepted, first⟩ | ⟨first, candidate, x, accepted, other⟩
  · rw [Filter.take, accepted]
    dsimp only
    rw [if_pos first]
    rfl
  · rw [Filter.take, accepted]
    dsimp only
    rw [if_neg other, if_pos candidate, first]
    rfl

end

/-- An event that writes a filter and nothing else. -/
theorem runs_of_filter {c : Instr} {s u : State} (hc : exec c s = .next (State.event s u)) (links : u.links = s.links) :
    EventRuns c s s u := runs_of_event hc fun d => by rw [State.link, State.link, links]; exact LinkCalm.refl _

/-- Settles O57, by the input and by what its filter has accepted. -/
theorem hallInputs : Obligations.HallInputs := by
  intro s
  refine ⟨fun shut => ?_, fun shut safe => ?_, fun due running => ?_, fun idle => ?_, fun low => ?_, fun good => ?_, fun n l => ?_,
    fun l => ?_, fun l => ?_, fun n l => ?_⟩
  · let v := s.modHall fun h => { h with access := Filter.accept .opened }
    obtain ⟨kept, links, raised, permits⟩ := enterSafe_eq v (v.hall.state != .safe)
    have act : s.setAccess (Filter.accept .opened) = v.enterSafe (v.hall.state != .safe) := by
      rw [setAccess_eq s _ .opened rfl, State.accessTaken, if_neg (by simpa using shut)]
    have hall : (v.enterSafe (v.hall.state != .safe)).hall = _ := congrArg Kept.hall kept
    refine ⟨_, runs_of_event (congrArg (fun u => Host.Outcome.next (State.event s u)) act) links, ?_, ?_, ?_, ?_, ?_, ?_, ?_,
      fun n => ⟨fun ok rf => ?_, fun h => ?_⟩⟩
    · rw [hall]
    · rw [hall]
    · rw [hall]; rfl
    · rw [hall]; rfl
    · rw [hall]; rfl
    · rw [hall]; exact kept
    · exact fun h => raised (bne_iff_ne.mpr h)
    · rw [permits n, if_pos ⟨ok, rf⟩]
    · exact (permits n).trans (if_neg fun ⟨ok, rf⟩ => by
        rcases h with h | h
        · exact absurd (ok.symm.trans h) (by decide)
        · exact absurd (rf.symm.trans h) (by decide))
  · let v := s.modHall fun h => { h with access := Filter.accept .closed }
    have act : s.setAccess (Filter.accept .closed) = v.enterRestored := by
      rw [setAccess_eq s _ .closed rfl, State.accessTaken, if_neg (by simpa using shut)]
      exact if_pos (by rw [modHall_hall, safe]; rfl)
    have calm : Calm (v.modHall fun h => { h with
        state := .restoredWait, closed := v.startTimer 60000, closedRunOut := false, closedStart := some v.timebase })
        v.enterRestored := calm_raise _ _ (Calm.refl _)
    exact ⟨_, runs_of_event (congrArg (fun u => Host.Outcome.next (State.event s u)) act) (links_of_calm s calm rfl),
      raised_raise _ _, calm.kept⟩
  · show Host.Outcome.next (if s.hall.closed.isRunning then _ else s) = _
    rw [running]
    rfl
  · show Host.Outcome.next (if s.hall.closed.isRunning then _ else s) = _
    rw [if_neg]
    intro h
    cases at_ : s.hall.closed with
    | running due => exact idle due at_
    | _ => simp [at_, Timer.isRunning] at h
  · have act := setSupply_changed s (Filter.accept .good) (by rw [beq_eq_false_iff_ne.mpr low]; decide)
    have calm := calm_notify _ .mxJudge (calm_raise _ .hall (Calm.refl ({ s with
      hall := { s.hall with supply := Filter.accept .good },
      mx := { s.mx with supplyHold := .running (s.timebase + 2000), supplyHeld := false } } : State)))
    exact ⟨_, runs_of_event (congrArg (fun u => Host.Outcome.next (State.event s u)) act) (links_of_calm s calm rfl),
      raised_raise _ _, calm.kept⟩
  · have act := setSupply_changed s (Filter.accept .low) (by rw [good]; decide)
    have calm := calm_notify _ .mxJudge (calm_raise _ .hall (Calm.refl ({ s with
      hall := { s.hall with supply := Filter.accept .low },
      mx := { s.mx with supplyHold := .idle, supplyHeld := false } } : State)))
    exact ⟨_, runs_of_event (congrArg (fun u => Host.Outcome.next (State.event s u)) act) (links_of_calm s calm rfl),
      raised_raise _ _, calm.kept⟩
  · let v : State := s.modHall fun h => { h with rf := h.rf.set n (Filter.accept l) }
    have present : v.rfPresent n = (some l != some .absent) := by
      rw [State.rfPresent, modHall_hall, getElem_set_fin, if_pos rfl]
      rfl
    have calm : Calm v (s.setRfSense n (Filter.accept l)) := by
      unfold State.setRfSense State.rfTaken
      dsimp only
      split
      · exact Calm.refl _
      · exact calm_notifyAll _ _ (Calm.refl _)
    refine ⟨_, runs_of_event rfl (links_of_calm s calm rfl), calm.kept, fun changed x mem => ?_⟩
    unfold State.setRfSense State.rfTaken
    dsimp only
    rw [if_neg]
    · exact List.mem_append_right _ mem
    · rw [show (s.modHall fun h => { h with rf := h.rf.set n (Filter.accept l) }).rfPresent n = _ from present]
      intro same
      have same := beq_iff_eq.mp same
      rw [State.rfPresent, same] at changed
      revert changed
      cases l <;> decide
  · refine ⟨fun accepted first => ?_, fun accepted => ?_, fun x accepted other fresh => ?_, fun h => ?_⟩
    · exact runs_of_filter (congrArg (fun u => Host.Outcome.next (State.event s u))
        ((congrArg s.setAccess (take_first accepted first)).trans (setAccess_unaccepted s _ (.inl accepted)))) rfl
    · exact runs_of_filter (congrArg (fun u => Host.Outcome.next (State.event s u))
        ((congrArg s.setAccess (take_repeat accepted)).trans (setAccess_unaccepted s _ (.inr rfl)))) rfl
    · exact runs_of_filter (congrArg (fun u => Host.Outcome.next (State.event s u))
        ((congrArg s.setAccess (take_candidate accepted other fresh)).trans (setAccess_unaccepted s _ (.inr rfl)))) rfl
    · exact congrArg (fun f => Host.Outcome.next (State.event s (s.setAccess f))) (take_accept h)
  · refine ⟨fun accepted first => ?_, fun accepted => ?_, fun x accepted other fresh => ?_, fun h => ?_⟩
    · exact runs_of_filter (congrArg (fun u => Host.Outcome.next (State.event s u))
        ((congrArg s.setSupply (take_first accepted first)).trans (setSupply_unaccepted s _ rfl))) rfl
    · exact runs_of_filter (congrArg (fun u => Host.Outcome.next (State.event s u))
        ((congrArg s.setSupply (take_repeat accepted)).trans (setSupply_unaccepted s _ rfl))) rfl
    · exact runs_of_filter (congrArg (fun u => Host.Outcome.next (State.event s u))
        ((congrArg s.setSupply (take_candidate accepted other fresh)).trans (setSupply_unaccepted s _ rfl))) rfl
    · exact congrArg (fun f => Host.Outcome.next (State.event s (s.setSupply f))) (take_accept h)
  · refine ⟨fun accepted first => ?_, fun accepted => ?_, fun x accepted other fresh => ?_, fun h => ?_⟩
    · exact runs_of_filter (congrArg (fun u => Host.Outcome.next (State.event s u))
        ((congrArg (s.setRfSense n) (take_first accepted first)).trans (setRfSense_unaccepted s n _ rfl))) rfl
    · exact runs_of_filter (congrArg (fun u => Host.Outcome.next (State.event s u))
        ((congrArg (s.setRfSense n) (take_repeat accepted)).trans (setRfSense_unaccepted s n _ rfl))) rfl
    · exact runs_of_filter (congrArg (fun u => Host.Outcome.next (State.event s u))
        ((congrArg (s.setRfSense n) (take_candidate accepted other fresh)).trans (setRfSense_unaccepted s n _ rfl))) rfl
    · exact congrArg (fun f => Host.Outcome.next (State.event s (s.setRfSense n f))) (take_accept h)

end Sys2Proof.Machine
end

