-- ==== Sys2Proof/Proofs/TaskTimers.lean ====
section
/-! PROOF. What the matrix controller alone leaves, a task that is over, and the timers of a task (R34, R35). -/

namespace Sys2Proof.Machine

/-! ## The matrix controller alone -/

/-- What the matrix controller leaves when it acts alone. -/
def MatrixOnly (a b : State) : Prop :=
  { b with mx := a.mx, notices := a.notices, links := a.links, sent := a.sent, choices := a.choices } = a

theorem MatrixOnly.out {a b : State} (h : MatrixOnly a b) :
    { b with mx := a.mx, notices := a.notices, links := a.links, sent := a.sent, choices := a.choices } = a := h

theorem MatrixOnly.refl (a : State) : MatrixOnly a a := rfl

theorem MatrixOnly.trans {a b c : State} (h : MatrixOnly a b) (k : MatrixOnly b c) : MatrixOnly a c := by
  have first := congrArg (fun s : State =>
    { s with mx := a.mx, notices := a.notices, links := a.links, sent := a.sent, choices := a.choices }) k.out
  exact first.trans h.out

theorem MatrixOnly.tasks {a b : State} (h : MatrixOnly a b) : b.tasks = a.tasks := by
  have same := congrArg State.tasks h.out
  exact same

section
variable {z : State}

theorem matrix_report (s : State) (x : MxReport) (h : MatrixOnly z s) : MatrixOnly z (s.report x) := h

theorem matrix_leaveSafety (s : State) (w : Sw) (h : MatrixOnly z s) : MatrixOnly z (s.leaveSafety w) := h

theorem matrix_arrival (s : State) (n : Nat) (h : MatrixOnly z s) : MatrixOnly z { s with mx := { s.mx with nextArrival := n } } := h

theorem matrix_raise (s : State) (a : Attn) (h : MatrixOnly z s) : MatrixOnly z (s.raise a) := h

theorem matrix_notify (s : State) (n : Notice) (h : MatrixOnly z s) : MatrixOnly z (s.notify n) := h

theorem matrix_send (s : State) (o : Output) (h : MatrixOnly z s) : MatrixOnly z (s.send o) := h

theorem matrix_setSw (s : State) (w : Sw) (r : SwRec) (h : MatrixOnly z s) : MatrixOnly z (s.setSw w r) := h.trans (by cases w <;> rfl)

theorem matrix_choose (s : State) (n : Nat) (h : MatrixOnly z s) : MatrixOnly z (s.choose n).2 := by
  unfold State.choose
  split
  · exact h
  · exact h

theorem matrix_arrangeAux {α : Type} (n : Nat) (xs : List α) (s : State) (h : MatrixOnly z s) : MatrixOnly z (State.arrangeAux n xs s).2 := by
  induction n generalizing xs s with
  | zero => exact h
  | succ n ih =>
    cases xs with
    | nil => exact h
    | cons x xs => exact ih _ _ (matrix_choose s _ h)

theorem matrix_arrange {α : Type} (s : State) (xs : List α) (h : MatrixOnly z s) : MatrixOnly z (s.arrange xs).2 := matrix_arrangeAux _ _ _ h

theorem matrix_swComplete (s : State) (w : Sw) (h : MatrixOnly z s) : MatrixOnly z (s.swComplete w) :=
  matrix_report _ _ (matrix_setSw s w _ h)

theorem matrix_grant (s : State) (w : Sw) (h : MatrixOnly z s) : MatrixOnly z (s.grant w) :=
  matrix_report _ _ (matrix_send _ _ (matrix_setSw s w _ h))

theorem matrix_grantLoop (fuel : Nat) (s : State) (h : MatrixOnly z s) : MatrixOnly z (State.grantLoop fuel s) := by
  induction fuel generalizing s with
  | zero => exact h
  | succ n ih =>
    unfold State.grantLoop
    split
    · split
      · exact h
      · exact ih _ (matrix_grant s _ h)
    · exact h

theorem matrix_grants (s : State) (h : MatrixOnly z s) : MatrixOnly z s.grants := by
  grind [State.grants, matrix_grantLoop]

theorem matrix_joinQueue (s : State) (w : Sw) (c : MoveClass) (h : MatrixOnly z s) : MatrixOnly z (s.joinQueue w c) := by
  unfold State.joinQueue
  dsimp only
  split
  · exact matrix_swComplete s w h
  · exact matrix_arrival _ _ (matrix_setSw s w _ h)

theorem matrix_admitCore (s : State) (w : Sw) (c : MoveClass) (retry : Bool) (h : MatrixOnly z s) : MatrixOnly z (s.admitCore w c retry).2 := by
  grind [State.admitCore, matrix_joinQueue, matrix_setSw]

theorem matrix_withdrawToEarth (s : State) (w : Sw) (h : MatrixOnly z s) : MatrixOnly z (s.withdrawToEarth w) := by
  unfold State.withdrawToEarth
  dsimp only
  split
  · exact matrix_setSw s w _ h
  · exact matrix_grants _ (matrix_admitCore _ w .safety false (matrix_setSw s w _ h))

theorem matrix_withdraw (s : State) (w : Sw) (rest : List Sw) (h : MatrixOnly z s) : MatrixOnly z (s.withdraw w rest).2 := by
  grind [State.withdraw, matrix_setSw, matrix_swComplete, matrix_withdrawToEarth]

theorem matrix_withdrawAll (ws : List Sw) (s : State) (h : MatrixOnly z s) : MatrixOnly z (State.withdrawAll ws s) := by
  induction ws generalizing s with
  | nil => exact h
  | cons w rest ih => exact ih _ (matrix_withdraw s w rest h)

theorem matrix_withdrawSet (s : State) (t : Task) (h : MatrixOnly z s) : MatrixOnly z (s.withdrawSet t) := matrix_withdrawAll _ s h

end

/-! ## A task that is over -/

theorem endTask_other (s : State) (n : Tx) {m : Tx} (f : Option TaskFail) (r o : Bool) (h : m ≠ n) :
    (s.endTask n f r o).tasks[m] = s.tasks[m] := by
  unfold State.endTask
  split
  · rfl
  · exact setTask_other s n m _ h

theorem failAndWithdraw_other (s : State) (n : Tx) {m : Tx} (f : TaskFail) (o : Bool) (h : m ≠ n) :
    (s.failAndWithdraw n f o).tasks[m] = s.tasks[m] := by
  unfold State.failAndWithdraw
  split
  · rfl
  · next t _ =>
    rw [(matrix_withdrawSet _ t (MatrixOnly.refl _)).tasks]
    exact endTask_other s n _ _ _ h

/-- What a task record is after it has failed (R26). -/
theorem failAndWithdraw_same (s : State) (n : Tx) (f : TaskFail) (o : Bool) {t : Task} (h : s.tasks[n] = some t) :
    (s.failAndWithdraw n f o).tasks[n] = some { t with state := .failed, timer := .idle, failure := some f } := by
  unfold State.failAndWithdraw
  split
  · next none_ => exact absurd (h.symm.trans none_) (Option.some_ne_none t)
  · next t' at_ =>
    obtain rfl := Option.some.inj (h.symm.trans at_)
    rw [(matrix_withdrawSet _ t (MatrixOnly.refl _)).tasks]
    unfold State.endTask
    split
    · next none_ => exact absurd (h.symm.trans none_) (Option.some_ne_none t)
    · next t' at_ =>
      obtain rfl := Option.some.inj (h.symm.trans at_)
      exact setTask_same s n _

theorem taskTake_other (s : State) (r : MxReport) (n : Tx) {m : Tx} (h : m ≠ n) : (s.taskTake r n).tasks[m] = s.tasks[m] := by
  unfold State.taskTake
  split
  · rfl
  · next t _ =>
    have marked (t' : Option Task) : (s.setTask n t').tasks[m] = s.tasks[m] := setTask_other s n m t' h
    cases r <;> dsimp only <;> grind [endTask_other, failAndWithdraw_other]

theorem forAll_taskTake_other (r : MxReport) {m : Tx} (ns : List Tx) (s : State) (h : m ∉ ns) :
    (forAll ns (fun n s => s.taskTake r n) s).tasks[m] = s.tasks[m] := by
  induction ns generalizing s with
  | nil => rfl
  | cons n ns ih =>
    rw [List.mem_cons, not_or] at h
    exact (ih _ h.2).trans (taskTake_other s r n h.1)

theorem mem_of_arrangeAux {α : Type} (fuel : Nat) (xs : List α) (s : State) {x : α} (h : x ∈ (State.arrangeAux fuel xs s).1) :
    x ∈ xs := by
  induction fuel generalizing xs s with
  | zero => exact h
  | succ fuel ih =>
    cases xs with
    | nil => exact h
    | cons y ys =>
      unfold State.arrangeAux at h
      dsimp only at h
      rcases List.mem_cons.mp h with rfl | later
      · rw [List.getD_eq_getElem?_getD]
        cases at_ : (y :: ys)[(s.choose (ys.length + 1)).1]? with
        | none => exact List.mem_cons_self
        | some z => exact List.mem_of_getElem? at_
      · exact List.mem_of_mem_eraseIdx (ih _ _ later)

/-- What waits of the matrix controller's reports leaves a task that is over as it is (R33). -/
theorem absorb_closed (fuel : Nat) (s : State) (n : Tx) {t : Task} (h : s.tasks[n] = some t) (closed : t.inProgress = false) :
    (State.absorb fuel s).tasks[n] = some t := by
  induction fuel generalizing s with
  | zero => exact h
  | succ fuel ih =>
    rw [State.absorb]
    cases s.mx.reports with
    | nil => exact h
    | cons r rest =>
      refine ih _ ?_
      have out : n ∉ (({ s with mx := { s.mx with reports := rest } } : State).arrange
          (({ s with mx := { s.mx with reports := rest } } : State).tasksWith r.sw)).1 := by
        intro mem
        have mem := (List.mem_filter.mp (mem_of_arrangeAux _ _ _ mem)).2
        dsimp only at mem
        rw [h] at mem
        dsimp only at mem
        rw [closed] at mem
        exact absurd mem (by simp)
      refine (forAll_taskTake_other r _ _ out).trans ?_
      exact (congrArg (fun x : Vector (Option Task) 8 => x[n]) (matrix_arrange _ _ (MatrixOnly.refl _)).tasks).trans h

theorem failAndWithdraw_raised (s : State) (n : Tx) (f : TaskFail) (o : Bool) {t : Task} (h : s.tasks[n] = some t) :
    (s.failAndWithdraw n f o).raised .route := by
  unfold State.failAndWithdraw
  split
  · next none_ => exact absurd (h.symm.trans none_) (Option.some_ne_none t)
  · unfold State.endTask
    split
    · next none_ => exact absurd (h.symm.trans none_) (Option.some_ne_none t)
    · next t' at_ =>
      refine raised_of_calm (calm_withdrawSet _ _ (calm_notifyAll _ _ (Calm.refl _))) (raised_raise _ _)

/-! ## The timers -/

/-- Settles O51: the drop timer's expiry places holds and starts the trip wait; the trip wait's fails the task, and what follows in the
act leaves a failed task as it is. -/
theorem taskTimers : Obligations.TaskTimers := by
  intro s n t due task running a
  refine ⟨fun drop => ?_, fun wait => ?_⟩
  · obtain ⟨only, each⟩ := forAll_hold (fun h => { h with routeTrip := true }) (fun _ => rfl) (fun s n => s.rfPresent n)
      (fun a b h => by funext n; simp only [State.rfPresent, h.hall]) t.affected a
    let v := forAll t.affected (fun n s => if s.rfPresent n then s.modHolds n fun h => { h with routeTrip := true } else s) a
    have act : s.dropExpired n = v.setTask n (some { t with state := .tripWait, timer := v.startTimer 2000 }) := by
      unfold State.dropExpired
      simp only [task, drop, running]
      rfl
    have permit : (v.setTask n (some { t with state := .tripWait, timer := v.startTimer 2000 })).permit = v.permit := rfl
    refine ⟨_, runs_of_event (congrArg (fun u => Host.Outcome.next (State.event s u)) act) fun d => ?_, only.kept, ?_,
      fun j => ⟨fun mem rf => ?_, fun h => ?_⟩⟩
    · have links : (v.setTask n (some { t with state := .tripWait, timer := v.startTimer 2000 })).links = s.links := only.links
      rw [State.link, State.link, links]
      exact LinkCalm.refl _
    · rw [setTask_same, State.startTimer, show v.timebase = a.timebase from only.timebase]
    · rw [permit, each j, if_pos ⟨mem, rf⟩]
    · have out : ¬(j ∈ t.affected ∧ a.rfPresent j = true) := fun ⟨mem, rf⟩ =>
        h.elim (fun h => h mem) fun h => absurd (rf.symm.trans h) (by decide)
      rw [permit, each j, if_neg out]
  · have act : s.tripExpired n = a.failAndWithdraw n .rfStuck false := by
      unfold State.tripExpired
      simp only [task, wait, running]
      rfl
    have calm : Calm a (a.failAndWithdraw n .rfStuck false).absorbAll := calm_absorbAll _ (calm_failAndWithdraw _ _ _ _ (Calm.refl _))
    refine ⟨_, runs_of_event (congrArg (fun u : State => Host.Outcome.next (State.event s u.absorbAll)) act)
      (links_of_calm s calm rfl), calm.kept, ?_, _, absorb_closed _ _ n (failAndWithdraw_same a n .rfStuck false task) rfl, rfl, rfl, rfl,
      rfl⟩
    exact raised_of_calm (calm_absorbAll _ (Calm.refl _)) (failAndWithdraw_raised a n .rfStuck false task)

end Sys2Proof.Machine
end

