-- ==== Sys2Proof/Proofs/SlewTimers.lean ====
section
/-! PROOF. What the slew controller does to one record and what it leaves, and the timers of a slew record (R78 to R84). -/

namespace Sys2Proof.Machine

/-! ## What the slew controller leaves -/

/-- Nothing has changed but slew record k, notices and links. -/
structure Slews (k : Rot) (a b : State) : Prop where
  outside : { b with slew := a.slew, notices := a.notices, links := a.links } = a
  others : ∀ j : Rot, j ≠ k → b.slew[j] = a.slew[j]

section
variable {k : Rot} {a b z : State}

theorem Slews.refl (k : Rot) (a : State) : Slews k a a := ⟨rfl, fun _ _ => rfl⟩

theorem Slews.trans {c : State} (h : Slews k a b) (g : Slews k b c) : Slews k a c where
  outside := by
    have first := congrArg (fun s : State => { s with slew := a.slew, notices := a.notices, links := a.links }) g.outside
    exact first.trans h.outside
  others j e := (g.others j e).trans (h.others j e)

theorem Slews.timebase (h : Slews k a b) : b.timebase = a.timebase := by
  have same := congrArg State.timebase h.outside
  exact same

theorem Slews.cfg (h : Slews k a b) : b.cfg = a.cfg := by
  have same := congrArg State.cfg h.outside
  exact same

theorem Slews.hall (h : Slews k a b) : b.hall = a.hall := by
  have same := congrArg State.hall h.outside
  exact same

theorem Slews.rot (h : Slews k a b) : b.rot = a.rot := by
  have same := congrArg State.rot h.outside
  exact same

theorem Slews.tx (h : Slews k a b) : b.tx = a.tx := by
  have same := congrArg State.tx h.outside
  exact same

theorem Slews.mx (h : Slews k a b) : b.mx = a.mx := by
  have same := congrArg State.mx h.outside
  exact same

theorem Slews.kept (h : Slews k a b) : b.kept = a.kept := by
  have same := congrArg State.kept h.outside
  exact same

theorem Slews.settling (h : Slews k a b) : b.isSettling = a.isSettling := by rw [State.isSettling, h.cfg]; rfl

theorem Slews.held (h : Slews k a b) : b.heldAzimuth k = a.heldAzimuth k := by rw [State.heldAzimuth, State.heldAzimuth, h.rot]

theorem Slews.params (h : Slews k a b) : b.params k = a.params k := by rw [State.params, State.params, h.cfg]

theorem Slews.allowed (h : Slews k a b) : b.drivesAllowed = a.drivesAllowed := by
  rw [State.drivesAllowed, State.drivesAllowed, State.isOpen, State.isOpen, h.cfg, h.hall]

theorem Slews.busTx (h : Slews k a b) : b.busTx k = a.busTx k := by
  have sw (w : Sw) : b.sw w = a.sw w := by cases w <;> rw [State.sw, State.sw, h.mx]
  unfold State.busTx
  rw [h.cfg]
  simp only [sw]

theorem Slews.power (h : Slews k a b) (cap : (b.slew[k]).cap = (a.slew[k]).cap) : b.powerOk k = a.powerOk k := by
  unfold State.powerOk State.rfPresent
  rw [h.busTx, h.hall, h.tx, cap]

theorem Slews.error (h : Slews k a b) (target : (b.slew[k]).target = (a.slew[k]).target) : b.slewError k = a.slewError k := by
  unfold State.slewError
  rw [h.held, h.params, target]

theorem slews_modSlew (s : State) (f : SlewRec → SlewRec) (h : Slews k z s) : Slews k z (s.modSlew k f) :=
  h.trans ⟨rfl, fun j e => modSlew_other s k j f e⟩

theorem slews_raise (s : State) (x : Attn) (h : Slews k z s) : Slews k z (s.raise x) := h.trans ⟨rfl, fun _ _ => rfl⟩

theorem slews_raiseIf (s : State) (c : Bool) (x : Attn) (h : Slews k z s) : Slews k z (s.raiseIf c x) := by
  cases c
  · exact h
  · exact slews_raise s x h

theorem slews_slewReport (s : State) (x : SlewReport) (h : Slews k z s) : Slews k z (s.slewReport k x) := by
  unfold State.slewReport
  split
  · exact h.trans ⟨rfl, fun _ _ => rfl⟩
  · exact h

theorem slews_slewFault (s : State) (f : SlewFault) (h : Slews k z s) : Slews k z (s.slewFault k f) :=
  slews_slewReport _ _ (slews_raise _ _ (slews_modSlew _ _ h))

theorem slews_enterSettle (s : State) (h : Slews k z s) : Slews k z (s.enterSettle k) := slews_modSlew _ _ h

theorem slews_enterDrive (s : State) (h : Slews k z s) : Slews k z (s.enterDrive k) := by
  grind [State.enterDrive, slews_enterSettle, slews_modSlew]

theorem slews_judgePower (s : State) (h : Slews k z s) : Slews k z (s.judgePower k) := by
  grind [State.judgePower, slews_enterDrive, slews_slewFault]

theorem slews_enterAwait (s : State) (h : Slews k z s) : Slews k z (s.enterAwait k) := slews_judgePower _ (slews_modSlew _ _ h)

theorem slews_dwellOrAwait (s : State) (d : Dir) (h : Slews k z s) : Slews k z (s.dwellOrAwait k d) := by
  grind [State.dwellOrAwait, slews_enterAwait, slews_modSlew]

theorem slews_startDrive (s : State) (e : Int) (h : Slews k z s) : Slews k z (s.startDrive k e) :=
  slews_dwellOrAwait _ _ (slews_modSlew _ _ h)

theorem slews_reverseDrive (s : State) (e : Int) (h : Slews k z s) : Slews k z (s.reverseDrive k e) :=
  slews_dwellOrAwait _ _ (slews_modSlew _ _ h)

theorem slews_restartSlew (s : State) (h : Slews k z s) : Slews k z (s.restartSlew k) := slews_modSlew _ _ h

end

/-! ## What becomes of the record -/

theorem driveOff_eq (r : SlewRec) (now : Nat) : r.driveOff now = { r with lastOff := (r.driveOff now).lastOff } := by
  unfold SlewRec.driveOff
  split <;> rfl

theorem driveOff_drive {r : SlewRec} {x : Dir} (now : Nat) (drive : r.state = .drive) (dir : r.dir = some x) :
    (r.driveOff now).lastOff = some ⟨now, x⟩ := by
  unfold SlewRec.driveOff
  rw [drive, dir]

theorem rest_eq (r : SlewRec) (now : Nat) (st : SlewState) : r.rest now st = { r with
    lastOff := (r.driveOff now).lastOff, speed := none, powerWait := .idle, dwell := .idle, stallWindow := .idle, stallRef := none,
    furthest := none, state := st, dir := none, cap := none, startTime := none, slewTimer := .idle, settleCount := 0 } := by
  rw [SlewRec.rest, driveOff_eq]
  rfl

section
variable (s : State) (k : Rot)

theorem slewReport_slew (x : SlewReport) : (s.slewReport k x).slew = s.slew := by
  unfold State.slewReport
  split <;> rfl

theorem slewReport_links (x : SlewReport) : (s.slewReport k x).links = s.links := by
  unfold State.slewReport
  split <;> rfl

theorem slewFault_slew (f : SlewFault) :
    (s.slewFault k f).slew[k] = { (s.slew[k]).rest s.timebase .fault with fault := some f } := by
  rw [State.slewFault, slewReport_slew]
  exact modSlew_same s k fun r => { r.rest s.timebase .fault with fault := some f }

theorem slewFault_raised (f : SlewFault) : (s.slewFault k f).raised .slew := by
  intro d
  rw [State.slewFault, State.link, slewReport_links]
  exact raised_raise _ _ d

/-- SETTLE entered: the drive is off and the count begins (R80). -/
theorem enterSettle_slew : (s.enterSettle k).slew[k] = { s.slew[k] with
    lastOff := ((s.slew[k]).driveOff s.timebase).lastOff, speed := none, powerWait := .idle, dwell := .idle, stallWindow := .idle,
    stallRef := none, furthest := none, state := .settle, dir := none, settleCount := 0 } := by
  rw [State.enterSettle, modSlew_same, driveOff_eq]
  rfl

/-- AWAIT_POWER entered where no drive may start: the power wait runs (R79). -/
theorem enterAwait_waits (h : s.powerOk k = false ∨ s.isSettling = true) : (s.enterAwait k).slew[k] =
    { (s.slew[k]).noDrive with state := .awaitPower, powerWait := .running (s.timebase + 5000) } := by
  let v := s.modSlew k fun r => { r.noDrive with state := .awaitPower, powerWait := s.startTimer 5000 }
  have slews : Slews k s v := slews_modSlew s _ (Slews.refl k s)
  have at_ : v.slew[k] = { (s.slew[k]).noDrive with state := .awaitPower, powerWait := s.startTimer 5000 } := modSlew_same s k _
  have out : ¬((v.slew[k]).state == .awaitPower && !v.isSettling && v.powerOk k) = true := by
    rw [slews.settling, slews.power (by rw [at_]; rfl)]
    rcases h with h | h <;> simp [h]
  show (v.judgePower k).slew[k] = _
  rw [State.judgePower, if_neg out, at_]
  rfl

/-- AWAIT_POWER entered where power allows a drive: it goes on to DRIVE, or to SETTLE near the target (R79, R80). -/
theorem enterAwait_drives {e : Int} {held : Nat} (power : s.powerOk k = true) (settled : s.isSettling = false)
    (error : s.slewError k = some e) (azimuth : s.heldAzimuth k = some held) :
    (e.natAbs ≤ (s.params k).stopTol →
      ((s.enterAwait k).slew[k]).state = .settle ∧ ((s.enterAwait k).slew[k]).settleCount = 0 ∧
        ((s.enterAwait k).slew[k]).cap = (s.slew[k]).cap) ∧
    ((s.params k).stopTol < e.natAbs →
      ((s.enterAwait k).slew[k]).state = .drive ∧ ((s.enterAwait k).slew[k]).cap = (s.slew[k]).cap ∧
        ((s.enterAwait k).slew[k]).dir = (s.slew[k]).dir ∧
        ((s.enterAwait k).slew[k]).speed = some (if (s.params k).creep < e.natAbs then .fast else .creep)) := by
  let v := s.modSlew k fun r => { r.noDrive with state := .awaitPower, powerWait := s.startTimer 5000 }
  have slews : Slews k s v := slews_modSlew s _ (Slews.refl k s)
  have at_ : v.slew[k] = { (s.slew[k]).noDrive with state := .awaitPower, powerWait := s.startTimer 5000 } := modSlew_same s k _
  have free : ((v.slew[k]).state == .awaitPower && !v.isSettling && v.powerOk k) = true := by
    rw [slews.settling, slews.power (by rw [at_]; rfl), at_, settled, power]
    rfl
  have valid : ¬((v.rot[k]).validity == .invalid) = true := by
    rw [slews.rot]
    intro invalid
    rw [State.heldAzimuth, if_pos invalid] at azimuth
    exact absurd azimuth.symm (Option.some_ne_none held)
  have drive : s.enterAwait k = v.enterDrive k := by
    show v.judgePower k = _
    rw [State.judgePower, if_pos free, if_neg valid]
  have error : v.slewError k = some e := by rw [slews.error (by rw [at_]; rfl), error]
  have azimuth : v.heldAzimuth k = some held := by rw [slews.held, azimuth]
  rw [drive, State.enterDrive, error, azimuth]
  dsimp only
  rw [slews.params]
  refine ⟨fun near => ?_, fun far => ?_⟩
  · rw [if_pos near, enterSettle_slew, at_]
    exact ⟨rfl, rfl, rfl⟩
  · rw [if_neg (by omega), modSlew_same, at_]
    exact ⟨rfl, rfl, rfl, rfl⟩

end

/-! ## The timers -/

theorem lines_iff (r : SlewRec) : (r.lines.cw = true ↔ r.state = .drive ∧ r.dir = some .cw) ∧
    (r.lines.ccw = true ↔ r.state = .drive ∧ r.dir = some .ccw) ∧
    (r.lines.fastCreep = true ↔ r.state = .drive ∧ r.speed = some .fast) := by
  unfold SlewRec.lines
  cases r.state <;> simp

/-- The power condition by the antenna that carries the rotator and the bus its selector is confirmed at (R79). -/
theorem powerOk_iff (s : State) (k : Rot) : s.powerOk k = true ↔
    ∀ (m : Ant) (n : Tx), s.cfg.rotAnt k = some m → (s.sw (.sel m)).confirmed = .stands (.bus n) →
      s.rfPresent n = false ∨ ((s.slew[k]).cap = some .low ∧ (s.tx[n]).state ≠ .offline ∧
        ((s.tx[n]).rfLevel = some .low ∨ (s.tx[n]).rfLevel = some .off)) := by
  unfold State.powerOk State.busTx
  cases ant : s.cfg.rotAnt k with
  | none => simp
  | some m =>
    dsimp only
    split
    · next no_bus =>
      refine ⟨fun _ j n same bus => ?_, fun _ => rfl⟩
      obtain rfl := Option.some.inj same
      simp [bus] at no_bus
    · next n bus =>
      have bus : (s.sw (.sel m)).confirmed = .stands (.bus n) := by
        split at bus
        · next stands => rw [stands, Option.some.inj bus]
        · exact absurd bus.symm (Option.some_ne_none n)
      simp only [Bool.or_eq_true, Bool.not_eq_true', Bool.and_eq_true, beq_iff_eq, bne_iff_ne, and_assoc]
      refine ⟨fun h j u same at_ => ?_, fun h => h m n rfl bus⟩
      obtain rfl := Option.some.inj same
      rw [bus] at at_
      injection at_ with at_
      injection at_ with at_
      exact at_ ▸ h

/-- A timer that ends a record in FAULT: target and origin stay, and the drive's end is recorded (R84). -/
theorem faulted_of {c : Instr} {s a : State} (k : Rot) (f : SlewFault) (hc : exec c s = .next (State.event a (a.slewFault k f)))
    (links : a.links = s.links) (slew : a.slew = s.slew) :
    ∃ u, EventRuns c s a u ∧ u.kept = a.kept ∧ u.raised .slew ∧
      (u.slew[k]).state = .fault ∧ (u.slew[k]).fault = some f ∧ (u.slew[k]).target = (s.slew[k]).target ∧
      (u.slew[k]).origin = (s.slew[k]).origin ∧ (u.slew[k]).cap = none ∧ (u.slew[k]).dir = none ∧ (u.slew[k]).powerWait = .idle ∧
      (u.slew[k]).dwell = .idle ∧ (u.slew[k]).stallWindow = .idle ∧ (u.slew[k]).slewTimer = .idle ∧
      (∀ x : Dir, (s.slew[k]).state = .drive → (s.slew[k]).dir = some x → (u.slew[k]).lastOff = some ⟨a.timebase, x⟩) ∧
      ∀ j : Rot, j ≠ k → u.slew[j] = s.slew[j] := by
  have calm : Calm a (a.slewFault k f) := calm_slewFault _ _ _ (Calm.refl _)
  have slews : Slews k a (a.slewFault k f) := slews_slewFault _ _ (Slews.refl k a)
  refine ⟨_, runs_of_event hc (links_of_calm s calm links), slews.kept, slewFault_raised a k f, ?_⟩
  rw [slewFault_slew, rest_eq, slew]
  exact ⟨rfl, rfl, rfl, rfl, rfl, rfl, rfl, rfl, rfl, rfl, fun x drive dir => driveOff_drive a.timebase drive dir,
    fun j other => (slews.others j other).trans (by rw [slew])⟩

theorem isRunning_of {t : Timer} (h : t.isRunning = true) : ∃ due : Nat, t = .running due := by
  cases t with
  | running due => exact ⟨due, rfl⟩
  | _ => simp [Timer.isRunning] at h

/-- Settles O53: each expiry acts at its timer's moment, by the record's state. -/
theorem slewTimers : Obligations.SlewTimers := by
  intro s k due a r drives faulted
  refine ⟨lines_iff _, powerOk_iff s k, fun dwells running => ?_, fun awaits running => ?_, fun drive running => ?_,
    fun slewing running => ?_, fun idle => ?_, fun other => ?_, fun other => ?_, fun other => ?_⟩
  · have act : s.dwellExpired k = a.enterAwait k := by
      have dwells : (s.slew[k]).state = .reverseDwell := dwells
      have running : (s.slew[k]).dwell = .running due := running
      simp only [State.dwellExpired, dwells, running]
      rfl
    have calm : Calm a (a.enterAwait k) := calm_enterAwait _ _ (Calm.refl _)
    refine ⟨_, runs_of_event (congrArg (fun u => Host.Outcome.next (State.event s u)) act) (links_of_calm s calm rfl), calm.kept,
      fun waits => ?_, fun e power settled error far => ?_⟩
    · rw [enterAwait_waits a k waits]
      exact ⟨rfl, rfl, rfl, rfl, rfl⟩
    · cases azimuth : s.heldAzimuth k with
      | none =>
        rw [State.slewError, azimuth] at error
        revert error
        cases (s.slew[k]).target <;> exact fun error => absurd error.symm (Option.some_ne_none e)
      | some held =>
        obtain ⟨drive, cap, -⟩ := (enterAwait_drives a k power settled error azimuth).2 far
        exact ⟨drive, cap⟩
  · refine faulted_of (a := a) k .powerNotReduced ?_ rfl rfl
    have awaits : (s.slew[k]).state = .awaitPower := awaits
    have running : (s.slew[k]).powerWait = .running due := running
    simp only [exec, execPowerWaitExpiry, awaits, running]
    rfl
  · refine faulted_of (a := a) k .stall ?_ rfl rfl
    have drive : (s.slew[k]).state = .drive := drive
    have running : (s.slew[k]).stallWindow = .running due := running
    simp only [exec, execStallWindowExpiry, drive, running]
    rfl
  · refine faulted_of (a := a) k .slewTimeout ?_ rfl rfl
    have slewing : (s.slew[k]).state.slewing = true := slewing
    have running : (s.slew[k]).slewTimer = .running due := running
    simp only [exec, execSlewTimerExpiry, slewing, running]
    rfl
  · have out : ¬((s.slew[k]).state == .reverseDwell && (s.slew[k]).dwell.isRunning) = true := by
      rw [Bool.and_eq_true, beq_iff_eq]
      rintro ⟨dwells, running⟩
      obtain ⟨t, running⟩ := isRunning_of running
      exact idle.elim (fun h => h dwells) fun h => h t running
    have act : s.dwellExpired k = s := if_neg out
    exact runs_of_event (congrArg (fun u => Host.Outcome.next (State.event s u)) act) fun _ => LinkCalm.refl _
  · exact congrArg Host.Outcome.next (if_neg fun h => other (beq_iff_eq.mp ((Bool.and_eq_true _ _).mp h).1))
  · exact congrArg Host.Outcome.next (if_neg fun h => other (beq_iff_eq.mp ((Bool.and_eq_true _ _).mp h).1))
  · exact congrArg Host.Outcome.next (if_neg fun h => absurd (((Bool.and_eq_true _ _).mp h).1.symm.trans other) (by decide))

end Sys2Proof.Machine
end

