-- ==== Sys2Proof/Proofs/SlewMoves.lean ====
section
/-! PROOF. How a slew record starts a drive, turns one round, settles and holds (R76 to R81). -/

namespace Sys2Proof.Machine

theorem against_iff (d : Option Dir) (e : Int) : against d e = true ↔ (d = some .cw ∧ e < 0) ∨ (d = some .ccw ∧ 0 < e) := by
  unfold against
  split <;> simp_all

theorem drivesAllowed_iff (s : State) :
    s.drivesAllowed = true ↔ s.hall.state = .normal ∧ s.isOpen = false ∧ s.cfg.configured = true := by
  simp only [State.drivesAllowed, Bool.and_eq_true, beq_iff_eq, Bool.not_eq_true', and_assoc]

/-- A drive started is read off the state before, its record's last drive off and the record after. -/
theorem DriveStarted.congr {s s' u u' : State} {k : Rot} {held target : Nat} (h : DriveStarted s u k held target)
    (cfg : s'.cfg = s.cfg) (time : s'.timebase = s.timebase) (last : (s'.slew[k]).lastOff = (s.slew[k]).lastOff)
    (slew : u'.slew[k] = u.slew[k]) (power : u'.powerOk k = u.powerOk k) : DriveStarted s' u' k held target := by
  unfold DriveStarted at h ⊢
  simp only [cfg, time, last, slew, power]
  exact h

section
variable (s : State) (k : Rot)

theorem slewError_of {held target : Nat} (azimuth : s.heldAzimuth k = some held) (aim : (s.slew[k]).target = some target) :
    s.slewError k = some (((s.cfg.active.rot[k]).travel target : Int) - (s.cfg.active.rot[k]).travel held) := by
  rw [State.slewError, azimuth, aim]
  rfl

theorem slewCap_of {held target : Nat} (azimuth : s.heldAzimuth k = some held) (aim : (s.slew[k]).target = some target) :
    s.slewCap k = if (s.cfg.active.rot[k]).pathCrosses held target then .off else .low := by
  rw [State.slewCap, azimuth, aim]
  rfl

/-! ## A direction taken -/

/-- The record with a direction taken and its settle count begun. -/
def State.aimed (s : State) (k : Rot) (d : Dir) : State := s.modSlew k fun r => { r with dir := some d, settleCount := 0 }

/-- A dwell of the opposite direction that still runs holds the record in REVERSE_DWELL (R78). -/
theorem dwellOrAwait_dwells {d : Dir} {o : DriveOff} (last : (s.slew[k]).lastOff = some o) (opposite : o.dir = d.opposite)
    (recent : s.timebase < o.at_ + 1000) : (s.dwellOrAwait k d).slew[k] =
      { (s.slew[k]).noDrive with
        dir := some d, settleCount := 0, state := .reverseDwell, dwell := .running (o.at_ + 1000) } := by
  have at_ : (s.aimed k d).slew[k] = { s.slew[k] with dir := some d, settleCount := 0 } := modSlew_same s k _
  have due : ((s.aimed k d).slew[k]).dwellEnd d s.timebase = some (o.at_ + 1000) := by
    rw [at_, SlewRec.dwellEnd, last]
    dsimp only
    exact if_pos (by rw [opposite, beq_self_eq_true, Bool.true_and]; exact decide_eq_true recent)
  show (match ((s.aimed k d).slew[k]).dwellEnd d s.timebase with
    | some due => (s.aimed k d).modSlew k fun r => { r.noDrive with state := .reverseDwell, dwell := .running due }
    | none => (s.aimed k d).enterAwait k).slew[k] = _
  rw [due]
  dsimp only
  rw [modSlew_same, at_]
  rfl

/-- With no such dwell the record waits for power (R78). -/
theorem dwellOrAwait_awaits {d : Dir} (h : ∀ o : DriveOff, (s.slew[k]).lastOff = some o → o.dir = d.opposite → o.at_ + 1000 ≤ s.timebase) :
    s.dwellOrAwait k d = (s.aimed k d).enterAwait k := by
  have at_ : (s.aimed k d).slew[k] = { s.slew[k] with dir := some d, settleCount := 0 } := modSlew_same s k _
  have none_ : ((s.aimed k d).slew[k]).dwellEnd d s.timebase = none := by
    rw [at_, SlewRec.dwellEnd]
    cases last : (s.slew[k]).lastOff with
    | none => rfl
    | some o =>
      refine if_neg fun test => ?_
      rw [Bool.and_eq_true, beq_iff_eq, decide_eq_true_eq] at test
      have := h o last test.1
      have := test.2
      omega
  show (match ((s.aimed k d).slew[k]).dwellEnd d s.timebase with
    | some due => (s.aimed k d).modSlew k fun r => { r.noDrive with state := .reverseDwell, dwell := .running due }
    | none => (s.aimed k d).enterAwait k) = _
  rw [none_]

end

/-- A drive started from the azimuth held toward a target, as R73, R78, R79 and R80 give it. -/
theorem startDrive_started {s0 s : State} {k : Rot} {held target : Nat} (slews : Slews k s0 s)
    (last : (s.slew[k]).lastOff = (s0.slew[k]).lastOff) (settled : s0.isSettling = false) (azimuth : s0.heldAzimuth k = some held)
    (aim : (s.slew[k]).target = some target) :
    DriveStarted s0 (s.startDrive k (((s0.cfg.active.rot[k]).travel target : Int) - (s0.cfg.active.rot[k]).travel held)) k held
      target := by
  have azimuth' : s.heldAzimuth k = some held := slews.held.trans azimuth
  have cap := slewCap_of s k azimuth' aim
  rw [slews.cfg] at cap
  let e : Int := ((s0.cfg.active.rot[k]).travel target : Int) - (s0.cfg.active.rot[k]).travel held
  let d : Dir := dirOf e
  let c : Level := if (s0.cfg.active.rot[k]).pathCrosses held target then .off else .low
  let capped := s.modSlew k fun r => { r with cap := some c }
  have start : s.startDrive k e = capped.dwellOrAwait k d := by
    show (s.modSlew k fun r => { r with cap := some (s.slewCap k) }).dwellOrAwait k d = _
    rw [cap]
  have at_ : capped.slew[k] = { s.slew[k] with cap := some c } := modSlew_same s k _
  have capped_slews : Slews k s0 capped := slews_modSlew s _ slews
  show DriveStarted s0 (s.startDrive k e) k held target
  rw [start]
  have lastOff : (capped.slew[k]).lastOff = (s0.slew[k]).lastOff := by rw [at_]; exact last
  have waits (h : ∀ o : DriveOff, (s0.slew[k]).lastOff = some o → o.dir = d.opposite → o.at_ + 1000 ≤ s0.timebase) :
      ((capped.dwellOrAwait k d).slew[k]).cap = some c ∧
        if (capped.dwellOrAwait k d).powerOk k = false then
          ((capped.dwellOrAwait k d).slew[k]).state = .awaitPower ∧ ((capped.dwellOrAwait k d).slew[k]).dir = some d ∧
            ((capped.dwellOrAwait k d).slew[k]).powerWait = .running (s0.timebase + 5000)
        else if e.natAbs ≤ (s0.cfg.active.rot[k]).stopTol then
          ((capped.dwellOrAwait k d).slew[k]).state = .settle ∧ ((capped.dwellOrAwait k d).slew[k]).settleCount = 0
        else
          ((capped.dwellOrAwait k d).slew[k]).state = .drive ∧ ((capped.dwellOrAwait k d).slew[k]).dir = some d ∧
            ((capped.dwellOrAwait k d).slew[k]).speed = some (if (s0.cfg.active.rot[k]).creep < e.natAbs then .fast else .creep) := by
    have await := dwellOrAwait_awaits capped k (d := d) (by rw [lastOff, capped_slews.timebase]; exact h)
    have aimed_at : (capped.aimed k d).slew[k] = { capped.slew[k] with dir := some d, settleCount := 0 } := modSlew_same capped k _
    have aimed_slews : Slews k s0 (capped.aimed k d) := slews_modSlew _ _ capped_slews
    have aimed_cap : ((capped.aimed k d).slew[k]).cap = some c := by rw [aimed_at, at_]
    have aimed_dir : ((capped.aimed k d).slew[k]).dir = some d := by rw [aimed_at]
    have after : Slews k (capped.aimed k d) ((capped.aimed k d).enterAwait k) := slews_enterAwait _ (Slews.refl k _)
    have azimuth'' : (capped.aimed k d).heldAzimuth k = some held := aimed_slews.held.trans azimuth
    have error : (capped.aimed k d).slewError k = some e := by
      have := slewError_of (capped.aimed k d) k azimuth'' (target := target) (by rw [aimed_at, at_]; exact aim)
      rw [aimed_slews.cfg] at this
      exact this
    have settled' : (capped.aimed k d).isSettling = false := aimed_slews.settling.trans settled
    have params : (capped.aimed k d).params k = s0.cfg.active.rot[k] := aimed_slews.params
    rw [await]
    by_cases power : (capped.aimed k d).powerOk k = true
    · obtain ⟨near, far⟩ := enterAwait_drives (capped.aimed k d) k power settled' error azimuth''
      rw [params] at near far
      have same (h : (((capped.aimed k d).enterAwait k).slew[k]).cap = ((capped.aimed k d).slew[k]).cap) :
          ((capped.aimed k d).enterAwait k).powerOk k = true := (after.power h).trans power
      by_cases close : e.natAbs ≤ (s0.cfg.active.rot[k]).stopTol
      · obtain ⟨state, count, cap⟩ := near close
        rw [same cap, if_neg (by decide), if_pos close]
        exact ⟨cap.trans aimed_cap, state, count⟩
      · obtain ⟨state, cap, dir, speed⟩ := far (by omega)
        rw [same cap, if_neg (by decide), if_neg close]
        exact ⟨cap.trans aimed_cap, state, dir.trans aimed_dir, speed⟩
    · have power : (capped.aimed k d).powerOk k = false := by simpa using power
      have at_end := enterAwait_waits (capped.aimed k d) k (.inl power)
      have cap_end : (((capped.aimed k d).enterAwait k).slew[k]).cap = ((capped.aimed k d).slew[k]).cap := by rw [at_end]; rfl
      rw [after.power cap_end, if_pos power]
      refine ⟨cap_end.trans aimed_cap, ?_⟩
      rw [at_end]
      refine ⟨rfl, aimed_dir, ?_⟩
      dsimp only
      rw [aimed_slews.timebase]
  unfold DriveStarted
  dsimp only
  cases at_last : (s0.slew[k]).lastOff with
  | none => exact waits fun o h => absurd (at_last.symm.trans h).symm (Option.some_ne_none o)
  | some o =>
    by_cases dwells : o.dir = d.opposite ∧ s0.timebase < o.at_ + 1000
    · have test : (o.dir == d.opposite && decide (s0.timebase < o.at_ + 1000)) = true := by
        rw [Bool.and_eq_true, beq_iff_eq, decide_eq_true_eq]
        exact dwells
      have dwell := dwellOrAwait_dwells capped k (lastOff.trans at_last) dwells.1 (by rw [capped_slews.timebase]; exact dwells.2)
      have filtered : (some o).filter (fun o => o.dir == d.opposite && decide (s0.timebase < o.at_ + 1000)) = some o :=
        Option.filter_some_pos (p := fun o : DriveOff => o.dir == d.opposite && decide (s0.timebase < o.at_ + 1000)) test
      rw [show (if e < 0 then Dir.ccw else Dir.cw) = d from rfl, filtered, dwell, at_]
      exact ⟨rfl, rfl, rfl, rfl⟩
    · have test : ¬(o.dir == d.opposite && decide (s0.timebase < o.at_ + 1000)) = true := by
        rw [Bool.and_eq_true, beq_iff_eq, decide_eq_true_eq]
        exact dwells
      have filtered : (some o).filter (fun o => o.dir == d.opposite && decide (s0.timebase < o.at_ + 1000)) = none :=
        Option.filter_some_neg (p := fun o : DriveOff => o.dir == d.opposite && decide (s0.timebase < o.at_ + 1000))
          (Bool.eq_false_iff.mpr test)
      rw [show (if e < 0 then Dir.ccw else Dir.cw) = d from rfl, filtered]
      refine waits fun o' h opposite => ?_
      obtain rfl := Option.some.inj (at_last.symm.trans h)
      exact Nat.le_of_not_lt fun recent => dwells ⟨opposite, recent⟩

/-- A drive turned round: its end is recorded, and the dwell of 1 s begins (R76, R78, R80). -/
theorem reverseDrive_slew {s : State} {k : Rot} {held target : Nat} {x : Dir} (e : Int) (azimuth : s.heldAzimuth k = some held)
    (aim : (s.slew[k]).target = some target) (drive : (s.slew[k]).state = .drive) (dir : (s.slew[k]).dir = some x)
    (turns : against (some x) e = true) :
    ((s.reverseDrive k e).slew[k]).state = .reverseDwell ∧
      ((s.reverseDrive k e).slew[k]).dwell = .running (s.timebase + 1000) ∧
      ((s.reverseDrive k e).slew[k]).dir = some (dirOf e) ∧
      ((s.reverseDrive k e).slew[k]).cap = some (if (s.cfg.active.rot[k]).pathCrosses held target then .off else .low) ∧
      ((s.reverseDrive k e).slew[k]).lastOff = some ⟨s.timebase, x⟩ ∧
      ((s.reverseDrive k e).slew[k]).startTime = (s.slew[k]).startTime ∧
      ((s.reverseDrive k e).slew[k]).slewTimer = (s.slew[k]).slewTimer := by
  have cap := slewCap_of s k azimuth aim
  let c : Level := if (s.cfg.active.rot[k]).pathCrosses held target then .off else .low
  let v := s.modSlew k fun r => { (r.driveOff s.timebase).noDrive with cap := some c }
  have turn : s.reverseDrive k e = v.dwellOrAwait k (dirOf e) := by
    show (s.modSlew k fun r => { (r.driveOff s.timebase).noDrive with cap := some (s.slewCap k) }).dwellOrAwait k (dirOf e) = _
    rw [cap]
  have at_ : v.slew[k] = { ((s.slew[k]).driveOff s.timebase).noDrive with cap := some c } := modSlew_same s k _
  have last : (v.slew[k]).lastOff = some ⟨s.timebase, x⟩ := by
    rw [at_]
    exact driveOff_drive s.timebase drive dir
  have opposite : x = (dirOf e).opposite := by
    rcases (against_iff _ _).mp turns with ⟨cw, neg⟩ | ⟨ccw, pos⟩
    · rw [Option.some.inj cw, dirOf, if_pos neg]
      rfl
    · rw [Option.some.inj ccw, dirOf, if_neg (by omega)]
      rfl
  rw [turn, dwellOrAwait_dwells v k last opposite (Nat.lt_add_of_pos_right (by decide))]
  refine ⟨rfl, rfl, rfl, ?_, last, ?_, ?_⟩
  · show (v.slew[k]).cap = _
    rw [at_]
  · show (v.slew[k]).startTime = _
    rw [at_, driveOff_eq]
    rfl
  · show (v.slew[k]).slewTimer = _
    rw [at_, driveOff_eq]
    rfl

section
variable (s : State) (k : Rot)

/-! ## IN_POSITION -/

theorem enterInPosition_slew (attention report : Bool) :
    (s.enterInPosition k attention report).slew[k] = { (s.slew[k]).rest s.timebase .inPosition with reported := true } := by
  have at_ : (((s.modSlew k fun r => { r.rest s.timebase .inPosition with reported := true }).raiseIf attention .slew).slew[k]) =
      { (s.slew[k]).rest s.timebase .inPosition with reported := true } := by
    cases attention <;> exact modSlew_same s k fun r => { r.rest s.timebase .inPosition with reported := true }
  have same : (s.enterInPosition k attention report).slew =
      ((s.modSlew k fun r => { r.rest s.timebase .inPosition with reported := true }).raiseIf attention .slew).slew := by
    unfold State.enterInPosition
    dsimp only
    split
    · exact slewReport_slew _ _ _
    · rfl
  rw [same]
  exact at_

theorem enterInPosition_raised (report : Bool) : (s.enterInPosition k true report).raised .slew := by
  intro d
  unfold State.enterInPosition
  dsimp only
  split
  · rw [State.link, slewReport_links]
    exact raised_raise _ _ d
  · exact raised_raise _ _ d

/-! ## The rest of the frame -/

variable {z : State} {k}

theorem slews_enterInPosition (attention report : Bool) (h : Slews k z s) : Slews k z (s.enterInPosition k attention report) := by
  grind [State.enterInPosition, slews_modSlew, slews_raiseIf, slews_slewReport]

theorem slews_judgeSpeed (e : Int) (h : Slews k z s) : Slews k z (s.judgeSpeed k e) := by
  grind [State.judgeSpeed, slews_modSlew]

theorem slews_moveRefs (a : Nat) (h : Slews k z s) : Slews k z (s.moveRefs k a) := by
  unfold State.moveRefs
  exact slews_modSlew _ _ h

theorem slews_pursue (attention report : Bool) (h : Slews k z s) : Slews k z (s.pursue k attention report) := by
  grind [State.pursue, slews_enterInPosition, slews_restartSlew, slews_startDrive]

theorem slews_slewResume (h : Slews k z s) : Slews k z (s.slewResume k) := by
  grind [State.slewResume, slews_pursue]

theorem slews_driveFrame (a : Nat) (e : Int) (h : Slews k z s) : Slews k z (s.driveFrame k a e) := by
  grind [State.driveFrame, slews_slewFault, slews_enterSettle, slews_reverseDrive, slews_moveRefs, slews_judgeSpeed]

theorem slews_settleFrame (e : Int) (h : Slews k z s) : Slews k z (s.settleFrame k e) := by
  grind [State.settleFrame, slews_enterInPosition, slews_modSlew, slews_startDrive]

theorem slews_dwellFrame (e : Int) (h : Slews k z s) : Slews k z (s.dwellFrame k e) := by
  grind [State.dwellFrame, slews_enterSettle, slews_modSlew]

theorem slews_holdFrame (e : Int) (h : Slews k z s) : Slews k z (s.holdFrame k e) := by
  grind [State.holdFrame, slews_restartSlew, slews_startDrive, slews_raise]

theorem slews_slewGood (h : Slews k z s) : Slews k z (s.slewGood k) := by
  grind [State.slewGood, slews_slewResume, slews_driveFrame, slews_settleFrame, slews_dwellFrame, slews_holdFrame]

theorem slews_slewInvalid (h : Slews k z s) : Slews k z (s.slewInvalid k) := by
  grind [State.slewInvalid, slews_slewFault]

theorem slews_slewBad (h : Slews k z s) : Slews k z (s.slewBad k) := by
  grind [State.slewBad, slews_slewInvalid, slews_modSlew]

end

end Sys2Proof.Machine
end

