-- ==== Sys2Proof/Proofs/SensorFrames.lean ====
section
/-! PROOF. The frames of the rotators: the position record (R53, R57 to R62) and what a good or a bad frame does to the slew record
(R77 to R84). -/

namespace Sys2Proof.Machine

/-! ## A wait of settling met -/

/-- Nothing has changed but the settling record and what its end gives to the blocks. -/
def Meets (a b : State) : Prop :=
  { b with cfg := { b.cfg with settling := a.cfg.settling }, notices := a.notices, run := a.run } = a

theorem Meets.out {a b : State} (h : Meets a b) :
    { b with cfg := { b.cfg with settling := a.cfg.settling }, notices := a.notices, run := a.run } = a := h

section
variable {a b : State} (h : Meets a b)
include h

theorem Meets.links : b.links = a.links := by
  have same := congrArg State.links h.out
  exact same

theorem Meets.rot : b.rot = a.rot := by
  have same := congrArg State.rot h.out
  exact same

theorem Meets.slew : b.slew = a.slew := by
  have same := congrArg State.slew h.out
  exact same

theorem Meets.mx : b.mx = a.mx := by
  have same := congrArg State.mx h.out
  exact same

theorem Meets.tx : b.tx = a.tx := by
  have same := congrArg State.tx h.out
  exact same

theorem Meets.raised {x : Attn} (r : a.raised x) : b.raised x := fun d => by
  rw [State.link, h.links]
  exact r d

end

theorem meets_settleCheck (s : State) : Meets s s.settleCheck := by
  unfold State.settleCheck
  split
  · split
    · rfl
    · rfl
  · rfl

theorem meets_modSettling (s : State) (f : Settling → Settling) : Meets s (s.modSettling f) := by
  have check := meets_settleCheck (s.modCfg fun c => { c with settling := c.settling.map f })
  have first := congrArg (fun x : State => { x with cfg := { x.cfg with settling := s.cfg.settling } }) check.out
  exact first

/-- Outside settling no wait is met. -/
theorem modSettling_settled (s : State) (f : Settling → Settling) (settled : s.isSettling = false) : s.modSettling f = s := by
  have none_ : s.cfg.settling = none := by
    cases at_ : s.cfg.settling with
    | none => rfl
    | some x => rw [State.isSettling, at_] at settled; exact absurd settled Bool.noConfusion
  have same : (s.modCfg fun c => { c with settling := c.settling.map f }) = s := by
    have cfg : { s.cfg with settling := s.cfg.settling.map f } = s.cfg := by rw [none_, Option.map_none, ← none_]
    exact congrArg (fun c : ConfigStore => { s with cfg := c }) cfg
  rw [State.modSettling, same, State.settleCheck, none_]

/-! ## The position record -/

section
variable (r : RotRec) (p : RotParams) (f : SensorFrame) (now : Nat)

/-- The fields that every accepted frame writes (R53). -/
theorem take_raw : (r.take p f now).rawF = some f.phiF.toNat ∧ (r.take p f now).rawV = some f.phiV.toNat ∧
    (r.take p f now).frameTimer = .running (now + 100) := by
  have bad (x : RotRec) (why : BadReason) : (x.bad why).rawF = x.rawF ∧ (x.bad why).rawV = x.rawV ∧
      (x.bad why).frameTimer = x.frameTimer := by
    unfold RotRec.bad
    split
    · exact ⟨rfl, rfl, rfl⟩
    · split <;> exact ⟨rfl, rfl, rfl⟩
  unfold RotRec.take
  dsimp only
  split
  · exact bad _ _
  · split
    · exact ⟨rfl, rfl, rfl⟩
    · exact bad _ _

theorem frameGood_iff :
    frameGood p f = true ↔ f.sensorOk = true ∧ (p.residual f.phiF.toNat f.phiV.toNat).natAbs ≤ p.tol := by
  rw [frameGood, Bool.and_eq_true, RotParams.isGood, decide_eq_true_eq]

variable {p f}

theorem take_good (good : frameGood p f = true) : r.take p f now =
    RotRec.good { r with rawF := some f.phiF.toNat, rawV := some f.phiV.toNat, frameTimer := .running (now + 100) } p f.phiF.toNat
      f.phiV.toNat now := by
  rw [frameGood, Bool.and_eq_true] at good
  simp only [RotRec.take, good.1, good.2, Bool.not_true, Bool.false_eq_true, if_false, if_true]

theorem take_residual (ok : f.sensorOk = true) : (r.take p f now).residual = some (p.residual f.phiF.toNat f.phiV.toNat) := by
  have bad (x : RotRec) (why : BadReason) : (x.bad why).residual = x.residual := by
    unfold RotRec.bad
    split
    · rfl
    · split <;> rfl
  simp only [RotRec.take, ok, Bool.not_true, Bool.false_eq_true, if_false]
  split
  · rfl
  · exact bad _ _

/-- What a bad frame holds and how it moves the validity (R61). -/
theorem bad_fields (x : RotRec) (why : BadReason) :
    ((x.bad why).azimuth = x.azimuth ∧ (x.bad why).sensor = x.sensor ∧ (x.bad why).fine = x.fine ∧ (x.bad why).period = x.period ∧
      (x.bad why).goodTime = x.goodTime ∧ (x.bad why).lastBad = some why) ∧
    (x.validity = .valid → x.badCount = 0 → (x.bad why).validity = .suspect ∧ (x.bad why).badCount = 1) ∧
    (x.validity = .suspect → x.badCount = 1 → (x.bad why).validity = .suspect ∧ (x.bad why).badCount = 2) ∧
    (x.validity = .suspect → x.badCount = 2 → (x.bad why).validity = .invalid ∧ (x.bad why).badCount = 3) ∧
    (x.validity = .invalid → (x.bad why).validity = .invalid ∧ (x.bad why).badCount = 3) := by
  unfold RotRec.bad
  split
  · next invalid => simp [invalid]
  · next valid =>
    split
    · next three =>
      refine ⟨⟨rfl, rfl, rfl, rfl, rfl, rfl⟩, fun _ h => ?_, fun _ h => ?_, fun _ _ => ⟨rfl, rfl⟩, fun h => absurd h valid⟩
      · omega
      · omega
    · next few =>
      refine ⟨⟨rfl, rfl, rfl, rfl, rfl, rfl⟩, fun _ h => ⟨rfl, ?_⟩, fun _ h => ⟨rfl, ?_⟩, fun _ h => ?_, fun h => absurd h valid⟩
      · rw [h]
      · rw [h]
      · omega

/-- A bad frame is the record's own, with the residual where the sensor answered, judged bad. -/
theorem take_bad (bad : frameGood p f = false) : ∃ x : RotRec,
    r.take p f now = x.bad (if f.sensorOk then .residual else .sensorNotOk) ∧ x.validity = r.validity ∧ x.badCount = r.badCount ∧
      x.azimuth = r.azimuth ∧ x.sensor = r.sensor ∧ x.fine = r.fine ∧ x.period = r.period ∧ x.goodTime = r.goodTime := by
  cases ok : f.sensorOk with
  | false =>
    simp only [RotRec.take, ok, Bool.not_false, if_true]
    exact ⟨_, rfl, rfl, rfl, rfl, rfl, rfl, rfl, rfl⟩
  | true =>
    have far : p.isGood f.phiF.toNat f.phiV.toNat = false := by rw [frameGood, ok, Bool.true_and] at bad; exact bad
    simp only [RotRec.take, ok, far, Bool.not_true, Bool.false_eq_true, if_false, if_true]
    exact ⟨_, rfl, rfl, rfl, rfl, rfl, rfl, rfl, rfl⟩

end

/-! ## A frame taken -/

section
variable (s : State) (k : Rot) (f : SensorFrame)

theorem takeFrame_calm : Calm (s.modRot k fun _ => (s.rot[k]).take (s.params k) f s.timebase) (s.takeFrame k f) :=
  calm_raiseIf _ _ _ (Calm.refl _)

theorem takeFrame_same : (s.takeFrame k f).rot[k] = (s.rot[k]).take (s.params k) f s.timebase := by
  have rot : (s.takeFrame k f).rot = s.rot.set k ((s.rot[k]).take (s.params k) f s.timebase) := by
    unfold State.takeFrame
    dsimp only
    cases validityRaises (s.rot[k]).validity ((s.rot[k]).take (s.params k) f s.timebase).validity <;> rfl
  simp only [rot, getElem_set_fin, if_true]

theorem takeFrame_other {j : Rot} (h : j ≠ k) : (s.takeFrame k f).rot[j] = s.rot[j] := by
  have rot : (s.takeFrame k f).rot = s.rot.set k ((s.rot[k]).take (s.params k) f s.timebase) := by
    unfold State.takeFrame
    dsimp only
    cases validityRaises (s.rot[k]).validity ((s.rot[k]).take (s.params k) f s.timebase).validity <;> rfl
  simp only [rot, getElem_set_fin, if_neg h]

theorem takeFrame_outside : { s.takeFrame k f with rot := s.rot, links := s.links } = s := by
  unfold State.takeFrame
  dsimp only
  cases validityRaises (s.rot[k]).validity ((s.rot[k]).take (s.params k) f s.timebase).validity <;> rfl

theorem takeFrame_raised (h : validityRaises (s.rot[k]).validity ((s.rot[k]).take (s.params k) f s.timebase).validity = true) :
    (s.takeFrame k f).raised .rotator := by
  unfold State.takeFrame
  dsimp only
  rw [h]
  exact raised_raise _ _

end

/-! ## What a good frame does to the record -/

/-- The azimuth is 10 tenths or more back from the furthest point of the drive (R83). -/
def WrongWay (r : SlewRec) (t : Nat) : Prop :=
  ∃ x : Nat, r.furthest = some x ∧ ((r.dir = some .cw ∧ t + 10 ≤ x) ∨ (r.dir = some .ccw ∧ x + 10 ≤ t))

theorem wrong_iff {r : SlewRec} (t : Nat) (driven : r.dir.isSome = true) :
    (match r.furthest with | some u => decide (ahead r.dir t u ≤ -10) | none => false) = true ↔ WrongWay r t := by
  unfold WrongWay
  cases far : r.furthest with
  | none => simp
  | some u =>
    cases dir : r.dir with
    | none => rw [dir] at driven; exact absurd driven (by decide)
    | some x =>
      show decide (ahead (some x) t u ≤ -10) = true ↔ _
      rw [decide_eq_true_eq]
      cases x with
      | cw =>
        have test : ahead (some .cw) t u ≤ -10 ↔ t + 10 ≤ u := by
          show (t : Int) - u ≤ -10 ↔ _
          omega
        simp [test]
      | ccw =>
        have test : ahead (some .ccw) t u ≤ -10 ↔ u + 10 ≤ t := by
          show (u : Int) - t ≤ -10 ↔ _
          omega
        simp [test]

section
variable {s : State} {k : Rot} {e : Int} {a : Nat}

theorem driveFrame_wrong (driven : (s.slew[k]).dir.isSome = true) (wrong : WrongWay s.slew[k] ((s.params k).travel a)) :
    s.driveFrame k a e = s.slewFault k .wrongDirection := if_pos ((wrong_iff _ driven).mpr wrong)

theorem driveFrame_right (driven : (s.slew[k]).dir.isSome = true) (right : ¬WrongWay s.slew[k] ((s.params k).travel a)) :
    s.driveFrame k a e =
      if e.natAbs ≤ (s.params k).stopTol then s.enterSettle k
      else if against (s.slew[k]).dir e then s.reverseDrive k e else (s.moveRefs k a).judgeSpeed k e :=
  if_neg fun h => right ((wrong_iff _ driven).mp h)

theorem moveRefs_slew (s : State) (k : Rot) (a : Nat) : ∃ (far near : Option Nat) (window : Timer),
    (s.moveRefs k a).slew[k] = { s.slew[k] with furthest := far, stallRef := near, stallWindow := window } := by
  unfold State.moveRefs
  dsimp only
  rw [modSlew_same]
  generalize s.slew[k] = r
  cases r.furthest with
  | none =>
    dsimp only
    split
    · split <;> exact ⟨_, _, _, rfl⟩
    · exact ⟨_, _, _, rfl⟩
  | some u =>
    dsimp only
    by_cases further : ahead r.dir ((s.params k).travel a) u > 0
    · simp only [if_pos further]
      split
      · split <;> exact ⟨_, _, _, rfl⟩
      · exact ⟨_, _, _, rfl⟩
    · simp only [if_neg further]
      split
      · split <;> exact ⟨_, _, _, rfl⟩
      · exact ⟨_, _, _, rfl⟩

theorem judgeSpeed_slew (s : State) (k : Rot) (e : Int) : ∃ (near : Option Nat) (window : Timer),
    (s.judgeSpeed k e).slew[k] =
      { s.slew[k] with speed := some (speedFor (s.params k) e), stallRef := near, stallWindow := window } := by
  unfold State.judgeSpeed
  dsimp only
  by_cases same : (s.slew[k]).speed = some (speedFor (s.params k) e)
  · rw [if_pos (beq_iff_eq.mpr same), ← same]
    exact ⟨_, _, rfl⟩
  · rw [if_neg fun h => same (beq_iff_eq.mp h)]
    exact ⟨_, _, modSlew_same s k _⟩

end

end Sys2Proof.Machine
end

