-- ==== Sys2Proof/Proofs/FrameEvents.lean ====
section
/-! PROOF. A good frame by the state of the slew record, and SENSOR_FRAME and FRAME_TIMEOUT (R53, R60 to R62, R77 to R84). -/

namespace Sys2Proof.Machine

/-- The error of a target from an azimuth held (R73). -/
def State.errorTo (s : State) (k : Rot) (target held : Nat) : Int :=
  ((s.cfg.active.rot[k]).travel target : Int) - (s.cfg.active.rot[k]).travel held

/-! ## A good frame by the state of the record -/

section
variable {s : State} {k : Rot} {held target : Nat} (azimuth : s.heldAzimuth k = some held)
  (aim : (s.slew[k]).target = some target) (settled : s.isSettling = false)
include azimuth aim

theorem slewGood_drive (h : (s.slew[k]).state = .drive) : s.slewGood k = s.driveFrame k held (s.errorTo k target held) := by
  rw [State.slewGood, slewError_of s k azimuth aim, azimuth]
  dsimp only
  rw [h]
  rfl

theorem slewGood_settle (h : (s.slew[k]).state = .settle) : s.slewGood k = s.settleFrame k (s.errorTo k target held) := by
  rw [State.slewGood, slewError_of s k azimuth aim, azimuth]
  dsimp only
  rw [h]
  rfl

theorem slewGood_dwell (h : (s.slew[k]).state = .reverseDwell) : s.slewGood k = s.dwellFrame k (s.errorTo k target held) := by
  rw [State.slewGood, slewError_of s k azimuth aim, azimuth]
  dsimp only
  rw [h]
  rfl

theorem slewGood_hold (h : (s.slew[k]).state = .inPosition) : s.slewGood k = s.holdFrame k (s.errorTo k target held) := by
  rw [State.slewGood, slewError_of s k azimuth aim, azimuth]
  dsimp only
  rw [h]
  rfl

theorem slewGood_idle (h : (s.slew[k]).state = .idle) : s.slewGood k = s.slewResume k := by
  rw [State.slewGood, slewError_of s k azimuth aim, azimuth]
  dsimp only
  rw [h]

theorem slewGood_stays (h : (s.slew[k]).state = .awaitPower ∨ (s.slew[k]).state = .fault) : s.slewGood k = s := by
  rw [State.slewGood, slewError_of s k azimuth aim, azimuth]
  dsimp only
  rcases h with h | h <;> rw [h]

/-- A good frame in DRIVE (R80, R82, R83). -/
theorem good_in_drive (drive : (s.slew[k]).state = .drive) (driven : (s.slew[k]).dir.isSome = true) :
    let p := s.cfg.active.rot[k]
    let e := s.errorTo k target held
    let w := s.slew[k]
    let v := (s.slewGood k).slew[k]
    let wrong := WrongWay w (p.travel held)
    let turns := (w.dir = some .cw ∧ e < 0) ∨ (w.dir = some .ccw ∧ 0 < e)
    (wrong → v.state = .fault ∧ v.fault = some .wrongDirection ∧ v.cap = none ∧ (s.slewGood k).raised .slew) ∧
    (¬wrong → e.natAbs ≤ p.stopTol → v.state = .settle ∧ v.cap = w.cap ∧ v.settleCount = 0) ∧
    (¬wrong → ¬e.natAbs ≤ p.stopTol → turns →
      v.state = .reverseDwell ∧ v.dwell = .running (s.timebase + 1000) ∧ v.dir = some (dirOf e) ∧
        v.cap = some (if p.pathCrosses held target then .off else .low)) ∧
    (¬wrong → ¬e.natAbs ≤ p.stopTol → ¬turns → v.state = .drive ∧ v.cap = w.cap ∧ v.dir = w.dir ∧ v.lastOff = w.lastOff ∧
      v.speed = some (if p.creep < e.natAbs then .fast else .creep)) ∧
    (wrong ∨ e.natAbs ≤ p.stopTol ∨ turns → ∀ x : Dir, w.dir = some x → v.lastOff = some ⟨s.timebase, x⟩) := by
  intro p e w v wrong turns
  have good := slewGood_drive azimuth aim drive
  have turn : turns ↔ against w.dir e = true := (against_iff _ _).symm
  have asWrong (h : wrong) : s.slewGood k = s.slewFault k .wrongDirection := good.trans (driveFrame_wrong driven h)
  have asRight (h : ¬wrong) := good.trans (driveFrame_right (e := e) driven h)
  have near (h : ¬wrong) (close : e.natAbs ≤ p.stopTol) : s.slewGood k = s.enterSettle k := (asRight h).trans (if_pos close)
  have far (h : ¬wrong) (off : ¬e.natAbs ≤ p.stopTol) := (asRight h).trans (if_neg off)
  obtain ⟨x, dir⟩ := Option.isSome_iff_exists.mp driven
  have reversed (h : ¬wrong) (off : ¬e.natAbs ≤ p.stopTol) (t : turns) : s.slewGood k = s.reverseDrive k e :=
    (far h off).trans (if_pos (turn.mp t))
  have back (t : turns) := reverseDrive_slew e azimuth aim drive dir (by rw [← dir]; exact turn.mp t)
  refine ⟨fun h => ?_, fun h close => ?_, fun h off t => ?_, fun h off t => ?_, fun h x' dir' => ?_⟩
  · have fault := slewFault_slew s k .wrongDirection
    rw [← asWrong h, rest_eq] at fault
    refine ⟨congrArg SlewRec.state fault, congrArg SlewRec.fault fault, congrArg SlewRec.cap fault, ?_⟩
    rw [asWrong h]
    exact slewFault_raised s k _
  · have settle := enterSettle_slew s k
    rw [← near h close] at settle
    exact ⟨congrArg SlewRec.state settle, (congrArg SlewRec.cap settle).trans rfl, congrArg SlewRec.settleCount settle⟩
  · obtain ⟨state, dwell, dir, cap, -⟩ := back t
    rw [← reversed h off t] at state dwell dir cap
    exact ⟨state, dwell, dir, cap⟩
  · have goes : s.slewGood k = (s.moveRefs k held).judgeSpeed k e :=
      (far h off).trans (if_neg fun test => t (turn.mpr test))
    obtain ⟨f, n, window, moved⟩ := moveRefs_slew s k held
    obtain ⟨n', window', judged⟩ := judgeSpeed_slew (s.moveRefs k held) k e
    rw [← goes, moved] at judged
    have params : (s.moveRefs k held).params k = p := (slews_moveRefs s held (Slews.refl k s)).params
    rw [params] at judged
    exact ⟨(congrArg SlewRec.state judged).trans drive, (congrArg SlewRec.cap judged).trans rfl,
      (congrArg SlewRec.dir judged).trans rfl, (congrArg SlewRec.lastOff judged).trans rfl, congrArg SlewRec.speed judged⟩
  · obtain rfl := Option.some.inj (dir.symm.trans dir')
    by_cases wrongly : wrong
    · have fault := slewFault_slew s k .wrongDirection
      rw [← asWrong wrongly, rest_eq] at fault
      exact (congrArg SlewRec.lastOff fault).trans (driveOff_drive _ drive dir)
    · by_cases close : e.natAbs ≤ p.stopTol
      · have settle := enterSettle_slew s k
        rw [← near wrongly close] at settle
        exact (congrArg SlewRec.lastOff settle).trans (driveOff_drive _ drive dir)
      · have t : turns := (h.resolve_left wrongly).resolve_left close
        obtain ⟨-, -, -, -, last, -⟩ := back t
        rw [← reversed wrongly close t] at last
        exact last

include settled

/-- A good frame in SETTLE (R81). -/
theorem good_in_settle (settle : (s.slew[k]).state = .settle) :
    let p := s.cfg.active.rot[k]
    let e := s.errorTo k target held
    let w := s.slew[k]
    let v := (s.slewGood k).slew[k]
    (e.natAbs ≤ p.stopTol → 2 ≤ w.settleCount →
      v.state = .inPosition ∧ v.cap = none ∧ v.slewTimer = .idle ∧ (s.slewGood k).raised .slew) ∧
    (e.natAbs ≤ p.stopTol → w.settleCount < 2 → v = { w with settleCount := w.settleCount + 1 }) ∧
    (¬e.natAbs ≤ p.stopTol → e.natAbs ≤ max p.hold (p.stopTol + 1) → v = { w with settleCount := 0 }) ∧
    (max p.hold (p.stopTol + 1) < e.natAbs → DriveStarted s (s.slewGood k) k held target) := by
  intro p e w v
  have good := slewGood_settle azimuth aim settle
  have near (close : e.natAbs ≤ p.stopTol) := good.trans (if_pos close)
  have far (off : ¬e.natAbs ≤ p.stopTol) := good.trans (if_neg off)
  refine ⟨fun close three => ?_, fun close few => ?_, fun off band => ?_, fun band => ?_⟩
  · have enters : s.slewGood k = s.enterInPosition k true true := (near close).trans (if_pos (Nat.succ_le_succ three))
    have held_ := enterInPosition_slew s k true true
    rw [← enters, rest_eq] at held_
    refine ⟨congrArg SlewRec.state held_, congrArg SlewRec.cap held_, congrArg SlewRec.slewTimer held_, ?_⟩
    rw [enters]
    exact enterInPosition_raised s k true
  · have counts : s.slewGood k = s.modSlew k fun r => { r with settleCount := r.settleCount + 1 } :=
      (near close).trans (if_neg (Nat.not_le_of_lt (Nat.succ_lt_succ few)))
    show (s.slewGood k).slew[k] = _
    rw [counts]
    exact modSlew_same s k _
  · have again : s.slewGood k = s.modSlew k fun r => { r with settleCount := 0 } := (far off).trans (if_pos band)
    show (s.slewGood k).slew[k] = _
    rw [again]
    exact modSlew_same s k _
  · have starts : s.slewGood k = s.startDrive k e :=
      (far (by omega)).trans (if_neg (by show ¬e.natAbs ≤ max p.hold (p.stopTol + 1); omega))
    rw [starts]
    exact startDrive_started (Slews.refl k s) rfl settled azimuth aim

omit settled

/-- A good frame in REVERSE_DWELL (R78). -/
theorem good_in_dwell (dwell : (s.slew[k]).state = .reverseDwell) :
    let p := s.cfg.active.rot[k]
    let e := s.errorTo k target held
    let w := s.slew[k]
    let v := (s.slewGood k).slew[k]
    let turns := (w.dir = some .cw ∧ e < 0) ∨ (w.dir = some .ccw ∧ 0 < e)
    (e.natAbs ≤ p.stopTol → v.state = .settle ∧ v.cap = w.cap ∧ v.settleCount = 0) ∧
    (¬e.natAbs ≤ p.stopTol → turns →
      v = { w with dir := some (dirOf e), cap := some (if p.pathCrosses held target then .off else .low) }) ∧
    (¬e.natAbs ≤ p.stopTol → ¬turns → v = w) := by
  intro p e w v turns
  have good := slewGood_dwell azimuth aim dwell
  have turn : turns ↔ against w.dir e = true := (against_iff _ _).symm
  have far (off : ¬e.natAbs ≤ p.stopTol) := good.trans (if_neg off)
  refine ⟨fun close => ?_, fun off t => ?_, fun off t => ?_⟩
  · have enters : s.slewGood k = s.enterSettle k := good.trans (if_pos close)
    have settle := enterSettle_slew s k
    rw [← enters] at settle
    exact ⟨congrArg SlewRec.state settle, (congrArg SlewRec.cap settle).trans rfl, congrArg SlewRec.settleCount settle⟩
  · have turned : s.slewGood k = s.modSlew k fun r => { r with dir := some (dirOf e), cap := some (s.slewCap k) } :=
      (far off).trans (if_pos (turn.mp t))
    rw [slewCap_of s k azimuth aim] at turned
    show (s.slewGood k).slew[k] = _
    rw [turned]
    exact modSlew_same s k _
  · have stays : s.slewGood k = s := (far off).trans (if_neg fun test => t (turn.mpr test))
    show (s.slewGood k).slew[k] = _
    rw [stays]

end

/-! ## Starts -/

/-- AWAIT_POWER entered keeps the start time and the slew timer where the position is not INVALID (R84). -/
theorem enterAwait_start {s : State} {k : Rot} {held : Nat} (azimuth : s.heldAzimuth k = some held) :
    ((s.enterAwait k).slew[k]).startTime = (s.slew[k]).startTime ∧ ((s.enterAwait k).slew[k]).slewTimer = (s.slew[k]).slewTimer := by
  let v := s.modSlew k fun r => { r.noDrive with state := .awaitPower, powerWait := s.startTimer 5000 }
  have at_ : v.slew[k] = { (s.slew[k]).noDrive with state := .awaitPower, powerWait := s.startTimer 5000 } := modSlew_same s k _
  have kept : (v.slew[k]).startTime = (s.slew[k]).startTime ∧ (v.slew[k]).slewTimer = (s.slew[k]).slewTimer := by
    rw [at_]
    exact ⟨rfl, rfl⟩
  have valid : ¬((v.rot[k]).validity == .invalid) = true := by
    intro invalid
    have invalid : ((s.rot[k]).validity == .invalid) = true := invalid
    rw [State.heldAzimuth, if_pos invalid] at azimuth
    exact absurd azimuth.symm (Option.some_ne_none held)
  show ((v.judgePower k).slew[k]).startTime = _ ∧ ((v.judgePower k).slew[k]).slewTimer = _
  unfold State.judgePower
  split
  · -- the test of the position is decided by `valid`
    unfold State.enterDrive
    split
    · split
      · rw [enterSettle_slew]
        exact kept
      · rw [modSlew_same]
        exact kept
    · exact kept
  · exact kept

theorem startDrive_start {s : State} {k : Rot} {held : Nat} (azimuth : s.heldAzimuth k = some held) (e : Int) :
    ((s.startDrive k e).slew[k]).startTime = (s.slew[k]).startTime ∧
      ((s.startDrive k e).slew[k]).slewTimer = (s.slew[k]).slewTimer := by
  let v := s.modSlew k fun r => { r with cap := some (s.slewCap k) }
  have at_ : v.slew[k] = { s.slew[k] with cap := some (s.slewCap k) } := modSlew_same s k _
  have aimed_at : (v.aimed k (dirOf e)).slew[k] = { v.slew[k] with dir := some (dirOf e), settleCount := 0 } := modSlew_same v k _
  have kept : ((v.aimed k (dirOf e)).slew[k]).startTime = (s.slew[k]).startTime ∧
      ((v.aimed k (dirOf e)).slew[k]).slewTimer = (s.slew[k]).slewTimer := by
    rw [aimed_at, at_]
    exact ⟨rfl, rfl⟩
  have slews : Slews k s (v.aimed k (dirOf e)) := slews_modSlew _ _ (slews_modSlew _ _ (Slews.refl k s))
  show ((v.dwellOrAwait k (dirOf e)).slew[k]).startTime = _ ∧ ((v.dwellOrAwait k (dirOf e)).slew[k]).slewTimer = _
  unfold State.dwellOrAwait
  dsimp only
  split
  · rw [modSlew_same]
    exact kept
  · have after := enterAwait_start (slews.held.trans azimuth)
    exact ⟨after.1.trans kept.1, after.2.trans kept.2⟩

theorem restartSlew_slew (s : State) (k : Rot) : (s.restartSlew k).slew[k] =
    { s.slew[k] with startTime := some s.timebase, slewTimer := .running (s.timebase + 1000 * (s.params k).maxSlew) } :=
  modSlew_same s k _

section
variable {s : State} {k : Rot} {held target : Nat} (azimuth : s.heldAzimuth k = some held)
include azimuth

/-- A drive started afresh: a new start time, and the drive from it (R76, R78, R84). -/
theorem fresh_from {v : State} (slews : Slews k s v) (last : (v.slew[k]).lastOff = (s.slew[k]).lastOff)
    (aim : (v.slew[k]).target = some target) (settled : s.isSettling = false) :
    let u := (v.restartSlew k).startDrive k (s.errorTo k target held)
    ((u.slew[k]).startTime = some s.timebase ∧
      (u.slew[k]).slewTimer = .running (s.timebase + 1000 * (s.cfg.active.rot[k]).maxSlew)) ∧ DriveStarted s u k held target := by
  have restarted := restartSlew_slew v k
  rw [slews.timebase, slews.params] at restarted
  have slews' : Slews k s (v.restartSlew k) := slews_restartSlew v slews
  obtain ⟨time, timer⟩ := startDrive_start (slews'.held.trans azimuth) (s.errorTo k target held)
  refine ⟨⟨time.trans (congrArg SlewRec.startTime restarted), timer.trans (congrArg SlewRec.slewTimer restarted)⟩,
    startDrive_started slews' ?_ settled azimuth ?_⟩
  · rw [restarted]
    exact last
  · rw [restarted]
    exact aim

/-- A target taken up again: within the stop tolerance the record is IN_POSITION, else a drive starts with a new start time (R76). -/
theorem pursue_from {v : State} (slews : Slews k s v) (last : (v.slew[k]).lastOff = (s.slew[k]).lastOff)
    (aim' : (v.slew[k]).target = some target) (settled : s.isSettling = false) (attention report : Bool) :
    let p := s.cfg.active.rot[k]
    let e := s.errorTo k target held
    let u := v.pursue k attention report
    (e.natAbs ≤ p.stopTol → (u.slew[k]).state = .inPosition ∧ (u.slew[k]).cap = none) ∧
    (¬e.natAbs ≤ p.stopTol →
      ((u.slew[k]).startTime = some s.timebase ∧ (u.slew[k]).slewTimer = .running (s.timebase + 1000 * p.maxSlew)) ∧
        DriveStarted s u k held target) := by
  intro p e u
  have error : v.slewError k = some e := by
    have := slewError_of v k (slews.held.trans azimuth) aim'
    rw [slews.cfg] at this
    exact this
  have pursued : u = if e.natAbs ≤ (v.params k).stopTol then v.enterInPosition k attention report
      else (v.restartSlew k).startDrive k e := by
    show v.pursue k attention report = _
    rw [State.pursue, error]
  rw [slews.params] at pursued
  refine ⟨fun close => ?_, fun off => ?_⟩
  · have held_ := enterInPosition_slew v k attention report
    rw [← pursued.trans (if_pos close), rest_eq] at held_
    exact ⟨congrArg SlewRec.state held_, congrArg SlewRec.cap held_⟩
  · rw [pursued.trans (if_neg off)]
    exact fresh_from azimuth slews last aim' settled

/-- A good frame in IN_POSITION (R81). -/
theorem good_in_position (aim : (s.slew[k]).target = some target) (settled : s.isSettling = false)
    (holds : (s.slew[k]).state = .inPosition) :
    let p := s.cfg.active.rot[k]
    let e := s.errorTo k target held
    let u := s.slewGood k
    let band := max p.hold (p.stopTol + 1)
    (band < e.natAbs → s.drivesAllowed = true →
      ((u.slew[k]).startTime = some s.timebase ∧ (u.slew[k]).slewTimer = .running (s.timebase + 1000 * p.maxSlew)) ∧
        DriveStarted s u k held target ∧ u.raised .slew) ∧
    ((e.natAbs ≤ band ∨ ¬s.drivesAllowed = true) → u.slew[k] = s.slew[k]) := by
  intro p e u band
  have good : u = if e.natAbs > band && s.drivesAllowed && !s.isSettling then ((s.restartSlew k).startDrive k e).raise .slew else s :=
    slewGood_hold azimuth aim holds
  rw [settled] at good
  refine ⟨fun far allowed => ?_, fun h => ?_⟩
  · rw [good, if_pos (by rw [allowed, decide_eq_true far]; rfl)]
    obtain ⟨fresh, started⟩ := fresh_from azimuth (Slews.refl k s) rfl aim settled
    exact ⟨fresh, started.congr rfl rfl rfl rfl rfl, raised_raise _ _⟩
  · rw [good, if_neg]
    intro test
    rw [Bool.and_eq_true, Bool.and_eq_true, decide_eq_true_eq] at test
    exact h.elim (fun near => absurd test.1.1 (Nat.not_lt_of_le near)) fun held_ => held_ test.1.2

/-- A good frame in IDLE takes up a target held, where drives are allowed (R77). -/
theorem good_in_idle (aim : (s.slew[k]).target = some target) (settled : s.isSettling = false) (idle : (s.slew[k]).state = .idle) :
    let p := s.cfg.active.rot[k]
    let e := s.errorTo k target held
    let u := s.slewGood k
    (¬s.drivesAllowed = true → u.slew[k] = s.slew[k]) ∧
    (s.drivesAllowed = true → e.natAbs ≤ p.stopTol → (u.slew[k]).state = .inPosition ∧ (u.slew[k]).cap = none) ∧
    (s.drivesAllowed = true → ¬e.natAbs ≤ p.stopTol →
      ((u.slew[k]).startTime = some s.timebase ∧ (u.slew[k]).slewTimer = .running (s.timebase + 1000 * p.maxSlew)) ∧
        DriveStarted s u k held target) := by
  intro p e u
  have good : u = if s.drivesAllowed then s.pursue k false true else s := by
    refine (slewGood_idle azimuth aim idle).trans ?_
    rw [State.slewResume, idle, aim, settled]
    cases s.drivesAllowed <;> rfl
  obtain ⟨near, far⟩ := pursue_from azimuth (Slews.refl k s) rfl aim settled false true
  refine ⟨fun denied => ?_, fun allowed close => ?_, fun allowed off => ?_⟩
  · rw [good, if_neg denied]
  · rw [good, if_pos allowed]
    exact near close
  · rw [good, if_pos allowed]
    exact far off

end

end Sys2Proof.Machine
end

