-- ==== Sys2Proof/Proofs/SensorEvents.lean ====
section
/-! PROOF. SENSOR_FRAME and FRAME_TIMEOUT as events (R53, R60 to R62, R77 to R84). -/

namespace Sys2Proof.Machine

/-- A bad frame: a settle count begins again, and a slewing record fails where the position is INVALID by it (R81, R84). -/
theorem bad_frame (s : State) (k : Rot) (settled : s.isSettling = false) :
    let w := s.slew[k]
    let u := s.slewBad k
    ((s.rot[k]).validity ≠ .invalid → u.slew[k] = if w.state = .settle then { w with settleCount := 0 } else w) ∧
    ((s.rot[k]).validity = .invalid → w.state.slewing = true →
      (u.slew[k]).state = .fault ∧ (u.slew[k]).fault = some .positionInvalid ∧ (u.slew[k]).target = w.target ∧
        (u.slew[k]).cap = none ∧ u.raised .slew) ∧
    (w.state.slewing = false → u.slew[k] = w) := by
  intro w u
  let v := if w.state == .settle then s.modSlew k fun r => { r with settleCount := 0 } else s
  have slews : Slews k s v := by
    show Slews k s (if _ then _ else _)
    split
    · exact slews_modSlew s _ (Slews.refl k s)
    · exact Slews.refl k s
  have at_ : v.slew[k] = if w.state = .settle then { w with settleCount := 0 } else w := by
    by_cases settle : w.state = .settle
    · rw [show v = s.modSlew k fun r => { r with settleCount := 0 } from if_pos (beq_iff_eq.mpr settle), if_pos settle]
      exact modSlew_same s k _
    · rw [show v = s from if_neg fun h => settle (beq_iff_eq.mp h), if_neg settle]
  have state : (v.slew[k]).state = w.state := by rw [at_]; split <;> rfl
  have target : (v.slew[k]).target = w.target := by rw [at_]; split <;> rfl
  have bad : u = if (s.rot[k]).validity == .invalid then v.slewInvalid k else v := by
    have rot := slews.rot
    show (if (v.rot[k]).validity == .invalid then v.slewInvalid k else v) = _
    simp only [rot]
  have invalid_ (h : (s.rot[k]).validity = .invalid) : u = if w.state.slewing then v.slewFault k .positionInvalid else v := by
    refine (bad.trans (if_pos (beq_iff_eq.mpr h))).trans ?_
    rw [State.slewInvalid, state, slews.settling, settled]
    cases w.state.slewing <;> rfl
  refine ⟨fun valid => ?_, fun invalid slewing => ?_, fun rests => ?_⟩
  · rw [bad.trans (if_neg fun h => valid (beq_iff_eq.mp h)), at_]
  · rw [(invalid_ invalid).trans (if_pos slewing)]
    refine ⟨?_, ?_, ?_, ?_, slewFault_raised v k _⟩
    all_goals rw [slewFault_slew, rest_eq]
    exact target
  · have same : u.slew[k] = v.slew[k] := by
      by_cases invalid : (s.rot[k]).validity = .invalid
      · rw [(invalid_ invalid).trans (if_neg (by rw [rests]; exact Bool.false_ne_true))]
      · rw [bad.trans (if_neg fun h => invalid (beq_iff_eq.mp h))]
    have settle : w.state ≠ .settle := fun h => by rw [h] at rests; exact absurd rests (by decide)
    rw [same, at_, if_neg settle]

/-- What an accepted frame makes of the state, outside settling all of it. -/
def State.framed (s : State) (k : Rot) (f : SensorFrame) : State :=
  if frameGood (s.params k) f then (s.takeFrame k f).slewGood k else (s.takeFrame k f).slewBad k

section
variable (s : State) (k : Rot) (f : SensorFrame)

theorem framed_slews : Slews k (s.takeFrame k f) (s.framed k f) := by
  unfold State.framed
  split
  · exact slews_slewGood _ (Slews.refl k _)
  · exact slews_slewBad _ (Slews.refl k _)

theorem framed_calm : Calm (s.takeFrame k f) (s.framed k f) := by
  unfold State.framed
  split
  · exact calm_slewGood _ k (Calm.refl _)
  · exact calm_slewBad _ k (Calm.refl _)

theorem acceptFrame_meets : Meets (s.framed k f) (s.acceptFrame k f) := meets_modSettling _ _

theorem acceptFrame_settled (settled : s.isSettling = false) : s.acceptFrame k f = s.framed k f := by
  have cfg : (s.takeFrame k f).cfg = s.cfg := by
    have same := congrArg State.cfg (takeFrame_outside s k f)
    exact same
  refine modSettling_settled (s.framed k f) _ ?_
  rw [(framed_slews s k f).settling, State.isSettling, cfg]
  exact settled

end

/-- Settles O52: the frame is taken into the position record by the vernier rules and its tables, and the slew record moves on by its
state; an expiry of the frame timer acts at its moment. -/
theorem sensorFrames : Obligations.SensorFrames := by
  intro s k
  refine ⟨fun f h => ?_, fun f sound rotOk => ?_, fun due running => ?_, fun idle => ?_⟩
  · refine congrArg Host.Outcome.next (if_neg fun test => ?_)
    rw [Bool.and_eq_true] at test
    exact h.elim (fun h => absurd (test.1.symm.trans h) (by decide)) fun h => absurd (test.2.symm.trans h) (by decide)
  · intro p b good
    have accept : exec (.sensorFrame k f) s = .next (State.event s (s.acceptFrame k f)) :=
      congrArg Host.Outcome.next (if_pos (by rw [sound, rotOk]; rfl))
    have meets := acceptFrame_meets s k f
    have slews := framed_slews s k f
    have calm := framed_calm s k f
    have taken := takeFrame_calm s k f
    have outside := takeFrame_outside s k f
    have cfg : (s.takeFrame k f).cfg = s.cfg := by
      have same := congrArg State.cfg outside
      exact same
    have slew : (s.takeFrame k f).slew = s.slew := by
      have same := congrArg State.slew outside
      exact same
    have hall : (s.takeFrame k f).hall = s.hall := by
      have same := congrArg State.hall outside
      exact same
    have time : (s.takeFrame k f).timebase = s.timebase := by
      have same := congrArg State.timebase outside
      exact same
    have rot : (s.acceptFrame k f).rot = (s.takeFrame k f).rot := meets.rot.trans slews.rot
    have same : (s.acceptFrame k f).rot[k] = b.take p f s.timebase := by
      simp only [rot]
      exact takeFrame_same s k f
    have raised {x : Attn} (h : (s.takeFrame k f).raised x) : (s.acceptFrame k f).raised x := meets.raised (raised_of_calm calm h)
    have isGood : frameGood p f = true ↔ good := frameGood_iff p f
    have settledTaken (settled : s.isSettling = false) : (s.takeFrame k f).isSettling = false := by
      rw [State.isSettling, cfg]
      exact settled
    obtain ⟨rawF, rawV, timer⟩ := take_raw b p f s.timebase
    refine ⟨_, runs_of_event accept fun d => ?_, fun settled => ?_, fun j other => ?_, ?_⟩
    · have := (taken.links d).trans (calm.links d)
      rw [State.link, State.link, ← meets.links] at this
      exact this
    · rw [acceptFrame_settled s k f settled, calm.kept, slews.rot, taken.kept]
      have set : (s.takeFrame k f).rot = _ := congrArg Kept.rot taken.kept
      rw [set]
      rfl
    · simp only [rot]
      exact takeFrame_other s k f other
    · intro r
      have isTaken : r = b.take p f s.timebase := same
      refine ⟨?_, ?_, ?_, fun h => ?_, ⟨fun held target settled h azimuth aim => ?_, fun settled h => ?_⟩, fun ok => ?_, fun h => ?_⟩
      · rw [isTaken, rawF]
      · rw [isTaken, rawV]
      · rw [isTaken, timer]
      · have was := take_good b s.timebase (isGood.mpr h)
        have is := isTaken.trans was
        refine ⟨congrArg RotRec.validity is, congrArg RotRec.badCount is, congrArg RotRec.fine is, congrArg RotRec.sensor is,
          congrArg RotRec.azimuth is, congrArg RotRec.period is, congrArg RotRec.goodTime is,
          fun invalid => raised (takeFrame_raised s k f ?_)⟩
        show validityRaises b.validity (b.take p f s.timebase).validity = true
        rw [was, invalid]
        rfl
      · have was := take_good b s.timebase (isGood.mpr h)
        have valid : ((s.takeFrame k f).rot[k]).validity = .valid := by
          rw [takeFrame_same]
          exact congrArg RotRec.validity was
        have azimuth : (s.takeFrame k f).heldAzimuth k = some held := by
          rw [State.heldAzimuth, valid, takeFrame_same]
          exact (congrArg RotRec.azimuth isTaken).symm.trans azimuth
        have aim : ((s.takeFrame k f).slew[k]).target = some target := by
          simp only [slew]
          exact aim
        have frames : s.acceptFrame k f = (s.takeFrame k f).slewGood k :=
          (acceptFrame_settled s k f settled).trans (if_pos (isGood.mpr h))
        have started {u : State} (h : DriveStarted (s.takeFrame k f) u k held target) : DriveStarted s u k held target :=
          h.congr cfg.symm time.symm (by simp only [slew]) rfl rfl
        have allows := drivesAllowed_iff (s.takeFrame k f)
        rw [State.isOpen, hall, cfg] at allows
        intro e near path back band allowed fresh turns wrong
        refine ⟨fun drive driven => ?_, fun settle => ?_, fun dwell => ?_, fun holds => ?_, fun idle => ?_, fun stays => ?_⟩
        · have moves := good_in_drive azimuth aim (by simp only [slew]; exact drive) (by simp only [slew]; exact driven)
          simp only [State.errorTo, slew, cfg, time] at moves
          rw [← frames] at moves
          exact moves
        · have moves := good_in_settle azimuth aim (settledTaken settled) (by simp only [slew]; exact settle)
          simp only [State.errorTo, slew, cfg] at moves
          rw [← frames] at moves
          obtain ⟨three, counts, again, starts⟩ := moves
          exact ⟨three, counts, again, fun far => started (starts far)⟩
        · have moves := good_in_dwell azimuth aim (by simp only [slew]; exact dwell)
          simp only [State.errorTo, slew, cfg] at moves
          rw [← frames] at moves
          exact moves
        · have moves := good_in_position azimuth aim (settledTaken settled) (by simp only [slew]; exact holds)
          simp only [State.errorTo, slew, cfg, time, allows] at moves
          rw [← frames] at moves
          obtain ⟨far, rests⟩ := moves
          refine ⟨fun out open_ => ?_, rests⟩
          obtain ⟨new, drive, told⟩ := far out open_
          exact ⟨new, started drive, told⟩
        · have moves := good_in_idle azimuth aim (settledTaken settled) (by simp only [slew]; exact idle)
          simp only [State.errorTo, slew, cfg, time, allows] at moves
          rw [← frames] at moves
          obtain ⟨denied, close, far⟩ := moves
          refine ⟨denied, close, fun open_ off => ?_⟩
          obtain ⟨new, drive⟩ := far open_ off
          exact ⟨new, started drive⟩
        · have moves := slewGood_stays azimuth aim (by simp only [slew]; exact stays)
          rw [← frames] at moves
          have kept := congrArg State.slew moves
          simp only [slew] at kept
          exact congrArg (fun x : Vector SlewRec 4 => x[k]) kept
      · have frames : s.acceptFrame k f = (s.takeFrame k f).slewBad k :=
          (acceptFrame_settled s k f settled).trans (if_neg fun test => h (isGood.mp test))
        have moves := bad_frame (s.takeFrame k f) k (settledTaken settled)
        simp only [slew] at moves
        rw [← frames, takeFrame_same] at moves
        rw [isTaken]
        exact moves
      · rw [isTaken]
        exact take_residual b s.timebase ok
      · obtain ⟨x, is, validity, count, azimuth, sensor, fine, period, moment⟩ :=
          take_bad b s.timebase (Bool.eq_false_iff.mpr fun test => h (isGood.mp test))
        obtain ⟨⟨azimuth', sensor', fine', period', moment', why⟩, first, second, third, still⟩ :=
          bad_fields x (if f.sensorOk then .residual else .sensorNotOk)
        rw [← is, ← isTaken] at azimuth' sensor' fine' period' moment' why first second third still
        rw [validity] at first second third still
        rw [count] at first second third
        refine ⟨azimuth'.trans azimuth, sensor'.trans sensor, fine'.trans fine, period'.trans period, moment'.trans moment, why, first,
          second, fun suspect two => ?_, still⟩
        obtain ⟨invalid, three⟩ := third suspect two
        refine ⟨invalid, three, raised (takeFrame_raised s k f ?_)⟩
        show validityRaises b.validity (b.take p f s.timebase).validity = true
        rw [← isTaken, invalid, suspect]
        rfl
  · intro a
    have act : exec (.frameTimeout k) s = .next (State.event a (a.frameExpired k)) := by
      simp only [exec, execFrameTimeout, running]
      rfl
    let v := a.modRot k RotRec.timedOut
    have calm : Calm v (a.frameExpired k) := by
      unfold State.frameExpired
      dsimp only
      split
      · exact calm_slewInvalid _ _ (calm_raiseIf _ _ _ (Calm.refl _))
      · exact calm_raiseIf _ _ _ (Calm.refl _)
    refine ⟨_, runs_of_event act (links_of_calm s calm rfl), calm.kept, fun valid => ?_⟩
    have was : ((a.rot[k]).validity != .invalid) = true := bne_iff_ne.mpr valid
    have expired : a.frameExpired k = (v.raise .rotator).slewInvalid k := by
      unfold State.frameExpired
      dsimp only
      rw [was]
      rfl
    rw [expired]
    exact raised_of_calm (calm_slewInvalid _ k (Calm.refl _)) (raised_raise v .rotator)
  · exact congrArg Host.Outcome.next (if_neg fun h => by
      obtain ⟨due, running⟩ := isRunning_of h
      exact idle due running)

end Sys2Proof.Machine
end

