-- ==== Sys2Proof/Proofs/Slewing.lean ====
section
/-! PROOF. SLEW and STOP_SLEW (R74 to R79). -/

namespace Sys2Proof.Machine

/-! ## An accepted target -/

/-- The record with a target taken, before it goes on (R76). -/
def State.retargeted (s : State) (k : Rot) (az : Nat) (o : Origin) : State :=
  (s.displace k o).modSlew k fun r =>
    { r with target := some az, origin := some o, fault := none, settleCount := 0, reported := false,
             state := if (s.slew[k]).state == .fault then .idle else (s.slew[k]).state }

/-- A drive with a new target goes on, turns round, or waits for power where its new path forbids it (R76, R79). -/
def State.driveOn (v : State) (k : Rot) (e : Int) : State :=
  if against (v.slew[k]).dir e then v.reverseDrive k e
  else if v.slewCap k == .off && (v.slew[k]).cap == some .low then
    (v.modSlew k fun r => { r.driveOff v.timebase with cap := some (v.slewCap k) }).enterAwait k
  else (v.modSlew k fun r => { r with cap := some (v.slewCap k) }).judgeSpeed k e

/-- How a record with a target goes on, by the state that it was in (R76). -/
def State.goOn (v : State) (k : Rot) (before : SlewState) : State :=
  match v.slewError k with
  | none => v
  | some e =>
    match before with
    | .idle => if v.drivesAllowed then v.pursue k true false else v
    | .fault => if v.drivesAllowed then v.pursue k true false else v
    | .inPosition =>
      if decide (e.natAbs ≤ (v.params k).stopTol) then v.modSlew k fun r => { r with reported := true }
      else if v.drivesAllowed then v.pursue k true false
      else v.modSlew k fun r => { r with state := .idle }
    | .awaitPower => (v.restartSlew k).startDrive k e
    | .reverseDwell => (v.restartSlew k).modSlew k fun r => { r with dir := some (dirOf e), cap := some (v.slewCap k) }
    | .drive => (v.restartSlew k).driveOn k e
    | .settle => if decide (e.natAbs ≤ (v.params k).stopTol) then v.restartSlew k else (v.restartSlew k).startDrive k e

section
variable (s : State) (k : Rot) (az : Nat) (o : Origin)

theorem takeTarget_eq : s.takeTarget k az o = (s.retargeted k az o).goOn k (s.slew[k]).state := rfl

theorem displace_slew : (s.displace k o).slew = s.slew := by
  unfold State.displace
  split
  · exact slewReport_slew s k _
  · rfl

theorem retargeted_slew : (s.retargeted k az o).slew[k] = { s.slew[k] with
    target := some az, origin := some o, fault := none, settleCount := 0, reported := false,
    state := if (s.slew[k]).state == .fault then .idle else (s.slew[k]).state } := by
  have was : (s.displace k o).slew[k] = s.slew[k] := by simp only [displace_slew]
  rw [State.retargeted, modSlew_same, was]

theorem slews_displace : Slews k s (s.displace k o) := by
  unfold State.displace
  split
  · exact slews_slewReport s _ (Slews.refl k s)
  · exact Slews.refl k s

theorem slews_retargeted : Slews k s (s.retargeted k az o) := slews_modSlew _ _ (slews_displace s k o)

end

/-! ## What every way on keeps -/

/-- A record goes on toward the same target of the same origin, and not into FAULT (R76). -/
structure Aims (a b : SlewRec) : Prop where
  target : b.target = a.target
  origin : b.origin = a.origin
  fault : b.fault = a.fault
  runs : a.state ≠ .fault → b.state ≠ .fault

theorem Aims.refl (a : SlewRec) : Aims a a := ⟨rfl, rfl, rfl, id⟩

theorem Aims.trans {a b c : SlewRec} (h : Aims a b) (g : Aims b c) : Aims a c :=
  ⟨g.target.trans h.target, g.origin.trans h.origin, g.fault.trans h.fault, g.runs ∘ h.runs⟩

section
variable (s : State) (k : Rot)

theorem aims_enterSettle : Aims s.slew[k] (s.enterSettle k).slew[k] := by
  rw [enterSettle_slew]
  exact ⟨rfl, rfl, rfl, fun _ => SlewState.noConfusion⟩

theorem aims_enterDrive : Aims s.slew[k] (s.enterDrive k).slew[k] := by
  unfold State.enterDrive
  split
  · split
    · exact aims_enterSettle s k
    · rw [modSlew_same]
      exact ⟨rfl, rfl, rfl, fun _ => SlewState.noConfusion⟩
  · exact Aims.refl _

theorem aims_judgeSpeed (e : Int) : Aims s.slew[k] (s.judgeSpeed k e).slew[k] := by
  obtain ⟨n, window, at_⟩ := judgeSpeed_slew s k e
  rw [at_]
  exact ⟨rfl, rfl, rfl, id⟩

theorem aims_enterInPosition (attention report : Bool) : Aims s.slew[k] (s.enterInPosition k attention report).slew[k] := by
  rw [enterInPosition_slew, rest_eq]
  exact ⟨rfl, rfl, rfl, fun _ => SlewState.noConfusion⟩

theorem aims_restartSlew : Aims s.slew[k] (s.restartSlew k).slew[k] := by
  rw [restartSlew_slew]
  exact ⟨rfl, rfl, rfl, id⟩

variable {s k} (valid : (s.rot[k]).validity ≠ .invalid)
include valid

theorem aims_judgePower : Aims s.slew[k] (s.judgePower k).slew[k] := by
  have valid : ¬((s.rot[k]).validity == .invalid) = true := fun h => valid (beq_iff_eq.mp h)
  by_cases free : ((s.slew[k]).state == .awaitPower && !s.isSettling && s.powerOk k) = true
  · have drives : s.judgePower k = s.enterDrive k := (if_pos free).trans (if_neg valid)
    rw [drives]
    exact aims_enterDrive s k
  · have waits : s.judgePower k = s := if_neg free
    rw [waits]
    exact Aims.refl _

theorem aims_enterAwait : Aims s.slew[k] (s.enterAwait k).slew[k] := by
  let v := s.modSlew k fun r => { r.noDrive with state := .awaitPower, powerWait := s.startTimer 5000 }
  have first : Aims s.slew[k] v.slew[k] := by
    rw [show v.slew[k] = _ from modSlew_same s k _]
    exact ⟨rfl, rfl, rfl, fun _ => SlewState.noConfusion⟩
  exact first.trans (aims_judgePower (s := v) valid)

theorem aims_dwellOrAwait (d : Dir) : Aims s.slew[k] (s.dwellOrAwait k d).slew[k] := by
  have first : Aims s.slew[k] (s.aimed k d).slew[k] := by
    rw [show (s.aimed k d).slew[k] = _ from modSlew_same s k _]
    exact ⟨rfl, rfl, rfl, id⟩
  refine first.trans ?_
  unfold State.dwellOrAwait
  dsimp only
  split
  · rw [modSlew_same]
    exact ⟨rfl, rfl, rfl, fun _ => SlewState.noConfusion⟩
  · exact aims_enterAwait (s := s.aimed k d) valid

theorem aims_startDrive (e : Int) : Aims s.slew[k] (s.startDrive k e).slew[k] := by
  let v := s.modSlew k fun r => { r with cap := some (s.slewCap k) }
  have first : Aims s.slew[k] v.slew[k] := by
    rw [show v.slew[k] = _ from modSlew_same s k _]
    exact ⟨rfl, rfl, rfl, id⟩
  exact first.trans (aims_dwellOrAwait (s := v) valid (dirOf e))

theorem aims_reverseDrive (e : Int) : Aims s.slew[k] (s.reverseDrive k e).slew[k] := by
  let v := s.modSlew k fun r => { (r.driveOff s.timebase).noDrive with cap := some (s.slewCap k) }
  have first : Aims s.slew[k] v.slew[k] := by
    rw [show v.slew[k] = _ from modSlew_same s k _, driveOff_eq]
    exact ⟨rfl, rfl, rfl, id⟩
  exact first.trans (aims_dwellOrAwait (s := v) valid (dirOf e))

theorem aims_restartDrive (e : Int) : Aims s.slew[k] ((s.restartSlew k).startDrive k e).slew[k] :=
  (aims_restartSlew s k).trans (aims_startDrive (s := s.restartSlew k) valid e)

theorem aims_pursue (attention report : Bool) : Aims s.slew[k] (s.pursue k attention report).slew[k] := by
  unfold State.pursue
  split
  · exact Aims.refl _
  · split
    · exact aims_enterInPosition s k attention report
    · exact aims_restartDrive valid _

theorem aims_driveOn (e : Int) : Aims s.slew[k] (s.driveOn k e).slew[k] := by
  unfold State.driveOn
  split
  · exact aims_reverseDrive valid e
  · split
    · let v := s.modSlew k fun r => { r.driveOff s.timebase with cap := some (s.slewCap k) }
      have first : Aims s.slew[k] v.slew[k] := by
        rw [show v.slew[k] = _ from modSlew_same s k _, driveOff_eq]
        exact ⟨rfl, rfl, rfl, id⟩
      exact first.trans (aims_enterAwait (s := v) valid)
    · let v := s.modSlew k fun r => { r with cap := some (s.slewCap k) }
      have first : Aims s.slew[k] v.slew[k] := by
        rw [show v.slew[k] = _ from modSlew_same s k _]
        exact ⟨rfl, rfl, rfl, id⟩
      exact first.trans (aims_judgeSpeed v k e)

theorem aims_goOn (before : SlewState) : Aims s.slew[k] (s.goOn k before).slew[k] := by
  have written {f : SlewRec → SlewRec} (h : Aims s.slew[k] (f s.slew[k])) : Aims s.slew[k] (s.modSlew k f).slew[k] := by
    rw [modSlew_same]
    exact h
  unfold State.goOn
  split
  · exact Aims.refl _
  · next e _ =>
    have resumes : Aims s.slew[k] (if s.drivesAllowed then s.pursue k true false else s).slew[k] := by
      split
      · exact aims_pursue valid true false
      · exact Aims.refl _
    cases before with
    | idle => exact resumes
    | fault => exact resumes
    | inPosition =>
      dsimp only
      split
      · exact written ⟨rfl, rfl, rfl, id⟩
      · split
        · exact aims_pursue valid true false
        · exact written ⟨rfl, rfl, rfl, fun _ => SlewState.noConfusion⟩
    | awaitPower => exact aims_restartDrive valid e
    | reverseDwell =>
      dsimp only
      rw [modSlew_same]
      exact (aims_restartSlew s k).trans ⟨rfl, rfl, rfl, id⟩
    | drive => exact (aims_restartSlew s k).trans (aims_driveOn (s := s.restartSlew k) valid e)
    | settle =>
      dsimp only
      split
      · exact aims_restartSlew s k
      · exact aims_restartDrive valid e

end

/-! ## What the ways on leave -/

section
variable {k : Rot} {z : State} (s : State)

theorem slews_driveOn (e : Int) (h : Slews k z s) : Slews k z (s.driveOn k e) := by
  grind [State.driveOn, slews_reverseDrive, slews_modSlew, slews_enterAwait, slews_judgeSpeed]

theorem slews_goOn (before : SlewState) (h : Slews k z s) : Slews k z (s.goOn k before) := by
  grind [State.goOn, slews_pursue, slews_modSlew, slews_restartSlew, slews_startDrive, slews_driveOn]

end

/-- The speed goes by the error, and the direction, the cap and the last drive off stay, where a drive goes on (R76, R80). -/
theorem driveOn_goes {s : State} {k : Rot} {e : Int} (ahead_ : ¬against (s.slew[k]).dir e = true)
    (free : ¬(s.slewCap k = .off ∧ (s.slew[k]).cap = some .low)) : ∃ (n : Option Nat) (window : Timer),
    (s.driveOn k e).slew[k] = { s.slew[k] with
      cap := some (s.slewCap k), speed := some (speedFor (s.params k) e), stallRef := n, stallWindow := window } := by
  have test : ¬(s.slewCap k == .off && (s.slew[k]).cap == some .low) = true := by
    rw [Bool.and_eq_true, beq_iff_eq, beq_iff_eq]
    exact free
  have goes : s.driveOn k e = (s.modSlew k fun r => { r with cap := some (s.slewCap k) }).judgeSpeed k e :=
    (if_neg ahead_).trans (if_neg test)
  obtain ⟨n, window, at_⟩ := judgeSpeed_slew (s.modSlew k fun r => { r with cap := some (s.slewCap k) }) k e
  rw [modSlew_same] at at_
  exact ⟨n, window, by rw [goes]; exact at_⟩

/-- Where the new path forbids what the old one allowed, the drive goes off and waits for power (R76, R79). -/
theorem driveOn_stops {s : State} {k : Rot} {e : Int} (ahead_ : ¬against (s.slew[k]).dir e = true)
    (forbids : s.slewCap k = .off ∧ (s.slew[k]).cap = some .low) :
    s.driveOn k e = (s.modSlew k fun r => { r.driveOff s.timebase with cap := some (s.slewCap k) }).enterAwait k := by
  have test : (s.slewCap k == .off && (s.slew[k]).cap == some .low) = true := by
    rw [Bool.and_eq_true, beq_iff_eq, beq_iff_eq]
    exact forbids
  exact (if_neg ahead_).trans (if_pos test)

/-- AWAIT_POWER entered keeps the cap and the last drive off where the position is not INVALID. -/
theorem enterAwait_cap {s : State} {k : Rot} (valid : (s.rot[k]).validity ≠ .invalid) :
    ((s.enterAwait k).slew[k]).cap = (s.slew[k]).cap ∧ ((s.enterAwait k).slew[k]).lastOff = (s.slew[k]).lastOff := by
  let v := s.modSlew k fun r => { r.noDrive with state := .awaitPower, powerWait := s.startTimer 5000 }
  have at_ : v.slew[k] = { (s.slew[k]).noDrive with state := .awaitPower, powerWait := s.startTimer 5000 } := modSlew_same s k _
  have kept : (v.slew[k]).cap = (s.slew[k]).cap ∧ (v.slew[k]).lastOff = (s.slew[k]).lastOff := by
    rw [at_]
    exact ⟨rfl, rfl⟩
  have waits : (v.slew[k]).state = .awaitPower := by rw [at_]
  have off : ((v.slew[k]).driveOff v.timebase).lastOff = (v.slew[k]).lastOff := by
    unfold SlewRec.driveOff
    rw [waits]
  have valid : ¬((v.rot[k]).validity == .invalid) = true := fun h => valid (beq_iff_eq.mp h)
  show ((v.judgePower k).slew[k]).cap = _ ∧ ((v.judgePower k).slew[k]).lastOff = _
  unfold State.judgePower
  split
  · -- the test of the position is decided by `valid`
    unfold State.enterDrive
    split
    · split
      · rw [enterSettle_slew]
        exact ⟨kept.1, off.trans kept.2⟩
      · rw [modSlew_same]
        exact kept
    · exact kept
  · exact kept

/-! ## SLEW by the state of the record -/

section
variable {s : State} {k : Rot} {az held : Nat} {o : Origin} (azimuth : s.heldAzimuth k = some held)
include azimuth

theorem retargeted_error : (s.retargeted k az o).slewError k = some (s.errorTo k az held) := by
  have slews := slews_retargeted s k az o
  have := slewError_of (s.retargeted k az o) k (target := az) (slews.held.trans azimuth) (by rw [retargeted_slew])
  rw [slews.cfg] at this
  exact this

theorem heldAzimuth_valid : (s.rot[k]).validity ≠ .invalid := by
  intro invalid
  rw [State.heldAzimuth, if_pos (beq_iff_eq.mpr invalid)] at azimuth
  exact absurd azimuth.symm (Option.some_ne_none held)

/-- A target accepted in IDLE or FAULT (R76, R77). -/
theorem takeTarget_idle (settled : s.isSettling = false) (h : (s.slew[k]).state = .idle ∨ (s.slew[k]).state = .fault) :
    let u := s.takeTarget k az o
    let p := s.cfg.active.rot[k]
    let e := s.errorTo k az held
    (¬s.drivesAllowed = true → (u.slew[k]).state = .idle) ∧
    (s.drivesAllowed = true → e.natAbs ≤ p.stopTol → (u.slew[k]).state = .inPosition ∧ (u.slew[k]).cap = none) ∧
    (s.drivesAllowed = true → ¬e.natAbs ≤ p.stopTol →
      ((u.slew[k]).startTime = some s.timebase ∧ (u.slew[k]).slewTimer = .running (s.timebase + 1000 * p.maxSlew)) ∧
        DriveStarted s u k held az) := by
  intro u p e
  let v := s.retargeted k az o
  have slews : Slews k s v := slews_retargeted s k az o
  have at_ := retargeted_slew s k az o
  have goes : u = if v.drivesAllowed then v.pursue k true false else v := by
    show v.goOn k (s.slew[k]).state = _
    rw [State.goOn, retargeted_error azimuth]
    rcases h with h | h <;> rw [h]
  rw [slews.allowed] at goes
  obtain ⟨near, far⟩ := pursue_from azimuth slews (by rw [at_]) (by rw [at_]) settled true false
  refine ⟨fun denied => ?_, fun allowed => ?_, fun allowed => ?_⟩
  · rw [goes, if_neg denied, at_]
    rcases h with h | h <;> rw [h] <;> rfl
  · rw [goes, if_pos allowed]
    exact near
  · rw [goes, if_pos allowed]
    exact far

/-- A target accepted in IN_POSITION (R76, R77). -/
theorem takeTarget_position (settled : s.isSettling = false) (h : (s.slew[k]).state = .inPosition) :
    let u := s.takeTarget k az o
    let p := s.cfg.active.rot[k]
    let e := s.errorTo k az held
    (e.natAbs ≤ p.stopTol → (u.slew[k]).state = .inPosition) ∧
    (s.drivesAllowed = true → ¬e.natAbs ≤ p.stopTol →
      ((u.slew[k]).startTime = some s.timebase ∧ (u.slew[k]).slewTimer = .running (s.timebase + 1000 * p.maxSlew)) ∧
        DriveStarted s u k held az) ∧
    (¬s.drivesAllowed = true → ¬e.natAbs ≤ p.stopTol → (u.slew[k]).state = .idle) := by
  intro u p e
  let v := s.retargeted k az o
  have slews : Slews k s v := slews_retargeted s k az o
  have at_ := retargeted_slew s k az o
  have goes : u = if decide (e.natAbs ≤ (v.params k).stopTol) then v.modSlew k fun r => { r with reported := true }
      else if v.drivesAllowed then v.pursue k true false else v.modSlew k fun r => { r with state := .idle } := by
    show v.goOn k (s.slew[k]).state = _
    rw [State.goOn, retargeted_error azimuth, h]
  rw [slews.allowed, slews.params] at goes
  refine ⟨fun near => ?_, fun allowed off => ?_, fun denied off => ?_⟩
  · rw [goes.trans (if_pos (decide_eq_true near)), modSlew_same, at_]
    exact congrArg (fun x => if x == SlewState.fault then SlewState.idle else x) h
  · rw [(goes.trans (if_neg fun h => off (of_decide_eq_true h))).trans (if_pos allowed)]
    exact (pursue_from azimuth slews (by rw [at_]) (by rw [at_]) settled true false).2 off
  · rw [(goes.trans (if_neg fun h => off (of_decide_eq_true h))).trans (if_neg denied), modSlew_same]

/-- A target accepted in AWAIT_POWER starts the drive anew (R76). -/
theorem takeTarget_await (settled : s.isSettling = false) (h : (s.slew[k]).state = .awaitPower) :
    let u := s.takeTarget k az o
    ((u.slew[k]).startTime = some s.timebase ∧
      (u.slew[k]).slewTimer = .running (s.timebase + 1000 * (s.cfg.active.rot[k]).maxSlew)) ∧ DriveStarted s u k held az := by
  intro u
  have at_ := retargeted_slew s k az o
  have goes : u = ((s.retargeted k az o).restartSlew k).startDrive k (s.errorTo k az held) := by
    show (s.retargeted k az o).goOn k (s.slew[k]).state = _
    rw [State.goOn, retargeted_error azimuth, h]
  rw [goes]
  exact fresh_from azimuth (slews_retargeted s k az o) (by rw [at_]) (by rw [at_]) settled

/-- A target accepted in SETTLE (R76). -/
theorem takeTarget_settle (settled : s.isSettling = false) (h : (s.slew[k]).state = .settle) :
    let u := s.takeTarget k az o
    let p := s.cfg.active.rot[k]
    let e := s.errorTo k az held
    let fresh := (u.slew[k]).startTime = some s.timebase ∧ (u.slew[k]).slewTimer = .running (s.timebase + 1000 * p.maxSlew)
    (e.natAbs ≤ p.stopTol →
      fresh ∧ (u.slew[k]).state = .settle ∧ (u.slew[k]).cap = (s.slew[k]).cap ∧ (u.slew[k]).settleCount = 0) ∧
    (¬e.natAbs ≤ p.stopTol → fresh ∧ DriveStarted s u k held az) := by
  intro u p e fresh
  let v := s.retargeted k az o
  have slews : Slews k s v := slews_retargeted s k az o
  have at_ := retargeted_slew s k az o
  have goes : u = if decide (e.natAbs ≤ (v.params k).stopTol) then v.restartSlew k else (v.restartSlew k).startDrive k e := by
    show v.goOn k (s.slew[k]).state = _
    rw [State.goOn, retargeted_error azimuth, h]
  rw [slews.params] at goes
  refine ⟨fun near => ?_, fun off => ?_⟩
  · have was := restartSlew_slew v k
    rw [← goes.trans (if_pos (decide_eq_true near)), slews.timebase, slews.params, at_] at was
    exact ⟨⟨congrArg SlewRec.startTime was, congrArg SlewRec.slewTimer was⟩,
      (congrArg SlewRec.state was).trans (congrArg (fun x => if x == SlewState.fault then SlewState.idle else x) h),
      (congrArg SlewRec.cap was).trans rfl, congrArg SlewRec.settleCount was⟩
  · show ((u.slew[k]).startTime = _ ∧ _) ∧ _
    rw [goes.trans (if_neg fun h => off (of_decide_eq_true h))]
    exact fresh_from azimuth slews (by rw [at_]) (by rw [at_]) settled

/-- A target accepted in REVERSE_DWELL keeps the dwell (R76). -/
theorem takeTarget_dwell (h : (s.slew[k]).state = .reverseDwell) :
    let u := s.takeTarget k az o
    let p := s.cfg.active.rot[k]
    ((u.slew[k]).startTime = some s.timebase ∧ (u.slew[k]).slewTimer = .running (s.timebase + 1000 * p.maxSlew)) ∧
      (u.slew[k]).state = .reverseDwell ∧ (u.slew[k]).dwell = (s.slew[k]).dwell ∧
      (u.slew[k]).dir = some (dirOf (s.errorTo k az held)) ∧
      (u.slew[k]).cap = some (if p.pathCrosses held az then .off else .low) := by
  intro u p
  let v := s.retargeted k az o
  have slews : Slews k s v := slews_retargeted s k az o
  have at_ := retargeted_slew s k az o
  have cap := slewCap_of v k (target := az) (slews.held.trans azimuth) (by rw [at_])
  rw [slews.cfg] at cap
  have goes : u = (v.restartSlew k).modSlew k fun r =>
      { r with dir := some (dirOf (s.errorTo k az held)), cap := some (v.slewCap k) } := by
    show v.goOn k (s.slew[k]).state = _
    rw [State.goOn, retargeted_error azimuth, h]
  have was := restartSlew_slew v k
  rw [slews.timebase, slews.params, at_] at was
  rw [goes, modSlew_same, was, cap]
  exact ⟨⟨rfl, rfl⟩, congrArg (fun x => if x == SlewState.fault then SlewState.idle else x) h, rfl, rfl, rfl⟩

/-- A target accepted in DRIVE (R76, R79, R80). -/
theorem takeTarget_drive (h : (s.slew[k]).state = .drive) :
    let u := s.takeTarget k az o
    let p := s.cfg.active.rot[k]
    let e := s.errorTo k az held
    let path : Level := if p.pathCrosses held az then .off else .low
    let b := s.slew[k]
    let v := u.slew[k]
    let turns := (b.dir = some .cw ∧ e < 0) ∨ (b.dir = some .ccw ∧ 0 < e)
    (v.startTime = some s.timebase ∧ v.slewTimer = .running (s.timebase + 1000 * p.maxSlew)) ∧ v.cap = some path ∧
      (turns → v.state = .reverseDwell ∧ v.dwell = .running (s.timebase + 1000) ∧ v.dir = some (dirOf e) ∧
        ∀ x : Dir, b.dir = some x → v.lastOff = some ⟨s.timebase, x⟩) ∧
      (¬turns → ¬(path = .off ∧ b.cap = some .low) →
        v.state = .drive ∧ v.dir = b.dir ∧ v.lastOff = b.lastOff ∧ v.speed = some (if p.creep < e.natAbs then .fast else .creep)) ∧
      (¬turns → path = .off → b.cap = some .low →
        (∀ x : Dir, b.dir = some x → v.lastOff = some ⟨s.timebase, x⟩) ∧
        (u.powerOk k = false → v.state = .awaitPower ∧ v.powerWait = .running (s.timebase + 5000))) := by
  intro u p e path b v turns
  let w := (s.retargeted k az o).restartSlew k
  have slews : Slews k s w := slews_restartSlew _ (slews_retargeted s k az o)
  have at_ := restartSlew_slew (s.retargeted k az o) k
  rw [(slews_retargeted s k az o).timebase, (slews_retargeted s k az o).params, retargeted_slew] at at_
  have state : (w.slew[k]).state = .drive :=
    (congrArg SlewRec.state at_).trans (congrArg (fun x => if x == SlewState.fault then SlewState.idle else x) h)
  have dir : (w.slew[k]).dir = b.dir := (congrArg SlewRec.dir at_).trans rfl
  have cap : (w.slew[k]).cap = b.cap := (congrArg SlewRec.cap at_).trans rfl
  have last : (w.slew[k]).lastOff = b.lastOff := (congrArg SlewRec.lastOff at_).trans rfl
  have start : (w.slew[k]).startTime = some s.timebase := congrArg SlewRec.startTime at_
  have timer : (w.slew[k]).slewTimer = .running (s.timebase + 1000 * p.maxSlew) := congrArg SlewRec.slewTimer at_
  have aim : (w.slew[k]).target = some az := congrArg SlewRec.target at_
  have azimuth' : w.heldAzimuth k = some held := slews.held.trans azimuth
  have newCap : w.slewCap k = path := by
    have := slewCap_of w k azimuth' aim
    rw [slews.cfg] at this
    exact this
  have goes : u = w.driveOn k e := by
    show (s.retargeted k az o).goOn k (s.slew[k]).state = _
    rw [State.goOn, retargeted_error azimuth, h]
  have turn : turns ↔ against (w.slew[k]).dir e = true := by
    rw [dir]
    exact (against_iff _ _).symm
  have reverses (t : turns) : ∃ x, b.dir = some x ∧ v.state = .reverseDwell ∧ v.dwell = .running (s.timebase + 1000) ∧
      v.dir = some (dirOf e) ∧ v.cap = some path ∧ v.lastOff = some ⟨s.timebase, x⟩ ∧ v.startTime = (w.slew[k]).startTime ∧
      v.slewTimer = (w.slew[k]).slewTimer := by
    obtain ⟨x, driven⟩ : ∃ x, b.dir = some x := t.elim (fun t => ⟨_, t.1⟩) fun t => ⟨_, t.1⟩
    have against_ := turn.mp t
    rw [dir, driven] at against_
    have reversed := reverseDrive_slew e azimuth' aim state (dir.trans driven) against_
    rw [← show w.driveOn k e = w.reverseDrive k e from if_pos (turn.mp t), ← goes, slews.timebase, slews.cfg] at reversed
    exact ⟨x, driven, reversed⟩
  have steady (t : ¬turns) (free : ¬(path = .off ∧ b.cap = some .low)) := driveOn_goes (s := w) (k := k) (e := e)
    (fun against_ => t (turn.mpr against_)) (by rw [newCap, cap]; exact free)
  have stops (t : ¬turns) (off : path = .off ∧ b.cap = some .low) : u =
      (w.modSlew k fun r => { r.driveOff w.timebase with cap := some (w.slewCap k) }).enterAwait k :=
    goes.trans (driveOn_stops (fun against_ => t (turn.mpr against_)) (by rw [newCap, cap]; exact off))
  let x := w.modSlew k fun r => { r.driveOff w.timebase with cap := some (w.slewCap k) }
  have x_slews : Slews k s x := slews_modSlew _ _ slews
  have x_at : x.slew[k] = { w.slew[k] with lastOff := ((w.slew[k]).driveOff w.timebase).lastOff, cap := some (w.slewCap k) } := by
    rw [show x.slew[k] = _ from modSlew_same w k _, driveOff_eq]
  have stopped (t : ¬turns) (off : path = .off ∧ b.cap = some .low) :
      (v.startTime = (w.slew[k]).startTime ∧ v.slewTimer = (w.slew[k]).slewTimer) ∧ v.cap = some path ∧
        v.lastOff = ((w.slew[k]).driveOff w.timebase).lastOff := by
    have times := enterAwait_start (s := x) (x_slews.held.trans azimuth)
    have caps := enterAwait_cap (s := x) (k := k) (by rw [x_slews.rot]; exact heldAzimuth_valid azimuth)
    rw [← stops t off, x_at] at times caps
    exact ⟨times, caps.1.trans (congrArg some newCap), caps.2⟩
  refine ⟨?_, ?_, fun t => ?_, fun t free => ?_, fun t off low => ⟨fun y driven => ?_, fun denied => ?_⟩⟩
  · by_cases t : turns
    · obtain ⟨y, -, -, -, -, -, -, time, slewTimer⟩ := reverses t
      exact ⟨time.trans start, slewTimer.trans timer⟩
    · by_cases off : path = .off ∧ b.cap = some .low
      · obtain ⟨⟨time, slewTimer⟩, -⟩ := stopped t off
        exact ⟨time.trans start, slewTimer.trans timer⟩
      · obtain ⟨n, window, is⟩ := steady t off
        rw [← goes] at is
        exact ⟨(congrArg SlewRec.startTime is).trans start, (congrArg SlewRec.slewTimer is).trans timer⟩
  · by_cases t : turns
    · obtain ⟨y, -, -, -, -, cap, -⟩ := reverses t
      exact cap
    · by_cases off : path = .off ∧ b.cap = some .low
      · exact (stopped t off).2.1
      · obtain ⟨n, window, is⟩ := steady t off
        rw [← goes] at is
        exact (congrArg SlewRec.cap is).trans (congrArg some newCap)
  · obtain ⟨y, driven, reversed, dwell, back, -, lastOff, -⟩ := reverses t
    refine ⟨reversed, dwell, back, fun z driven' => ?_⟩
    rw [lastOff, Option.some.inj (driven.symm.trans driven')]
  · obtain ⟨n, window, is⟩ := steady t free
    rw [← goes, slews.params] at is
    exact ⟨(congrArg SlewRec.state is).trans state, (congrArg SlewRec.dir is).trans dir, (congrArg SlewRec.lastOff is).trans last,
      congrArg SlewRec.speed is⟩
  · rw [(stopped t ⟨off, low⟩).2.2, driveOff_drive w.timebase state (dir.trans driven), slews.timebase]
  · have after : Slews k x u := by
      rw [stops t ⟨off, low⟩]
      exact slews_enterAwait x (Slews.refl k x)
    have same : (u.slew[k]).cap = (x.slew[k]).cap := by
      rw [x_at]
      exact (stopped t ⟨off, low⟩).2.1.trans (congrArg some newCap.symm)
    have power : x.powerOk k = false := (after.power same).symm.trans denied
    have waits := enterAwait_waits x k (.inl power)
    rw [← stops t ⟨off, low⟩, x_slews.timebase] at waits
    exact ⟨congrArg SlewRec.state waits, congrArg SlewRec.powerWait waits⟩

end

end Sys2Proof.Machine
end

