-- ==== Sys2Proof/Proofs/SlewCommands.lean ====
section
/-! PROOF. SLEW and STOP_SLEW as commands (R74 to R76). -/

namespace Sys2Proof.Machine

section
variable (s : State) (d : Desk) (m : Ant) (az : Nat)

/-- A desk other than the sender holds a transmitter whose path goes by the antenna's selector. -/
def State.heldByAnother : Bool :=
  allTx.any fun n => s.mx.onPath n (.sel m) && (s.tx[n]).holder != none && (s.tx[n]).holder != some d

/-- The checks of SLEW behind those of its arguments, as a table (R74). -/
def State.slewRows (k : Rot) : List (Bool × Status) :=
  [(s.isOpen, .configOpen), (s.hall.state == .safe, .hallSafe), (s.locked (.ant m), .lockedOut),
   (!(s.run.usersOf m).isEmpty, .inUse), (s.heldByAnother d m, .heldByOther), ((s.cfg.active.rot[k]).keepOut az, .keepOut),
   ((s.rot[k]).validity == .invalid, .positionInvalid)]

/-- The checks of STOP_SLEW, as a table (R74). -/
def State.stopRows : List (Bool × Status) :=
  [(s.isOpen, .configOpen), (!(s.run.usersOf m).isEmpty, .inUse), (s.heldByAnother d m, .heldByOther)]

theorem heldByAnother_eq : (allTx.any fun n => s.mx.onPath n (.sel m) && (s.tx[n]).holder.isSome && (s.tx[n]).holder != some d) =
    s.heldByAnother d m := by
  refine congrArg (fun f => allTx.any f) (funext fun n => ?_)
  cases (s.tx[n]).holder <;> rfl

theorem slewRefusal_eq_rows {k : Rot} (rotator : s.cfg.antRot m = some k) (small : az < 3600) :
    s.slewRefusal d m az = firstOf (s.slewRows d m az k) := by
  have within : ¬az ≥ 3600 := Nat.not_le_of_lt small
  simp only [State.slewRefusal, if_neg within, rotator, heldByAnother_eq, State.slewRows, firstOf_cons, firstOf_nil]
  rfl

theorem stopRefusal_eq_rows {k : Rot} (rotator : s.cfg.antRot m = some k) : s.stopRefusal d m = firstOf (s.stopRows d m) := by
  simp only [State.stopRefusal, rotator, heldByAnother_eq, State.stopRows, firstOf_cons, firstOf_nil]

theorem firstOf_mem {rows : List (Bool × Status)} {e : Status} (h : firstOf rows = some e) : (true, e) ∈ rows := by
  induction rows with
  | nil => rw [firstOf_nil] at h; exact absurd h.symm (Option.some_ne_none e)
  | cons row rows ih =>
    obtain ⟨c, x⟩ := row
    rw [firstOf_cons] at h
    cases c with
    | true => rw [← Option.some.inj h]; exact List.mem_cons_self
    | false => exact List.mem_cons_of_mem _ (ih h)

theorem not_of_firstOf_none {rows : List (Bool × Status)} (h : firstOf rows = none) {c : Bool} {e : Status} (mem : (c, e) ∈ rows) :
    c = false := by
  induction rows with
  | nil => exact absurd mem List.not_mem_nil
  | cons row rows ih =>
    obtain ⟨c', x⟩ := row
    rw [firstOf_cons] at h
    cases c' with
    | true => exact absurd h (Option.some_ne_none x)
    | false =>
      rcases List.mem_cons.mp mem with same | later
      · exact congrArg Prod.fst same
      · exact ih h later

theorem slewRows_bad {k : Rot} {e : Status} (h : firstOf (s.slewRows d m az k) = some e) : e.good = false := by
  have mem := firstOf_mem h
  simp only [State.slewRows, List.mem_cons, Prod.mk.injEq, List.not_mem_nil, or_false] at mem
  rcases mem with h | h | h | h | h | h | h <;> rw [h.2] <;> rfl

theorem stopRows_bad {e : Status} (h : firstOf (s.stopRows d m) = some e) : e.good = false := by
  have mem := firstOf_mem h
  simp only [State.stopRows, List.mem_cons, Prod.mk.injEq, List.not_mem_nil, or_false] at mem
  rcases mem with h | h | h <;> rw [h.2] <;> rfl

/-! ## SLEW -/

variable {az}

theorem args_antWord (word : az < 65536) : args [1, 2] (antArg m ++ wordArg az) = some [m.val + 1, az] := by
  rw [antArg, args_num_append (by omega), args_word word]
  rfl

theorem actSlew_of (word : az < 65536) : actSlew d (antArg m ++ wordArg az) s = s.answerOf (s.slewRequest d m az) := by
  simp only [actSlew, args_antWord m word, antOf_antNumber]

theorem actSlew_out_of_range (word : az < 65536) {a : Byte} (h : ¬(1 ≤ a.toNat ∧ a.toNat ≤ 24)) :
    actSlew d (a :: wordArg az) s = s.refuse .badArgument := by
  have read : args [1, 2] (a :: wordArg az) = some [a.toNat, az] := by
    have := args_num_append a.isLt [2] (wordArg az)
    rw [args_word word, numArg, BitVec.ofNat_toNat, BitVec.setWidth_eq] at this
    exact this
  simp only [actSlew, read, antOf_eq_none h]

theorem actSlew_refused (word : az < 65536) {e : Status} (h : s.slewRefusal d m az = some e) (bad : e.good = false) :
    actSlew d (antArg m ++ wordArg az) s = s.refuse e := by
  rw [actSlew_of s d m word, State.slewRequest, h]
  exact answerOf_bad s bad

theorem actSlew_taken (word : az < 65536) {k : Rot} (rotator : s.cfg.antRot m = some k) (h : s.slewRefusal d m az = none) :
    actSlew d (antArg m ++ wordArg az) s =
      s.answer (if ((s.takeTarget k az (.desk d)).slew[k]).state = .inPosition then .done else .accepted) []
        (s.takeTarget k az (.desk d)) := by
  rw [actSlew_of s d m word, State.slewRequest, h, rotator]
  have answer : (s.takeTarget k az (.desk d)).slewAnswer k =
      if ((s.takeTarget k az (.desk d)).slew[k]).state = .inPosition then .done else .accepted := by
    simp only [State.slewAnswer, beq_iff_eq]
  show s.answerOf ((s.takeTarget k az (.desk d)).slewAnswer k, s.takeTarget k az (.desk d)) = _
  rw [answer]
  refine answerOf_good s ?_
  split <;> rfl

/-! ## STOP_SLEW -/

theorem actStopSlew_of : actStopSlew d (antArg m) s = s.answerOf (s.slewStop d m) := by
  simp only [actStopSlew, args_ant, antOf_antNumber]

theorem actStopSlew_out_of_range {a : Byte} (h : ¬(1 ≤ a.toNat ∧ a.toNat ≤ 24)) :
    actStopSlew d [a] s = s.refuse .badArgument := by
  simp only [actStopSlew, args_byte, antOf_eq_none h]

theorem actStopSlew_refused {e : Status} (h : s.stopRefusal d m = some e) (bad : e.good = false) :
    actStopSlew d (antArg m) s = s.refuse e := by
  rw [actStopSlew_of s d m, State.slewStop, h]
  exact answerOf_bad s bad

/-- The state with a rotator's target cancelled and its record cleared (R74, R86). -/
def State.slewStopped (k : Rot) : State :=
  (if (s.slew[k]).target.isSome then s.slewReport k .cancelled else s).modSlew k fun r => r.cleared s.timebase

theorem actStopSlew_taken {k : Rot} (rotator : s.cfg.antRot m = some k) (h : s.stopRefusal d m = none) :
    actStopSlew d (antArg m) s = s.answer .done [] (s.slewStopped k) := by
  rw [actStopSlew_of s d m, State.slewStop, h, rotator]
  have time : (if (s.slew[k]).target.isSome then s.slewReport k .cancelled else s).timebase = s.timebase := by
    split
    · exact (slews_slewReport s _ (Slews.refl k s)).timebase
    · rfl
  refine (answerOf_good s rfl).trans ?_
  rw [State.slewStopped, ← time]

theorem slewStopped_slew (k : Rot) : (s.slewStopped k).slew[k] = (s.slew[k]).cleared s.timebase := by
  have same : (if (s.slew[k]).target.isSome then s.slewReport k .cancelled else s).slew = s.slew := by
    split
    · exact slewReport_slew s k _
    · rfl
  rw [State.slewStopped, modSlew_same]
  simp only [same]

theorem slewStopped_calm (k : Rot) : Calm s (s.slewStopped k) := by
  unfold State.slewStopped
  refine calm_modSlew _ _ _ ?_
  split
  · exact calm_slewReport _ _ _ (Calm.refl _)
  · exact Calm.refl _

/-- The run record of a SCHEDULE target is told of the cancellation (R86). -/
theorem slewStopped_told (k : Rot) {run : Nat} (origin : (s.slew[k]).origin = some (.schedule run)) (aims : (s.slew[k]).target.isSome = true) :
    .runSlew run k .cancelled ∈ (s.slewStopped k).notices := by
  have told : (s.slewStopped k).notices = s.notices ++ [.runSlew run k .cancelled] := by
    rw [State.slewStopped, if_pos aims, State.slewReport, origin]
    rfl
  rw [told]
  exact List.mem_append_right _ (List.mem_singleton_self _)

end

/-- Settles O32: each refusal by its table; an accepted target by the state of the record. -/
theorem slewAndStop : Obligations.SlewAndStop := by
  intro s d tag m az serves word other
  refine ⟨fun none_ => ⟨fun small => ?_, ?_⟩, fun big => ?_, fun a out => ⟨?_, ?_⟩, fun k rotator small => ?_⟩
  · refine only_answered_of_refuse rfl serves (actSlew_refused _ d m word ?_ rfl)
    rw [State.slewRefusal, if_neg (Nat.not_le_of_lt small), taken_cfg, none_]
  · refine only_answered_of_refuse rfl serves (actStopSlew_refused _ d m ?_ rfl)
    rw [State.stopRefusal, taken_cfg, none_]
  · exact only_answered_of_refuse rfl serves (actSlew_refused _ d m word (if_pos big) rfl)
  · exact only_answered_of_refuse rfl serves (actSlew_out_of_range _ d word out)
  · exact only_answered_of_refuse rfl serves (actStopSlew_out_of_range _ d out)
  intro refusal refusalStop
  have settled : s.isSettling = false := serves.2
  have slewTable : (s.taken d tag 0x26).slewRefusal d m az = refusal := slewRefusal_eq_rows (s.taken d tag 0x26) d m az rotator small
  have stopTable : (s.taken d tag 0x27).stopRefusal d m = refusalStop := stopRefusal_eq_rows (s.taken d tag 0x27) d m rotator
  refine ⟨fun e refused => ?_, fun free => ?_, fun e refused => ?_, fun free => ?_⟩
  · exact only_answered_of_refuse rfl serves
      (actSlew_refused _ d m word (slewTable.trans refused) (slewRows_bad (s.taken d tag 0x26) d m az refused))
  · let z := s.taken d tag 0x26
    have act := actSlew_taken z d m word rotator (slewTable.trans free)
    have calm : Calm z (z.takeTarget k az (.desk d)) := calm_takeTarget _ _ _ _ (Calm.refl _)
    have slews : Slews k z (z.takeTarget k az (.desk d)) := slews_goOn _ _ (slews_retargeted z k az _)
    have free' : firstOf (z.slewRows d m az k) = none := free
    have opened : s.isOpen = false := not_of_firstOf_none free' (e := .configOpen) (by simp [State.slewRows, z])
    have held_ : ((s.rot[k]).validity == .invalid) = false :=
      not_of_firstOf_none free' (e := .positionInvalid) (by simp [State.slewRows, z])
    have valid : (s.rot[k]).validity ≠ .invalid := beq_eq_false_iff_ne.mp held_
    have aims := aims_goOn (s := z.retargeted k az (.desk d)) (k := k) (by rw [(slews_retargeted z k az _).rot]; exact valid)
      (z.slew[k]).state
    rw [retargeted_slew] at aims
    refine ⟨_, runs_of_act rfl serves act calm.links, calm.kept, aims.target, aims.origin, aims.fault, aims.runs ?_, slews.others,
      fun held azimuth => ?_⟩
    · intro fault
      have fault : (if (s.slew[k]).state == .fault then SlewState.idle else (s.slew[k]).state) = .fault := fault
      split at fault
      · exact SlewState.noConfusion fault
      · next running => exact running (beq_iff_eq.mpr fault)
    · intro p e near path back allowed b v fresh turns
      have azimuth : z.heldAzimuth k = some held := by
        have valid' : ¬((z.rot[k]).validity == .invalid) = true := fun h => valid (beq_iff_eq.mp h)
        rw [State.heldAzimuth, if_neg valid']
        exact azimuth
      have allows : z.drivesAllowed = true ↔ allowed := by
        rw [drivesAllowed_iff]
        exact ⟨fun ⟨normal, _, configured⟩ => ⟨normal, configured⟩, fun ⟨normal, configured⟩ => ⟨normal, opened, configured⟩⟩
      refine ⟨fun idle => ?_, fun holds => ?_, fun awaits => ?_, fun dwells => ?_, fun drives => ?_, fun settles => ?_⟩
      · have moves := takeTarget_idle (s := z) (az := az) (o := .desk d) azimuth settled idle
        rw [allows] at moves
        exact moves
      · have moves := takeTarget_position (s := z) (az := az) (o := .desk d) azimuth settled holds
        rw [allows] at moves
        exact moves
      · exact takeTarget_await (s := z) azimuth settled awaits
      · exact takeTarget_dwell (s := z) azimuth dwells
      · exact takeTarget_drive (s := z) azimuth drives
      · exact takeTarget_settle (s := z) azimuth settled settles
  · exact only_answered_of_refuse rfl serves
      (actStopSlew_refused _ d m (stopTable.trans refused) (stopRows_bad (s.taken d tag 0x27) d m refused))
  · let z := s.taken d tag 0x27
    have act := actStopSlew_taken z d m rotator (stopTable.trans free)
    have calm := slewStopped_calm z k
    have at_ := slewStopped_slew z k
    rw [SlewRec.cleared, rest_eq] at at_
    exact ⟨_, runs_of_act rfl serves act calm.links, calm.kept, congrArg SlewRec.target at_, congrArg SlewRec.origin at_,
      congrArg SlewRec.state at_, congrArg SlewRec.cap at_, congrArg SlewRec.slewTimer at_, congrArg SlewRec.powerWait at_,
      congrArg SlewRec.dwell at_, congrArg SlewRec.stallWindow at_, fun run origin aims => slewStopped_told z k origin aims,
      fun drive x dir => (congrArg SlewRec.lastOff at_).trans (driveOff_drive s.timebase drive dir)⟩

end Sys2Proof.Machine
end

