-- ==== Sys2Proof/Proofs/SupervisorTimers.lean ====
section
/-! PROOF. What the transmitter supervisor leaves, the counting of a trip, and the timers of a transmitter record (R94, R97, R98,
R101 to R103). -/

namespace Sys2Proof.Machine

/-! ## What the supervisor leaves -/

/-- What reports and desks give a record and trips and orders leave: all kept fields but the trip history, and the silence timer. -/
def TxRec.heard (x : TxRec) : KeptTx × Timer := ({ x.kept with history := [] }, x.silence)

/-- The supervisor has acted on transmitter n. -/
structure Supervises (n : Tx) (a b : State) : Prop where
  outside : { b with tx := a.tx, permit := a.permit, notices := a.notices, links := a.links, faultMark := a.faultMark, sent := a.sent } = a
  links : ∀ d : Desk, LinkCalm (a.link d) (b.link d)
  others : ∀ j : Tx, j ≠ n → b.tx[j] = a.tx[j]
  heard : (b.tx[n]).heard = (a.tx[n]).heard

section
variable {n : Tx} {a b z : State}

theorem Supervises.refl (n : Tx) (a : State) : Supervises n a a := ⟨rfl, fun _ => LinkCalm.refl _, fun _ _ => rfl, rfl⟩

theorem Supervises.trans {c : State} (h : Supervises n a b) (g : Supervises n b c) : Supervises n a c where
  outside := by
    have first := congrArg (fun s : State => { s with
      tx := a.tx, permit := a.permit, notices := a.notices, links := a.links, faultMark := a.faultMark, sent := a.sent }) g.outside
    exact first.trans h.outside
  links d := (h.links d).trans (g.links d)
  others j e := (g.others j e).trans (h.others j e)
  heard := g.heard.trans h.heard

theorem Supervises.timebase (h : Supervises n a b) : b.timebase = a.timebase := by
  have same := congrArg State.timebase h.outside
  exact same

theorem Supervises.cfg (h : Supervises n a b) : b.cfg = a.cfg := by
  have same := congrArg State.cfg h.outside
  exact same

theorem Supervises.superTimer (h : Supervises n a b) (dur : Nat) : b.superTimer dur = a.superTimer dur := by
  rw [State.superTimer, State.superTimer, State.isSettling, State.isSettling, h.cfg, State.startTimer, State.startTimer, h.timebase]

theorem supervises_raise (s : State) (x : Attn) (h : Supervises n z s) : Supervises n z (s.raise x) :=
  h.trans ⟨rfl, fun d => (calm_raise s x (Calm.refl s)).links d, fun _ _ => rfl, rfl⟩

theorem supervises_raiseIf (s : State) (c : Bool) (x : Attn) (h : Supervises n z s) : Supervises n z (s.raiseIf c x) := by
  cases c
  · exact h
  · exact supervises_raise s x h

theorem supervises_notify (s : State) (x : Notice) (h : Supervises n z s) : Supervises n z (s.notify x) :=
  h.trans ⟨rfl, fun _ => LinkCalm.refl _, fun _ _ => rfl, rfl⟩

theorem supervises_modTx (s : State) (f : TxRec → TxRec) (hf : (f s.tx[n]).heard = (s.tx[n]).heard) (h : Supervises n z s) :
    Supervises n z (s.modTx n f) :=
  h.trans ⟨rfl, fun _ => LinkCalm.refl _, fun j e => modTx_other s n j f e, by rw [modTx_same, hf]⟩

theorem supervises_modForces (s : State) (f : Forces → Forces) (h : Supervises n z s) : Supervises n z (s.modForces n f) :=
  h.trans ⟨rfl, fun _ => LinkCalm.refl _, fun _ _ => rfl, rfl⟩

theorem supervises_mark (s : State) (m : Ant) (h : Supervises n z s) :
    Supervises n z { s with faultMark := s.faultMark.set m true } :=
  h.trans ⟨rfl, fun _ => LinkCalm.refl _, fun _ _ => rfl, rfl⟩

theorem follow_heard (r : TxRec) (c : TxCond) (f : Option Nat) : (r.follow c f).heard = r.heard := by cases c <;> rfl

theorem followLast_heard (r : TxRec) : r.followLast.heard = r.heard := by
  unfold TxRec.followLast
  split
  · exact follow_heard r _ _
  · rfl

theorem supervises_endOrder (s : State) (f : Option OrderFail) (h : Supervises n z s) : Supervises n z (s.endOrder n f) := by
  unfold State.endOrder
  split
  · exact h
  · dsimp only
    split
    · exact supervises_notify _ _ (supervises_modTx s _ rfl h)
    · exact supervises_raise _ _ (supervises_modTx s _ rfl h)

theorem supervises_failOrder (s : State) (f : OrderFail) (h : Supervises n z s) : Supervises n z (s.failOrder n f) := by
  unfold State.failOrder
  dsimp only
  split
  · exact supervises_modTx _ _ (followLast_heard _) (supervises_endOrder s _ h)
  · exact supervises_endOrder s _ h

theorem supervises_finalTrip (s : State) (cause : TripCause) (h : Supervises n z s) : Supervises n z (s.finalTrip n cause) := by
  have tripped := supervises_modForces _ (fun f => { f with trip := true }) (supervises_modTx (n := n) s
    (fun r => { r with state := .tripped, recycleTimer := .idle, clearPending := false }) rfl h)
  unfold State.finalTrip
  dsimp only
  split
  · exact supervises_notify _ _ (supervises_mark _ _ tripped)
  · exact supervises_notify _ _ tripped

theorem supervises_recycleTrip (s : State) (h : Supervises n z s) : Supervises n z (s.recycleTrip n) := supervises_modTx s _ rfl h

theorem supervises_countTrip (s : State) (cause : TripCause) (h : Supervises n z s) : Supervises n z (s.countTrip n cause) := by
  unfold State.countTrip
  refine supervises_raise _ _ ?_
  split
  · exact supervises_finalTrip _ _ (supervises_modTx _ _ rfl (supervises_endOrder s _ h))
  · exact supervises_recycleTrip _ (supervises_modTx _ _ rfl (supervises_endOrder s _ h))

end

/-! ## A trip counted -/

/-- A record whose order has ended, at whatever it is recorded. -/
theorem endOrder_record (s : State) (n : Tx) (f : Option OrderFail) :
    ∃ e : Option OrderEnd, (s.endOrder n f).tx[n] = { s.tx[n] with order := none, lastEnd := e } ∧
      ∀ o : Order, (s.tx[n]).order = some o → e = some ⟨o.kind, o.origin, f⟩ := by
  cases h : (s.tx[n]).order with
  | none =>
    refine ⟨(s.tx[n]).lastEnd, ?_, fun o same => absurd same.symm (Option.some_ne_none o)⟩
    rw [endOrder_none s n f h, ← h]
  | some o =>
    refine ⟨some ⟨o.kind, o.origin, f⟩, ?_, fun o' same => by rw [Option.some.inj same]⟩
    simp only [endOrder_tx s n f h, getElem_set_fin, if_true]

/-- The trip history with a trip counted now: the newest times inside the recycle window, no more than the trip limit (R101). -/
def State.trips (s : State) (n : Tx) : List Nat :=
  newestTrips (youngTrips (s.tx[n]).history s.timebase s.cfg.active.recycleWindow ++ [s.timebase]) s.cfg.active.tripLimit

section
variable (s : State) (n : Tx) (cause : TripCause)

/-- A counted trip in the record: final at the trip limit, else RECYCLE (R101). -/
theorem countTrip_tx : ∃ e : Option OrderEnd, (s.countTrip n cause).tx[n] =
    if s.cfg.active.tripLimit ≤ (s.trips n).length then
      { s.tx[n] with order := none, lastEnd := e, lastCause := some cause, history := s.trips n, rfWatch := .idle, tuned := none,
                     state := .tripped, recycleTimer := .idle, clearPending := false }
    else
      { s.tx[n] with order := none, lastEnd := e, lastCause := some cause, history := s.trips n, rfWatch := .idle, tuned := none,
                     state := .recycle, recycleTimer := s.superTimer (1000 * s.cfg.active.recycleDelay) } := by
  obtain ⟨e, ended, -⟩ := endOrder_record s n (some .tripped)
  have frame := supervises_endOrder (n := n) s (some .tripped) (Supervises.refl n s)
  refine ⟨e, ?_⟩
  have trips : newestTrips (youngTrips ((s.endOrder n (some .tripped)).tx[n]).history (s.endOrder n (some .tripped)).timebase
      (s.endOrder n (some .tripped)).cfg.active.recycleWindow ++ [(s.endOrder n (some .tripped)).timebase])
      (s.endOrder n (some .tripped)).cfg.active.tripLimit = s.trips n := by
    rw [ended, frame.timebase, frame.cfg]
    rfl
  let v := (s.endOrder n (some .tripped)).modTx n fun r =>
    { r with lastCause := some cause, history := s.trips n, rfWatch := .idle, tuned := none }
  have counted : s.countTrip n cause =
      (if (s.trips n).length ≥ v.cfg.active.tripLimit then v.finalTrip n cause else v.recycleTrip n).raise .trip := by
    unfold State.countTrip
    dsimp only
    rw [trips]
  have frame' : Supervises n s v := supervises_modTx _ _ rfl frame
  have at_ : v.tx[n] = { s.tx[n] with
      order := none, lastEnd := e, lastCause := some cause, history := s.trips n, rfWatch := .idle, tuned := none } := by
    rw [show v.tx[n] = _ from modTx_same _ n _, ended]
  rw [frame'.cfg] at counted
  by_cases final : s.cfg.active.tripLimit ≤ (s.trips n).length
  · rw [if_pos final] at counted ⊢
    have tx : (v.finalTrip n cause).tx[n] = { v.tx[n] with state := .tripped, recycleTimer := .idle, clearPending := false } := by
      unfold State.finalTrip
      dsimp only
      split <;> exact modTx_same v n fun r => { r with state := .tripped, recycleTimer := .idle, clearPending := false }
    have same : (s.countTrip n cause).tx = (v.finalTrip n cause).tx := by rw [counted]; rfl
    simp only [same]
    rw [tx, at_]
  · rw [if_neg final] at counted ⊢
    have tx : (v.recycleTrip n).tx[n] =
        { v.tx[n] with state := .recycle, recycleTimer := v.superTimer (1000 * v.cfg.active.recycleDelay) } := modTx_same v n _
    have same : (s.countTrip n cause).tx = (v.recycleTrip n).tx := by rw [counted]; rfl
    simp only [same]
    rw [tx, at_, frame'.superTimer, frame'.cfg]

theorem countTrip_raised : (s.countTrip n cause).raised .trip := raised_raise _ _

/-- A final trip sets the force TRIP (R101, R105). -/
theorem finalTrip_force : (((s.finalTrip n cause).permit[n]).forces.trip) = true := by
  let v := s.modTx n fun r => { r with state := .tripped, recycleTimer := .idle, clearPending := false }
  have forced : (v.modForces n fun f => { f with trip := true }).permit[n] =
      { v.permit[n] with forces := { v.permit[n].forces with trip := true } } := modPermit_same v n _
  have same : (s.finalTrip n cause).permit = (v.modForces n fun f => { f with trip := true }).permit := by
    unfold State.finalTrip
    dsimp only
    split <;> rfl
  simp only [same, forced]

theorem countTrip_force (h : s.cfg.active.tripLimit ≤ (s.trips n).length) : ((s.countTrip n cause).permit[n]).forces.trip = true := by
  obtain ⟨e, ended, -⟩ := endOrder_record s n (some .tripped)
  have frame := supervises_endOrder (n := n) s (some .tripped) (Supervises.refl n s)
  unfold State.countTrip
  dsimp only
  rw [if_pos]
  · exact finalTrip_force _ n cause
  · rw [ended, frame.timebase, modTx_cfg, frame.cfg]
    exact h

theorem trips_length_iff : s.cfg.active.tripLimit ≤ (s.trips n).length ↔
    s.cfg.active.tripLimit ≤
      (youngTrips (s.tx[n]).history s.timebase s.cfg.active.recycleWindow ++ [s.timebase]).length := by
  rw [State.trips, newestTrips, List.length_drop]
  omega

end

end Sys2Proof.Machine
end

