-- ==== Sys2Proof/Proofs/OrderTimers.lean ====
section
/-! PROOF. The timers of a transmitter record (R94, R97, R98, R102, R103). -/

namespace Sys2Proof.Machine

/-- A record that follows its last reported condition (R93). -/
theorem followLast_state (r : TxRec) :
    (r.lastCond = none → r.followLast.state = .offline) ∧ (r.lastCond = some .standby → r.followLast.state = .standby) ∧
      (r.lastCond = some .tuning → r.followLast.state = .tuning) ∧ (r.lastCond = some .ready → r.followLast.state = .ready) := by
  refine ⟨fun h => ?_, fun h => ?_, fun h => ?_, fun h => ?_⟩ <;> rw [TxRec.followLast, h] <;> rfl

theorem followLast_recycleTimer (r : TxRec) : r.followLast.recycleTimer = r.recycleTimer := by
  unfold TxRec.followLast
  split
  · next c _ => cases c <;> rfl
  · rfl

theorem not_running {t : Timer} (h : ∀ due : Nat, t ≠ .running due) : ¬t.isRunning = true := fun running => by
  obtain ⟨due, at_⟩ := isRunning_of running
  exact h due at_

section
variable (s : State) (n : Tx)

/-- The record at the end of silence, before its order ends (R94). -/
def State.silent (s : State) (n : Tx) : State := s.modTx n fun r =>
  { r with reporting := false, silence := .idle, rfLevel := none, tuned := none, warning := false, rfWatch := .idle,
           state := if r.state == .tripped then .tripped else .offline }

theorem silenceExpired_eq : s.silenceExpired n = ((s.silent n).endOrder n (some .offline)).raise .transmitter := rfl

theorem silenceExpired_tx : ∃ e : Option OrderEnd, (s.silenceExpired n).tx[n] = { s.tx[n] with
    reporting := false, silence := .idle, rfLevel := none, tuned := none, warning := false, rfWatch := .idle,
    state := if s.tx[n].state == .tripped then .tripped else .offline, order := none, lastEnd := e } ∧
    ∀ o : Order, (s.tx[n]).order = some o → e = some ⟨o.kind, o.origin, some .offline⟩ := by
  obtain ⟨e, ended, why⟩ := endOrder_record (s.silent n) n (some .offline)
  have at_ := modTx_same s n fun r => { r with
    reporting := false, silence := .idle, rfLevel := none, tuned := none, warning := false, rfWatch := .idle,
    state := if r.state == .tripped then .tripped else .offline }
  have same : (s.silenceExpired n).tx = ((s.silent n).endOrder n (some .offline)).tx := rfl
  refine ⟨e, ?_, fun o h => why o ?_⟩
  · simp only [same]
    rw [ended, show (s.silent n).tx[n] = _ from at_]
  · rw [show (s.silent n).tx[n] = _ from at_]
    exact h

theorem silenceExpired_other {j : Tx} (h : j ≠ n) : (s.silenceExpired n).tx[j] = s.tx[j] := by
  have frame := supervises_endOrder (n := n) (s.silent n) (some .offline) (Supervises.refl n _)
  exact (frame.others j h).trans (modTx_other s n j _ h)

theorem tuneExpired_of {f g : Nat} {o : Origin} {sent : Bool} {due : Nat}
    (h : (s.tx[n]).order = some (.tune f g o sent (.running due))) :
    s.tuneExpired n = ({ s with timebase := max s.timebase due } : State).failOrder n .tuneTimeout := by
  rw [State.tuneExpired, h]
  rfl

theorem feedExpired_of {g : Nat} {o : Origin} {due : Nat} (h : (s.tx[n]).order = some (.feed g o (.running due))) :
    s.feedExpired n = ({ s with timebase := max s.timebase due } : State).failOrder n .feedTimeout := by
  rw [State.feedExpired, h]
  rfl

theorem failOrder_permit (f : OrderFail) : (s.failOrder n f).permit = s.permit := by
  have ended : (s.endOrder n (some f)).permit = s.permit := by
    obtain e | ⟨g, ⟨x, e⟩ | e⟩ := endOrder_cases s n (some f) <;> rw [e] <;> rfl
  unfold State.failOrder
  dsimp only
  split <;> exact ended

/-- The record at the end of the recycle delay (R102). -/
theorem recycleExpired_tx : (s.recycleExpired n).tx[n] =
    if s.tx[n].state = .recycle ∧ s.tx[n].lastCond ≠ some .tripped then
      TxRec.followLast { s.tx[n] with recycleTimer := .idle }
    else { s.tx[n] with recycleTimer := .idle } := by
  rw [State.recycleExpired, modTx_same]
  simp only [Bool.and_eq_true, beq_iff_eq, bne_iff_ne]

theorem recycleExpired_calm : Calm s (s.recycleExpired n) := by
  refine calm_modTx s n _ ?_ (Calm.refl s)
  dsimp only
  split
  · unfold TxRec.followLast
    dsimp only
    split
    · next c _ => cases c <;> rfl
    · rfl
  · rfl

end

/-- Settles O55, timer by timer; an expiry acts at its timer's moment. -/
theorem supervisorTimers : Obligations.SupervisorTimers := by
  intro s n due a b
  refine ⟨fun running => ?_, fun idle => ?_, fun f g o sent order => ?_, fun g o order => ?_, fun running => ?_, fun idle => ?_,
    fun running => ?_, fun idle => ?_⟩
  · have running : (s.tx[n]).silence = .running due := running
    have act : exec (.silenceTimeout n) s = .next (State.event a (a.silenceExpired n)) := by
      simp only [exec, execSilenceTimeout, running]
      rfl
    have calm : Calm (a.silent n) (a.silenceExpired n) := calm_raise _ _ (calm_endOrder _ _ _ (Calm.refl _))
    obtain ⟨e, at_, why⟩ := silenceExpired_tx a n
    refine ⟨_, runs_of_event act (links_of_calm s calm rfl), raised_raise _ _, fun j other => silenceExpired_other a n other, ?_⟩
    intro x
    have is : x = _ := at_
    rw [is]
    refine ⟨rfl, rfl, rfl, rfl, rfl, rfl, rfl, rfl, rfl, ?_, fun o order => why o order⟩
    simp only [beq_iff_eq]
    rfl
  · exact congrArg Host.Outcome.next (if_neg (not_running idle))
  · have act := tuneExpired_of s n order
    have calm : Calm a (a.failOrder n .tuneTimeout) := calm_failOrder _ _ _ (Calm.refl _)
    have at_ := failOrder_tx a n .tuneTimeout order
    have tune : (a.tx[n]).hasTune = true := by
      show TxRec.hasTune s.tx[n] = true
      rw [TxRec.hasTune, show (s.tx[n]).order = _ from order]
    rw [if_pos tune] at at_
    obtain ⟨offline, standby, tuning, ready⟩ := followLast_state
      { a.tx[n] with order := none, lastEnd := some ⟨.tune, o, some .tuneTimeout⟩ }
    refine ⟨_, runs_of_event (congrArg (fun u => Host.Outcome.next (State.event s u)) act) (links_of_calm s calm rfl), calm.kept, ?_⟩
    rw [at_]
    exact ⟨followLast_order _, followLast_lastEnd _, offline, standby, tuning, ready⟩
  · have act := feedExpired_of s n order
    have calm : Calm a (a.failOrder n .feedTimeout) := calm_failOrder _ _ _ (Calm.refl _)
    have at_ := failOrder_tx a n .feedTimeout order
    have tune : ¬(a.tx[n]).hasTune = true := by
      show ¬TxRec.hasTune s.tx[n] = true
      rw [TxRec.hasTune, show (s.tx[n]).order = _ from order]
      exact Bool.false_ne_true
    rw [if_neg tune] at at_
    refine ⟨_, runs_of_event (congrArg (fun u => Host.Outcome.next (State.event s u)) act) (links_of_calm s calm rfl), calm.kept, ?_⟩
    rw [at_]
    exact ⟨rfl, rfl, rfl, failOrder_permit a n _⟩
  · have running : (s.tx[n]).recycleTimer = .running due := running
    have act : exec (.recycleTimerExpiry n) s = .next (State.event a (a.recycleExpired n)) := by
      simp only [exec, execRecycleTimerExpiry, running]
      rfl
    have calm := recycleExpired_calm a n
    have at_ := recycleExpired_tx a n
    obtain ⟨-, standby, tuning, ready⟩ := followLast_state { a.tx[n] with recycleTimer := .idle }
    have follows {c : TxCond} (recycle : b.state = .recycle) (cond : b.lastCond = some c) (other : c ≠ .tripped) :=
      at_.trans (if_pos ⟨recycle, by rw [show (a.tx[n]).lastCond = some c from cond]; exact fun h => other (Option.some.inj h)⟩)
    refine ⟨_, runs_of_event act (links_of_calm s calm rfl), calm.kept, ?_, fun recycle cond => ?_, fun recycle cond => ?_,
      fun recycle cond => ?_, fun recycle cond => ?_, fun other => ?_⟩
    · rw [at_]
      split
      · exact followLast_recycleTimer _
      · rfl
    · rw [follows recycle cond (by decide)]
      exact standby cond
    · rw [follows recycle cond (by decide)]
      exact tuning cond
    · rw [follows recycle cond (by decide)]
      exact ready cond
    · rw [at_, if_neg fun h => h.2 cond]
      exact recycle
    · rw [at_, if_neg fun h => other h.1]
  · exact congrArg Host.Outcome.next (if_neg (not_running idle))
  · have running : (s.tx[n]).rfWatch = .running due := running
    have act : exec (.rfWatchExpiry n) s = .next (State.event a (a.countTrip n .other)) := by
      simp only [exec, execRfWatchExpiry, running]
      rfl
    have frame := supervises_countTrip (n := n) a .other (Supervises.refl n a)
    obtain ⟨e, at_⟩ := countTrip_tx a n .other
    have final := trips_length_iff a n
    refine ⟨_, runs_of_event act frame.links, countTrip_raised a n _, ?_, ?_, ?_, ?_⟩
    · rw [at_]
      split <;> rfl
    · rw [at_]
      split <;> rfl
    · rw [at_]
      split <;> rfl
    · intro young
      refine ⟨?_, fun limit => ⟨?_, countTrip_force a n _ (final.mpr limit)⟩, fun below => ?_⟩
      · rw [at_]
        split <;> rfl
      · rw [at_, if_pos (final.mpr limit)]
      · rw [at_, if_neg fun limit => absurd (final.mp limit) (Nat.not_le_of_lt below)]
  · exact congrArg Host.Outcome.next (if_neg (not_running idle))

end Sys2Proof.Machine
end

