-- ==== Sys2Proof/Proofs/StatusReports.lean ====
section
/-! PROOF. STATUS (R91 to R94, R100, R101). -/

namespace Sys2Proof.Machine

theorem raised_of_links {a b : State} (h : ∀ d : Desk, LinkCalm (a.link d) (b.link d)) {x : Attn} (raised : a.raised x) :
    b.raised x := by
  intro d
  have grows := (h d).grows
  calc (b.link d).attn &&& x.bit = (b.link d).attn &&& ((a.link d).attn &&& x.bit) := by rw [raised d]
    _ = ((a.link d).attn &&& (b.link d).attn) &&& x.bit := by rw [← BitVec.and_assoc, BitVec.and_comm (b.link d).attn]
    _ = x.bit := by rw [grows, raised d]

section
variable {n : Tx} {z : State} (s : State)

theorem supervises_stateReport (c : TxCond) (r : StatusReport) (h : Supervises n z s) : Supervises n z (s.stateReport n c r) := by
  have follow (f : Option Nat) : (s.tx[n].follow c f).heard = (s.tx[n]).heard := follow_heard _ c f
  unfold State.stateReport
  dsimp only
  split
  · split
    · exact supervises_raise _ _ (supervises_modTx s _ (follow (some r.freq)) h)
    · exact h
  · split
    · exact supervises_modTx s _ (follow _) h
    · exact h
  · split
    · exact supervises_modTx _ _ (follow_heard _ c _) (supervises_endOrder s _ h)
    · exact h
  · exact supervises_modTx s _ (follow _) h

theorem supervises_ite {p : Prop} [Decidable p] {a b : State} (ha : Supervises n z a) (hb : Supervises n z b) :
    Supervises n z (if p then a else b) := by
  split
  · exact ha
  · exact hb

theorem supervises_feedReport (feed : Nat) (h : Supervises n z s) : Supervises n z (s.feedReport n feed) := by
  unfold State.feedReport
  split
  · split
    · exact supervises_endOrder s _ h
    · exact h
  · exact h

theorem calm_stateReport (c : TxCond) (r : StatusReport) (h : Calm z s) : Calm z (s.stateReport n c r) := by
  have follow (x : TxRec) (f : Option Nat) : (x.follow c f).kept = x.kept := by cases c <;> rfl
  unfold State.stateReport
  dsimp only
  split
  · split
    · exact calm_raise _ _ (calm_modTx s n _ (follow _ (some r.freq)) h)
    · exact h
  · split
    · exact calm_modTx s n _ (follow _ _) h
    · exact h
  · split
    · exact calm_modTx _ n _ (follow _ _) (calm_endOrder s n _ h)
    · exact h
  · exact calm_modTx s n _ (follow _ _) h

theorem calm_feedReport (feed : Nat) (h : Calm z s) : Calm z (s.feedReport n feed) := by
  unfold State.feedReport
  split
  · split
    · exact calm_endOrder s n _ h
    · exact h
  · exact h

end

section
variable (s : State) (n : Tx) (r : StatusReport)

/-- The fields of an accepted report taken, and attention raised for a line that was silent or warns anew (R91, R94, R108). -/
def State.reported (s : State) (n : Tx) (r : StatusReport) : State :=
  ((s.modTx n fun x => x.fields r (s.superTimer 3000)).raiseIf (!(s.tx[n]).reporting) .transmitter).raiseIf
    (r.warning && !(s.tx[n]).warning) .transmitter

theorem takeStatus_eq {c : TxCond} (cond : r.cond = some c) : s.takeStatus n r =
    (if c == .tripped then
      if ((s.reported n r).tx[n]).countsTrip (if (s.tx[n]).reporting then (s.tx[n]).lastCond else none) then
        (s.reported n r).countTrip n (causeOf r.cause)
      else s.reported n r
    else (s.reported n r).stateReport n c r).feedReport n r.feed := by
  rw [State.takeStatus, cond]
  rfl

theorem reported_calm : Calm (s.modTx n fun x => x.fields r (s.superTimer 3000)) (s.reported n r) :=
  calm_raiseIf _ _ _ (calm_raiseIf _ _ _ (Calm.refl _))

theorem reported_outside : { s.reported n r with links := s.links, tx := s.tx } = s := by
  unfold State.reported
  cases (s.tx[n]).reporting <;> cases (r.warning && !(s.tx[n]).warning) <;> rfl

theorem reported_tx : (s.reported n r).tx = (s.modTx n fun x => x.fields r (s.superTimer 3000)).tx := by
  unfold State.reported
  cases (s.tx[n]).reporting <;> cases (r.warning && !(s.tx[n]).warning) <;> rfl

theorem reported_same : (s.reported n r).tx[n] = (s.tx[n]).fields r (s.superTimer 3000) := by
  simp only [reported_tx]
  exact modTx_same s n _

theorem reported_other {j : Tx} (h : j ≠ n) : (s.reported n r).tx[j] = s.tx[j] := by
  simp only [reported_tx]
  exact modTx_other s n j _ h

theorem reported_raised (h : (s.tx[n]).reporting = false ∨ (r.warning = true ∧ (s.tx[n]).warning = false)) :
    (s.reported n r).raised .transmitter := by
  by_cases warns : (r.warning && !(s.tx[n]).warning) = true
  · rw [State.reported, warns]
    exact raised_raise _ _
  · have silent : (s.tx[n]).reporting = false := h.resolve_right fun ⟨w, was⟩ => warns (by rw [w, was]; rfl)
    rw [State.reported, silent, Bool.eq_false_iff.mpr warns]
    exact raised_raise _ _

/-- Every branch of an accepted report leaves what the supervisor leaves. -/
theorem takeStatus_frame {c : TxCond} (cond : r.cond = some c) : Supervises n (s.reported n r) (s.takeStatus n r) := by
  rw [takeStatus_eq s n r cond]
  exact supervises_feedReport _ _ (supervises_ite (supervises_ite (supervises_countTrip _ _ (Supervises.refl n _))
    (Supervises.refl n _)) (supervises_stateReport _ _ _ (Supervises.refl n _)))

theorem feedReport_of_none {v : State} (h : (v.tx[n]).order = none) (feed : Nat) : v.feedReport n feed = v := by
  rw [State.feedReport, h]

/-- A report other than TRIPPED keeps the trip history. -/
theorem takeStatus_history {c : TxCond} (cond : r.cond = some c) (other : c ≠ .tripped) :
    ((s.takeStatus n r).tx[n]).history = (s.tx[n]).history := by
  have calm : Calm (s.reported n r) (s.takeStatus n r) := by
    rw [takeStatus_eq s n r cond, if_neg fun h => other (beq_iff_eq.mp h)]
    exact calm_feedReport _ _ (calm_stateReport _ _ _ (Calm.refl _))
  have kept := congrArg (fun k : Kept => (k.tx[n]).history) calm.kept
  simp only [kept_tx_get, reported_same] at kept
  exact kept

/-- READY with no order in its way makes the record READY (R93). -/
theorem takeStatus_ready (cond : r.cond = some .ready) (free : (s.tx[n]).order = none)
    (state : (s.tx[n]).state = .standby ∨ (s.tx[n]).state = .offline ∨ (s.tx[n]).state = .tuning ∨ (s.tx[n]).state = .ready ∨
      (s.tx[n]).state = .radiating) :
    ((s.takeStatus n r).tx[n]).state = .ready ∧
      ((s.takeStatus n r).tx[n]).tuned = if freqOk r.freq then some r.freq else none := by
  have at_ := reported_same s n r
  have free' : ((s.reported n r).tx[n]).order = none := by rw [at_]; exact free
  have state' : ((s.reported n r).tx[n]).state = (s.tx[n]).state := by rw [at_]; rfl
  have report : (s.reported n r).stateReport n .ready r = (s.reported n r).modTx n fun x => x.follow .ready (some r.freq) := by
    unfold State.stateReport
    dsimp only
    rw [free', state']
    rcases state with h | h | h | h | h <;> rw [h]
  have after : (((s.reported n r).modTx n fun x => x.follow .ready (some r.freq)).tx[n]) =
      ((s.reported n r).tx[n]).follow .ready (some r.freq) := modTx_same _ n _
  have taken : s.takeStatus n r = (s.reported n r).modTx n fun x => x.follow .ready (some r.freq) := by
    rw [takeStatus_eq s n r cond, if_neg (by decide), report]
    exact feedReport_of_none n (by rw [after]; exact free') _
  rw [taken, after]
  exact ⟨rfl, rfl⟩

/-- A change into TRIPPED counts a trip of the cause reported (R100, R101). -/
theorem takeStatus_trip (cond : r.cond = some .tripped) (state : (s.tx[n]).state ≠ .tripped)
    (before : (s.tx[n]).reporting = true → (s.tx[n]).lastCond ≠ some .tripped) :
    s.takeStatus n r = (s.reported n r).countTrip n (causeOf r.cause) := by
  have counts : ((s.reported n r).tx[n]).countsTrip (if (s.tx[n]).reporting then (s.tx[n]).lastCond else none) = true := by
    rw [reported_same, TxRec.countsTrip, Bool.and_eq_true, bne_iff_ne, bne_iff_ne]
    refine ⟨?_, state⟩
    split
    · next reporting => exact before reporting
    · exact fun h => absurd h.symm (Option.some_ne_none _)
  rw [takeStatus_eq s n r cond, if_pos (by decide), if_pos counts]
  refine feedReport_of_none n ?_ _
  obtain ⟨e, at_⟩ := countTrip_tx (s.reported n r) n (causeOf r.cause)
  rw [at_]
  split <;> rfl

end

theorem causeOf_eq (c : Option TripCause) : causeOf c =
    if c = some .reflected then .reflected else if c = some .overload then .overload else .other := by
  cases c with
  | none => rfl
  | some x => cases x <;> rfl

/-- Settles O54: a report is taken into the record, and goes on by its condition. -/
theorem statusReports : Obligations.StatusReports := by
  intro s n r
  refine ⟨fun h => ?_, fun c l sound cond low high level ok settled => ?_⟩
  · refine congrArg Host.Outcome.next (if_neg fun test => ?_)
    simp only [State.statusOk, Bool.and_eq_true, feedOk, decide_eq_true_eq] at test
    obtain ⟨⟨⟨⟨sound, cond⟩, feed⟩, level⟩, configured⟩ := test
    rcases h with h | h | h | h | h
    · exact absurd (sound.symm.trans h) (by decide)
    · rw [h] at cond; exact absurd cond (by decide)
    · exact h feed
    · rw [h] at level; exact absurd level (by decide)
    · exact absurd (configured.symm.trans h) (by decide)
  · intro b young history
    have accepted : s.statusOk n r = true := by
      simp only [State.statusOk, sound, cond, level, ok, feedOk, low, high, Option.isSome_some, and_self, decide_true, Bool.and_self]
    have frame := takeStatus_frame s n r cond
    have settled' : (s.takeStatus n r).isSettling = false := by
      have cfg : (s.reported n r).cfg = s.cfg := by
        have same := congrArg State.cfg (reported_outside s n r)
        exact same
      rw [State.isSettling, frame.cfg, cfg]
      exact settled
    have act : exec (.status n r) s = .next (State.event s (s.takeStatus n r)) := by
      refine congrArg Host.Outcome.next ((if_pos accepted).trans (congrArg (State.event s) ?_))
      exact modSettling_settled _ _ settled'
    have raised {x : Attn} (h : (s.reported n r).raised x) : (s.takeStatus n r).raised x := raised_of_links frame.links h
    have heard := frame.heard
    rw [reported_same] at heard
    have timer : s.superTimer 3000 = .running (s.timebase + 3000) := by
      rw [State.superTimer, settled]
      rfl
    have kept {α : Type} (f : KeptTx × Timer → α) := congrArg f heard
    refine ⟨_, runs_of_event act fun d => ((reported_calm s n r).links d).trans (frame.links d),
      fun j other => (frame.others j other).trans (reported_other s n r other), ?_⟩
    intro x
    refine ⟨kept fun p => p.1.reporting, (kept fun p => p.1.lastCond).trans cond, kept fun p => p.1.feed,
      (kept fun p => p.1.rfLevel).trans level, kept fun p => p.1.warning, kept fun p => p.1.lastFreq,
      (kept fun p => p.2).trans timer, kept fun p => p.1.holder, fun h => raised (reported_raised s n r h),
      fun other => takeStatus_history s n r cond other, fun ready free state => ?_, fun tripped state before => ?_⟩
    · subst ready
      exact takeStatus_ready s n r cond free state
    · subst tripped
      have trip := takeStatus_trip s n r cond state before
      have outside := reported_outside s n r
      have cfg : (s.reported n r).cfg = s.cfg := by
        have same := congrArg State.cfg outside
        exact same
      have time : (s.reported n r).timebase = s.timebase := by
        have same := congrArg State.timebase outside
        exact same
      have trips : (s.reported n r).trips n = history := by
        rw [State.trips, reported_same, time, cfg]
        rfl
      have recycles : (s.reported n r).superTimer (1000 * s.cfg.active.recycleDelay) =
          .running (s.timebase + 1000 * s.cfg.active.recycleDelay) := by
        rw [State.superTimer, State.isSettling, cfg, show s.cfg.settling.isSome = false from settled, State.startTimer, time]
        rfl
      obtain ⟨e, at_⟩ := countTrip_tx (s.reported n r) n (causeOf r.cause)
      have force := countTrip_force (s.reported n r) n (causeOf r.cause)
      have told := countTrip_raised (s.reported n r) n (causeOf r.cause)
      rw [← trip, cfg, trips, recycles] at at_
      rw [← trip, cfg, trips] at force
      rw [← trip] at told
      refine ⟨told, ?_, ?_, ?_, ?_, fun limit => ⟨?_, force limit⟩, fun below => ?_⟩
      · exact (congrArg TxRec.history at_).trans (by split <;> rfl)
      · exact (congrArg TxRec.tuned at_).trans (by split <;> rfl)
      · exact (congrArg TxRec.order at_).trans (by split <;> rfl)
      · rw [← causeOf_eq]
        exact (congrArg TxRec.lastCause at_).trans (by split <;> rfl)
      · exact (congrArg TxRec.state at_).trans (by rw [if_pos limit])
      · have out : ¬s.cfg.active.tripLimit ≤ history.length := Nat.not_le_of_lt below
        rw [if_neg out] at at_
        exact ⟨congrArg TxRec.state at_, congrArg TxRec.recycleTimer at_⟩

end Sys2Proof.Machine
end

