-- ==== Sys2Proof/Proofs/Grants.lean ====
section
/-! PROOF. The head of the move queue and the grants (R9, R11, R12). -/

namespace Sys2Proof.Machine

/-! ## The head of the queue -/

theorem queueBefore_iff (a b : Nat × Nat) : queueBefore a b = true ↔ a.1 < b.1 ∨ (a.1 = b.1 ∧ a.2 < b.2) := by
  simp only [queueBefore, Bool.or_eq_true, decide_eq_true_eq, Bool.and_eq_true, beq_iff_eq]

/-- One switch more looked at in the search for the head. -/
def Matrix.better (x : Matrix) (best : Option (Sw × Nat × Nat)) (w : Sw) : Option (Sw × Nat × Nat) :=
  match (x.get w).queueKey, best with
  | none, _ => best
  | some k, none => some (w, k)
  | some k, some (v, j) => if queueBefore k j then some (w, k) else some (v, j)

/-- The best of a list of switches: it waits, and none of the list is ahead of it; where there is none, none of the list waits. -/
def Matrix.Best (x : Matrix) (ws : List Sw) : Option (Sw × Nat × Nat) → Prop
  | none => ∀ v ∈ ws, (x.get v).queueKey = none
  | some (w, k) => (x.get w).queueKey = some k ∧ ∀ v ∈ ws, ∀ j, (x.get v).queueKey = some j → queueBefore j k = false

theorem best_better {x : Matrix} {ws : List Sw} {best : Option (Sw × Nat × Nat)} (h : x.Best ws best) (w : Sw) :
    x.Best (w :: ws) (x.better best w) := by
  unfold Matrix.better
  cases key : (x.get w).queueKey with
  | none =>
    cases best with
    | none => exact List.forall_mem_cons.mpr ⟨key, h⟩
    | some b => exact ⟨h.1, List.forall_mem_cons.mpr ⟨fun j at_ => absurd (key.symm.trans at_).symm (Option.some_ne_none j), h.2⟩⟩
  | some k =>
    have self (j : Nat × Nat) (at_ : (x.get w).queueKey = some j) : queueBefore j k = false := by
      rw [← Option.some.inj (key.symm.trans at_)]
      exact Bool.eq_false_iff.mpr fun test => by have := (queueBefore_iff _ _).mp test; omega
    cases best with
    | none =>
      refine ⟨key, List.forall_mem_cons.mpr ⟨self, fun v mem j at_ => ?_⟩⟩
      exact absurd (at_.symm.trans (h v mem)) (Option.some_ne_none j)
    | some b =>
      obtain ⟨v, j⟩ := b
      dsimp only
      split
      · next first =>
        have first := (queueBefore_iff _ _).mp first
        refine ⟨key, List.forall_mem_cons.mpr ⟨self, fun u mem i at_ => Bool.eq_false_iff.mpr fun test => ?_⟩⟩
        have test := (queueBefore_iff _ _).mp test
        exact absurd ((queueBefore_iff i j).mpr (by omega)) (Bool.eq_false_iff.mp (h.2 u mem i at_))
      · next behind =>
        refine ⟨h.1, List.forall_mem_cons.mpr ⟨fun i at_ => ?_, h.2⟩⟩
        rw [← Option.some.inj (key.symm.trans at_)]
        exact Bool.eq_false_iff.mpr behind

theorem best_foldl {x : Matrix} (ws : List Sw) : ∀ (seen : List Sw) (best : Option (Sw × Nat × Nat)), x.Best seen best →
    x.Best (ws.reverse ++ seen) (ws.foldl x.better best) := by
  induction ws with
  | nil => exact fun seen best h => h
  | cons w ws ih =>
    intro seen best h
    have := ih (w :: seen) _ (best_better h w)
    rwa [List.reverse_cons, List.append_assoc]

theorem head_best (x : Matrix) : ∃ best, x.head = best.map Prod.fst ∧ x.Best allSw.reverse best :=
  ⟨allSw.foldl x.better none, rfl, by
    have := best_foldl (x := x) allSw [] none (fun v mem => absurd mem List.not_mem_nil)
    rwa [List.append_nil] at this⟩

theorem head_none {x : Matrix} (h : x.head = none) (w : Sw) : (x.get w).queueKey = none := by
  obtain ⟨best, head, spec⟩ := head_best x
  cases best with
  | none => exact spec w (List.mem_reverse.mpr (mem_allSw w))
  | some b => rw [h] at head; exact absurd head.symm (Option.some_ne_none _)

/-- The head waits, and no switch that waits is ahead of it (R9). -/
theorem head_some {x : Matrix} {w : Sw} (h : x.head = some w) :
    ∃ k, (x.get w).queueKey = some k ∧ ∀ (v : Sw) j, (x.get v).queueKey = some j → queueBefore j k = false := by
  obtain ⟨best, head, spec⟩ := head_best x
  cases best with
  | none => rw [h] at head; exact absurd head (Option.some_ne_none _)
  | some b =>
    obtain ⟨v, k⟩ := b
    rw [h] at head
    obtain rfl : w = v := Option.some.inj head
    exact ⟨k, spec.1, fun v j at_ => spec.2 v (List.mem_reverse.mpr (mem_allSw v)) j at_⟩

theorem queueKey_pending {r : SwRec} : r.queueKey ≠ none ↔ r.state = .pending := by
  unfold SwRec.queueKey
  by_cases h : r.state = .pending
  · simp [h]
  · simp [h]

/-! ## One grant -/

/-- A record granted its move (R12). -/
def State.granted (s : State) (w : Sw) : SwRec :=
  { s.sw w with state := .moving, arrival := none, grantTime := some s.timebase, travelDue := some (s.timebase + s.cfg.travelMs w) }

section
variable (s : State) (w : Sw)

theorem grant_same : (s.grant w).sw w = s.granted w := setSw_same s w _

theorem grant_other {v : Sw} (h : v ≠ w) : (s.grant w).sw v = s.sw v := setSw_other s w v _ h

theorem grant_sent : (s.grant w).sent = s.sent ++ [.move w (s.sw w).commanded] := rfl

theorem grant_reports : (s.grant w).mx.reports = s.mx.reports ++ [.granted w] := by cases w <;> rfl

theorem grant_matrix : MatrixOnly s (s.grant w) := matrix_grant s w (MatrixOnly.refl s)

theorem grant_permitted : (s.grant w).mx.permitted = s.mx.permitted := by cases w <;> rfl

theorem grant_safety : (s.grant w).mx.safety = s.mx.safety := by cases w <;> rfl

end

theorem MatrixOnly.timebase {a b : State} (h : MatrixOnly a b) : b.timebase = a.timebase := by
  have same := congrArg State.timebase h.out
  exact same

theorem MatrixOnly.cfg {a b : State} (h : MatrixOnly a b) : b.cfg = a.cfg := by
  have same := congrArg State.cfg h.out
  exact same

theorem MatrixOnly.granted {a b : State} (h : MatrixOnly a b) {w : Sw} (same : b.sw w = a.sw w) : b.granted w = a.granted w := by
  rw [State.granted, State.granted, same, h.timebase, h.cfg]

/-! ## The grants together -/

/-- What a run of grants does: each switch is as it was or, from PENDING, granted; none is left PENDING behind a switch that was not
ahead of it; and what was reported and sent stays (R9, R11, R12). -/
structure GrantsFrom (s v : State) : Prop where
  matrix : MatrixOnly s v
  permitted : v.mx.permitted = s.mx.permitted
  safety : v.mx.safety = s.mx.safety
  reports : s.mx.reports <+: v.mx.reports
  sent : s.sent <+: v.sent
  each : ∀ w : Sw, v.sw w = s.sw w ∨
    ((s.sw w).state = .pending ∧ .move w (s.sw w).commanded ∈ v.sent ∧ v.sw w = s.granted w)
  order : ∀ (w x : Sw) (k j : Nat × Nat), (s.sw w).queueKey = some k → (s.sw x).queueKey = some j → (v.sw w).state = .moving →
    (v.sw x).state = .pending → queueBefore j k = false

theorem GrantsFrom.refl (s : State) : GrantsFrom s s where
  matrix := MatrixOnly.refl s
  permitted := rfl
  safety := rfl
  reports := List.prefix_refl _
  sent := List.prefix_refl _
  each w := .inl rfl
  order w x k j key _ moving _ := by
    have waits : (s.sw w).state = .pending := queueKey_pending.mp (by rw [key]; exact Option.some_ne_none k)
    exact absurd (waits.symm.trans moving) (by decide)

/-- A switch that does not wait is left by grants as it is. -/
theorem GrantsFrom.rests {s v : State} (h : GrantsFrom s v) {w : Sw} (rests : (s.sw w).state ≠ .pending) : v.sw w = s.sw w :=
  (h.each w).resolve_right fun ⟨waits, _⟩ => rests waits

/-- A grant to the head of the queue, and grants from there. -/
theorem GrantsFrom.step {s v : State} {h : Sw} (head : s.mx.head = some h) (later : GrantsFrom (s.grant h) v) : GrantsFrom s v := by
  obtain ⟨k0, key0, first⟩ := head_some head
  have waits : (s.sw h).state = .pending := queueKey_pending.mp (by rw [show (s.sw h).queueKey = some k0 from key0]; exact Option.some_ne_none _)
  have same : v.sw h = s.granted h := (later.rests (by rw [grant_same]; exact SwState.noConfusion)).trans (grant_same s h)
  refine ⟨(grant_matrix s h).trans later.matrix, later.permitted.trans (grant_permitted s h), later.safety.trans (grant_safety s h),
    ?_, ?_, fun w => ?_, fun w x k j key key' moving waiting => ?_⟩
  · exact (by rw [grant_reports]; exact List.prefix_append _ _ : s.mx.reports <+: (s.grant h).mx.reports).trans later.reports
  · exact (by rw [grant_sent]; exact List.prefix_append _ _ : s.sent <+: (s.grant h).sent).trans later.sent
  · by_cases e : w = h
    · subst e
      refine .inr ⟨waits, later.sent.subset ?_, same⟩
      rw [grant_sent]
      exact List.mem_append_right _ (List.mem_singleton_self _)
    · have was : (s.grant h).sw w = s.sw w := grant_other s h e
      have each := later.each w
      rw [was, (grant_matrix s h).granted was] at each
      exact each
  · by_cases e : w = h
    · subst e
      rw [Option.some.inj ((show (s.sw w).queueKey = some k0 from key0).symm.trans key)] at first
      exact first x j key'
    · have e' : x ≠ h := fun e' => by
        rw [e', same] at waiting
        exact SwState.noConfusion waiting
      exact later.order w x k j (by rw [grant_other s h e]; exact key) (by rw [grant_other s h e']; exact key') moving waiting

theorem grantsFrom_grantLoop (fuel : Nat) (s : State) : GrantsFrom s (State.grantLoop fuel s) := by
  induction fuel generalizing s with
  | zero => exact GrantsFrom.refl s
  | succ fuel ih =>
    unfold State.grantLoop
    split
    · split
      · exact GrantsFrom.refl s
      · next h head => exact GrantsFrom.step head (ih _)
    · exact GrantsFrom.refl s

theorem grants_spec (s : State) : GrantsFrom s s.grants := grantsFrom_grantLoop 32 s

/-! ## Grants run out only at the limit or with the queue -/

/-- The number of PENDING switches. -/
def State.pendingCount (s : State) : Nat := allSw.countP fun w => (s.sw w).state == .pending

theorem pendingCount_grant (s : State) {w : Sw} (h : (s.sw w).state = .pending) : (s.grant w).pendingCount < s.pendingCount := by
  have less : ∀ xs : List Sw, (xs.countP fun v => ((s.grant w).sw v).state == .pending) + xs.count w =
      xs.countP fun v => (s.sw v).state == .pending := by
    intro xs
    induction xs with
    | nil => rfl
    | cons x xs ih =>
      rw [List.countP_cons, List.countP_cons, List.count_cons, ← ih]
      by_cases e : x = w
      · subst e
        have moves : (((s.grant x).sw x).state == .pending) = false := by rw [grant_same]; rfl
        simp only [moves, h, beq_self_eq_true, if_true, Bool.false_eq_true, if_false]
        omega
      · rw [grant_other s w e]
        simp only [beq_iff_eq, e, if_false]
        omega
  have mem : 0 < allSw.count w := List.count_pos_iff.mpr (mem_allSw w)
  have := less allSw
  rw [State.pendingCount, State.pendingCount]
  omega

/-- With drives permitted, grants end at the limit or with no switch PENDING (R11). -/
theorem grantLoop_ends (fuel : Nat) (s : State) (enough : s.pendingCount ≤ fuel) (permitted : s.mx.permitted = true)
    (drives : s.drivesPermitted = true) : s.cfg.active.grantLimit ≤ (State.grantLoop fuel s).mx.movingCount ∨
      ∀ w : Sw, ((State.grantLoop fuel s).sw w).state ≠ .pending := by
  induction fuel generalizing s with
  | zero =>
    refine .inr fun w waits => ?_
    have none_ := List.countP_eq_zero.mp (Nat.le_zero.mp enough) w (mem_allSw w)
    exact none_ (beq_iff_eq.mpr waits)
  | succ fuel ih =>
    unfold State.grantLoop
    by_cases free : s.mx.movingCount < s.cfg.active.grantLimit
    · rw [if_pos (by rw [permitted, drives, decide_eq_true free]; rfl)]
      cases head : s.mx.head with
      | none => exact .inr fun w waits => queueKey_pending.mpr waits (head_none head w)
      | some h =>
        obtain ⟨k, key, -⟩ := head_some head
        have waits : (s.sw h).state = .pending := queueKey_pending.mp (by rw [show (s.sw h).queueKey = some k from key]; exact Option.some_ne_none _)
        have less := pendingCount_grant s waits
        have kept : (s.grant h).kept = s.kept := (calm_grant s h (Calm.refl s)).kept
        obtain ⟨drives', active, -⟩ := gates_of_kept kept
        rw [← active]
        exact ih _ (by omega) ((grant_permitted s h).trans permitted) (drives'.trans drives)
    · have stop : ¬(s.mx.permitted && s.drivesPermitted && decide (s.mx.movingCount < s.cfg.active.grantLimit)) = true := by
        rw [Bool.and_eq_true, decide_eq_true_eq]
        exact fun h => free h.2
      rw [if_neg stop]
      exact .inl (Nat.le_of_not_lt free)

theorem grants_ends (s : State) (permitted : s.mx.permitted = true) (drives : s.drivesPermitted = true) :
    s.cfg.active.grantLimit ≤ s.grants.mx.movingCount ∨ ∀ w : Sw, (s.grants.sw w).state ≠ .pending :=
  grantLoop_ends 32 s (List.countP_le_length (l := allSw)) permitted drives

/-- No grant is made where drives are not permitted, by the last judgement or by the conditions as they stand (R10, R11). -/
theorem grants_of_not_permitted {s : State} (h : s.mx.permitted = false ∨ s.drivesPermitted = false) : s.grants = s := by
  refine if_neg fun test => ?_
  rw [Bool.and_eq_true, Bool.and_eq_true] at test
  exact h.elim (fun h => absurd (test.1.1.symm.trans h) (by decide)) fun h => absurd (test.1.2.symm.trans h) (by decide)

theorem movingCount_grants (s : State) : s.grants.mx.movingCount ≤ max s.cfg.active.grantLimit s.mx.movingCount := by
  rcases (trail_grants s (Trail.refl s)).moving with h | ⟨-, -, h⟩
  · exact Nat.le_trans h (Nat.le_max_right _ _)
  · exact Nat.le_trans h (Nat.le_max_left _ _)

end Sys2Proof.Machine
end

