-- ==== Sys2Proof/Proofs/PositionReports.lean ====
section
/-! PROOF. POSITION reports by the state of the switch (R4, R13, R15 to R19, R22, R24). -/

namespace Sys2Proof.Machine

section
variable (s : State) (w : Sw)

/-! ## Completions and faults -/

theorem swComplete_same : (s.swComplete w).sw w = (s.sw w).steady := by
  have same : (s.swComplete w).sw w = (s.setSw w (s.sw w).steady).sw w := by cases w <;> rfl
  rw [same, setSw_same]

theorem swComplete_other {v : Sw} (h : v ≠ w) : (s.swComplete w).sw v = s.sw v := by
  have same : (s.swComplete w).sw v = (s.setSw w (s.sw w).steady).sw v := by cases v <;> rfl
  rw [same, setSw_other s w v _ h]

theorem swComplete_reports : .completion w ∈ (s.swComplete w).mx.reports := List.mem_append_right _ (List.mem_singleton_self _)

theorem swFault_same (f : SwFault) : (s.swFault w f).sw w = (s.sw w).faulted f := by
  have same : (s.swFault w f).sw w = (s.setSw w ((s.sw w).faulted f)).sw w := by cases w <;> rfl
  rw [same, setSw_same]

theorem swFault_other {v : Sw} (f : SwFault) (h : v ≠ w) : (s.swFault w f).sw v = s.sw v := by
  have same : (s.swFault w f).sw v = (s.setSw w ((s.sw w).faulted f)).sw v := by cases v <;> rfl
  rw [same, setSw_other s w v _ h]

theorem swFault_reports (f : SwFault) : .fault w ∈ (s.swFault w f).mx.reports := List.mem_append_right _ (List.mem_singleton_self _)

theorem swFault_raised (f : SwFault) : (s.swFault w f).raised .switch := raised_raise _ _

theorem leaveSafety_sw (v : Sw) : (s.leaveSafety w).sw v = s.sw v := by cases v <;> rfl

/-- The record with a confirmed position written. -/
def State.confirm (s : State) (w : Sw) (x : Confirmed) : State := s.setSw w { s.sw w with confirmed := x }

theorem confirm_same (x : Confirmed) : (s.confirm w x).sw w = { s.sw w with confirmed := x } := setSw_same s w _

/-- A completion behind a confirmed position, off the safety list (R15, R24). -/
theorem completes_same (x : Confirmed) :
    ((((s.confirm w x).leaveSafety w).swComplete w).sw w) = SwRec.steady { s.sw w with confirmed := x } := by
  rw [swComplete_same, leaveSafety_sw, confirm_same]

theorem leaveSafety_mem : w ∉ (s.leaveSafety w).mx.safety := by
  intro mem
  exact absurd (List.mem_filter.mp mem).2 (by simp)

theorem completes_safety (x : Confirmed) : w ∉ (((s.confirm w x).leaveSafety w).swComplete w).mx.safety := by
  have same : (((s.confirm w x).leaveSafety w).swComplete w).mx.safety = ((s.confirm w x).leaveSafety w).mx.safety := by
    cases w <;> rfl
  rw [same]
  exact leaveSafety_mem _ w

/-- Grants behind a record that does not wait leave it as it is. -/
theorem grants_rests {v : Sw} (h : (s.sw v).state ≠ .pending) : s.grants.sw v = s.sw v := (grants_spec s).rests h

theorem grants_reports {r : MxReport} (h : r ∈ s.mx.reports) : r ∈ s.grants.mx.reports := (grants_spec s).reports.subset h

end

/-! ## Reports by the state of the switch -/

section
variable {s : State} {w : Sw} (x : Confirmed)

/-- A report for a MOVING switch (R13, R15). -/
theorem position_moving (h : (s.sw w).state = .moving) :
    let b := s.sw w
    let v := s.takeReport w x
    ((v.sw w).confirmed = x ∧ (v.sw w).commanded = b.commanded) ∧
    (x = .stands b.commanded → (v.sw w).state = .steady ∧ (v.sw w).cls = none ∧ .completion w ∈ v.mx.reports) ∧
    (x = .between → (v.sw w).state = .moving ∧ (v.sw w).travelDue = b.travelDue) ∧
    (x ≠ .stands b.commanded → x ≠ .between →
      (v.sw w).state = .fault ∧ (v.sw w).fault = some .wrongPosition ∧ .fault w ∈ v.mx.reports ∧ v.raised .switch) := by
  intro b v
  have taken : v = if x == .stands b.commanded then (((s.confirm w x).leaveSafety w).swComplete w).grants
      else if x == .between then s.confirm w x else ((s.confirm w x).swFault w .wrongPosition).grants := by
    show s.takeReport w x = _
    rw [State.takeReport, h]
    rfl
  by_cases here : x = .stands b.commanded
  · have is := taken.trans (if_pos (beq_iff_eq.mpr here))
    have at_ := completes_same s w x
    have same : v.sw w = SwRec.steady { s.sw w with confirmed := x } := by
      rw [is, grants_rests _ (by rw [at_]; exact SwState.noConfusion), at_]
    refine ⟨⟨congrArg SwRec.confirmed same, (congrArg SwRec.commanded same).trans rfl⟩, fun _ => ?_, fun between => ?_, fun other => absurd here other⟩
    · refine ⟨congrArg SwRec.state same, congrArg SwRec.cls same, ?_⟩
      rw [is]
      exact grants_reports _ (swComplete_reports _ w)
    · exact Confirmed.noConfusion (here.symm.trans between)
  · have notHere := taken.trans (if_neg fun test => here (beq_iff_eq.mp test))
    by_cases between : x = .between
    · have is := notHere.trans (if_pos (beq_iff_eq.mpr between))
      have same : v.sw w = { s.sw w with confirmed := x } := by rw [is, confirm_same]
      exact ⟨⟨congrArg SwRec.confirmed same, (congrArg SwRec.commanded same).trans rfl⟩, fun at_ => absurd at_ here,
        fun _ => ⟨(congrArg SwRec.state same).trans h, (congrArg SwRec.travelDue same).trans rfl⟩, fun _ other => absurd between other⟩
    · have is := notHere.trans (if_neg fun test => between (beq_iff_eq.mp test))
      have at_ : ((s.confirm w x).swFault w .wrongPosition).sw w = SwRec.faulted { s.sw w with confirmed := x } .wrongPosition := by
        rw [swFault_same, confirm_same]
      have same : v.sw w = SwRec.faulted { s.sw w with confirmed := x } .wrongPosition := by
        rw [is, grants_rests _ (by rw [at_]; exact SwState.noConfusion), at_]
      refine ⟨⟨congrArg SwRec.confirmed same, (congrArg SwRec.commanded same).trans rfl⟩, fun at_ => absurd at_ here,
        fun at_ => absurd at_ between, fun _ _ => ⟨congrArg SwRec.state same, congrArg SwRec.fault same, ?_, ?_⟩⟩
      · rw [is]
        exact grants_reports _ (swFault_reports _ w _)
      · rw [is]
        exact raised_of_calm (calm_grants _ (Calm.refl _)) (swFault_raised _ w _)

/-- A report for a STEADY switch (R16, R22). -/
theorem position_steady (h : (s.sw w).state = .steady) :
    let b := s.sw w
    let v := s.takeReport w x
    ((v.sw w).confirmed = x ∧ (v.sw w).commanded = b.commanded) ∧ (x = b.confirmed → v = s) ∧
    (x ≠ b.confirmed → (b.confirmed = .unknown ∨ s.mx.reportWindow.isRunning = true) → (v.sw w).state = .steady) ∧
    (x ≠ b.confirmed → b.confirmed ≠ .unknown → s.mx.reportWindow.isRunning = false →
      (v.sw w).state = .fault ∧ (v.sw w).fault = some .uncommanded ∧ .fault w ∈ v.mx.reports ∧ v.raised .switch) := by
  intro b v
  let s2 := if x == .stands b.commanded then (s.confirm w x).leaveSafety w else s.confirm w x
  have taken : v = if x == b.confirmed then s
      else if s.mx.reportWindow.isRunning || b.confirmed == .unknown then s2 else s2.swFault w .uncommanded := by
    show s.takeReport w x = _
    rw [State.takeReport, h]
    rfl
  have at2 : s2.sw w = { s.sw w with confirmed := x } := by
    show (if _ then _ else _ : State).sw w = _
    split
    · rw [leaveSafety_sw, confirm_same]
    · exact confirm_same s w x
  by_cases same : x = b.confirmed
  · have is := taken.trans (if_pos (beq_iff_eq.mpr same))
    rw [is]
    exact ⟨⟨same.symm, rfl⟩, fun _ => rfl, fun other => absurd same other, fun other => absurd same other⟩
  · have changed := taken.trans (if_neg fun test => same (beq_iff_eq.mp test))
    by_cases spared : b.confirmed = .unknown ∨ s.mx.reportWindow.isRunning = true
    · have is := changed.trans (if_pos (by rw [Bool.or_eq_true, beq_iff_eq]; exact spared.symm))
      rw [is, at2]
      exact ⟨⟨rfl, rfl⟩, fun at_ => absurd at_ same, fun _ _ => h,
        fun _ known closed => absurd spared (not_or.mpr ⟨known, by rw [closed]; exact Bool.false_ne_true⟩)⟩
    · have is := changed.trans (if_neg (by rw [Bool.or_eq_true, beq_iff_eq]; exact fun test => spared test.symm))
      rw [is, swFault_same, at2]
      exact ⟨⟨rfl, rfl⟩, fun at_ => absurd at_ same, fun _ at_ => absurd at_ spared,
        fun _ _ _ => ⟨rfl, rfl, swFault_reports _ w _, swFault_raised _ w _⟩⟩

/-- A report for a PENDING switch (R17). -/
theorem position_pending (h : (s.sw w).state = .pending) :
    let b := s.sw w
    let v := s.takeReport w x
    ((v.sw w).confirmed = x ∧ (v.sw w).commanded = b.commanded) ∧ (x = b.confirmed → v = s) ∧
    (x ≠ b.confirmed → x = .stands b.commanded → (v.sw w).state = .steady ∧ .completion w ∈ v.mx.reports) ∧
    (x ≠ b.confirmed → x ≠ .stands b.commanded → (∃ p : Pos, b.confirmed = .stands p) →
      (v.sw w).state = .fault ∧ (v.sw w).fault = some .uncommanded ∧ .fault w ∈ v.mx.reports) ∧
    (x ≠ b.confirmed → x ≠ .stands b.commanded → (b.confirmed = .between ∨ b.confirmed = .unknown) →
      (v.sw w).state = .pending ∧ (v.sw w).arrival = b.arrival) := by
  intro b v
  have taken : v = if x == b.confirmed then s
      else if x == .stands b.commanded then ((s.confirm w x).leaveSafety w).swComplete w
      else if b.confirmed.pos.isSome then (s.confirm w x).swFault w .uncommanded else s.confirm w x := by
    show s.takeReport w x = _
    rw [State.takeReport, h]
    rfl
  by_cases same : x = b.confirmed
  · rw [taken.trans (if_pos (beq_iff_eq.mpr same))]
    exact ⟨⟨same.symm, rfl⟩, fun _ => rfl, fun other => absurd same other, fun other => absurd same other,
      fun other => absurd same other⟩
  · have changed := taken.trans (if_neg fun test => same (beq_iff_eq.mp test))
    by_cases here : x = .stands b.commanded
    · rw [changed.trans (if_pos (beq_iff_eq.mpr here)), completes_same]
      exact ⟨⟨rfl, rfl⟩, fun at_ => absurd at_ same, fun _ _ => ⟨rfl, swComplete_reports _ w⟩, fun _ other => absurd here other,
        fun _ other => absurd here other⟩
    · have elsewhere := changed.trans (if_neg fun test => here (beq_iff_eq.mp test))
      by_cases stood : b.confirmed.pos.isSome = true
      · rw [elsewhere.trans (if_pos stood), swFault_same, confirm_same]
        refine ⟨⟨rfl, rfl⟩, fun at_ => absurd at_ same, fun _ at_ => absurd at_ here, fun _ _ _ => ⟨rfl, rfl, swFault_reports _ w _⟩,
          fun _ _ lost => ?_⟩
        rcases lost with lost | lost <;> rw [lost] at stood <;> exact absurd stood Bool.false_ne_true
      · rw [elsewhere.trans (if_neg stood), confirm_same]
        refine ⟨⟨rfl, rfl⟩, fun at_ => absurd at_ same, fun _ at_ => absurd at_ here, fun _ _ ⟨p, at_⟩ => ?_, fun _ _ _ => ⟨h, rfl⟩⟩
        exact absurd (congrArg (fun y : Confirmed => y.pos.isSome) at_) stood

/-- A report for a STOPPED switch (R18). -/
theorem position_stopped (h : (s.sw w).state = .stopped) :
    let b := s.sw w
    let v := s.takeReport w x
    ((v.sw w).confirmed = x ∧ (v.sw w).commanded = b.commanded) ∧
    (x = .stands b.commanded → (v.sw w).state = .steady ∧ (v.sw w).cls = none ∧ .completion w ∈ v.mx.reports) ∧
    (x ≠ .stands b.commanded → (v.sw w).state = .stopped) := by
  intro b v
  have taken : v = if x == .stands b.commanded then ((s.confirm w x).leaveSafety w).swComplete w else s.confirm w x := by
    show s.takeReport w x = _
    rw [State.takeReport, h]
    rfl
  by_cases here : x = .stands b.commanded
  · rw [taken.trans (if_pos (beq_iff_eq.mpr here)), completes_same]
    exact ⟨⟨rfl, rfl⟩, fun _ => ⟨rfl, rfl, swComplete_reports _ w⟩, fun other => absurd here other⟩
  · rw [taken.trans (if_neg fun test => here (beq_iff_eq.mp test)), confirm_same]
    exact ⟨⟨rfl, rfl⟩, fun at_ => absurd at_ here, fun _ => h⟩

/-- A report for a FAULT switch (R19). -/
theorem position_fault (h : (s.sw w).state = .fault) :
    let b := s.sw w
    let v := s.takeReport w x
    ((v.sw w).confirmed = x ∧ (v.sw w).commanded = b.commanded) ∧ (x = b.confirmed → v = s) ∧
    (x ≠ b.confirmed → x = .stands b.commanded → x = .stands .earth → b.fault = some .conflict →
      (v.sw w).state = .steady ∧ (v.sw w).fault = none ∧ .completion w ∈ v.mx.reports ∧ w ∉ v.mx.safety) ∧
    (¬(x = .stands b.commanded ∧ x = .stands .earth ∧ b.fault = some .conflict) →
      (v.sw w).state = .fault ∧ (v.sw w).fault = b.fault ∧ v.links = s.links) := by
  intro b v
  have taken : v = if x == b.confirmed then s
      else if b.fault == some .conflict && x == .stands .earth && b.commanded == .earth then
        ((s.confirm w x).leaveSafety w).swComplete w
      else if x == .stands b.commanded then (s.confirm w x).leaveSafety w else s.confirm w x := by
    show s.takeReport w x = _
    rw [State.takeReport, h]
    rfl
  by_cases same : x = b.confirmed
  · rw [taken.trans (if_pos (beq_iff_eq.mpr same))]
    exact ⟨⟨same.symm, rfl⟩, fun _ => rfl, fun other => absurd same other, fun _ => ⟨h, rfl, rfl⟩⟩
  · have changed := taken.trans (if_neg fun test => same (beq_iff_eq.mp test))
    have excepted : (b.fault == some .conflict && x == .stands .earth && b.commanded == .earth) = true ↔
        x = .stands b.commanded ∧ x = .stands .earth ∧ b.fault = some .conflict := by
      rw [Bool.and_eq_true, Bool.and_eq_true, beq_iff_eq, beq_iff_eq, beq_iff_eq]
      constructor
      · rintro ⟨⟨conflict, earth⟩, commanded⟩
        exact ⟨by rw [commanded]; exact earth, earth, conflict⟩
      · rintro ⟨here, earth, conflict⟩
        exact ⟨⟨conflict, earth⟩, by injection here.symm.trans earth⟩
    by_cases conflict : x = .stands b.commanded ∧ x = .stands .earth ∧ b.fault = some .conflict
    · rw [changed.trans (if_pos (excepted.mpr conflict)), completes_same]
      exact ⟨⟨rfl, rfl⟩, fun at_ => absurd at_ same, fun _ _ _ _ => ⟨rfl, rfl, swComplete_reports _ w, completes_safety s w x⟩,
        fun other => absurd conflict other⟩
    · have stays := changed.trans (if_neg fun test => conflict (excepted.mp test))
      have at_ : v.sw w = { s.sw w with confirmed := x } := by
        rw [stays]
        split
        · rw [leaveSafety_sw, confirm_same]
        · exact confirm_same s w x
      refine ⟨⟨congrArg SwRec.confirmed at_, (congrArg SwRec.commanded at_).trans rfl⟩, fun at_ => absurd at_ same,
        fun _ here earth fault => absurd ⟨here, earth, fault⟩ conflict,
        fun _ => ⟨(congrArg SwRec.state at_).trans h, (congrArg SwRec.fault at_).trans rfl, ?_⟩⟩
      rw [stays]
      split <;> rfl

end

/-- Settles O49: a report is taken by the state of its switch, and what it brings is absorbed in the same act. -/
theorem positionReports : Obligations.PositionReports := by
  intro s
  refine ⟨fun r => ?_, fun w => ⟨?_, fun r => ⟨fun h => ?_, fun ok fits => ?_⟩⟩⟩
  · cases r <;> rfl
  · rfl
  · have none_ : s.reportOk (some w) (some r) = none := by
      refine if_neg fun test => ?_
      rw [Bool.and_eq_true] at test
      exact h.elim (fun h => absurd (test.1.symm.trans h) (by decide)) fun h => absurd (test.2.symm.trans h) (by decide)
    simp only [exec, execPosition, none_]
  · intro b x v here
    have named : s.reportOk (some w) (some r) = some (w, x) := if_pos (by rw [ok, fits]; rfl)
    have act : exec (.position (some w) (some r)) s = .next (State.event s (v.absorbAll.meetSw w)) := by
      simp only [exec, execPosition, named]
      rfl
    have calm : Calm s v.absorbAll := calm_absorbAll _ (calm_takeReport s w x (Calm.refl s))
    have meets : Meets v.absorbAll (v.absorbAll.meetSw w) := meets_modSettling _ _
    have positions : (v.sw w).confirmed = x ∧ (v.sw w).commanded = b.commanded := by
      cases state : (s.sw w).state with
      | moving => exact (position_moving x state).1
      | steady => exact (position_steady x state).1
      | pending => exact (position_pending x state).1
      | stopped => exact (position_stopped x state).1
      | fault => exact (position_fault x state).1
    refine ⟨runs_of_event act fun d => ?_, fun _ => calm.kept, positions.1, positions.2, fun state => (position_moving x state).2,
      fun state => (position_steady x state).2, fun state => (position_pending x state).2, fun state => (position_stopped x state).2,
      fun state => (position_fault x state).2⟩
    have := calm.links d
    rw [State.link, State.link, ← meets.links] at this
    exact this

end Sys2Proof.Machine
end

