-- ==== Sys2Proof/Proofs/SwitchSweeps.lean ====
section
/-! PROOF. Acts on every switch in record order: the end of the report window, the loss and the return of drive permission (R20, R21,
R23, R24); and a switch in FAULT with no position known while reports are absorbed. -/

namespace Sys2Proof.Machine

/-! ## One act on each switch -/

section
variable {f : Sw → State → State} (others : ∀ (w v : Sw) (s : State), v ≠ w → (f w s).sw v = s.sw v)
include others

theorem forAll_sw_out (ws : List Sw) (s : State) {w : Sw} (h : w ∉ ws) : (forAll ws f s).sw w = s.sw w := by
  induction ws generalizing s with
  | nil => rfl
  | cons v ws ih =>
    rw [List.mem_cons, not_or] at h
    exact (ih _ h.2).trans (others v w s h.1)

/-- Where each act leaves the other switches, a switch has at the end what its own act made of it, and what that act brought stays
where the later acts keep it. -/
theorem forAll_sw {Q : State → Prop} (keeps : ∀ (w : Sw) (s : State), Q s → Q (f w s)) {ws : List Sw} (nodup : ws.Nodup) {s : State}
    (hs : Q s) {w : Sw} (mem : w ∈ ws) :
    ∃ s' : State, Q s' ∧ s'.sw w = s.sw w ∧ (forAll ws f s).sw w = (f w s').sw w ∧
      ∀ M : State → Prop, (∀ (v : Sw) (s : State), M s → M (f v s)) → M (f w s') → M (forAll ws f s) := by
  have stays (M : State → Prop) (hM : ∀ (v : Sw) (s : State), M s → M (f v s)) (ws : List Sw) (s : State) (h : M s) :
      M (forAll ws f s) := by
    induction ws generalizing s with
    | nil => exact h
    | cons v ws ih => exact ih _ (hM v s h)
  induction ws generalizing s with
  | nil => exact absurd mem List.not_mem_nil
  | cons v ws ih =>
    rw [List.nodup_cons] at nodup
    by_cases e : w = v
    · subst e
      exact ⟨s, hs, rfl, forAll_sw_out others ws _ nodup.1, fun M hM h => stays M hM ws _ h⟩
    · obtain ⟨s', q, same, final, monotone⟩ := ih nodup.2 (keeps v s hs) ((List.mem_cons.mp mem).resolve_left e)
      exact ⟨s', q, same.trans (others v w s e), final, monotone⟩

end

theorem allSw_nodup : allSw.Nodup := by decide

theorem safety_sw (s : State) (xs : List Sw) (w : Sw) : ({ s with mx := { s.mx with safety := xs } } : State).sw w = s.sw w := by
  cases w <;> rfl

theorem calm_safety {z : State} (s : State) (xs : List Sw) (h : Calm z s) : Calm z { s with mx := { s.mx with safety := xs } } :=
  h.trans (calm_of rfl rfl rfl rfl)

/-! ## The end of the report window -/

section
variable (s : State) (w : Sw)

theorem windowOne_other (found : Found) {v : Sw} (h : v ≠ w) : (s.windowOne found w).sw v = s.sw v := by
  unfold State.windowOne
  dsimp only
  split
  · exact (safety_sw _ _ v).trans ((swFault_other _ w _ h).trans (setSw_other s w v _ h))
  · exact setSw_other s w v _ h
  · exact (safety_sw _ _ v).trans (setSw_other s w v _ h)

theorem windowOne_conflict : (s.windowOne .conflict w).sw w = SwRec.faulted { s.sw w with commanded := .earth } .conflict :=
  (safety_sw _ _ w).trans (by rw [swFault_same, setSw_same])

theorem windowOne_atPosition (p : Pos) : (s.windowOne (.atPosition p) w).sw w = { s.sw w with commanded := p } := setSw_same s w _

theorem windowOne_lost : (s.windowOne .lost w).sw w = { s.sw w with commanded := w.home } :=
  (safety_sw _ _ w).trans (setSw_same s w _)

theorem windowOne_joins {found : Found} (h : ∀ p, found ≠ .atPosition p) : w ∈ (s.windowOne found w).mx.safety := by
  cases found with
  | conflict => exact List.mem_append_right _ (List.mem_singleton_self _)
  | atPosition p => exact absurd rfl (h p)
  | lost => exact List.mem_append_right _ (List.mem_singleton_self _)

theorem windowOne_listed (found : Found) {v : Sw} (h : v ∈ s.mx.safety) : v ∈ (s.windowOne found w).mx.safety := by
  have put (r : SwRec) : (s.setSw w r).mx.safety = s.mx.safety := by cases w <;> rfl
  have faulted (z : State) (f : SwFault) : (z.swFault w f).mx.safety = z.mx.safety := by cases w <;> rfl
  cases found with
  | conflict => exact List.mem_append_left _ (by rw [faulted, put]; exact h)
  | atPosition p => exact (by rw [State.windowOne, put]; exact h)
  | lost => exact List.mem_append_left _ (by rw [put]; exact h)

theorem windowOne_calm (found : Found) : Calm s (s.windowOne found w) := by
  unfold State.windowOne
  dsimp only
  split
  · exact calm_safety _ _ (calm_swFault _ w .conflict (calm_setSw s w _ (Calm.refl s)))
  · exact calm_setSw s w _ (Calm.refl s)
  · exact calm_safety _ _ (calm_setSw s w _ (Calm.refl s))

theorem windowOne_raised : (s.windowOne .conflict w).raised .switch := fun d =>
  swFault_raised (s.setSw w { s.sw w with commanded := .earth }) w .conflict d

end

/-- Two of a list without repeats differ. -/
theorem two_le_length_iff {α : Type} {xs : List α} (nodup : xs.Nodup) {x : α} (mem : x ∈ xs) :
    2 ≤ xs.length ↔ ∃ y ∈ xs, y ≠ x := by
  constructor
  · intro long
    by_contra none_
    have all : ∀ y ∈ xs, y = x := fun y hy => by_contra fun e => none_ ⟨y, hy, e⟩
    have same := List.eq_replicate_iff.mpr ⟨rfl, all⟩
    rw [same, List.nodup_replicate] at nodup
    omega
  · rintro ⟨y, hy, e⟩
    match xs, mem, hy with
    | [a], mem, hy => exact absurd ((List.mem_singleton.mp hy).trans (List.mem_singleton.mp mem).symm) e
    | _ :: _ :: _, _, _ => exact Nat.le_add_left 2 _

theorem allAnt_nodup : allAnt.Nodup := by decide

section
variable (s : State)

/-- A selector at a bus is in conflict exactly where another selector is confirmed at that bus (R23). -/
theorem found_sel_bus {m : Ant} {n : Tx} (at_ : (s.sw (.sel m)).confirmed = .stands (.bus n)) :
    s.mx.found (.sel m) =
      if ∃ j : Ant, j ≠ m ∧ (s.sw (.sel j)).confirmed = .stands (.bus n) then .conflict else .atPosition (.bus n) := by
  have at_' : (s.mx.get (.sel m)).confirmed = .stands (.bus n) := at_
  have test : (s.mx.busConfirmed n).length ≥ 2 ↔ ∃ j : Ant, j ≠ m ∧ (s.sw (.sel j)).confirmed = .stands (.bus n) := by
    have nodup : (s.mx.busConfirmed n).Nodup := List.Nodup.filter _ allAnt_nodup
    have named (j : Ant) : j ∈ s.mx.busConfirmed n ↔ (s.sw (.sel j)).confirmed = .stands (.bus n) := by
      rw [Matrix.busConfirmed, List.mem_filter, beq_iff_eq]
      exact ⟨fun h => h.2, fun h => ⟨mem_allAnt j, h⟩⟩
    rw [ge_iff_le, two_le_length_iff nodup ((named m).mpr at_)]
    exact ⟨fun ⟨j, mem, e⟩ => ⟨j, e, (named j).mp mem⟩, fun ⟨j, e, h⟩ => ⟨j, (named j).mpr h, e⟩⟩
  unfold Matrix.found
  rw [at_']
  exact if_congr test rfl rfl

theorem found_stands {w : Sw} {p : Pos} (at_ : (s.sw w).confirmed = .stands p)
    (alone : ∀ (n : Tx) (m : Ant), w = .sel m → p ≠ .bus n) : s.mx.found w = .atPosition p := by
  have at_' : (s.mx.get w).confirmed = .stands p := at_
  unfold Matrix.found
  rw [at_']
  cases w with
  | out n => cases p <;> rfl
  | sel m =>
    cases p with
    | bus n => exact absurd rfl (alone n m rfl)
    | _ => rfl

theorem found_lost {w : Sw} (h : ∀ p : Pos, (s.sw w).confirmed ≠ .stands p) : s.mx.found w = .lost := by
  unfold Matrix.found
  cases at_ : (s.mx.get w).confirmed with
  | stands p => exact absurd at_ (h p)
  | between => rfl
  | unknown => rfl

/-- The report window closed. -/
def State.windowClosed (s : State) : State := { s with mx := { s.mx with reportWindow := .idle } }

/-- Every switch as the end of the report window finds it (R23). -/
def State.windowAll (s : State) : State := forAll allSw (fun w z => z.windowOne (s.mx.found w) w) s.windowClosed

theorem windowAll_calm : Calm s.windowClosed s.windowAll :=
  calm_forAll _ _ (fun w z h => h.trans (windowOne_calm z w _)) _ (Calm.refl _)

theorem windowAll_sw (w : Sw) : ∃ z : State, z.sw w = s.sw w ∧ s.windowAll.sw w = (z.windowOne (s.mx.found w) w).sw w ∧
    ((∀ p, s.mx.found w ≠ .atPosition p) → w ∈ s.windowAll.mx.safety) ∧
    (s.mx.found w = .conflict → s.windowAll.raised .switch) := by
  obtain ⟨z, -, same, final, monotone⟩ := forAll_sw (f := fun w z => z.windowOne (s.mx.found w) w) (Q := fun _ => True)
    (fun w v z e => windowOne_other z w _ e) (fun _ _ _ => trivial) allSw_nodup (s := s.windowClosed) trivial (mem_allSw w)
  have closed : s.windowClosed.sw w = s.sw w := by cases w <;> rfl
  refine ⟨z, same.trans closed, final, fun lost => ?_, fun conflict => ?_⟩
  · exact monotone (fun z => w ∈ z.mx.safety) (fun v z mem => windowOne_listed z v _ mem) (windowOne_joins z w lost)
  · refine monotone (fun z => z.raised .switch) (fun v z r => raised_of_calm (windowOne_calm z v _) r) ?_
    rw [conflict]
    exact windowOne_raised z w

theorem windowEnd_eq : s.windowEnd =
    if !s.windowAll.cfg.configured then { s.windowAll with mx := { s.windowAll.mx with safety := [] } }
    else if s.windowAll.mx.permitted && s.windowAll.drivesPermitted then s.windowAll.admitSafety.grants else s.windowAll := rfl

theorem windowEnd_calm : Calm s.windowClosed s.windowEnd := by
  rw [windowEnd_eq]
  split
  · exact (windowAll_calm s).trans (calm_of rfl rfl rfl rfl)
  · split
    · exact calm_grants _ (calm_admitSafety _ (windowAll_calm s))
    · exact windowAll_calm s

theorem windowAll_configured : s.windowAll.cfg.configured = s.cfg.configured := by
  obtain ⟨-, -, -, configured, -⟩ := gates_of_kept (windowAll_calm s).kept
  exact configured

theorem windowAll_permitted : s.windowAll.mx.permitted = s.mx.permitted := by
  have each (ws : List Sw) (z : State) : (forAll ws (fun w z => z.windowOne (s.mx.found w) w) z).mx.permitted = z.mx.permitted := by
    induction ws generalizing z with
    | nil => rfl
    | cons w ws ih =>
      refine (ih _).trans ?_
      unfold State.windowOne
      dsimp only
      cases w <;> split <;> rfl
  exact each allSw s.windowClosed

end

/-! ## A switch in FAULT whose position is not known, while reports are absorbed -/

section
variable {w : Sw} {r : SwRec} (fault : r.state = .fault)
include fault

omit fault in
theorem holds_setSw_other {s : State} (h : s.sw w = r) {j : Sw} (x : SwRec) (e : j ≠ w) : (s.setSw j x).sw w = r :=
  (setSw_other s j w x (Ne.symm e)).trans h

theorem holds_grants {s : State} (h : s.sw w = r) : s.grants.sw w = r :=
  (grants_rests s (by rw [h, fault]; exact SwState.noConfusion)).trans h

omit fault in
theorem holds_swComplete {s : State} (h : s.sw w = r) {j : Sw} (e : j ≠ w) : (s.swComplete j).sw w = r :=
  (swComplete_other s j (Ne.symm e)).trans h

omit fault in
theorem holds_joinQueue {s : State} (h : s.sw w = r) {j : Sw} (c : MoveClass) (e : j ≠ w) : (s.joinQueue j c).sw w = r := by
  unfold State.joinQueue
  dsimp only
  split
  · exact holds_swComplete h e
  · have same (z : State) (n : Nat) : ({ z with mx := { z.mx with nextArrival := n } } : State).sw w = z.sw w := by cases w <;> rfl
    exact (same _ _).trans (holds_setSw_other h _ e)

omit fault in
theorem holds_admitCore {s : State} (h : s.sw w = r) {j : Sw} (c : MoveClass) (retry : Bool) (e : j ≠ w) :
    (s.admitCore j c retry).2.sw w = r := by
  unfold State.admitCore
  dsimp only
  split
  · exact holds_joinQueue h c e
  · exact holds_setSw_other h _ e
  · exact holds_setSw_other h _ e
  · exact h
  · split
    · exact holds_joinQueue h c e
    · exact h

theorem holds_withdraw (lost : r.confirmed = .unknown) {s : State} (h : s.sw w = r) (j : Sw) (rest : List Sw) :
    (s.withdraw j rest).2.sw w = r := by
  unfold State.withdraw
  dsimp only
  split
  · exact h
  · split
    · exact h
    · split
      · exact h
      · next p known =>
        have e : j ≠ w := fun e => by
          rw [e, h, lost] at known
          exact absurd known.symm (Option.some_ne_none p)
        have set := holds_setSw_other h { s.sw j with commanded := p } e
        split
        · unfold State.withdrawToEarth
          dsimp only
          split
          · exact holds_setSw_other h _ e
          · exact holds_grants fault (holds_admitCore (holds_setSw_other h _ e) .safety false e)
        · split
          · exact holds_swComplete set e
          · exact holds_swComplete set e
          · exact set

theorem holds_withdrawAll (lost : r.confirmed = .unknown) (ws : List Sw) {s : State} (h : s.sw w = r) :
    (State.withdrawAll ws s).sw w = r := by
  induction ws generalizing s with
  | nil => exact h
  | cons j ws ih => exact ih (holds_withdraw fault lost h j ws)

omit fault in
theorem holds_endTask {s : State} (h : s.sw w = r) (n : Tx) (f : Option TaskFail) (b o : Bool) : (s.endTask n f b o).sw w = r := by
  unfold State.endTask
  split
  · exact h
  · exact h

theorem holds_failAndWithdraw (lost : r.confirmed = .unknown) {s : State} (h : s.sw w = r) (n : Tx) (f : TaskFail) (o : Bool) :
    (s.failAndWithdraw n f o).sw w = r := by
  unfold State.failAndWithdraw
  split
  · exact h
  · exact holds_withdrawAll fault lost _ (holds_endTask h n _ _ _)

theorem holds_taskTake (lost : r.confirmed = .unknown) {s : State} (h : s.sw w = r) (x : MxReport) (n : Tx) :
    (s.taskTake x n).sw w = r := by
  have set (t : Option Task) : (s.setTask n t).sw w = r := h
  have ends (t : Option Task) (f : Option TaskFail) : ((s.setTask n t).endTask n f false false).sw w = r :=
    holds_endTask (set t) n f false false
  have fails (t : Option Task) (f : TaskFail) : ((s.setTask n t).failAndWithdraw n f false).sw w = r :=
    holds_failAndWithdraw fault lost (set t) n f false
  unfold State.taskTake
  split
  · exact h
  · cases x <;> dsimp only <;> grind

theorem holds_absorb (lost : r.confirmed = .unknown) (fuel : Nat) {s : State} (h : s.sw w = r) : (State.absorb fuel s).sw w = r := by
  have each (x : MxReport) (ns : List Tx) (s : State) (h : s.sw w = r) : (forAll ns (fun n s => s.taskTake x n) s).sw w = r := by
    induction ns generalizing s with
    | nil => exact h
    | cons n ns ih => exact ih _ (holds_taskTake fault lost h x n)
  have choose (s : State) (count : Nat) : (s.choose count).2.mx = s.mx := by
    unfold State.choose
    split <;> rfl
  have arranged (fuel : Nat) (xs : List Tx) (s : State) : (State.arrangeAux fuel xs s).2.mx = s.mx := by
    induction fuel generalizing xs s with
    | zero => rfl
    | succ fuel ih =>
      cases xs with
      | nil => rfl
      | cons x xs => exact (ih _ _).trans (choose s _)
  induction fuel generalizing s with
  | zero => exact h
  | succ fuel ih =>
    rw [State.absorb]
    cases s.mx.reports with
    | nil => exact h
    | cons x rest =>
      refine ih (each x _ _ ?_)
      have popped : ({ s with mx := { s.mx with reports := rest } } : State).sw w = s.sw w := by cases w <;> rfl
      exact (congrArg (fun m : Matrix => m.get w) (arranged _ _ _)).trans (popped.trans h)

end

end Sys2Proof.Machine
end

