-- ==== Sys2Proof/Proofs/SwitchTimers.lean ====
section
/-! PROOF. The travel timeout, the report window, the supply hold, the loss and return of drive permission, and the grants (R9 to R12,
R14, R20 to R24). -/

namespace Sys2Proof.Machine

/-! ## The loss of drive permission -/

/-- A MOVING switch stopped where it may be (R20). -/
def SwRec.stopped (r : SwRec) : SwRec := { r with state := .stopped, confirmed := .unknown, grantTime := none, travelDue := none }

section
variable (s : State)

theorem stopSw_same (w : Sw) : (s.stopSw w).sw w = (s.sw w).stopped := by
  have same : (s.stopSw w).sw w = (s.setSw w (s.sw w).stopped).sw w := by cases w <;> rfl
  rw [same, setSw_same]

theorem stopSw_other (w : Sw) {v : Sw} (h : v ≠ w) : (s.stopSw w).sw v = s.sw v := by
  have same : (s.stopSw w).sw v = (s.setSw w (s.sw w).stopped).sw v := by cases v <;> rfl
  rw [same, setSw_other s w v _ h]

/-- STOP goes to every MOVING switch, in record order, and each of them is STOPPED (R20). -/
theorem stopAll_sweep (ws : List Sw) (nodup : ws.Nodup) (s : State) :
    (forAll ws (fun w s => if (s.sw w).state == .moving then s.stopSw w else s) s).sent =
        s.sent ++ (ws.filter fun w => (s.sw w).state == .moving).map .stop ∧
      ∀ w ∈ ws, (forAll ws (fun w s => if (s.sw w).state == .moving then s.stopSw w else s) s).sw w =
        if (s.sw w).state = .moving then (s.sw w).stopped else s.sw w := by
  have others (w v : Sw) (s : State) (e : v ≠ w) : (if (s.sw w).state == .moving then s.stopSw w else s).sw v = s.sw v := by
    split
    · exact stopSw_other s w e
    · rfl
  induction ws generalizing s with
  | nil => exact ⟨by simp [forAll], fun w mem => absurd mem List.not_mem_nil⟩
  | cons v ws ih =>
    rw [List.nodup_cons] at nodup
    let t := if (s.sw v).state == .moving then s.stopSw v else s
    obtain ⟨sent, each⟩ := ih nodup.2 t
    have unchanged (w : Sw) (mem : w ∈ ws) : t.sw w = s.sw w := others v w s fun e => nodup.1 (e ▸ mem)
    have filtered : (ws.filter fun w => (t.sw w).state == .moving) = ws.filter fun w => (s.sw w).state == .moving :=
      List.filter_congr fun w mem => by rw [unchanged w mem]
    have head : (forAll ws (fun w s => if (s.sw w).state == .moving then s.stopSw w else s) t).sw v = t.sw v :=
      forAll_sw_out (f := fun w s => if (s.sw w).state == .moving then s.stopSw w else s) (fun w v s e => others w v s e) ws t nodup.1
    refine ⟨?_, List.forall_mem_cons.mpr ⟨head.trans ?_, fun w mem => ?_⟩⟩
    · refine sent.trans ?_
      rw [filtered]
      by_cases moving : (s.sw v).state = .moving
      · rw [show t = s.stopSw v from if_pos (beq_iff_eq.mpr moving), List.filter_cons_of_pos (p := fun w => (s.sw w).state == .moving) (beq_iff_eq.mpr moving)]
        show (s.sent ++ [.stop v]) ++ _ = _
        rw [List.map_cons, List.append_assoc]
        rfl
      · rw [show t = s from if_neg fun h => moving (beq_iff_eq.mp h),
          List.filter_cons_of_neg (p := fun w => (s.sw w).state == .moving) (fun h => moving (beq_iff_eq.mp h))]
    · by_cases moving : (s.sw v).state = .moving
      · rw [show t = s.stopSw v from if_pos (beq_iff_eq.mpr moving), if_pos moving, stopSw_same]
      · rw [show t = s from if_neg fun h => moving (beq_iff_eq.mp h), if_neg moving]
    · have at_ := each w mem
      rw [unchanged w mem] at at_
      exact at_

/-! ## The return of drive permission -/

theorem requeue_same (w : Sw) : (s.requeue w).sw w = { s.sw w with state := .pending, arrival := some s.mx.nextArrival } := by
  have same : (s.requeue w).sw w = (s.setSw w { s.sw w with state := .pending, arrival := some s.mx.nextArrival }).sw w := by
    cases w <;> rfl
  rw [same, setSw_same]

theorem requeue_other (w : Sw) {v : Sw} (h : v ≠ w) : (s.requeue w).sw v = s.sw v := by
  have same : (s.requeue w).sw v = (s.setSw w { s.sw w with state := .pending, arrival := some s.mx.nextArrival }).sw v := by
    cases v <;> rfl
  rw [same, setSw_other s w v _ h]

theorem requeue_arrival (w : Sw) : (s.requeue w).mx.nextArrival = s.mx.nextArrival + 1 := by cases w <;> rfl

theorem requeue_safety (w : Sw) : (s.requeue w).mx.safety = s.mx.safety := by cases w <;> rfl

/-- A STOPPED switch is PENDING behind a fresh arrival number when every STOPPED one has re-entered the queue (R21). -/
theorem requeueAll_stopped {w : Sw} (h : (s.sw w).state = .stopped) : ∃ n : Nat, s.mx.nextArrival ≤ n ∧
    s.requeueAll.sw w = { s.sw w with state := .pending, arrival := some n } := by
  obtain ⟨z, fresh, same, final, -⟩ := forAll_sw (f := fun w s => if (s.sw w).state == .stopped then s.requeue w else s)
    (Q := fun z => s.mx.nextArrival ≤ z.mx.nextArrival)
    (fun w v z e => by
      split
      · exact requeue_other z w e
      · rfl)
    (fun w z fresh => by
      split
      · exact Nat.le_trans fresh (by rw [requeue_arrival]; omega)
      · exact fresh) allSw_nodup (Nat.le_refl _) (mem_allSw w)
  refine ⟨z.mx.nextArrival, fresh, final.trans ?_⟩
  dsimp only
  rw [if_pos (by rw [same]; exact beq_iff_eq.mpr h), requeue_same, same]

theorem requeueAll_safety : s.requeueAll.mx.safety = s.mx.safety := by
  have each (ws : List Sw) (z : State) :
      (forAll ws (fun w s => if (s.sw w).state == .stopped then s.requeue w else s) z).mx.safety = z.mx.safety := by
    induction ws generalizing z with
    | nil => rfl
    | cons w ws ih =>
      refine (ih _).trans ?_
      dsimp only
      split
      · exact requeue_safety z w
      · rfl
  unfold State.requeueAll
  exact each _ s

theorem joinQueue_other (w : Sw) (c : MoveClass) {v : Sw} (h : v ≠ w) : (s.joinQueue w c).sw v = s.sw v := by
  unfold State.joinQueue
  dsimp only
  split
  · exact swComplete_other s w h
  · have same (z : State) (n : Nat) : ({ z with mx := { z.mx with nextArrival := n } } : State).sw v = z.sw v := by cases v <;> rfl
    exact (same _ _).trans (setSw_other s w v _ h)

theorem joinQueue_safety (w : Sw) (c : MoveClass) : (s.joinQueue w c).mx.safety = s.mx.safety := by
  unfold State.joinQueue
  dsimp only
  cases w <;> split <;> rfl

theorem admitCore_other (w : Sw) (c : MoveClass) (retry : Bool) {v : Sw} (h : v ≠ w) : (s.admitCore w c retry).2.sw v = s.sw v := by
  unfold State.admitCore
  dsimp only
  split
  · exact joinQueue_other s w c h
  · exact setSw_other s w v _ h
  · exact setSw_other s w v _ h
  · rfl
  · split
    · exact joinQueue_other s w c h
    · rfl

theorem admitCore_safety (w : Sw) (c : MoveClass) (retry : Bool) : (s.admitCore w c retry).2.mx.safety = s.mx.safety := by
  have put (r : SwRec) : (s.setSw w r).mx.safety = s.mx.safety := by cases w <;> rfl
  unfold State.admitCore
  dsimp only
  split
  · exact joinQueue_safety s w c
  · exact put _
  · exact put _
  · rfl
  · split
    · exact joinQueue_safety s w c
    · rfl

theorem admitCore_pending {w : Sw} (c : MoveClass) (retry : Bool) (h : (s.sw w).state = .pending) :
    (s.admitCore w c retry).2.sw w = { s.sw w with cls := higherClass (s.sw w).cls c } := by
  have admitted : s.admitCore w c retry = (.done, s.setSw w { s.sw w with cls := higherClass (s.sw w).cls c }) := by
    unfold State.admitCore
    dsimp only
    split
    case h_2 => rfl
    all_goals next e => exact nomatch h.symm.trans e
  rw [admitted]
  exact setSw_same s w _

/-- The safety list admitted changes a PENDING switch in its class alone, and only one of the list (R24). -/
theorem admitSafety_pending {w : Sw} (h : (s.sw w).state = .pending) : ∃ c : Option MoveClass,
    s.admitSafety.sw w = { s.sw w with cls := c } ∧ (w ∉ s.mx.safety → c = (s.sw w).cls) := by
  have safety (z : State) : ({ z with mx := { z.mx with safety := [] } } : State).sw w = z.sw w := by cases w <;> rfl
  obtain ⟨z, listed, same, final, -⟩ := forAll_sw
    (f := fun w s => if s.mx.safety.contains w && s.cfg.swOk w then (s.admitCore w .safety true).2 else s)
    (Q := fun z => z.mx.safety = s.mx.safety)
    (fun w v z e => by
      split
      · exact admitCore_other z w _ _ e
      · rfl)
    (fun w z listed => by
      split
      · exact (admitCore_safety z w _ _).trans listed
      · exact listed) allSw_nodup rfl (mem_allSw w)
  have swept : s.admitSafety.sw w = (if z.mx.safety.contains w && z.cfg.swOk w then (z.admitCore w .safety true).2 else z).sw w :=
    (safety _).trans final
  by_cases named : (z.mx.safety.contains w && z.cfg.swOk w) = true
  · rw [if_pos named, admitCore_pending z .safety true (by rw [same]; exact h), same] at swept
    refine ⟨_, swept, fun out => absurd ?_ out⟩
    rw [Bool.and_eq_true, listed] at named
    exact List.contains_iff_mem.mp named.1
  · rw [if_neg named, same] at swept
    exact ⟨_, swept, fun _ => rfl⟩

theorem admitSafety_safety : s.admitSafety.mx.safety = [] := rfl

/-- Drive permission returned: the safety list is empty, and every STOPPED switch waits again or moves already (R21, R24). -/
theorem mxJudge_returns (drives : s.drivesPermitted = true) (not_ : s.mx.permitted = false) :
    s.mxJudge.mx.safety = [] ∧ ∀ w : Sw, (s.sw w).state = .stopped →
      ((s.mxJudge.sw w).state = .pending ∨ (s.mxJudge.sw w).state = .moving) ∧ (s.mxJudge.sw w).commanded = (s.sw w).commanded ∧
        (w ∉ s.mx.safety → (s.mxJudge.sw w).cls = (s.sw w).cls) ∧
        ((s.mxJudge.sw w).state = .pending → ∃ n : Nat, s.mx.nextArrival ≤ n ∧ (s.mxJudge.sw w).arrival = some n) := by
  let a : State := { s with mx := { s.mx with permitted := true } }
  have judged : s.mxJudge = a.requeueAll.admitSafety.grants := by
    rw [State.mxJudge, if_pos drives, if_neg (by rw [not_]; exact Bool.false_ne_true)]
  have spec := grants_spec a.requeueAll.admitSafety
  rw [← judged] at spec
  refine ⟨spec.safety.trans (admitSafety_safety _), fun w stopped => ?_⟩
  have was : a.sw w = s.sw w := by cases w <;> rfl
  obtain ⟨n, fresh, queued⟩ := requeueAll_stopped a (w := w) (by rw [was]; exact stopped)
  rw [was] at queued
  obtain ⟨c, admitted, same⟩ := admitSafety_pending a.requeueAll (w := w) (by rw [queued])
  rw [queued] at admitted same
  have listed (out : w ∉ s.mx.safety) : c = (s.sw w).cls := same (by rw [requeueAll_safety]; exact out)
  rcases spec.each w with stays | ⟨-, -, moves⟩
  · rw [stays, admitted]
    exact ⟨.inl rfl, rfl, listed, fun _ => ⟨n, fresh, rfl⟩⟩
  · rw [moves, State.granted, admitted]
    exact ⟨.inr rfl, rfl, listed, fun waits => SwState.noConfusion waits⟩

theorem mxJudge_same (h : s.drivesPermitted = s.mx.permitted) : s.mxJudge = s := by
  unfold State.mxJudge
  cases drives : s.drivesPermitted with
  | true => rw [if_pos rfl, if_pos (h.symm.trans drives)]
  | false => rw [if_neg Bool.false_ne_true, if_neg (by rw [← h, drives]; exact Bool.false_ne_true)]

/-- Drive permission lost (R20). -/
theorem mxJudge_stops (drives : s.drivesPermitted = false) (were : s.mx.permitted = true) :
    s.mxJudge.sent = s.sent ++ (allSw.filter fun w => (s.sw w).state == .moving).map .stop ∧
      ∀ w : Sw, s.mxJudge.sw w = if (s.sw w).state = .moving then (s.sw w).stopped else s.sw w := by
  let a : State := { s with mx := { s.mx with permitted := false } }
  have judged : s.mxJudge = a.stopAll := by
    rw [State.mxJudge, if_neg (by rw [drives]; exact Bool.false_ne_true), if_pos were]
  have was (w : Sw) : a.sw w = s.sw w := by cases w <;> rfl
  obtain ⟨sent, each⟩ := stopAll_sweep allSw allSw_nodup a
  simp only [was] at sent each
  rw [judged]
  exact ⟨sent, fun w => each w (mem_allSw w)⟩

end

/-! ## Grants by class and arrival -/

theorem rank_injective {c e : MoveClass} (h : c.rank = e.rank) : c = e := by
  cases c <;> cases e <;> first | rfl | exact absurd h (by decide)

theorem queueKey_of {r : SwRec} {c : MoveClass} {n : Nat} (state : r.state = .pending) (cls : r.cls = some c)
    (arrival : r.arrival = some n) : r.queueKey = some (c.rank, n) := by
  rw [SwRec.queueKey, if_pos (beq_iff_eq.mpr state), cls, arrival]
  rfl

/-! ## The expiries -/

section
variable (s : State)

/-- A travel timeout at its moment (R14): STOP, and FAULT with the position unknown, which no later report of the act changes. -/
theorem travelExpired_expires (w : Sw) (b : State) :
    (b.travelExpired w).sw w = SwRec.faulted { b.sw w with confirmed := .unknown } .travelTimeout ∧
      b.sent ++ [.stop w] <+: (b.travelExpired w).sent ∧ (b.travelExpired w).raised .switch := by
  let stopped : State := (b.send (.stop w)).setSw w { b.sw w with confirmed := .unknown }
  have fault : (stopped.swFault w .travelTimeout).sw w = SwRec.faulted { b.sw w with confirmed := .unknown } .travelTimeout := by
    rw [swFault_same, setSw_same]
  refine ⟨(grants_rests _ (by rw [fault]; exact SwState.noConfusion)).trans fault, ?_,
    raised_of_calm (calm_grants _ (Calm.refl _)) (swFault_raised stopped w .travelTimeout)⟩
  have sent := (calm_grants _ (calm_swFault _ w .travelTimeout
    (calm_setSw _ w { b.sw w with confirmed := .unknown } (Calm.refl (b.send (.stop w)))))).sent
  exact sent

/-- What the end of the report window makes of a switch where a configuration is in force and drives wait (R23). -/
theorem windowEnd_finds (permitted : s.mx.permitted = false) (configured : s.cfg.configured = true) (w : Sw) :
    (∀ p : Pos, (s.sw w).confirmed = .stands p →
      ((∃ n : Tx, ∃ m j : Ant, w = .sel m ∧ p = .bus n ∧ j ≠ m ∧ (s.sw (.sel j)).confirmed = .stands (.bus n)) →
        (s.windowEnd.sw w).commanded = .earth ∧ (s.windowEnd.sw w).state = .fault ∧ (s.windowEnd.sw w).fault = some .conflict ∧
          w ∈ s.windowEnd.mx.safety ∧ s.windowEnd.raised .switch) ∧
      ((∀ n : Tx, ∀ m j : Ant, w = .sel m → p = .bus n → j ≠ m → (s.sw (.sel j)).confirmed ≠ .stands (.bus n)) →
        (s.windowEnd.sw w).commanded = p ∧ (s.windowEnd.sw w).state = (s.sw w).state)) ∧
    ((∀ p : Pos, (s.sw w).confirmed ≠ .stands p) → (s.windowEnd.sw w).commanded = w.home ∧ w ∈ s.windowEnd.mx.safety) := by
  have all : s.windowEnd = s.windowAll := by
    rw [windowEnd_eq, windowAll_configured, configured, windowAll_permitted, permitted]
    rfl
  rw [all]
  obtain ⟨z, same, final, joins, raised⟩ := windowAll_sw s w
  refine ⟨fun p at_ => ⟨?_, fun alone => ?_⟩, fun lost => ?_⟩
  · rintro ⟨n, m, j, rfl, rfl, other, shares⟩
    have found : s.mx.found (.sel m) = .conflict := (found_sel_bus s at_).trans (if_pos ⟨j, other, shares⟩)
    rw [final, found, windowOne_conflict]
    exact ⟨rfl, rfl, rfl, joins fun p => by rw [found]; exact Found.noConfusion, raised found⟩
  · have found : s.mx.found w = .atPosition p := by
      by_cases bus : ∃ n m, w = .sel m ∧ p = .bus n
      · obtain ⟨n, m, rfl, rfl⟩ := bus
        exact (found_sel_bus s at_).trans (if_neg fun ⟨j, other, shares⟩ => alone n m j rfl rfl other shares)
      · exact found_stands s at_ fun n m named at_bus => bus ⟨n, m, named, at_bus⟩
    rw [final, found, windowOne_atPosition, same]
    exact ⟨rfl, rfl⟩
  · have found := found_lost s lost
    rw [final, found, windowOne_lost]
    exact ⟨rfl, joins fun p => by rw [found]; exact Found.noConfusion⟩

/-- While UNCONFIGURED the safety list ends empty with the report window (R24). -/
theorem windowEnd_unconfigured (h : s.cfg.configured = false) : s.windowEnd.mx.safety = [] := by
  rw [windowEnd_eq, windowAll_configured, h]
  rfl

end

/-- Settles O50: each timer at its moment, the judgement of drive permission by the last one, and the grants. -/
theorem switchTimers : Obligations.SwitchTimers := by
  intro s due a
  refine ⟨fun w => ⟨fun moving travel => ?_, fun rests => ?_⟩, fun window => ?_, fun hold => ?_, fun idle => ?_, fun idle => ?_,
    ⟨mxJudge_same s, fun drives were => ?_, fun drives not_ => ?_⟩, ⟨grants_of_not_permitted, fun permitted drives => ?_⟩⟩
  · have act : exec (.travelTimeout w) s = .next (State.event a (a.travelExpired w).absorbAll) := by
      have timer : (s.sw w).timeout = .running due := by rw [SwRec.timeout, moving, travel]
      exact congrArg Host.Outcome.next ((if_pos (by rw [timer]; rfl)).trans (by rw [timer]; rfl))
    obtain ⟨fault, sent, raised⟩ := travelExpired_expires w a
    have absorbed : Calm (a.travelExpired w) (a.travelExpired w).absorbAll := calm_absorbAll _ (Calm.refl _)
    have calm : Calm a (a.travelExpired w).absorbAll := calm_absorbAll _ (calm_travelExpired a w (Calm.refl a))
    have holds : (a.travelExpired w).absorbAll.sw w = SwRec.faulted { a.sw w with confirmed := .unknown } .travelTimeout :=
      holds_absorb rfl rfl _ fault
    refine ⟨_, runs_of_event act (links_of_calm s calm rfl), calm.kept, sent.trans absorbed.sent, raised_of_calm absorbed raised, ?_⟩
    rw [holds]
    exact ⟨rfl, rfl, rfl, rfl, rfl⟩
  · have idle : (s.sw w).timeout = .idle := by
      unfold SwRec.timeout
      split
      · next moving _ => exact absurd moving rests
      · rfl
    exact congrArg Host.Outcome.next (if_neg (by rw [idle]; exact Bool.false_ne_true))
  · intro v
    have act : exec .reportWindowEnd s = .next (State.event a v.absorbAll) :=
      congrArg Host.Outcome.next ((if_pos (by rw [window]; rfl)).trans (by rw [window]; rfl))
    have calm : Calm a.windowClosed v := windowEnd_calm a
    have was (w : Sw) : a.sw w = s.sw w := by cases w <;> rfl
    refine ⟨runs_of_event act (links_of_calm s (calm_absorbAll _ calm) rfl), calm.kept, fun h => windowEnd_unconfigured a h,
      fun permitted configured w => ?_⟩
    have finds := windowEnd_finds a permitted configured w
    simp only [was] at finds
    exact finds
  · have act : exec .supplyHoldExpiry s = .next (State.event a a.supplyHeldNow.mxJudge.absorbAll) :=
      congrArg Host.Outcome.next ((if_pos (by rw [hold]; rfl)).trans (by rw [hold]; rfl))
    have calm : Calm a.supplyHeldNow a.supplyHeldNow.mxJudge.absorbAll := calm_absorbAll _ (calm_mxJudge _ (Calm.refl _))
    refine ⟨_, runs_of_event act (links_of_calm s calm rfl), calm.kept, fun hall shut configured settled => ?_⟩
    have judged : a.supplyHeldNow.mxJudge.mx.permitted = true := by
      rw [mxJudge_permitted]
      show (true && s.hall.state == .normal && !s.isOpen && s.cfg.configured && !s.isSettling) = true
      rw [hall, shut, configured, settled]
      rfl
    obtain ⟨-, -, permitted, -⟩ := (routes_absorbAll _ (Routes.refl a.supplyHeldNow.mxJudge)).gates
    exact permitted.trans judged
  · exact congrArg Host.Outcome.next (if_neg (not_running idle))
  · exact congrArg Host.Outcome.next (if_neg (not_running idle))
  · obtain ⟨sent, each⟩ := mxJudge_stops s drives were
    exact ⟨(calm_mxJudge s (Calm.refl s)).kept, (mxJudge_permitted s).trans drives, sent, each⟩
  · obtain ⟨safety, each⟩ := mxJudge_returns s drives not_
    exact ⟨(calm_mxJudge s (Calm.refl s)).kept, (mxJudge_permitted s).trans drives, safety, each⟩
  · have spec := grants_spec s
    refine ⟨(calm_grants s (Calm.refl s)).kept, movingCount_grants s, grants_ends s permitted drives, fun w => ?_,
      fun w x c e n m waits waits' cls arrival cls' arrival' moves stays => ?_⟩
    · refine (spec.each w).imp id fun ⟨waits, sent, at_⟩ => ⟨waits, sent, at_.trans ?_⟩
      cases w <;> rfl
    · have behind := spec.order w x _ _ (queueKey_of waits cls arrival) (queueKey_of waits' cls' arrival') moves stays
      have behind := (not_congr (queueBefore_iff _ _)).mp (Bool.eq_false_iff.mp behind)
      dsimp only at behind
      by_cases less : c.rank < e.rank
      · exact .inl less
      · have same : c.rank = e.rank := by omega
        exact .inr ⟨rank_injective same, by omega⟩

end Sys2Proof.Machine
end

