-- ==== Sys2Proof/Proofs/WarmRestart.lean ====
section
/-! PROOF. WARM_RESTART where a workspace stands with no configuration open. -/

namespace Sys2Proof.Machine

theorem cfg_forAll {α : Type} {f : α → State → State} (each : ∀ x s, (f x s).cfg = s.cfg) (xs : List α) (s : State) :
    (forAll xs f s).cfg = s.cfg := by
  induction xs generalizing s with
  | nil => rfl
  | cons x xs ih => exact (ih _).trans (each x s)

section
variable (s : State)

theorem linkRestart_cfg (asked : Option Desk) : (s.linkRestart asked).cfg = s.cfg := by
  refine cfg_forAll (fun d s => ?_) allDesk s
  unfold State.linkRestartOne State.choose
  dsimp only
  repeat' split
  all_goals rfl

theorem mxRestart_cfg : s.mxRestart.cfg = s.cfg := by
  have each (w : Sw) (s : State) : (if (s.sw w).state == .moving then s.stopSw w else s).cfg = s.cfg := by
    split
    · cases w <;> rfl
    · rfl
  have stops : s.stopAll.cfg = s.cfg := by
    unfold State.stopAll
    exact cfg_forAll each _ s
  have ends (z : State) : (State.send { z with mx := { z.mx with permitted := false } } .reportAll).cfg = z.cfg := rfl
  rw [State.mxRestart, ends, stops]

/-- The blocks' restart leaves the configuration store. -/
theorem blocksRestart_cfg : s.blocksRestart.cfg = s.cfg := by
  have route (s : State) : s.routeRestart.cfg = s.cfg := cfg_forAll (fun n s => by split <;> rfl) allTx s
  have rot (s : State) : s.rotRestart.cfg = s.cfg := cfg_forAll (fun k s => by split <;> rfl) allRot s
  have slew (s : State) : s.slewRestart.cfg = s.cfg := cfg_forAll (fun k s => by split <;> rfl) allRot s
  have tx (s : State) : s.txRestart.cfg = s.cfg := cfg_forAll (f := fun n s => s.modTx n TxRec.haltTimers) (fun _ _ => rfl) allTx s
  have hall (s : State) : s.hallRestart.cfg = s.cfg := by
    unfold State.hallRestart
    split <;> rfl
  rw [State.blocksRestart, hall, tx, slew, rot, route, mxRestart_cfg]

theorem settleCheck_workspace : s.settleCheck.cfg.workspace = s.cfg.workspace := by
  unfold State.settleCheck
  split
  · split <;> rfl
  · rfl

/-- A warm restart empties the workspace only where a configuration is open (R205, R208). -/
theorem restart_workspace_of_shut (asked : Option Desk) (settled : s.isSettling = false) (shut : s.isOpen = false) :
    (s.restart asked).cfg.workspace = s.cfg.workspace := by
  have links := linkRestart_cfg s asked
  have shut' : (s.linkRestart asked).isOpen = false := by rw [State.isOpen, links]; exact shut
  have stays : (s.linkRestart asked).restartAbandons = s.linkRestart asked := if_neg (by rw [shut']; exact Bool.false_ne_true)
  have settles (z : State) (x : Option Settling) : (z.modCfg fun c => { c with settling := x }).cfg.workspace = z.cfg.workspace := rfl
  rw [restart_eq s asked settled, settleCheck_workspace, stays, settles, blocksRestart_cfg, links]

end

/-- Power-up with a workspace that no desk holds open. -/
def State.strayWorkspace : State :=
  { State.reset with cfg := { ConfigStore.powerUp with workspace := some ConfigStore.powerUp.active } }

/-- Refutes O47: the statement takes every state, also one with a workspace and no open desk, and a warm restart leaves that workspace
as it is. -/
theorem not_restartAndSettling : ¬ Obligations.RestartAndSettling := by
  intro h
  let z := State.strayWorkspace
  obtain ⟨-, restarts, -, -⟩ := h z
  obtain ⟨t, u, runs, -, follows, -, emptied, -⟩ := restarts rfl
  have act : exec .warmRestart z = .next (State.event z (z.restart none)) := rfl
  have same : t = State.event z (z.restart none) := Host.Outcome.next.inj (runs.symm.trans act)
  have kept : u.kept = (z.restart none).kept := by
    rw [← follows.kept, same]
    exact (event_follows z (z.restart none)).kept
  have keeps (s : State) : s.kept.cfg.workspace = s.cfg.workspace := rfl
  have stands : u.cfg.workspace = some ConfigStore.powerUp.active := by
    rw [← keeps, kept, keeps, restart_workspace_of_shut z none rfl rfl]
    rfl
  exact Option.some_ne_none _ (stands.symm.trans emptied)

end Sys2Proof.Machine
end

