-- ==== Sys2Proof/Proofs/CloseConfig.lean ====
section
/-! PROOF. CLOSE_CONFIG: what bringing the blocks into line with a newly applied configuration leaves (R109, R153, R173, R192, R204). -/

namespace Sys2Proof.Machine

/-! ## What bringing into line leaves -/

/-- Outside settling the configuration stands; the masks are as they were, the links have only gained attention, and what holds nothing of a block
still holds nothing. -/
structure Aligned (a b : State) : Prop where
  cfg : a.cfg.settling = none → b.cfg = a.cfg
  enabled : b.enabled = a.enabled
  links : ∀ d : Desk, LinkCalm (a.link d) (b.link d)
  marks : ∀ m : Ant, a.faultMark[m] = false → b.faultMark[m] = false
  tx : ∀ n : Tx, a.tx[n] = TxRec.powerUp → b.tx[n] = TxRec.powerUp
  tasks : ∀ n : Tx, a.tasks[n] = none → b.tasks[n] = none
  cur : ∀ n : Tx, a.run.cur[n] = none → b.run.cur[n] = none
  nxt : ∀ n : Tx, a.run.nxt[n] = none → b.run.nxt[n] = none
  locks : ∀ r ∈ b.locks.records, ∃ q ∈ a.locks.records, q.target = r.target

theorem Aligned.refl (a : State) : Aligned a a :=
  ⟨fun _ => rfl, rfl, fun _ => LinkCalm.refl _, fun _ => id, fun _ => id, fun _ => id, fun _ => id, fun _ => id, fun r h => ⟨r, h, rfl⟩⟩

theorem Aligned.trans {a b c : State} (h : Aligned a b) (k : Aligned b c) : Aligned a c where
  cfg settled := (k.cfg (by rw [h.cfg settled]; exact settled)).trans (h.cfg settled)
  enabled := k.enabled.trans h.enabled
  links d := (h.links d).trans (k.links d)
  marks m := k.marks m ∘ h.marks m
  tx n := k.tx n ∘ h.tx n
  tasks n := k.tasks n ∘ h.tasks n
  cur n := k.cur n ∘ h.cur n
  nxt n := k.nxt n ∘ h.nxt n
  locks r mem := by
    obtain ⟨q, mem, same⟩ := k.locks r mem
    obtain ⟨p, mem, first⟩ := h.locks q mem
    exact ⟨p, mem, first.trans same⟩

theorem aligned_forAll {α : Type} {f : α → State → State} (each : ∀ x s, Aligned s (f x s)) (xs : List α) (s : State) :
    Aligned s (forAll xs f s) := by
  induction xs generalizing s with
  | nil => exact .refl s
  | cons x xs ih => exact (each x s).trans (ih _)

/-- Nothing but what no field of `Aligned` reads differs, and the tasks only empty. -/
theorem aligned_of {a b : State} (out : { b with
      mx := a.mx, tasks := a.tasks, permit := a.permit, rot := a.rot, slew := a.slew, season := a.season, hall := a.hall,
      notices := a.notices, sent := a.sent, choices := a.choices, links := a.links } = a)
    (links : ∀ d : Desk, LinkCalm (a.link d) (b.link d)) (tasks : ∀ n : Tx, a.tasks[n] = none → b.tasks[n] = none) : Aligned a b := by
  have cfg := congrArg State.cfg out
  have enabled := congrArg State.enabled out
  have marks := congrArg State.faultMark out
  have tx := congrArg State.tx out
  have run := congrArg State.run out
  have locks := congrArg State.locks out
  dsimp only at cfg enabled marks tx run locks
  exact ⟨fun _ => cfg, enabled, links, fun m h => by rw [marks]; exact h, fun n h => by simp only [tx]; exact h, tasks,
    fun n h => by rw [run]; exact h, fun n h => by rw [run]; exact h, fun r h => ⟨r, by rwa [locks] at h, rfl⟩⟩

/-- The same, with the links and the tasks as they were. -/
theorem aligned_rest {a b : State} (out : { b with
      mx := a.mx, permit := a.permit, rot := a.rot, slew := a.slew, season := a.season, hall := a.hall,
      notices := a.notices, sent := a.sent, choices := a.choices } = a) : Aligned a b := by
  have links := congrArg State.links out
  have tasks := congrArg State.tasks out
  dsimp only at links tasks
  refine aligned_of ?_ (fun d => ?_) fun n h => by simp only [tasks]; exact h
  · rw [← links, ← tasks]
    exact out
  · rw [State.link, State.link, links]
    exact LinkCalm.refl _

/-- The matrix and the route controller, and what they send. -/
theorem aligned_routes {a b : State} (routes : Routes a b) (calm : Calm a b) : Aligned a b := by
  refine aligned_of ?_ calm.links fun n => (routes.tasks n).1
  have out := congrArg (fun s : State => { s with
    permit := a.permit, rot := a.rot, slew := a.slew, season := a.season, hall := a.hall }) routes.outside
  exact out

/-- The slew controller, and what it tells. -/
theorem aligned_slews {a b : State} {k : Rot} (slews : Slews k a b) (calm : Calm a b) : Aligned a b := by
  refine aligned_of ?_ calm.links fun n h => ?_
  · have out := congrArg (fun s : State => { s with
      mx := a.mx, permit := a.permit, rot := a.rot, season := a.season, hall := a.hall, tasks := a.tasks, sent := a.sent,
      choices := a.choices }) slews.outside
    exact out
  · have tasks := congrArg State.tasks slews.outside
    dsimp only at tasks
    rw [tasks]
    exact h

/-- What acts behind new masks leaves the rest as it would behind the old. -/
theorem aligned_masked {a u : State} {v : Vector Word16 24} (h : Aligned { a with enabled := v } u) :
    Aligned a { u with enabled := a.enabled } :=
  ⟨h.cfg, rfl, h.links, h.marks, h.tx, h.tasks, h.cur, h.nxt, h.locks⟩

section
variable (s : State)

theorem aligned_raise (x : Attn) : Aligned s (s.raise x) := aligned_of rfl (calm_raise s x (Calm.refl s)).links fun _ => id

theorem aligned_raiseIf (c : Bool) (x : Attn) : Aligned s (s.raiseIf c x) := by
  cases c
  · exact .refl s
  · exact aligned_raise s x

theorem aligned_notify (x : Notice) : Aligned s (s.notify x) := aligned_rest rfl

theorem aligned_notifyAll (x : List Notice) : Aligned s (s.notifyAll x) := aligned_rest rfl

theorem aligned_slewReport (k : Rot) (x : SlewReport) : Aligned s (s.slewReport k x) :=
  aligned_slews (slews_slewReport s x (Slews.refl k s)) (calm_slewReport s k x (Calm.refl s))

theorem aligned_modSlew (k : Rot) (f : SlewRec → SlewRec) : Aligned s (s.modSlew k f) := aligned_rest rfl

theorem aligned_modHall (f : Hall → Hall) : Aligned s (s.modHall f) := aligned_rest rfl

/-! ## Each block -/

theorem aligned_mxReconfig (before : ConfigStore) : Aligned s (s.mxReconfig before) := by
  refine aligned_forAll (fun w s => ?_) allSw s
  split
  · cases w <;> exact aligned_rest rfl
  · exact .refl s

theorem aligned_mxFresh (hold : Timer) (held : Bool) : Aligned s (s.mxFresh hold held) := aligned_rest rfl

/-- One task record at a close (R41). -/
def State.routeReconfigOne (s : State) (before : ConfigStore) (n : Tx) : State :=
  if before.txOk n && !s.cfg.txOk n then (s.setTask n none).setRouteTrip n false else s

theorem routeReconfig_eq (before : ConfigStore) : s.routeReconfig before = forAll allTx (fun n s => s.routeReconfigOne before n) s := rfl

theorem aligned_routeReconfigOne (before : ConfigStore) (n : Tx) : Aligned s (s.routeReconfigOne before n) := by
  unfold State.routeReconfigOne
  split
  · refine aligned_of rfl (fun d => LinkCalm.refl _) fun m h => ?_
    show (s.tasks.set n none)[m] = none
    rw [getElem_set_fin]
    split
    · rfl
    · exact h
  · exact .refl s

theorem aligned_routeReconfig (before : ConfigStore) : Aligned s (s.routeReconfig before) := by
  rw [routeReconfig_eq]
  exact aligned_forAll (fun n s => aligned_routeReconfigOne s before n) allTx s

theorem aligned_absorbAll : Aligned s s.absorbAll :=
  aligned_routes (routes_absorbAll s (Routes.refl s)) (calm_absorbAll s (Calm.refl s))

theorem aligned_rotReconfig (before : ConfigStore) : Aligned s (s.rotReconfig before) := by
  have put (k : Rot) (f : RotRec → RotRec) (s : State) : Aligned s (s.modRot k f) := aligned_rest rfl
  refine aligned_forAll (fun k s => ?_) allRot s
  unfold State.rotReconfigOne
  dsimp only
  split
  · exact put k _ s
  · exact put k _ s
  · split
    · exact (put k _ s).trans (aligned_raiseIf _ _ _)
    · split
      · exact (put k _ s).trans (aligned_raise _ _)
      · exact .refl s

theorem aligned_slewReconfig (before : ConfigStore) : Aligned s (s.slewReconfig before) := by
  refine aligned_forAll (fun k s => ?_) allRot s
  have told (x : SlewReport) : Aligned s ((s.raise .slew).slewReport k x) := (aligned_raise s .slew).trans (aligned_slewReport _ k x)
  unfold State.slewReconfigOne
  dsimp only
  split
  · exact aligned_modSlew s k _
  · exact .refl s
  · split
    · refine Aligned.trans ?_ (aligned_modSlew _ k _)
      split
      · exact told _
      · exact .refl s
    · split
      · split
        · exact (told _).trans (aligned_modSlew _ k _)
        · exact .refl s
      · exact .refl s

/-- One fault mark at a close (R105). -/
def State.marksReconfigOne (s : State) (m : Ant) : State :=
  if s.cfg.antOk m then s else { s with faultMark := s.faultMark.set m false }

theorem marksReconfig_eq : s.marksReconfig = forAll allAnt (fun m s => s.marksReconfigOne m) s := rfl

theorem aligned_marksReconfigOne (m : Ant) : Aligned s (s.marksReconfigOne m) := by
  unfold State.marksReconfigOne
  split
  · exact .refl s
  · refine ⟨fun _ => rfl, rfl, fun _ => LinkCalm.refl _, fun j h => ?_, fun _ => id, fun _ => id, fun _ => id, fun _ => id,
      fun r h => ⟨r, h, rfl⟩⟩
    show (s.faultMark.set m false)[j] = false
    rw [getElem_set_fin]
    split
    · rfl
    · exact h

theorem aligned_marksReconfig : Aligned s s.marksReconfig := by
  rw [marksReconfig_eq]
  exact aligned_forAll (fun m s => aligned_marksReconfigOne s m) allAnt s

theorem aligned_seasonReconfig : Aligned s s.seasonReconfig := by
  have checked : Aligned s { s with season := { s.season with
      tableA := s.season.tableA.map (Entry.recheck s.cfg), tableB := s.season.tableB.map (Entry.recheck s.cfg) } } := aligned_rest rfl
  unfold State.seasonReconfig
  dsimp only
  split
  · exact (checked.trans (aligned_raiseIf _ _ _)).trans (aligned_notify _ _)
  · exact checked.trans (aligned_raiseIf _ _ _)

theorem aligned_hallReconfig (before : ConfigStore) : Aligned s (s.hallReconfig before) := by
  have filtered (c : Bool) (z : State) (f : Hall → Hall) : Aligned z (if c = true then z else z.modHall f) := by
    split
    · exact .refl z
    · exact aligned_modHall z f
  unfold State.hallReconfig
  dsimp only
  have twice := (filtered (before.active.accessInterval == s.cfg.active.accessInterval) s (fun h =>
    { h with access := { h.access with candidate := false } })).trans
      (filtered (before.active.supplyInterval == s.cfg.active.supplyInterval) _ (fun h =>
        { h with supply := { h.supply with candidate := false } }))
  split
  · exact twice
  · exact twice.trans (aligned_forAll (fun n s => aligned_modHall s _) allTx _)

theorem aligned_closeJudged : Aligned s s.closeJudged :=
  ((aligned_raise s .config).trans (aligned_forAll (fun k s =>
    aligned_slews (slews_slewResume s (Slews.refl k s)) (calm_slewResume s k (Calm.refl s))) allRot _)).trans (aligned_notifyAll _ _)

/-! ## The transmitter records -/

theorem aligned_modTx (n : Tx) (f : TxRec → TxRec) (powered : f TxRec.powerUp = TxRec.powerUp) : Aligned s (s.modTx n f) := by
  refine ⟨fun _ => rfl, rfl, fun _ => LinkCalm.refl _, fun _ => id, fun m h => ?_, fun _ => id, fun _ => id, fun _ => id,
    fun r h => ⟨r, h, rfl⟩⟩
  show (s.tx.set n (f s.tx[n]))[m] = _
  rw [getElem_set_fin]
  split
  · next e => rw [← e, h, powered]
  · exact h

theorem aligned_endOrder (n : Tx) (f : Option OrderFail) : Aligned s (s.endOrder n f) := by
  cases order : (s.tx[n]).order with
  | none => rw [endOrder_none s n f order]; exact .refl s
  | some o =>
    have base : Aligned s (s.modTx n fun r => { r with order := none, lastEnd := some ⟨o.kind, o.origin, f⟩ }) := by
      refine ⟨fun _ => rfl, rfl, fun _ => LinkCalm.refl _, fun _ => id, fun m h => ?_, fun _ => id, fun _ => id, fun _ => id,
        fun r h => ⟨r, h, rfl⟩⟩
      have other : m ≠ n := fun e => by
        rw [← e, h] at order
        exact Option.some_ne_none o order.symm
      show (s.tx.set n _)[m] = _
      rw [getElem_set_fin, if_neg other]
      exact h
    rw [State.endOrder, order]
    dsimp only
    split
    · exact base.trans (aligned_notify _ _)
    · exact base.trans (aligned_raise _ _)

theorem history_powerUp (now window limit : Nat) :
    { TxRec.powerUp with history := newestTrips (youngTrips TxRec.powerUp.history now window) limit } = TxRec.powerUp := by
  simp [TxRec.powerUp, youngTrips, newestTrips]

theorem aligned_txReconfigOne (before : ConfigStore) (n : Tx) : Aligned s (s.txReconfigOne before n) := by
  have forces (z : State) (f : Forces → Forces) : Aligned z (z.modForces n f) := aligned_rest rfl
  unfold State.txReconfigOne
  split
  · exact ((aligned_endOrder s n _).trans (aligned_modTx _ n _ rfl)).trans (forces _ _)
  · split
    · exact aligned_modTx s n _ (history_powerUp _ _ _)
    · exact .refl s

/-- A transmitter no longer configured has its power-up record (R109). -/
theorem txReconfigOne_gone {before : ConfigStore} {n : Tx} (was : before.txOk n = true) (gone : s.cfg.txOk n = false) :
    (s.txReconfigOne before n).tx[n] = TxRec.powerUp := by
  rw [State.txReconfigOne, if_pos (by rw [was, gone]; rfl)]
  show ((s.endOrder n _).tx.set n TxRec.powerUp)[n] = _
  rw [getElem_set_fin, if_pos rfl]

theorem aligned_txReconfig (before : ConfigStore) : Aligned s (s.txReconfig before) :=
  aligned_forAll (fun n s => aligned_txReconfigOne s before n) allTx s

theorem aligned_cancelTask (n : Tx) (o : RouteOrigin) : Aligned s (s.cancelTask n o).2 :=
  aligned_routes (routes_cancelTask s n o (Routes.refl s)) (calm_cancelTask s n o (Calm.refl s))

/-! ## The run records -/

theorem permitSync_cfg (h : s.cfg.settling = none) : s.permitSync.cfg = s.cfg := by
  unfold State.permitSync
  dsimp only
  rw [h, Option.map_none]
  exact congrArg (fun x => { s.cfg with settling := x }) h.symm

theorem aligned_permitSync : Aligned s s.permitSync :=
  ⟨permitSync_cfg s, rfl, fun _ => LinkCalm.refl _, fun _ => id, fun _ => id, fun _ => id, fun _ => id, fun _ => id,
    fun r h => ⟨r, h, rfl⟩⟩

theorem aligned_slewWithdraw (run : Nat) : Aligned s (s.slewWithdraw run) := by
  refine aligned_forAll (fun k s => ?_) allRot s
  split
  · exact aligned_modSlew s k _
  · exact .refl s

theorem aligned_failOrder (n : Tx) (f : OrderFail) : Aligned s (s.failOrder n f) := by
  unfold State.failOrder
  dsimp only
  split
  · exact (aligned_endOrder s n _).trans (aligned_modTx _ n _ rfl)
  · exact aligned_endOrder s n _

theorem aligned_takeBack (r : RunRec) : Aligned s (s.takeBack r) := by
  have step {z : State} (c : Bool) {f : State → State} (each : ∀ z, Aligned z (f z)) (h : Aligned s z) :
      Aligned s (if c then f z else z) := by
    split
    · exact h.trans (each z)
    · exact h
  have order (z : State) : Aligned z (z.cancelOrder r.tx r.num) := by
    unfold State.cancelOrder
    split
    · split
      · exact aligned_failOrder z _ _
      · exact .refl z
    · exact .refl z
  exact step _ (fun z => aligned_slewWithdraw z r.num) (step _ order
    (step _ (fun z => aligned_cancelTask z r.tx (.schedule r.num)) (.refl s)))

theorem aligned_leaveSlot (n : Tx) (k : Slot) (now : Nat) : Aligned s (s.leaveSlot n k now) := by
  have put : Aligned s (s.setSlot n k none) := by
    have emptied (v : Vector (Option RunRec) 8) (m : Tx) (h : v[m] = none) : (v.set n none)[m] = none := by
      rw [getElem_set_fin]
      split
      · rfl
      · exact h
    cases k with
    | cur => exact ⟨fun _ => rfl, rfl, fun _ => LinkCalm.refl _, fun _ => id, fun _ => id, fun _ => id, emptied _, fun _ => id,
        fun r h => ⟨r, h, rfl⟩⟩
    | nxt => exact ⟨fun _ => rfl, rfl, fun _ => LinkCalm.refl _, fun _ => id, fun _ => id, fun _ => id, fun _ => id, emptied _,
        fun r h => ⟨r, h, rfl⟩⟩
  unfold State.leaveSlot
  dsimp only
  split
  · exact put.trans (aligned_notify _ _)
  · exact put

/-- The run table changed in its marks and outcomes alone. -/
theorem aligned_run (r : RunTable) (cur : r.cur = s.run.cur) (nxt : r.nxt = s.run.nxt) : Aligned s { s with run := r } :=
  ⟨fun _ => rfl, rfl, fun _ => LinkCalm.refl _, fun _ => id, fun _ => id, fun _ => id, fun n h => by simp only [cur]; exact h,
    fun n h => by simp only [nxt]; exact h, fun r h => ⟨r, h, rfl⟩⟩

theorem aligned_writeOutcome (r : RunRec) (st : RunState) (reason : Option RunReason) (now : Nat) :
    Aligned s (s.writeOutcome r st reason now) := by
  unfold State.writeOutcome
  dsimp only
  refine Aligned.trans ?_ (aligned_raise _ .run)
  exact aligned_run s _ rfl rfl

theorem aligned_closeRun (n : Tx) (k : Slot) (r : RunRec) (st : RunState) (reason : Option RunReason) (now : Nat) :
    Aligned s (s.closeRun n k r st reason now) := by
  unfold State.closeRun
  have back := ((aligned_leaveSlot s n k now).trans (aligned_takeBack _ r)).trans (aligned_slewWithdraw _ r.num)
  exact (back.trans (aligned_writeOutcome _ r st reason now)).trans (aligned_permitSync _)

theorem aligned_dropRun (n : Tx) (k : Slot) (why : RunReason) (now : Nat) : Aligned s (s.dropRun n k why now) := by
  unfold State.dropRun
  split
  · exact .refl s
  · split
    · exact aligned_leaveSlot s n k now
    · split
      · exact aligned_closeRun s n k _ _ _ now
      · exact aligned_closeRun s n k _ _ _ now

/-- One transmitter's run records at a close (R153). -/
def State.runReconfigOne (s : State) (before : ConfigStore) (n : Tx) : State :=
  if before.txOk n && !s.cfg.txOk n then
    let now := s.nowMinute
    let s := match s.run.cur[n] with
      | some r => s.closeRun n .cur r .aborted (some .notConfigured) now
      | none => s
    let s := s.dropRun n .nxt .notConfigured now
    { s with run := { s.run with marks := s.run.marks.set n none } }
  else s

theorem runReconfig_eq (before : ConfigStore) : s.runReconfig before = forAll allTx (fun n s => s.runReconfigOne before n) s := rfl

theorem aligned_runReconfigOne (before : ConfigStore) (n : Tx) : Aligned s (s.runReconfigOne before n) := by
  unfold State.runReconfigOne
  split
  · dsimp only
    refine Aligned.trans ?_ (aligned_run _ _ rfl rfl)
    refine Aligned.trans ?_ (aligned_dropRun _ _ _ _ _)
    split
    · exact aligned_closeRun s n _ _ _ _ _
    · exact .refl s
  · exact .refl s

/-- A transmitter no longer configured has no run record (R153). -/
theorem runReconfigOne_gone {before : ConfigStore} {n : Tx} (was : before.txOk n = true) (gone : s.cfg.txOk n = false) :
    (s.runReconfigOne before n).run.cur[n] = none ∧ (s.runReconfigOne before n).run.nxt[n] = none := by
  rw [State.runReconfigOne, if_pos (by rw [was, gone]; rfl)]
  dsimp only
  split
  · next r _ =>
    obtain ⟨nxt, cur⟩ := dropRun_nxt (s.closeRun n .cur r .aborted (some .notConfigured) s.nowMinute) n s.nowMinute .notConfigured
    exact ⟨by simp only [cur, closeRun_cur_cur, if_true], nxt⟩
  · next empty =>
    obtain ⟨nxt, cur⟩ := dropRun_nxt s n s.nowMinute .notConfigured
    exact ⟨by simpa only [cur] using empty, nxt⟩

theorem aligned_runReconfig (before : ConfigStore) : Aligned s (s.runReconfig before) := by
  rw [runReconfig_eq]
  exact aligned_forAll (fun n s => aligned_runReconfigOne s before n) allTx s

/-! ## The lockouts -/

theorem aligned_setEffective (g : Target) (b : Bool) : Aligned s (s.setEffective g b) := by
  unfold State.setEffective
  dsimp only
  split
  · refine Aligned.trans ?_ (aligned_raise _ .lockout)
    refine ⟨fun _ => rfl, rfl, fun _ => LinkCalm.refl _, fun _ => id, fun _ => id, fun _ => id, fun _ => id, fun _ => id, fun r mem => ?_⟩
    obtain ⟨q, was, rfl⟩ := List.mem_map.mp mem
    exact ⟨q, was, by split <;> rfl⟩
  · exact .refl s

theorem aligned_setEarth (m : Ant) (e : Option EarthRec) : Aligned s (s.setEarth m e) :=
  ⟨fun _ => rfl, rfl, fun _ => LinkCalm.refl _, fun _ => id, fun _ => id, fun _ => id, fun _ => id, fun _ => id, fun r h => ⟨r, h, rfl⟩⟩

theorem aligned_earthFailed (m : Ant) (f : EarthFail) : Aligned s (s.earthFailed m f) :=
  (aligned_setEarth s m _).trans (aligned_raise _ _)

theorem aligned_judgeAnt (m : Ant) : Aligned s (s.judgeAnt m) := by
  unfold State.judgeAnt
  split
  · exact .refl s
  · split
    · exact (aligned_setEffective s _ _).trans (aligned_setEarth _ m _)
    · dsimp only
      split
      · exact (aligned_setEffective s _ _).trans (aligned_earthFailed _ m _)
      · exact aligned_setEffective s _ _

theorem aligned_lockSw (m : Ant) : Aligned s (s.lockSw m false false) := by
  unfold State.lockSw
  split
  · exact .refl s
  · dsimp only
    rw [if_neg Bool.false_ne_true]
    refine (aligned_judgeAnt s m).trans ?_
    split
    · rw [Bool.false_and, Bool.false_and, if_neg Bool.false_ne_true]
      exact .refl _
    · exact .refl _

theorem aligned_lockRf (n : Tx) : Aligned s (s.lockRf n) := by
  unfold State.lockRf
  split
  · exact .refl s
  · exact aligned_setEffective s _ _

/-- The lockouts that a close leaves in the table are on configured targets (R173). -/
theorem aligned_lockReconfig :
    Aligned (s.modLocks fun t => { t with records := t.records.filter fun r => s.cfg.targetOk r.target }) s.lockReconfig := by
  unfold State.lockReconfig
  dsimp only
  refine ((((aligned_raiseIf _ _ .lockout).trans (aligned_forAll (fun m s => ?_) allAnt _)).trans
    (aligned_forAll (fun n s => aligned_lockRf s n) allTx _)).trans (aligned_forAll (fun m s => aligned_lockSw s m) allAnt _))
  split
  · exact (aligned_setEarth s m none).trans (aligned_forAll (fun n s => aligned_cancelTask s n _) allTx _)
  · exact .refl s

theorem aligned_lockFilter :
    Aligned s (s.modLocks fun t => { t with records := t.records.filter fun r => s.cfg.targetOk r.target }) :=
  ⟨fun _ => rfl, rfl, fun _ => LinkCalm.refl _, fun _ => id, fun _ => id, fun _ => id, fun _ => id, fun _ => id,
    fun r h => ⟨r, (List.mem_filter.mp h).1, rfl⟩⟩

/-! ## The masks -/

theorem maskReconfig_get (before : ConfigStore) (m : Ant) :
    (s.maskReconfig before).enabled[m] = maskAfter before s.cfg m s.enabled[m] := by
  have all (ms : List Ant) (nodup : ms.Nodup) (v : Vector Word16 24) :
      (ms.foldl (fun v (j : Ant) => v.set j (maskAfter before s.cfg j v[j])) v)[m] =
        if m ∈ ms then maskAfter before s.cfg m v[m] else v[m] := by
    induction ms generalizing v with
    | nil => rw [if_neg List.not_mem_nil]; rfl
    | cons j ms ih =>
      rw [List.nodup_cons] at nodup
      rw [List.foldl_cons, ih nodup.2]
      by_cases e : m = j
      · subst e
        rw [if_neg nodup.1, if_pos List.mem_cons_self]
        simp only [getElem_set_fin, if_true]
      · have mem : m ∈ j :: ms ↔ m ∈ ms := by rw [List.mem_cons]; exact or_iff_right e
        simp only [mem, getElem_set_fin, if_neg e]
  exact (all allAnt allAnt_nodup s.enabled).trans (if_pos (mem_allAnt m))

section
variable {after : ConfigStore} {m : Ant} (now : Word16)

theorem maskAfter_out (before : ConfigStore) (h : after.antOk m = false) : maskAfter before after m now = 0 := by
  rw [maskAfter, h]
  rfl

theorem maskAfter_new {before : ConfigStore} (h : after.antOk m = true) (new : before.antOk m = false) :
    maskAfter before after m now = after.active.supported[m] := by
  rw [maskAfter, h, new]
  rfl

theorem maskAfter_stood {before : ConfigStore} (h : after.antOk m = true) (stood : before.antOk m = true) :
    maskAfter before after m now =
      (now &&& after.active.supported[m]) ||| (after.active.supported[m] &&& ~~~before.active.supported[m]) := by
  rw [maskAfter, h, stood]
  rfl

end

/-! ## What each block empties -/

/-- Where no act of a sweep undoes it, what the act on one member brings stands at the end. -/
theorem forAll_brings {α : Type} {f : α → State → State} (each : ∀ x s, Aligned s (f x s)) {P : State → Prop}
    (stays : ∀ a b : State, Aligned a b → P a → P b) {s : State} (settled : s.cfg.settling = none) {x : α}
    (brings : ∀ z : State, z.cfg = s.cfg → P (f x z)) {xs : List α} (mem : x ∈ xs) : P (forAll xs f s) := by
  induction xs generalizing s with
  | nil => exact absurd mem List.not_mem_nil
  | cons y xs ih =>
    by_cases e : x = y
    · subst e
      exact stays _ _ (aligned_forAll each xs _) (brings s rfl)
    · have cfg := (each y s).cfg settled
      refine ih (s := f y s) (by rw [cfg]; exact settled) (fun z same => brings z (same.trans cfg)) ?_
      exact (List.mem_cons.mp mem).resolve_left e

variable {s} (settled : s.cfg.settling = none) {before : ConfigStore}
include settled

theorem routeReconfig_gone {n : Tx} (was : before.txOk n = true) (gone : s.cfg.txOk n = false) :
    (s.routeReconfig before).tasks[n] = none := by
  rw [routeReconfig_eq]
  refine forAll_brings (fun n s => aligned_routeReconfigOne s before n) (P := fun z => z.tasks[n] = none) (fun _ _ h => h.tasks n)
    settled (fun z same => ?_) (mem_allTx n)
  rw [State.routeReconfigOne, if_pos (by rw [same, was, gone]; rfl)]
  show (z.tasks.set n none)[n] = none
  rw [getElem_set_fin, if_pos rfl]

theorem txReconfig_gone {n : Tx} (was : before.txOk n = true) (gone : s.cfg.txOk n = false) :
    (s.txReconfig before).tx[n] = TxRec.powerUp :=
  forAll_brings (fun n s => aligned_txReconfigOne s before n) (P := fun z => z.tx[n] = TxRec.powerUp) (fun _ _ h => h.tx n) settled
    (fun z same => txReconfigOne_gone z was (by rw [same]; exact gone)) (mem_allTx n)

theorem runReconfig_gone {n : Tx} (was : before.txOk n = true) (gone : s.cfg.txOk n = false) :
    (s.runReconfig before).run.cur[n] = none ∧ (s.runReconfig before).run.nxt[n] = none :=
  forAll_brings (fun n s => aligned_runReconfigOne s before n) (P := fun z => z.run.cur[n] = none ∧ z.run.nxt[n] = none)
    (fun _ _ h both => ⟨h.cur n both.1, h.nxt n both.2⟩) settled
    (fun z same => runReconfigOne_gone z was (by rw [same]; exact gone)) (mem_allTx n)

theorem marksReconfig_gone {m : Ant} (gone : s.cfg.antOk m = false) : s.marksReconfig.faultMark[m] = false := by
  rw [marksReconfig_eq]
  refine forAll_brings (fun m s => aligned_marksReconfigOne s m) (P := fun z => z.faultMark[m] = false) (fun _ _ h => h.marks m)
    settled (fun z same => ?_) (mem_allAnt m)
  rw [State.marksReconfigOne, if_neg (by rw [same, gone]; exact Bool.false_ne_true)]
  show (z.faultMark.set m false)[m] = false
  rw [getElem_set_fin, if_pos rfl]

omit settled in
theorem lockReconfig_targets : ∀ r ∈ s.lockReconfig.locks.records, s.cfg.targetOk r.target = true := by
  intro r mem
  obtain ⟨q, stays, same⟩ := (aligned_lockReconfig s).locks r mem
  rw [← same]
  exact (List.mem_filter.mp stays).2

end

/-! ## CLOSE_CONFIG -/

section
variable {s : State} {d : Desk}

theorem actCloseConfig_none (h : s.cfg.openDesk = none) : actCloseConfig d [] s = s.refuse .notPermitted := by
  simp [actCloseConfig, args, h]

theorem actCloseConfig_other {e : Desk} {w : Configuration} (open_ : s.cfg.workspace = some w) (h : s.cfg.openDesk = some e)
    (other : e ≠ d) : actCloseConfig d [] s = s.refuse .configOpen := by
  simp [actCloseConfig, args, h, open_, other]

theorem actCloseConfig_fails {w : Configuration} {check item : Nat} (open_ : s.cfg.workspace = some w) (h : s.cfg.openDesk = some d)
    (fails : closeCheck w = some (check, item)) :
    actCloseConfig d [] s = ⟨.badArgument, [], s.modCfg fun x => { x with lastClose := some (.failed check item) }⟩ := by
  simp [actCloseConfig, args, h, open_, fails]

theorem actCloseConfig_taken {w : Configuration} (open_ : s.cfg.workspace = some w) (h : s.cfg.openDesk = some d)
    (passes : closeCheck w = none) : actCloseConfig d [] s = s.answer .done [] (s.applyConfig w) := by
  simp [actCloseConfig, args, h, open_, passes]

end

/-- What a close leaves (R192, R204). -/
structure Closed (s : State) (w : Configuration) (u : State) : Prop where
  cfg : u.cfg = (s.withActive w).cfg
  links : ∀ d : Desk, LinkCalm (s.link d) (u.link d)
  raised : u.raised .config
  masks : ∀ m : Ant, u.enabled[m] = maskAfter s.cfg (s.withActive w).cfg m s.enabled[m]
  marks : ∀ m : Ant, (s.withActive w).cfg.antOk m = false → u.faultMark[m] = false
  gone : ∀ n : Tx, s.cfg.txOk n = true → (s.withActive w).cfg.txOk n = false →
    u.tx[n] = TxRec.powerUp ∧ u.tasks[n] = none ∧ u.run.cur[n] = none ∧ u.run.nxt[n] = none
  locks : ∀ r ∈ u.locks.records, (s.withActive w).cfg.targetOk r.target = true

theorem closed_applyConfig (s : State) (w : Configuration) (settled : s.cfg.settling = none) : Closed s w (s.applyConfig w) := by
  let a := s.withActive w
  have settled' : a.cfg.settling = none := settled
  rw [applyConfig_eq]
  let b := if s.cfg.configured then a.mxReconfig s.cfg else a.mxFresh s.mx.supplyHold s.mx.supplyHeld
  have ab : Aligned a b := by
    show Aligned a (if _ then _ else _)
    split
    · exact aligned_mxReconfig a _
    · exact aligned_mxFresh a _ _
  let c := b.routeReconfig s.cfg
  let e := ((c.absorbAll).rotReconfig s.cfg).slewReconfig s.cfg
  let f := e.txReconfig s.cfg
  let g := f.marksReconfig
  let h := g.maskReconfig s.cfg
  let i := h.seasonReconfig
  let j := i.runReconfig s.cfg
  let k := j.lockReconfig
  let u := (k.hallReconfig s.cfg).closeJudged
  show Closed s w u
  have bc : Aligned b c := aligned_routeReconfig b s.cfg
  have ce : Aligned c e := ((aligned_absorbAll c).trans (aligned_rotReconfig _ _)).trans (aligned_slewReconfig _ _)
  have ef : Aligned e f := aligned_txReconfig e s.cfg
  have fg : Aligned f g := aligned_marksReconfig f
  have ij : Aligned i j := aligned_runReconfig i s.cfg
  have hi : Aligned h i := aligned_seasonReconfig h
  have jk : Aligned j k := (aligned_lockFilter j).trans (aligned_lockReconfig j)
  have ku : Aligned k u := (aligned_hallReconfig k s.cfg).trans (aligned_closeJudged _)
  have ae : Aligned a e := (ab.trans bc).trans ce
  have ag : Aligned a g := (ae.trans ef).trans fg
  have hj : Aligned h j := hi.trans ij
  have ju : Aligned j u := jk.trans ku
  have hu : Aligned h u := hj.trans ju
  have cfgOf {y : State} (ay : Aligned a y) : y.cfg = a.cfg := ay.cfg settled'
  have settledOf {y : State} (same : y.cfg = a.cfg) : y.cfg.settling = none := by rw [same]; exact settled'
  have rest {y : State} (hy : Aligned h y) : Aligned a { y with enabled := g.enabled } := ag.trans (aligned_masked hy)
  have icfg : i.cfg = a.cfg := (rest hi).cfg settled'
  have jcfg : j.cfg = a.cfg := (rest hj).cfg settled'
  have gu : Aligned g { u with enabled := g.enabled } := aligned_masked hu
  have au : Aligned a { u with enabled := g.enabled } := rest hu
  have raised : u.raised .config := raised_of_calm (closeJudged_calm (k.hallReconfig s.cfg)) (raised_raise _ _)
  have masks := maskReconfig_get g s.cfg
  have formed : g.maskReconfig s.cfg = h := rfl
  rw [formed] at masks
  have marks (m : Ant) (out : a.cfg.antOk m = false) : g.faultMark[m] = false := by
    have fcfg := cfgOf (ae.trans ef)
    exact marksReconfig_gone (settledOf fcfg) (by rw [fcfg]; exact out)
  have tx (n : Tx) (was : s.cfg.txOk n = true) (gone : a.cfg.txOk n = false) : f.tx[n] = TxRec.powerUp :=
    txReconfig_gone (settledOf (cfgOf ae)) was (by rw [cfgOf ae]; exact gone)
  have tasks (n : Tx) (was : s.cfg.txOk n = true) (gone : a.cfg.txOk n = false) : c.tasks[n] = none :=
    routeReconfig_gone (settledOf (cfgOf ab)) was (by rw [cfgOf ab]; exact gone)
  have run (n : Tx) (was : s.cfg.txOk n = true) (gone : a.cfg.txOk n = false) : j.run.cur[n] = none ∧ j.run.nxt[n] = none :=
    runReconfig_gone (settledOf icfg) was (by rw [icfg]; exact gone)
  have locks := lockReconfig_targets (s := j)
  have kept : j.lockReconfig = k := rfl
  rw [kept] at locks
  have alinks : a.links = s.links := rfl
  have aenabled : a.enabled = s.enabled := rfl
  clear_value u k j i h g f e c b
  refine ⟨au.cfg settled', fun d => ?_, raised, fun m => ?_, fun m out => gu.marks m (marks m out), fun n was gone => ⟨?_, ?_, ?_⟩,
    fun r mem => ?_⟩
  · have link := au.links d
    rw [State.link, alinks] at link
    exact link
  · rw [hu.enabled, masks m, cfgOf ag, ag.enabled, aenabled]
  · exact gu.tx n (fg.tx n (tx n was gone))
  · exact gu.tasks n (((ce.trans ef).trans fg).tasks n (tasks n was gone))
  · obtain ⟨cur, nxt⟩ := run n was gone
    exact ⟨ju.cur n cur, ju.nxt n nxt⟩
  · obtain ⟨q, stays, same⟩ := ku.locks r mem
    have kept := locks q stays
    rw [jcfg, same] at kept
    exact kept

/-- Settles O44: the checks, and behind the matrix's restart each block as `Aligned` leaves it. -/
theorem closeConfig : Obligations.CloseConfig := by
  intro s d tag serves c
  let z := s.taken d tag 0x64
  refine ⟨fun shut => only_answered_of_refuse rfl serves (actCloseConfig_none (s := z) shut), fun w open_ => ⟨fun e held other =>
    only_answered_of_refuse rfl serves (actCloseConfig_other (s := z) open_ held other), fun held => ⟨fun check item fails =>
      sets_of_act rfl serves (actCloseConfig_fails (s := z) open_ held fails), fun passes => ?_⟩⟩⟩
  intro after
  have settled : z.cfg.settling = none := by
    have := serves.2
    rw [State.isSettling, Option.isSome_eq_false_iff, Option.isNone_iff_eq_none] at this
    exact this
  obtain ⟨cfg, links, raised, masks, marks, gone, locks⟩ := closed_applyConfig z w settled
  refine ⟨z.applyConfig w, runs_of_act rfl serves (actCloseConfig_taken (s := z) open_ held passes) links, raised, cfg,
    fun m out => ⟨?_, marks m out⟩, fun m here new => ?_, fun m here stood => ?_, gone, locks⟩
  · exact (masks m).trans (maskAfter_out _ _ out)
  · exact (masks m).trans (maskAfter_new _ here new)
  · exact (masks m).trans (maskAfter_stood _ here stood)

end Sys2Proof.Machine
end

