-- ==== Sys2Proof/Proofs/Tune.lean ====
section
/-! PROOF. TUNE (R95, R96, R98). -/

namespace Sys2Proof.Machine

section
variable (s : State) (n : Tx) (f g : Nat) (d : Desk)

/-- The refusals of TUNE in the order of their table (R95). -/
def State.tuneRows (s : State) (n : Tx) (f g : Nat) (d : Desk) : List (Bool × Status) :=
  [(!(decide (2300 ≤ f ∧ f ≤ 26100 ∧ f % 5 = 0 ∧ 1 ≤ g ∧ g ≤ 16)), .badArgument),
   (!s.cfg.txOk n, .notConfigured),
   (s.isOpen, .configOpen),
   ((s.tx[n]).holder == none, .notInHand),
   ((s.tx[n]).holder != some d, .heldByOther),
   (s.locked (.tx n), .lockedOut),
   ((s.tx[n]).state == .offline || (s.tx[n]).state == .tripped, .notPermitted),
   ((s.tx[n]).state == .recycle, .busy)]

theorem tuneRefusal_eq_rows : s.tuneRefusal n f g (.desk d) = firstOf (s.tuneRows n f g d) := by
  have ranges : (freqOk f && feedOk g) = decide (2300 ≤ f ∧ f ≤ 26100 ∧ f % 5 = 0 ∧ 1 ≤ g ∧ g ≤ 16) := by
    rw [freqOk, feedOk, Bool.eq_iff_iff]
    simp only [Bool.and_eq_true, decide_eq_true_eq, beq_iff_eq]
    tauto
  have held (h : Option Desk) : orderHolder (.desk d) h = firstOf [(h == none, .notInHand), (h != some d, .heldByOther)] := by
    cases h with
    | none => rfl
    | some e =>
      by_cases same : d = e
      · simp [orderHolder, same]
      · simp [orderHolder, same, Ne.symm same]
  simp only [State.tuneRefusal, ranges, held, State.tuneRows, firstOf_cons, firstOf_nil]
  repeat' split
  all_goals simp_all

theorem actTune_request (small : f < 65536) (byte : g < 256) :
    actTune d (txArg n ++ wordArg f ++ numArg g) s = s.answerOf (s.tuneRequest n f g (.desk d)) := by
  have parsed : args [1, 2, 1] (txArg n ++ wordArg f ++ numArg g) = some [n.val + 1, f, g] := by
    rw [List.append_assoc, txArg, args_num_append (by omega), args_word_append small, args_num byte]
    rfl
  simp only [actTune, parsed, txOf_txNumber]

theorem tuneRows_bad {e : Status} (h : firstOf (s.tuneRows n f g d) = some e) : e.good = false := by
  have mem := firstOf_mem h
  simp only [State.tuneRows, List.mem_cons, Prod.mk.injEq, List.not_mem_nil, or_false] at mem
  rcases mem with h | h | h | h | h | h | h | h <;> rw [h.2] <;> rfl

/-- An end of an order changes transmitter records, notices and links alone. -/
theorem endOrder_rest (e : Option OrderFail) :
    { s.endOrder n e with tx := s.tx, notices := s.notices, links := s.links } = s := by
  unfold State.endOrder
  split
  · rfl
  · dsimp only
    split <;> rfl

theorem endOrder_sent (e : Option OrderFail) : (s.endOrder n e).sent = s.sent := by
  have same := congrArg State.sent (endOrder_rest s n e)
  exact same

theorem endOrder_superTimer (e : Option OrderFail) (ms : Nat) : (s.endOrder n e).superTimer ms = s.superTimer ms := by
  have same := congrArg (fun z : State => z.superTimer ms) (endOrder_rest s n e)
  exact same

theorem superTimer_running (settled : s.isSettling = false) (ms : Nat) : s.superTimer ms = .running (s.timebase + ms) := by
  rw [State.superTimer, settled]
  rfl

end

section
variable {s : State} (settled : s.isSettling = false) (n : Tx) (f g : Nat) (o : Origin)

/-- A FEED order taken is sent at once (R98). -/
theorem takeFeed_sends : (s.takeFeed n g o).sent = s.sent ++ [.feedOrder n g] := by
  show (s.endOrder n _).sent ++ _ = _
  rw [endOrder_sent]

include settled in
theorem takeFeed_order : ((s.takeFeed n g o).tx[n]).order = some (.feed g o (.running (s.timebase + 10000))) := by
  have put (z : State) (x : Order) : (((z.modTx n fun r => { r with order := some x }).send (.feedOrder n g)).tx[n]).order = some x :=
    congrArg TxRec.order (modTx_same z n fun r => { r with order := some x })
  unfold State.takeFeed
  dsimp only
  rw [put, endOrder_superTimer, superTimer_running s settled]

/-- A TUNE order written, before it is sent (R96). -/
def State.tuneWritten (s : State) (n : Tx) (f g : Nat) (o : Origin) : State :=
  let z := s.endOrder n (some .cancelled)
  z.modTx n fun r => { r with order := some (.tune f g o false (z.superTimer (1000 * z.cfg.active.tuneTimeout))) }

include settled in
theorem tuneWritten_writes : (s.tuneWritten n f g o).sent = s.sent ∧ (s.tuneWritten n f g o).rfPresent n = s.rfPresent n ∧
    (s.tuneWritten n f g o).isSettling = false ∧
    ((s.tuneWritten n f g o).tx[n]).order = some (.tune f g o false (.running (s.timebase + 1000 * s.cfg.active.tuneTimeout))) := by
  have rest := endOrder_rest s n (some .cancelled)
  have hall := congrArg State.hall rest
  have cfg := congrArg State.cfg rest
  dsimp only at hall cfg
  refine ⟨endOrder_sent s n _, ?_, ?_, ?_⟩
  · show (s.endOrder n _).rfPresent n = _
    rw [State.rfPresent, hall]
    rfl
  · show (s.endOrder n _).isSettling = _
    rw [State.isSettling, cfg]
    exact settled
  · refine (congrArg TxRec.order (modTx_same _ n _)).trans ?_
    dsimp only
    rw [endOrder_superTimer, superTimer_running s settled, cfg]

include settled in
/-- A TUNE order waits while RF is present (R96). -/
theorem takeTune_waits (present : s.rfPresent n = true) :
    (s.takeTune n f g o).sent = s.sent ∧
      ((s.takeTune n f g o).tx[n]).order = some (.tune f g o false (.running (s.timebase + 1000 * s.cfg.active.tuneTimeout))) := by
  obtain ⟨sent, rf, -, order⟩ := tuneWritten_writes settled n f g o
  have waits : s.takeTune n f g o = s.tuneWritten n f g o := by
    show (s.tuneWritten n f g o).sendTune n = _
    rw [State.sendTune, order]
    exact if_pos (by rw [rf, present]; rfl)
  rw [waits]
  exact ⟨sent, order⟩

include settled in
/-- A TUNE order is sent at once where no RF is present, and the record is TUNING (R96). -/
theorem takeTune_sends (absent : s.rfPresent n = false) :
    (s.takeTune n f g o).sent = s.sent ++ [.tuneOrder n f g] ∧ ((s.takeTune n f g o).tx[n]).state = .tuning ∧
      ((s.takeTune n f g o).tx[n]).tuned = none ∧
      ((s.takeTune n f g o).tx[n]).order = some (.tune f g o true (.running (s.timebase + 1000 * s.cfg.active.tuneTimeout))) := by
  obtain ⟨sent, rf, calm, order⟩ := tuneWritten_writes settled n f g o
  let timer : Timer := .running (s.timebase + 1000 * s.cfg.active.tuneTimeout)
  let z := (s.tuneWritten n f g o).modTx n fun r => { r with order := some (.tune f g o true timer), state := .tuning, tuned := none }
  have sends : s.takeTune n f g o = z.send (.tuneOrder n f g) := by
    show (s.tuneWritten n f g o).sendTune n = _
    rw [State.sendTune, order]
    exact if_neg (by rw [rf, absent, calm]; exact Bool.false_ne_true)
  have record : (z.send (.tuneOrder n f g)).tx[n] =
      { (s.tuneWritten n f g o).tx[n] with order := some (.tune f g o true timer), state := .tuning, tuned := none } :=
    modTx_same (s.tuneWritten n f g o) n fun r =>
      { r with order := some (.tune f g o true timer), state := .tuning, tuned := none }
  rw [sends, record]
  exact ⟨congrArg (· ++ [Output.tuneOrder n f g]) sent, rfl, rfl, rfl⟩

end

/-! ## Acceptance -/

section
variable (s : State) {n : Tx} {f g : Nat} (o : Origin)

theorem isReady_iff (t : TxState) : t.isReady = true ↔ t = .ready ∨ t = .radiating := by cases t <;> decide

theorem acceptTune_done (tuned : ((s.tx[n]).state = .ready ∨ (s.tx[n]).state = .radiating) ∧ (s.tx[n]).tuned = some f)
    (feed : (s.tx[n]).feed = some g) (order : (s.tx[n]).order = none) : s.acceptTune n f g o = (.done, s) := by
  rw [← isReady_iff] at tuned
  exact if_pos (by rw [tuned.1, tuned.2, feed, order]; simp)

theorem acceptTune_feed (tuned : ((s.tx[n]).state = .ready ∨ (s.tx[n]).state = .radiating) ∧ (s.tx[n]).tuned = some f)
    (feed : (s.tx[n]).feed ≠ some g) : s.acceptTune n f g o = (.accepted, s.takeFeed n g o) := by
  rw [← isReady_iff] at tuned
  refine (if_neg ?_).trans (if_pos ?_)
  · simp only [Bool.and_eq_true, beq_iff_eq]
    tauto
  · simp only [Bool.and_eq_true, beq_iff_eq, bne_iff_ne]
    tauto

theorem acceptTune_tune (other : ¬(((s.tx[n]).state = .ready ∨ (s.tx[n]).state = .radiating) ∧ (s.tx[n]).tuned = some f) ∨
    ((s.tx[n]).feed = some g ∧ (s.tx[n]).order ≠ none)) : s.acceptTune n f g o = (.accepted, s.takeTune n f g o) := by
  rw [← isReady_iff] at other
  have some_ : (s.tx[n]).order.isNone = true ↔ (s.tx[n]).order = none := Option.isNone_iff_eq_none
  unfold State.acceptTune
  dsimp only
  rw [if_neg, if_neg]
  · simp only [Bool.and_eq_true, beq_iff_eq, bne_iff_ne]
    tauto
  · simp only [Bool.and_eq_true, beq_iff_eq, some_]
    tauto

end

/-- Settles O29: the table in order, and the three ways of acceptance. -/
theorem tune : Obligations.Tune := by
  intro s d tag n f g serves small byte c r refusal tuned
  let z := s.taken d tag 0x25
  have rows : z.tuneRefusal n f g (.desk d) = refusal := tuneRefusal_eq_rows z n f g d
  have asked : actTune d (txArg n ++ wordArg f ++ numArg g) z = z.answerOf (z.tuneRequest n f g (.desk d)) :=
    actTune_request z n f g d small byte
  refine ⟨fun e refused => only_answered_of_refuse rfl serves (asked.trans ?_), fun free => ?_⟩
  · rw [State.tuneRequest, rows, refused]
    exact answerOf_bad z (tuneRows_bad z n f g d refused)
  have settled : z.isSettling = false := serves.2
  have answered {a : Status} {u : State} (good : a.good = true) (accepts : z.acceptTune n f g (.desk d) = (a, u)) :
      actTune d (txArg n ++ wordArg f ++ numArg g) z = z.answer a [] u := by
    rw [asked, State.tuneRequest, rows, free]
    exact (congrArg z.answerOf accepts).trans (answerOf_good z good)
  refine ⟨fun ready feed order => ?_, fun ready feed => ?_, fun other => ?_⟩
  · exact runs_of_act rfl serves (answered rfl (acceptTune_done z (.desk d) ready feed order)) fun e => LinkCalm.refl _
  · have calm : Calm z (z.takeFeed n g (.desk d)) := calm_takeFeed z n g _ (Calm.refl z)
    exact ⟨_, runs_of_act rfl serves (answered rfl (acceptTune_feed z (.desk d) ready feed)) calm.links, calm.kept,
      takeFeed_sends n g (.desk d), takeFeed_order settled n g (.desk d)⟩
  · have calm : Calm z (z.takeTune n f g (.desk d)) := calm_takeTune z n f g _ (Calm.refl z)
    exact ⟨_, runs_of_act rfl serves (answered rfl (acceptTune_tune z (.desk d) other)) calm.links, calm.kept,
      takeTune_waits settled n f g (.desk d), takeTune_sends settled n f g (.desk d)⟩

end Sys2Proof.Machine
end

