-- ==== Sys2Proof/Proofs/RouteRequests.lean ====
section
/-! PROOF. A route request: its refusals, and the task that an accepted one starts (R27 to R33). -/

namespace Sys2Proof.Machine

/-! ## The task started -/

section
variable (s : State) (src : RouteSource) (n : Tx) (dest : Dest) (earthed : Option Ant)

/-- The controllers before the new task's record: the replaced task has ended, and its command is given (R31, R32). -/
def State.commanded (s : State) (n : Tx) (dest : Dest) (earthed : Option Ant) : State :=
  let cmd := s.routeCommand n dest earthed
  let a := if s.taskRunning n then s.endTask n (some .cancelled) true false else s
  (if cmd.isEmpty then a else (a.command cmd).2).absorbAll

/-- The new task's record (R32). -/
def State.newTask (s : State) (src : RouteSource) (n : Tx) (dest : Dest) (earthed : Option Ant) : Task :=
  let set := s.routeSet n dest earthed
  let z := s.commanded n dest earthed
  { dest := dest, origin := src.origin, state := .dropRf, set := set.map fun w => ⟨w, .waiting⟩,
    affected := allTx.filter fun u => u == n || set.any (z.mx.onPath u), timer := z.startTimer z.dropMs, failure := none,
    started := false }

theorem startTask_eq : s.startTask src n dest earthed =
    let t := s.newTask src n dest earthed
    let z := (s.commanded n dest earthed).setTask n (some t)
    if z.taskRf t then (if z.isSettling then z.setTask n (some { t with timer := .stopped }) else z) else z.enterMoving n := rfl

theorem routes_commanded : Routes s (s.commanded n dest earthed) := by
  have ended : Routes s (if s.taskRunning n then s.endTask n (some .cancelled) true false else s) := by
    split
    · exact routes_endTask s n _ _ _ (Routes.refl s)
    · exact Routes.refl s
  refine routes_absorbAll _ ?_
  split
  · exact ended
  · exact routes_command _ _ ended

theorem newTask_switches : (s.newTask src n dest earthed).set.map SwMark.sw = s.routeSet n dest earthed := by
  rw [State.newTask, List.map_map]
  exact List.map_id _

theorem setTask_get (t : Option Task) : (s.setTask n t).tasks[n] = t := by
  show (s.tasks.set n t)[n] = t
  rw [getElem_set_fin, if_pos rfl]

/-- The transmitter of a task is affected by it (R32). -/
theorem newTask_affects : n ∈ (s.newTask src n dest earthed).affected :=
  List.mem_filter.mpr ⟨mem_allTx n, by rw [beq_self_eq_true, Bool.true_or]⟩

/-- What a task started leaves in its record (R31 to R33). -/
structure Started (s : State) (src : RouteSource) (n : Tx) (dest : Dest) (earthed : Option Ant) (t : Task) : Prop where
  goes : t.dest = dest
  asks : t.origin = src.origin
  switches : t.set.map SwMark.sw = s.routeSet n dest earthed
  waits : s.rfPresent n = true →
    t.state = .dropRf ∧ t.timer = .running (s.timebase + 1000 * s.cfg.active.rfDrop) ∧ ∀ y ∈ t.set, y.mark = .waiting
  past : (∀ j : Tx, s.rfPresent j = false) → t.state = .moving ∨ t.state = .done ∨ t.state = .failed

theorem not_waitsRf {t : Task} (h : t.waitsRf = false) : t.state = .moving ∨ t.state = .done ∨ t.state = .failed := by
  unfold Task.waitsRf at h
  cases state : t.state <;> rw [state] at h <;> revert h <;> decide

theorem startTask_started (settled : s.isSettling = false) :
    ∃ t : Task, (s.startTask src n dest earthed).tasks[n] = some t ∧ Started s src n dest earthed t := by
  let t := s.newTask src n dest earthed
  let z := (s.commanded n dest earthed).setTask n (some t)
  have routes := routes_commanded s n dest earthed
  have rf (j : Tx) : z.rfPresent j = s.rfPresent j := congrArg (fun h : Hall => h.rf[j].accepted != some .absent) routes.hall
  have stored : z.tasks[n] = some t := setTask_get _ n _
  have timer : t.timer = .running (s.timebase + 1000 * s.cfg.active.rfDrop) := by
    show Timer.running ((s.commanded n dest earthed).timebase + 1000 * (s.commanded n dest earthed).cfg.active.rfDrop) = _
    rw [routes.timebase, routes.cfg]
  have waiting : ∀ y ∈ t.set, y.mark = .waiting := by
    intro y mem
    obtain ⟨w, -, rfl⟩ := List.mem_map.mp mem
    rfl
  by_cases present : z.taskRf t = true
  · have calm : z.isSettling = false := by
      show (s.commanded n dest earthed).isSettling = false
      rw [State.isSettling, routes.cfg]
      exact settled
    have starts : s.startTask src n dest earthed = z :=
      (startTask_eq s src n dest earthed).trans ((if_pos present).trans (if_neg (by rw [calm]; exact Bool.false_ne_true)))
    rw [starts]
    refine ⟨t, stored, rfl, rfl, newTask_switches .., fun _ => ⟨rfl, timer, waiting⟩, fun absent => ?_⟩
    obtain ⟨j, -, on⟩ := List.any_eq_true.mp present
    rw [rf, absent j] at on
    exact absurd on Bool.false_ne_true
  · have starts : s.startTask src n dest earthed = z.enterMoving n :=
      (startTask_eq s src n dest earthed).trans (if_neg present)
    let moved : Task := { t with state := .moving, timer := .idle }
    have enters : z.enterMoving n = forAll (t.set.map SwMark.sw) (fun w s => s.admitFor n w) (z.setTask n (some moved)) := by
      rw [State.enterMoving, stored]
    have later : Routes (z.setTask n (some moved)) (z.enterMoving n) := by
      rw [enters]
      exact routes_forAll _ _ (fun w s h => routes_admitFor s n w h) _ (Routes.refl _)
    obtain ⟨t', now, kept⟩ := (later.tasks n).2 moved (setTask_get z n _)
    rw [starts]
    refine ⟨t', now, kept.dest, kept.origin, kept.switches.trans (newTask_switches s src n dest earthed), fun on => ?_,
      fun _ => not_waitsRf (kept.past rfl)⟩
    exact absurd (List.any_eq_true.mpr ⟨n, newTask_affects .., (rf n).trans on⟩) present

/-- Every switch of a replaced task that is not at rest is in the new set (R31). -/
theorem routeSet_replaced {old : Task} (was : s.tasks[n] = some old) (running : old.inProgress = true) {y : SwMark}
    (mem : y ∈ old.set) (busy : (s.sw y.sw).state ≠ .steady) : y.sw ∈ s.routeSet n dest earthed := by
  refine List.mem_filter.mpr ⟨mem_allSw _, ?_⟩
  have holds : s.replacedHolds n y.sw = true := by
    have held : old.holds y.sw = true := List.any_eq_true.mpr ⟨y, mem, beq_self_eq_true _⟩
    rw [State.replacedHolds, was]
    dsimp only
    rw [running, held, bne_iff_ne.mpr busy]
    rfl
  rw [holds, Bool.true_or]

/-! ## A request that is not refused -/

theorem routeRequest_refused {e : Status} (h : s.routeRefusal src n dest earthed = some e) :
    s.routeRequest src n dest earthed = (e, s) := by rw [State.routeRequest, h]

theorem routeRequest_inPlace (free : s.routeRefusal src n dest earthed = none) (inPlace : s.routeInPlace n dest earthed = true) :
    s.routeRequest src n dest earthed = (.done, s) := by
  rw [State.routeRequest, free]
  exact if_pos inPlace

theorem routeRequest_accepted (free : s.routeRefusal src n dest earthed = none) (moves : s.routeInPlace n dest earthed = false) :
    s.routeRequest src n dest earthed = (.accepted, s.startTask src n dest earthed) := by
  rw [State.routeRequest, free]
  exact if_neg (by rw [moves]; exact Bool.false_ne_true)

end

/-! ## ROUTE -/

section
variable (s : State) (d : Desk) (n : Tx) (x : Dest)

/-- A destination antenna that meets a test. -/
def Dest.antennaIs (x : Dest) (p : Ant → Bool) : Bool := allAnt.any fun m => decide (x = .antenna m) && p m

theorem antennaIs_antenna (m : Ant) (p : Ant → Bool) : (Dest.antenna m).antennaIs p = p m := by
  rw [Bool.eq_iff_iff, Dest.antennaIs, List.any_eq_true]
  simp only [Bool.and_eq_true, decide_eq_true_eq, Dest.antenna.injEq]
  exact ⟨fun ⟨j, _, same, holds⟩ => same ▸ holds, fun holds => ⟨m, mem_allAnt m, rfl, holds⟩⟩

theorem antennaIs_other {x : Dest} (h : ∀ m, x ≠ .antenna m) (p : Ant → Bool) : x.antennaIs p = false := by
  rw [Dest.antennaIs, List.any_eq_false]
  intro m _
  rw [decide_eq_false (h m), Bool.false_and]
  exact Bool.false_ne_true

/-- The refusals of ROUTE in the order of the desk's column (R29). -/
def State.routeRows (s : State) (d : Desk) (n : Tx) (x : Dest) : List (Bool × Status) :=
  [(s.mx.reportWindow.isRunning, .busy),
   (!s.cfg.txOk n || x.antennaIs fun m => !s.cfg.antOk m, .notConfigured),
   (s.isOpen, .configOpen),
   (s.hall.state == .safe, .hallSafe),
   ((s.tx[n]).holder == none, .notInHand),
   ((s.tx[n]).holder != some d, .heldByOther),
   (x.antennaIs fun m => s.locked (.ant m) || s.locked (.tx n), .lockedOut),
   (x.antennaIs fun m => (s.run.usersOf m).any fun r => r.tx != n, .inUse),
   (x.antennaIs fun m => s.antennaConflict n m, .antennaConflict),
   (s.taskStarted n, .busy),
   ((s.routeCommand n x none).any fun y => (s.sw y.1).state == .moving, .busy)]

theorem routeRefusal_desk : s.routeRefusal (.desk d) n x none = firstOf (s.routeRows d n x) := by
  have held (h : Option Desk) : holderCheck (.desk d) h = firstOf [(h == none, .notInHand), (h != some d, .heldByOther)] := by
    cases h with
    | none => rfl
    | some e =>
      by_cases same : d = e
      · simp [holderCheck, same]
      · simp [holderCheck, same, Ne.symm same]
  have safe : (s.hallSafe && RouteSource.isDesk (.desk d)) = (s.hall.state == .safe) := Bool.and_true _
  have opened : (s.isOpen && !RouteSource.isLock (.desk d)) = s.isOpen := Bool.and_true _
  rw [State.routeRefusal, safe, opened, held]
  cases x with
  | antenna m =>
    simp only [State.routeRows, firstOf_cons, firstOf_nil, antennaIs_antenna, usedAntenna, State.usedByOther, State.lockCheck,
      State.conflictCheck, State.faultCheck, Bool.not_and]
    cases (s.tx[n]).holder == none <;> cases (s.tx[n]).holder != some d <;> rfl
  | dummy =>
    simp only [State.routeRows, firstOf_cons, firstOf_nil, antennaIs_other (x := .dummy) (fun _ => Dest.noConfusion), usedAntenna,
      State.lockCheck, State.conflictCheck, State.faultCheck, Bool.and_true, Bool.or_false]
    cases (s.tx[n]).holder == none <;> cases (s.tx[n]).holder != some d <;> rfl
  | nothing =>
    simp only [State.routeRows, firstOf_cons, firstOf_nil, antennaIs_other (x := .nothing) (fun _ => Dest.noConfusion), usedAntenna,
      State.lockCheck, State.conflictCheck, State.faultCheck, Bool.and_true, Bool.or_false]
    cases (s.tx[n]).holder == none <;> cases (s.tx[n]).holder != some d <;> rfl

theorem routeRows_bad {e : Status} (h : firstOf (s.routeRows d n x) = some e) : e.good = false := by
  have mem := firstOf_mem h
  simp only [State.routeRows, List.mem_cons, Prod.mk.injEq, List.not_mem_nil, or_false] at mem
  rcases mem with h | h | h | h | h | h | h | h | h | h | h <;> rw [h.2] <;> rfl

theorem actRoute_request : actRoute d (txArg n ++ destArg x) s = s.answerOf (s.routeRequest (.desk d) n x none) := by
  have parsed : ∃ kind num : Nat, args [1, 1, 1] (txArg n ++ destArg x) = some [n.val + 1, kind, num] ∧ destOf kind num = some x := by
    cases x with
    | antenna m => exact ⟨0, m.val + 1, by
        rw [destArg, txArg, antArg, args_num_append (by omega), args_num_append (by omega), args_num (by omega)]; rfl, by
        rw [destOf, antOf_antNumber]; rfl⟩
    | dummy => exact ⟨1, 0, by
        rw [destArg, txArg, args_num_append (by omega), args_num_append (by omega), args_num (by omega)]; rfl, rfl⟩
    | nothing => exact ⟨2, 0, by
        rw [destArg, txArg, args_num_append (by omega), args_num_append (by omega), args_num (by omega)]; rfl, rfl⟩
  obtain ⟨kind, num, args_, dest⟩ := parsed
  simp only [actRoute, args_, txOf_txNumber, dest]

end

/-- Settles O30: the desk's column in order, and the task as `Started` has it. -/
theorem route : Obligations.Route := by
  intro s d tag n x serves c ant command refusal
  let z := s.taken d tag 0x22
  have rows : z.routeRefusal (.desk d) n x none = refusal := routeRefusal_desk z d n x
  have asked : actRoute d (txArg n ++ destArg x) z = z.answerOf (z.routeRequest (.desk d) n x none) := actRoute_request z d n x
  refine ⟨fun e refused => only_answered_of_refuse rfl serves (asked.trans ?_), fun free => ⟨fun inPlace => ?_, fun moves => ?_⟩⟩
  · rw [routeRequest_refused z _ n x none (rows.trans refused)]
    exact answerOf_bad z (routeRows_bad z d n x refused)
  · refine runs_of_act rfl serves (asked.trans ?_) fun e => LinkCalm.refl _
    rw [routeRequest_inPlace z _ n x none (rows.trans free) inPlace]
    exact answerOf_good z rfl
  · have calm : Calm z (z.startTask (.desk d) n x none) := calm_startTask z _ n x none (Calm.refl z)
    obtain ⟨t, stored, started⟩ := startTask_started z (.desk d) n x none serves.2
    refine ⟨_, runs_of_act rfl serves (asked.trans ?_) calm.links, calm.kept, t, stored, started.goes, started.asks, started.switches,
      fun old was running y mem busy => ?_, started.waits, started.past⟩
    · rw [routeRequest_accepted z _ n x none (rows.trans free) moves]
      exact answerOf_good z rfl
    · rw [started.switches]
      exact routeSet_replaced z n x none was running mem busy

end Sys2Proof.Machine
end

