-- ==== Sys2Proof/Proofs/Unroute.lean ====
section
/-! PROOF. UNROUTE: the earthing of a transmitter's bus, and the loose earthing (R6, R7, R28 to R33). -/

namespace Sys2Proof.Machine

/-! ## The checks -/

section
variable (s : State) (d : Desk) (n : Tx) (m : Ant)

/-- A run record in PREPARING, READY or ON_AIR has Am in use. -/
def State.antennaUsed (s : State) (m : Ant) : Bool :=
  allTx.any fun j => [s.run.cur[j], s.run.nxt[j]].any fun x =>
    x.any fun x => [.preparing, .ready, .onAir].contains x.state && x.inUse == some m

theorem mem_all_iff (r : RunRec) : r ∈ s.run.all ↔ ∃ j : Tx, s.run.cur[j] = some r ∨ s.run.nxt[j] = some r := by
  rw [RunTable.all, List.mem_append, List.mem_filterMap, List.mem_filterMap]
  constructor
  · rintro (⟨j, -, at_⟩ | ⟨j, -, at_⟩)
    · exact ⟨j, .inl at_⟩
    · exact ⟨j, .inr at_⟩
  · rintro ⟨j, at_ | at_⟩
    · exact .inl ⟨j, mem_allTx j, at_⟩
    · exact .inr ⟨j, mem_allTx j, at_⟩

theorem antennaUsed_iff : s.antennaUsed m = true ↔ ∃ r, r ∈ s.run.usersOf m := by
  have one (x : Option RunRec) : (x.any fun x => [.preparing, .ready, .onAir].contains x.state && x.inUse == some m) = true ↔
      ∃ r, x = some r ∧ (r.state.using && r.inUse == some m) = true := by
    cases x with
    | none => exact ⟨fun h => absurd h Bool.false_ne_true, fun ⟨r, same, _⟩ => absurd same.symm (Option.some_ne_none r)⟩
    | some r => simp only [Option.any_some, using_eq_contains, Option.some.injEq, exists_eq_left']
  have users (r : RunRec) : r ∈ s.run.usersOf m ↔
      (∃ j : Tx, s.run.cur[j] = some r ∨ s.run.nxt[j] = some r) ∧ (r.state.using && r.inUse == some m) = true := by
    rw [RunTable.usersOf, List.mem_filter, mem_all_iff]
  simp only [State.antennaUsed, List.any_eq_true, users, List.mem_cons, List.not_mem_nil, or_false, one]
  constructor
  · rintro ⟨j, -, x, at_ | at_, r, same, uses⟩
    · exact ⟨r, ⟨j, .inl (at_.symm.trans same)⟩, uses⟩
    · exact ⟨r, ⟨j, .inr (at_.symm.trans same)⟩, uses⟩
  · rintro ⟨r, ⟨j, at_ | at_⟩, uses⟩
    · exact ⟨j, mem_allTx j, _, .inl rfl, r, at_, uses⟩
    · exact ⟨j, mem_allTx j, _, .inr rfl, r, at_, uses⟩

theorem usedByOther_earth : s.usedByOther (.earthDesk d) n m = s.antennaUsed m := by
  rw [Bool.eq_iff_iff, antennaUsed_iff, State.usedByOther, List.any_eq_true]
  exact ⟨fun ⟨r, mem, _⟩ => ⟨r, mem⟩, fun ⟨r, mem⟩ => ⟨r, mem, rfl⟩⟩

theorem usersOf_isEmpty : (!(s.run.usersOf m).isEmpty) = s.antennaUsed m := by
  rw [Bool.eq_iff_iff, antennaUsed_iff, Bool.not_eq_true', List.isEmpty_eq_false_iff_exists_mem]

/-- The bus a selector keeps from EARTH (R28). -/
theorem earthingOf_bus (h : (s.sw (.sel m)).commanded = .bus n ∨
    ((s.sw (.sel m)).commanded = .earth ∧ (s.sw (.sel m)).confirmed = .stands (.bus n))) : s.earthingOf m = some n := by
  show (match (s.sw (.sel m)).commanded, (s.sw (.sel m)).confirmed with
    | .bus n, _ => some n
    | _, .stands (.bus n) => some n
    | _, _ => none) = some n
  obtain h | ⟨h, k⟩ := h
  · rw [h]
  · rw [h, k]

theorem earthingOf_loose (h : (s.sw (.sel m)).commanded = .earth) (k : ∀ n : Tx, (s.sw (.sel m)).confirmed ≠ .stands (.bus n)) :
    s.earthingOf m = none := by
  unfold State.earthingOf
  split
  · next i at_ => exact absurd (h.symm.trans at_) Pos.noConfusion
  · next i at_ _ => exact absurd at_ (k i)
  · rfl

theorem routeSet_earthed (dest : Dest) : .sel m ∈ s.routeSet n dest (some m) :=
  List.mem_filter.mpr ⟨mem_allSw _, by dsimp only; rw [beq_self_eq_true, Bool.or_true, Bool.or_true]⟩

/-- What the earthing's command changes: the selectors of the bus and the output switch, where each is not yet so commanded (R32). -/
def State.earthChanges (s : State) (n : Tx) : Sw → Bool
  | .sel j => (s.sw (.sel j)).commanded == .bus n
  | .out j => j == n && (s.sw (.out n)).commanded != .dummy

theorem routeCommand_earth (at_ : (s.sw (.sel m)).commanded = .bus n ∨ (s.sw (.sel m)).commanded = .earth) :
    ((s.routeCommand n .nothing (some m)).any fun y => (s.sw y.1).state == .moving) =
      allSw.any fun w => s.earthChanges n w && (s.sw w).state == .moving := by
  rw [State.routeCommand, List.any_filterMap]
  refine congrArg allSw.any (funext fun w => ?_)
  cases w with
  | sel j =>
    have same : s.mx.sel[j] = s.sw (.sel j) := rfl
    simp only [State.earthChanges, same]
    by_cases bus : (s.sw (.sel j)).commanded = .bus n
    · simp [bus]
    · by_cases e : m = j
      · subst e
        simp [at_.resolve_left bus]
      · simp [bus, e]
  | out j =>
    simp only [State.earthChanges]
    by_cases e : j = n
    · subst e
      by_cases dummy : (s.sw (.out j)).commanded = .dummy
      · simp [dummy]
      · simp [dummy]
    · simp [e]

/-- The refusals of an earthing of a transmitter's bus in the order of the earthing column (R29). -/
def State.earthRows (s : State) (d : Desk) (n : Tx) (m : Ant) : List (Bool × Status) :=
  let mine := (s.tx[n]).holder == some d
  let active := (s.permit[n]).output != .off || s.taskRunning n ||
    (s.run.cur[n]).any fun x => [.preparing, .ready, .onAir].contains x.state
  [(s.mx.reportWindow.isRunning, .busy),
   (!s.cfg.txOk n || !s.cfg.antOk m, .notConfigured),
   (s.isOpen, .configOpen),
   (s.hall.state == .safe, .hallSafe),
   ((s.tx[n]).holder != none && !mine, .heldByOther),
   (s.antennaUsed m, .inUse),
   (active && !mine, .antennaConflict),
   (s.taskStarted n, .busy),
   (allSw.any fun w => s.earthChanges n w && (s.sw w).state == .moving, .busy)]

theorem routeRefusal_earth (at_ : (s.sw (.sel m)).commanded = .bus n ∨ (s.sw (.sel m)).commanded = .earth) :
    s.routeRefusal (.earthDesk d) n .nothing (some m) = firstOf (s.earthRows d n m) := by
  have held (h : Option Desk) :
      holderCheck (.earthDesk d) h = firstOf [(h != none && !(h == some d), .heldByOther)] := by
    cases h with
    | none => rfl
    | some e =>
      by_cases same : d = e
      · simp [holderCheck, same]
      · simp [holderCheck, same, Ne.symm same]
  have active : s.txActive n = ((s.permit[n]).output != .off || s.taskRunning n ||
      (s.run.cur[n]).any fun x => [.preparing, .ready, .onAir].contains x.state) := by
    rw [State.txActive, RunTable.curUsing]
    cases s.run.cur[n] with
    | none => rfl
    | some r => exact congrArg (_ || _ || ·) (using_eq_contains r.state)
  simp only [State.routeRefusal, usedAntenna, usedByOther_earth, held, routeCommand_earth s n m at_, State.conflictCheck, active,
    State.earthRows, firstOf_cons, firstOf_nil, State.lockCheck, State.faultCheck, Bool.not_and, RouteSource.isLock,
    RouteSource.isDesk, Bool.not_false, Bool.and_true]
  cases (s.tx[n]).holder != none && !((s.tx[n]).holder == some d) <;> rfl

theorem earthRows_bad {e : Status} (h : firstOf (s.earthRows d n m) = some e) : e.good = false := by
  have mem := firstOf_mem h
  simp only [State.earthRows, List.mem_cons, Prod.mk.injEq, List.not_mem_nil, or_false] at mem
  rcases mem with h | h | h | h | h | h | h | h | h <;> rw [h.2] <;> rfl

/-- The checks of a loose earthing (R28). -/
def State.looseChecks (s : State) (m : Ant) : List (Bool × Status) :=
  [(s.mx.reportWindow.isRunning, .busy),
   (!s.cfg.antOk m, .notConfigured),
   (s.isOpen, .configOpen),
   (s.hall.state == .safe, .hallSafe),
   (s.antennaUsed m, .inUse)]

/-- The checks, and the admission's refusal of a MOVING selector (R7, R28). -/
def State.looseRows (s : State) (m : Ant) : List (Bool × Status) := s.looseChecks m ++ [((s.sw (.sel m)).state == .moving, .busy)]

theorem looseRefusal_desk : s.looseRefusal (.earthDesk d) m = firstOf (s.looseChecks m) := by
  have safe : s.hallSafe = (s.hall.state == .safe) := rfl
  simp only [State.looseRefusal, State.looseChecks, firstOf_cons, firstOf_nil, RouteSource.isDesk, Bool.true_and, usersOf_isEmpty, safe]

theorem looseRows_bad {e : Status} (h : firstOf (s.looseRows m) = some e) : e.good = false := by
  have mem := firstOf_mem h
  simp only [State.looseRows, State.looseChecks, List.mem_append, List.mem_cons, Prod.mk.injEq, List.not_mem_nil, or_false] at mem
  rcases mem with (h | h | h | h | h) | h <;> rw [h.2] <;> rfl

end

/-! ## Reports that end no task in failure -/

/-- No fault of a switch waits to be taken. -/
def State.Harmless (s : State) : Prop := ∀ w : Sw, MxReport.fault w ∉ s.mx.reports

theorem taskTake_mx (s : State) (n : Tx) {r : MxReport} (h : ∀ w, r ≠ .fault w) : (s.taskTake r n).mx = s.mx := by
  have ended (z : State) (f : Option TaskFail) (b o : Bool) : (z.endTask n f b o).mx = z.mx := by
    unfold State.endTask
    split <;> rfl
  unfold State.taskTake
  split
  · rfl
  · cases r with
    | completion w =>
      dsimp only
      split
      · split
        · exact ended _ _ _ _
        · rfl
      · rfl
    | granted w => dsimp only; split <;> rfl
    | requeued w => dsimp only; split <;> rfl
    | fault w => exact absurd rfl (h w)

/-- Reports that name no fault are taken with no change of any switch (R36). -/
theorem absorb_harmless (fuel : Nat) {s : State} (h : s.Harmless) (w : Sw) : (State.absorb fuel s).sw w = s.sw w := by
  induction fuel generalizing s with
  | zero => rfl
  | succ fuel ih =>
    rw [State.absorb]
    cases reports : s.mx.reports with
    | nil => rfl
    | cons r rest =>
      let s1 : State := { s with mx := { s.mx with reports := rest } }
      have mild (v : Sw) : r ≠ .fault v := fun e => h v (by rw [reports, e]; exact List.mem_cons_self)
      have taken (ns : List Tx) (z : State) : (forAll ns (fun n s => s.taskTake r n) z).mx = z.mx := by
        induction ns generalizing z with
        | nil => rfl
        | cons n ns ih => exact (ih _).trans (taskTake_mx z n mild)
      have choose (s : State) (count : Nat) : (s.choose count).2.mx = s.mx := by
        unfold State.choose
        split <;> rfl
      have arranged (fuel : Nat) (xs : List Tx) (s : State) : (State.arrangeAux fuel xs s).2.mx = s.mx := by
        induction fuel generalizing xs s with
        | zero => rfl
        | succ fuel ih =>
          cases xs with
          | nil => rfl
          | cons x xs => exact (ih _ _).trans (choose s _)
      have same := (taken (s1.arrange (s1.tasksWith r.sw)).1 (s1.arrange (s1.tasksWith r.sw)).2).trans (arranged _ _ s1)
      refine (ih ?_).trans ?_
      · intro v mem
        have waits : MxReport.fault v ∈ rest := (congrArg (fun x : Matrix => MxReport.fault v ∈ x.reports) same).mp mem
        exact h v (by rw [reports]; exact List.mem_cons_of_mem _ waits)
      · exact (congrArg (fun x : Matrix => x.get w) same).trans (by cases w <;> rfl)

theorem grants_harmless {s : State} (h : s.Harmless) : s.grants.Harmless := by
  have loop (fuel : Nat) (s : State) (h : s.Harmless) : (State.grantLoop fuel s).Harmless := by
    induction fuel generalizing s with
    | zero => exact h
    | succ fuel ih =>
      unfold State.grantLoop
      split
      · split
        · exact h
        · next w _ =>
          refine ih _ fun v mem => ?_
          rw [grant_reports, List.mem_append, List.mem_singleton] at mem
          exact mem.elim (h v) fun e => MxReport.noConfusion e
      · exact h
  exact loop 32 s h

/-! ## A loose earthing -/

section
variable {s : State} {m : Ant}

/-- The selector behind a loose earthing's admission: as the admission left it, or granted (R11, R28). -/
theorem loose_sw {a : State} (harmless : a.Harmless) :
    ((a.leaveSafety (.sel m)).grants.absorbAll.sw (.sel m) = a.sw (.sel m)) ∨
      ((a.sw (.sel m)).state = .pending ∧ ∃ g : SwRec, (a.leaveSafety (.sel m)).grants.absorbAll.sw (.sel m) = g ∧ g.state = .moving ∧
        g.commanded = (a.sw (.sel m)).commanded ∧ g.cls = (a.sw (.sel m)).cls) := by
  have left : (a.leaveSafety (.sel m)).sw (.sel m) = a.sw (.sel m) := leaveSafety_sw a (.sel m) (.sel m)
  have taken : (a.leaveSafety (.sel m)).grants.absorbAll.sw (.sel m) = (a.leaveSafety (.sel m)).grants.sw (.sel m) :=
    absorb_harmless reportFuel (grants_harmless (s := a.leaveSafety (.sel m)) harmless) (.sel m)
  rw [taken]
  rcases (grants_spec (a.leaveSafety (.sel m))).each (.sel m) with stays | ⟨waits, -, moves⟩
  · exact .inl (stays.trans left)
  · rw [left] at waits
    refine .inr ⟨waits, _, moves, rfl, ?_, ?_⟩
    · rw [State.granted, left]
    · rw [State.granted, left]

/-- What an admission with class MANUAL and the retry indication makes of a switch that is not MOVING (R6, R7). -/
theorem admitCore_manual {w : Sw} (rests : (s.sw w).state ≠ .moving) :
    (s.admitCore w .manual true).1 = .done ∧
      (((s.sw w).state = .steady ∨ (s.sw w).state = .fault) → (s.admitCore w .manual true).2 = s.joinQueue w .manual) ∧
      (((s.sw w).state = .pending ∨ (s.sw w).state = .stopped) →
        (s.admitCore w .manual true).2 = s.setSw w { s.sw w with cls := some ((s.sw w).cls.getD .manual) }) := by
  have cls : higherClass (s.sw w).cls .manual = some ((s.sw w).cls.getD .manual) := by
    cases (s.sw w).cls with
    | none => rfl
    | some c => cases c <;> rfl
  unfold State.admitCore
  dsimp only
  rw [cls]
  split
  · next steady => exact ⟨rfl, fun _ => rfl, fun h => by rcases h with h | h <;> exact (nomatch steady.symm.trans h)⟩
  · next pending => exact ⟨rfl, fun h => by rcases h with h | h <;> exact (nomatch pending.symm.trans h), fun _ => rfl⟩
  · next stopped => exact ⟨rfl, fun h => by rcases h with h | h <;> exact (nomatch stopped.symm.trans h), fun _ => rfl⟩
  · next moving => exact absurd moving rests
  · next fault => exact ⟨rfl, fun _ => rfl, fun h => by rcases h with h | h <;> exact (nomatch fault.symm.trans h)⟩

theorem joinQueue_inPlace {w : Sw} (c : MoveClass) (h : (s.sw w).inPlace = true) : (s.joinQueue w c).sw w = (s.sw w).steady := by
  rw [State.joinQueue, if_pos h]
  exact swComplete_same s w

theorem joinQueue_waits {w : Sw} (c : MoveClass) (h : (s.sw w).inPlace = false) :
    (s.joinQueue w c).sw w = { s.sw w with state := .pending, cls := some c, arrival := some s.mx.nextArrival, fault := none } := by
  rw [State.joinQueue, if_neg (by rw [h]; exact Bool.false_ne_true)]
  have same (z : State) (n : Nat) : ({ z with mx := { z.mx with nextArrival := n } } : State).sw w = z.sw w := by cases w <;> rfl
  exact (same _ _).trans (setSw_same s w _)

theorem joinQueue_harmless {w : Sw} (c : MoveClass) (none_ : s.mx.reports = []) : (s.joinQueue w c).Harmless := by
  have put (r : SwRec) : (s.setSw w r).mx.reports = [] := by cases w <;> exact none_
  intro v mem
  by_cases inPlace : (s.sw w).inPlace = true
  · rw [State.joinQueue, if_pos inPlace] at mem
    have waits : MxReport.fault v ∈ (s.setSw w (s.sw w).steady).mx.reports ++ [MxReport.completion w] := mem
    rw [put, List.nil_append, List.mem_singleton] at waits
    exact MxReport.noConfusion waits
  · rw [State.joinQueue, if_neg inPlace] at mem
    have waits := (congrArg (MxReport.fault v ∈ ·) (put _)).mp mem
    exact absurd waits List.not_mem_nil

theorem admitCore_harmless {w : Sw} (rests : (s.sw w).state ≠ .moving) (none_ : s.mx.reports = []) :
    (s.admitCore w .manual true).2.Harmless := by
  obtain ⟨-, joins, stays⟩ := admitCore_manual rests
  have put (r : SwRec) : (s.setSw w r).mx.reports = [] := by cases w <;> exact none_
  have harmless : (s.setSw w { s.sw w with cls := some ((s.sw w).cls.getD .manual) }).Harmless := fun v mem => by
    rw [put] at mem
    exact absurd mem List.not_mem_nil
  cases state : (s.sw w).state with
  | moving => exact absurd state rests
  | steady => rw [joins (.inl state)]; exact joinQueue_harmless .manual none_
  | fault => rw [joins (.inr state)]; exact joinQueue_harmless .manual none_
  | pending => rw [stays (.inl state)]; exact harmless
  | stopped => rw [stays (.inr state)]; exact harmless

theorem looseRows_free (free : firstOf (s.looseRows m) = none) :
    firstOf (s.looseChecks m) = none ∧ (s.sw (.sel m)).state ≠ .moving ∧ s.cfg.swOk (.sel m) = true := by
  have rests : ((s.sw (.sel m)).state == .moving) = false :=
    not_of_firstOf_none free (e := .busy) (List.mem_append_right _ (List.mem_singleton_self _))
  have configured : (!s.cfg.antOk m) = false :=
    not_of_firstOf_none free (e := .notConfigured) (List.mem_append_left _ (List.mem_cons_of_mem _ List.mem_cons_self))
  have equipped : s.cfg.antOk m = true := by simpa using configured
  rw [State.looseRows, firstOf_append, Option.or_eq_none_iff] at free
  exact ⟨free.1, beq_eq_false_iff_ne.mp rests, equipped⟩

/-- A loose earthing that is not refused (R28). -/
theorem looseEarth_taken (d : Desk) (free : firstOf (s.looseRows m) = none) :
    s.looseEarth (.earthDesk d) m = (.done, ((s.admitCore (.sel m) .manual true).2.leaveSafety (.sel m)).grants.absorbAll) := by
  obtain ⟨checked, rests, equipped⟩ := looseRows_free free
  obtain ⟨done, -, -⟩ := admitCore_manual rests
  have core : s.admitCore (.sel m) .manual true = (.done, (s.admitCore (.sel m) .manual true).2) := Prod.ext done rfl
  have admitted : s.admitMove (.sel m) .manual true = (.done, ((s.admitCore (.sel m) .manual true).2.leaveSafety (.sel m)).grants) := by
    rw [State.admitMove, if_neg (by rw [equipped]; exact Bool.false_ne_true), core]
  rw [State.looseEarth, looseRefusal_desk, checked]
  show ((s.admitMove (.sel m) .manual true).1, (s.admitMove (.sel m) .manual true).2.absorbAll) = _
  rw [admitted]

theorem looseEarth_refused (d : Desk) {e : Status} (refused : firstOf (s.looseRows m) = some e) :
    ∃ u, s.looseEarth (.earthDesk d) m = (e, u) := by
  rw [State.looseEarth, looseRefusal_desk]
  cases checks : firstOf (s.looseChecks m) with
  | some x =>
    rw [State.looseRows, firstOf_append, checks] at refused
    exact ⟨s, by rw [Option.some.inj refused]⟩
  | none =>
    rw [State.looseRows, firstOf_append, checks, Option.none_or, firstOf_cons, firstOf_nil] at refused
    split at refused
    · next moving =>
      have equipped : s.cfg.swOk (.sel m) = true := by
        have configured : (!s.cfg.antOk m) = false :=
          not_of_firstOf_none checks (e := .notConfigured) (List.mem_cons_of_mem _ List.mem_cons_self)
        have antenna : s.cfg.antOk m = true := by simpa using configured
        exact antenna
      have core : s.admitCore (.sel m) .manual true = (.busy, s) := by
        unfold State.admitCore
        dsimp only
        split
        case h_4 => rfl
        all_goals next e => exact (nomatch (beq_iff_eq.mp moving).symm.trans e)
      have admitted : s.admitMove (.sel m) .manual true = (.busy, s) := by
        rw [State.admitMove, if_neg (by rw [equipped]; exact Bool.false_ne_true), core]
      refine ⟨s.absorbAll, ?_⟩
      show ((s.admitMove (.sel m) .manual true).1, (s.admitMove (.sel m) .manual true).2.absorbAll) = _
      rw [admitted, Option.some.inj refused]
    · exact absurd refused.symm (Option.some_ne_none e)

end

/-- UNROUTE asks for the earthing of its antenna (R28). -/
theorem actUnroute_request (s : State) (d : Desk) (m : Ant) :
    actUnroute d (antArg m) s = s.answerOf (s.earthRequest (.earthDesk d) m) := by
  have parsed : args [1] (antArg m) = some [m.val + 1] := args_num (by omega)
  simp only [actUnroute, parsed, antOf_antNumber]

theorem actUnroute_out_of_range (s : State) (d : Desk) {a : Byte} (h : ¬(1 ≤ a.toNat ∧ a.toNat ≤ 24)) :
    actUnroute d [a] s = s.refuse .badArgument := by
  have parsed : args [1] [a] = some [a.toNat] := by simp [args, numOf]
  simp only [actUnroute, parsed, antOf_eq_none h]

/-- A loose earthing's selector behind the act (R6, R7, R11). -/
structure LooseEarthed (r v : SwRec) : Prop where
  home : (r.state = .steady ∨ r.state = .fault) → r.confirmed = .stands .earth → v.state = .steady
  away : (r.state = .steady ∨ r.state = .fault) → r.confirmed ≠ .stands .earth →
    ((v.state = .pending ∨ v.state = .moving) ∧ v.commanded = .earth) ∧ v.cls = some .manual
  waits : r.state = .pending →
    ((v.state = .pending ∨ v.state = .moving) ∧ v.commanded = .earth) ∧ v.cls = some (r.cls.getD .manual)
  stands : r.state = .stopped → v.state = .stopped ∧ v.commanded = .earth ∧ v.cls = some (r.cls.getD .manual)

theorem looseEarthed {s : State} {m : Ant} (rests : (s.sw (.sel m)).state ≠ .moving) (earth : (s.sw (.sel m)).commanded = .earth)
    (none_ : s.mx.reports = []) : LooseEarthed (s.sw (.sel m))
      (((s.admitCore (.sel m) .manual true).2.leaveSafety (.sel m)).grants.absorbAll.sw (.sel m)) := by
  obtain ⟨-, joins, stays⟩ := admitCore_manual rests
  have behind := loose_sw (m := m) (admitCore_harmless rests none_)
  revert behind
  generalize ((s.admitCore (.sel m) .manual true).2.leaveSafety (.sel m)).grants.absorbAll.sw (.sel m) = v
  intro behind
  have queued {x : SwRec} (at_ : (s.admitCore (.sel m) .manual true).2.sw (.sel m) = x) (pending : x.state = .pending) :
      (v.state = .pending ∨ v.state = .moving) ∧ v.commanded = x.commanded ∧ v.cls = x.cls := by
    rw [at_] at behind
    rcases behind with same | ⟨-, g, rfl, moving, commanded, cls⟩
    · rw [same]
      exact ⟨.inl pending, rfl, rfl⟩
    · exact ⟨.inr moving, commanded, cls⟩
  have still {x : SwRec} (at_ : (s.admitCore (.sel m) .manual true).2.sw (.sel m) = x) (rests : x.state ≠ .pending) : v = x := by
    rw [at_] at behind
    exact behind.resolve_right fun ⟨waits, _⟩ => rests waits
  have place : (s.sw (.sel m)).inPlace = ((s.sw (.sel m)).confirmed == .stands .earth) := by rw [SwRec.inPlace, earth]
  constructor
  · intro ready home
    have at_ : (s.admitCore (.sel m) .manual true).2.sw (.sel m) = (s.sw (.sel m)).steady := by
      rw [joins ready]
      exact joinQueue_inPlace .manual (by rw [place, home]; rfl)
    rw [still at_ SwState.noConfusion]
    rfl
  · intro ready away
    have at_ := (congrArg (fun z : State => z.sw (.sel m)) (joins ready)).trans
      (joinQueue_waits .manual (by rw [place]; exact beq_eq_false_iff_ne.mpr away))
    obtain ⟨asked, commanded, cls⟩ := queued at_ rfl
    exact ⟨⟨asked, commanded.trans earth⟩, cls⟩
  · intro pending
    have at_ := (congrArg (fun z : State => z.sw (.sel m)) (stays (.inl pending))).trans (setSw_same s _ _)
    obtain ⟨asked, commanded, cls⟩ := queued at_ pending
    exact ⟨⟨asked, commanded.trans earth⟩, cls⟩
  · intro stopped
    have at_ := (congrArg (fun z : State => z.sw (.sel m)) (stays (.inr stopped))).trans (setSw_same s _ _)
    have same := still at_ fun pending => nomatch stopped.symm.trans pending
    rw [same]
    exact ⟨stopped, earth, rfl⟩

/-- Settles O31: the earthing column in order and the task as `Started` has it, or the admission of a loose selector. -/
theorem unroute : Obligations.Unroute := by
  intro s d tag serves
  let z := s.taken d tag 0x23
  refine ⟨fun a out => only_answered_of_refuse rfl serves (actUnroute_out_of_range z d out), fun m => ?_⟩
  intro c r used
  have asked : actUnroute d (antArg m) z = z.answerOf (z.earthRequest (.earthDesk d) m) := actUnroute_request z d m
  refine ⟨fun n holds => ?_, fun earth away => ?_⟩
  · intro mine active changed refusal
    have at_ : r.commanded = .bus n ∨ r.commanded = .earth := holds.imp id And.left
    have goes : z.earthRequest (.earthDesk d) m = z.routeRequest (.earthDesk d) n .nothing (some m) := by
      rw [State.earthRequest, earthingOf_bus z n m holds]
    rw [goes] at asked
    have rows : z.routeRefusal (.earthDesk d) n .nothing (some m) = refusal := routeRefusal_earth z d n m at_
    refine ⟨fun e refused => only_answered_of_refuse rfl serves (asked.trans ?_), fun free => ⟨fun inPlace => ?_, fun moves => ?_⟩⟩
    · rw [routeRequest_refused z _ n .nothing (some m) (rows.trans refused)]
      exact answerOf_bad z (earthRows_bad z d n m refused)
    · refine runs_of_act rfl serves (asked.trans ?_) fun e => LinkCalm.refl _
      rw [routeRequest_inPlace z _ n .nothing (some m) (rows.trans free) inPlace]
      exact answerOf_good z rfl
    · have calm : Calm z (z.startTask (.earthDesk d) n .nothing (some m)) := calm_startTask z _ n _ _ (Calm.refl z)
      obtain ⟨t, stored, started⟩ := startTask_started z (.earthDesk d) n .nothing (some m) serves.2
      refine ⟨_, runs_of_act rfl serves (asked.trans ?_) calm.links, calm.kept, t, stored, started.goes, started.asks, started.switches,
        ?_, fun old was running y mem busy => ?_, started.waits, started.past⟩
      · rw [routeRequest_accepted z _ n .nothing (some m) (rows.trans free) moves]
        exact answerOf_good z rfl
      · rw [started.switches]
        exact routeSet_earthed z n m .nothing
      · rw [started.switches]
        exact routeSet_replaced z n .nothing (some m) was running mem busy
  · intro refusal
    have goes : z.earthRequest (.earthDesk d) m = z.looseEarth (.earthDesk d) m := by
      rw [State.earthRequest, earthingOf_loose z m earth away]
    rw [goes] at asked
    refine ⟨fun e refused => ?_, fun free => ?_⟩
    · obtain ⟨u, answered⟩ := looseEarth_refused (s := z) d refused
      rw [answered] at asked
      exact only_answered_of_refuse rfl serves (asked.trans (answerOf_bad z (looseRows_bad z m refused)))
    · have taken := looseEarth_taken (s := z) d free
      obtain ⟨-, rests, -⟩ := looseRows_free (s := z) free
      have calm : Calm z (z.looseEarth (.earthDesk d) m).2 := calm_looseEarth z _ m (Calm.refl z)
      rw [taken] at asked calm
      refine ⟨_, runs_of_act rfl serves (asked.trans (answerOf_good z rfl)) calm.links, calm.kept, fun none_ => ?_⟩
      obtain ⟨home, away, waits, stands⟩ := looseEarthed (s := z) rests earth none_
      exact ⟨home, away, waits, stands⟩

end Sys2Proof.Machine
end

