-- ==== Sys2Proof/Proofs/RunChoosing.lean ====
section
/-! PROOF. The outcome list, choosing, and the antenna tests of the run scheduler (R133, R134, R136, R138). -/

namespace Sys2Proof.Machine

/-! ## The outcome list -/

section
variable (s : State) (r : RunRec) (st : RunState) (reason : Option RunReason) (now : Nat)

theorem writeOutcome_kept : (s.writeOutcome r st reason now).kept = s.kept :=
  (calm_writeOutcome s r st reason now (Calm.refl s)).kept

theorem writeOutcome_outcomes : (s.writeOutcome r st reason now).run.outcomes =
    ({ r with state := st, reason := reason, closedAt := some now, deferred := none } :: s.run.outcomes).take 32 := rfl

/-- The done mark of the record's transmitter moves, unless the record is ABORTED, HAND (R134). -/
theorem writeOutcome_marks : (s.writeOutcome r st reason now).run.marks =
    if movesMark st reason then s.run.marks.set r.tx (markAfter s.run.marks[r.tx] r.table r.stop) else s.run.marks := rfl

theorem movesMark_iff : movesMark st reason = true ↔ ¬(st = .aborted ∧ reason = some .hand) := by
  rw [movesMark, Bool.not_eq_true', Bool.and_eq_false_iff, beq_eq_false_iff_ne, beq_eq_false_iff_ne]
  tauto

theorem writeOutcome_mark_same (moves : ¬(st = .aborted ∧ reason = some .hand)) :
    (s.writeOutcome r st reason now).run.marks[r.tx] = markAfter s.run.marks[r.tx] r.table r.stop := by
  rw [writeOutcome_marks, if_pos ((movesMark_iff st reason).mpr moves), getElem_set_fin, if_pos rfl]

theorem writeOutcome_mark_hand (hand : st = .aborted ∧ reason = some .hand) :
    (s.writeOutcome r st reason now).run.marks[r.tx] = s.run.marks[r.tx] := by
  have stays : (s.writeOutcome r st reason now).run.marks = s.run.marks :=
    if_neg fun moves => (movesMark_iff st reason).mp moves hand
  rw [stays]

theorem writeOutcome_mark_other {n : Tx} (other : n ≠ r.tx) :
    (s.writeOutcome r st reason now).run.marks[n] = s.run.marks[n] := by
  by_cases moves : movesMark st reason = true
  · rw [writeOutcome_marks, if_pos moves, getElem_set_fin, if_neg fun same => other same]
  · have stays : (s.writeOutcome r st reason now).run.marks = s.run.marks := if_neg moves
    rw [stays]

end

theorem markAfter_same {m : DoneMark} {t : TableId} (e : Nat) (h : m.table = t) : markAfter (some m) t e = some ⟨max m.minute e, t⟩ := by
  rw [markAfter, if_pos (beq_iff_eq.mpr h)]

theorem markAfter_other {m : Option DoneMark} {t : TableId} (e : Nat) (h : ∀ d, m = some d → d.table ≠ t) :
    markAfter m t e = some ⟨e, t⟩ := by
  cases m with
  | none => rfl
  | some d => rw [markAfter, if_neg fun same => h d rfl (beq_iff_eq.mp same)]

/-! ## The earliest occurrence -/

theorem earliest_none {os : List Occ} : earliest os = none ↔ os = [] := by
  cases os with
  | nil => exact ⟨fun _ => rfl, fun _ => rfl⟩
  | cons o os =>
    refine ⟨fun h => ?_, fun h => absurd h (List.cons_ne_nil o os)⟩
    rw [earliest] at h
    split at h
    · exact absurd h (Option.some_ne_none o)
    · split at h <;> exact absurd h (Option.some_ne_none _)

theorem earliest_some {os : List Occ} {o : Occ} (h : earliest os = some o) : o ∈ os ∧ ∀ p ∈ os, o.start ≤ p.start := by
  induction os generalizing o with
  | nil => exact absurd h.symm (Option.some_ne_none o)
  | cons q os ih =>
    rw [earliest] at h
    cases rest : earliest os with
    | none =>
      rw [rest] at h
      obtain rfl := Option.some.inj h
      rw [earliest_none.mp rest]
      exact ⟨List.mem_singleton_self _, fun p mem => by rw [List.mem_singleton.mp mem]⟩
    | some p =>
      rw [rest] at h
      dsimp only at h
      obtain ⟨mem, least⟩ := ih rest
      split at h
      · next before =>
        obtain rfl := Option.some.inj h
        refine ⟨List.mem_cons_of_mem _ mem, List.forall_mem_cons.mpr ⟨by omega, least⟩⟩
      · next before =>
        obtain rfl := Option.some.inj h
        exact ⟨List.mem_cons_self, List.forall_mem_cons.mpr ⟨Nat.le_refl _, fun x hx => by have := least x hx; omega⟩⟩

/-- The one earliest occurrence that meets a test. -/
theorem earliest_filter {os : List Occ} {p : Occ → Bool} {o : Occ} (mem : o ∈ os) (meets : p o = true)
    (least : ∀ q ∈ os, p q = true → q = o ∨ o.start < q.start) : earliest (os.filter p) = some o := by
  cases found : earliest (os.filter p) with
  | none =>
    have stays : o ∈ os.filter p := List.mem_filter.mpr ⟨mem, meets⟩
    rw [earliest_none.mp found] at stays
    exact absurd stays List.not_mem_nil
  | some q =>
    obtain ⟨within, first⟩ := earliest_some found
    obtain ⟨held, passes⟩ := List.mem_filter.mp within
    have before := first o (List.mem_filter.mpr ⟨mem, meets⟩)
    rcases least q held passes with rfl | later
    · rfl
    · omega

theorem earliest_filter_none {os : List Occ} {p : Occ → Bool} (h : ∀ q ∈ os, p q = false) : earliest (os.filter p) = none :=
  earliest_none.mpr (List.filter_eq_nil_iff.mpr fun q mem => by rw [h q mem]; exact Bool.false_ne_true)

/-! ## The candidates -/

section
variable (s : State) (n : Tx) (now : Nat)

theorem mem_occOn {e : Entry} {day : Nat} {o : Occ} :
    o ∈ occOn e day ↔ day ≤ 36524 ∧ e.days.getLsbD ((day + 5) % 7) = true ∧ o = ⟨e, day * 1440 + e.start⟩ := by
  unfold occOn
  split
  · next h =>
    rw [Bool.and_eq_true, decide_eq_true_eq] at h
    rw [List.mem_singleton]
    exact ⟨fun same => ⟨h.1, h.2, same⟩, fun k => k.2.2⟩
  · next h =>
    rw [Bool.and_eq_true, decide_eq_true_eq] at h
    exact ⟨fun mem => absurd mem List.not_mem_nil, fun k => absurd ⟨k.1, k.2.1⟩ h⟩

theorem mem_daysAround {day : Nat} : day ∈ daysAround now ↔ day ≤ now / 1440 + 1 ∧ now / 1440 ≤ day + 1 := by
  unfold daysAround
  dsimp only
  split
  · next h =>
    rw [beq_iff_eq] at h
    simp only [List.mem_cons, List.not_mem_nil, or_false]
    omega
  · next h =>
    rw [beq_iff_eq] at h
    simp only [List.mem_cons, List.not_mem_nil, or_false]
    omega

theorem markAllows_iff (m : Option DoneMark) (t : TableId) (x : Nat) :
    (match m with | some m => m.table != t || decide (m.minute ≤ x) | none => true) = true ↔
      ∀ d : DoneMark, m = some d → d.table = t → d.minute ≤ x := by
  cases m with
  | none => exact ⟨fun _ d same => absurd same.symm (Option.some_ne_none d), fun _ => rfl⟩
  | some d =>
    dsimp only
    rw [Bool.or_eq_true, bne_iff_ne, decide_eq_true_eq]
    constructor
    · intro h y held same
      obtain rfl := Option.some.inj held
      exact h.resolve_left fun other => other same
    · intro h
      by_cases same : d.table = t
      · exact .inr (h d rfl same)
      · exact .inl same

theorem mem_candidates {o : Occ} : o ∈ s.candidates n now ↔
    (∃ e, (e ∈ s.season.table s.season.active ∧ e.tx = n ∧ e.failed = none) ∧ ∃ day, (day ≤ now / 1440 + 1 ∧ now / 1440 ≤ day + 1) ∧
      day ≤ 36524 ∧ e.days.getLsbD ((day + 5) % 7) = true ∧ o = ⟨e, day * 1440 + e.start⟩) ∧
    o.start < now + 1440 ∧ ∀ d : DoneMark, s.run.marks[n] = some d → d.table = s.season.active → d.minute ≤ o.start := by
  simp only [State.candidates, List.mem_filter, List.mem_flatMap, mem_occOn, mem_daysAround, Bool.and_eq_true, decide_eq_true_eq,
    beq_iff_eq, Option.isNone_iff_eq_none]
  exact and_congr_right fun _ => and_congr_right fun _ => markAllows_iff _ _ _

/-- The occurrences that the scheduler looks at are candidates. -/
theorem candidate_of_mem {o : Occ} (mem : o ∈ s.candidates n now) : Candidate s n now o.entry o.start := by
  obtain ⟨⟨e, ⟨held, tx, sound⟩, day, -, inCentury, falls, rfl⟩, horizon, mark⟩ := (mem_candidates s n now).mp mem
  exact ⟨held, tx, sound, ⟨day, inCentury, falls, rfl⟩, horizon, mark⟩

/-- A candidate that has not ended is looked at. -/
theorem mem_of_candidate {e : Entry} {x : Nat} (h : Candidate s n now e x) (start : e.start < 1440) (dur : e.dur ≤ 1440)
    (on : now < x + e.dur) : ⟨e, x⟩ ∈ s.candidates n now := by
  obtain ⟨held, tx, sound, ⟨day, inCentury, falls, rfl⟩, horizon, mark⟩ := h
  exact (mem_candidates s n now).mpr ⟨⟨e, ⟨held, tx, sound⟩, day, by omega, inCentury, falls, rfl⟩, horizon, mark⟩

end

/-! ## Choosing -/

/-- An occurrence has become NEXT (R136). -/
def Chosen (s u : State) (n : Tx) (e : Entry) (x : Nat) (late : Bool) (base : Nat) : Prop :=
  ∃ r : RunRec, u.run.nxt[n] = some r ∧ Copies r e s.season.active x ∧ r.num = s.run.nextNum ∧ r.state = .waiting ∧ r.late = late ∧
    r.graceBase = base ∧ u.run.outcomes = s.run.outcomes

/-- An occurrence has been written to the outcome list as MISSED (R136). -/
def Missed (s u : State) (n : Tx) (now : Nat) (e : Entry) (x : Nat) (why : RunReason) : Prop :=
  ∃ r : RunRec, Copies r e s.season.active x ∧ r.num = s.run.nextNum ∧ r.state = .missed ∧ r.reason = some why ∧
    r.closedAt = some now ∧ u.run.outcomes = (r :: s.run.outcomes).take 32 ∧ u.run.marks[n] = some ⟨x + e.dur, s.season.active⟩

section
variable (s : State) (n : Tx) (now : Nat) {e : Entry} {x : Nat}

theorem takeNext_chosen (late : Bool) (base : Nat) : Chosen s (s.takeNext n ⟨e, x⟩ late base) n e x late base := by
  refine ⟨makeRec ⟨e, x⟩ s.season.active s.run.nextNum late base, ?_, ⟨⟨rfl, rfl, rfl⟩, ⟨rfl, rfl⟩, ⟨rfl, rfl, rfl⟩,
    rfl, rfl, rfl, rfl, rfl⟩, rfl, rfl, rfl, rfl, rfl⟩
  show (s.run.nxt.set n _)[n] = _
  rw [getElem_set_fin, if_pos rfl]

/-- Taking an occurrence changes neither outcomes nor done marks. -/
theorem takeNext_closed (o : Occ) (late : Bool) (base : Nat) :
    (s.takeNext n o late base).run.outcomes = s.run.outcomes ∧ (s.takeNext n o late base).run.marks = s.run.marks := ⟨rfl, rfl⟩

variable {s n now}

theorem missOcc_mark (why : RunReason) (h : Candidate s n now e x) :
    (s.missOcc ⟨e, x⟩ why now).run.marks[n] = some ⟨x + e.dur, s.season.active⟩ := by
  obtain ⟨-, rfl, -, -, -, mark⟩ := h
  have moved : (s.missOcc ⟨e, x⟩ why now).run.marks[e.tx] = markAfter s.run.marks[e.tx] s.season.active (x + e.dur) :=
    writeOutcome_mark_same _ _ .missed (some why) now fun both => nomatch both.1
  rw [moved]
  cases held : s.run.marks[e.tx] with
  | none => rfl
  | some d =>
    by_cases same : d.table = s.season.active
    · rw [markAfter_same _ same, Nat.max_eq_right (Nat.le_trans (mark d held same) (Nat.le_add_right x e.dur))]
    · exact markAfter_other _ fun y is => by rw [← Option.some.inj is]; exact same

/-- What is written MISSED is in the list at once, and nothing chosen later takes it from there. -/
theorem missOcc_missed {u : State} (why : RunReason) (h : Candidate s n now e x)
    (outcomes : u.run.outcomes = (s.missOcc ⟨e, x⟩ why now).run.outcomes)
    (marks : u.run.marks = (s.missOcc ⟨e, x⟩ why now).run.marks) : Missed s u n now e x why := by
  refine ⟨{ makeRec ⟨e, x⟩ s.season.active s.run.nextNum false x with
      state := .missed, reason := some why, closedAt := some now, deferred := none },
    ⟨⟨rfl, rfl, rfl⟩, ⟨rfl, rfl⟩, ⟨rfl, rfl, rfl⟩, rfl, rfl, rfl, rfl, rfl⟩, rfl, rfl, rfl, rfl, outcomes, ?_⟩
  rw [marks]
  exact missOcc_mark why h

/-- Behind an occurrence written MISSED only candidates from its end on are left, all of them candidates before. -/
theorem candidates_missOcc (why : RunReason) (h : Candidate s n now e x) {o : Occ}
    (mem : o ∈ (s.missOcc ⟨e, x⟩ why now).candidates n now) : o ∈ s.candidates n now ∧ x + e.dur ≤ o.start := by
  obtain ⟨falls, horizon, mark⟩ := (mem_candidates _ n now).mp mem
  have after : x + e.dur ≤ o.start := mark _ (missOcc_mark why h) rfl
  obtain ⟨-, -, -, -, -, before⟩ := h
  refine ⟨(mem_candidates s n now).mpr ⟨falls, horizon, fun d held same => ?_⟩, after⟩
  have := before d held same
  omega

theorem chooseEmpty_none (fuel : Nat) (h : ∀ o ∈ s.candidates n now, ¬(now ≤ o.start ∨ now < o.stop)) :
    State.chooseEmpty fuel n now s = s := by
  cases fuel with
  | zero => rfl
  | succ fuel =>
    rw [State.chooseEmpty, earliest_filter_none fun q mem => ?_]
    rw [Bool.eq_false_iff, ne_eq, Bool.or_eq_true, decide_eq_true_eq, decide_eq_true_eq]
    exact h q mem

/-- Where every candidate that counts begins now or later, choosing writes no outcome. -/
theorem chooseEmpty_closed (fuel : Nat) (h : ∀ o ∈ s.candidates n now, now ≤ o.start) :
    (State.chooseEmpty fuel n now s).run.outcomes = s.run.outcomes ∧ (State.chooseEmpty fuel n now s).run.marks = s.run.marks := by
  cases fuel with
  | zero => exact ⟨rfl, rfl⟩
  | succ fuel =>
    rw [State.chooseEmpty]
    cases found : earliest ((s.candidates n now).filter fun o => decide (now ≤ o.start) || decide (now < o.stop)) with
    | none => exact ⟨rfl, rfl⟩
    | some o =>
      dsimp only
      rw [if_pos (h o (List.mem_filter.mp (earliest_some found).1).1)]
      exact takeNext_closed s n o false o.start

theorem missCarried_none (fuel : Nat) {stop : Nat} (h : ∀ o ∈ s.candidates n now, ¬(now < o.stop ∧ o.start < stop)) :
    State.missCarried fuel n stop now s = s := by
  cases fuel with
  | zero => rfl
  | succ fuel =>
    rw [State.missCarried, earliest_filter_none fun q mem => ?_]
    rw [Bool.eq_false_iff, ne_eq, Bool.and_eq_true, decide_eq_true_eq, decide_eq_true_eq]
    exact h q mem

/-- The occurrences that collide with a carried record written MISSED, before the next one is chosen (R136). -/
def State.afterCarried (s : State) (n : Tx) (c : RunRec) (now : Nat) : State :=
  if c.table == s.season.active then s else State.missCarried (s.candidates n now).length n c.stop now s

theorem chooseAfter_eq (c : RunRec) : s.chooseAfter n c now =
    match earliest (((s.afterCarried n c now).candidates n now).filter fun o => decide (c.stop ≤ o.start)) with
    | none => s.afterCarried n c now
    | some o => (s.afterCarried n c now).takeNext n o false o.start := rfl

section
variable (ranges : ∀ e ∈ s.season.table s.season.active, e.start < 1440 ∧ 1 ≤ e.dur ∧ e.dur ≤ 1440)
include ranges

/-- Choosing with CURRENT empty (R136). -/
theorem chooseEmpty_chooses :
    ((∀ e x, ¬(Candidate s n now e x ∧ now < x + e.dur)) →
      State.chooseEmpty ((s.candidates n now).length + 1) n now s = s) ∧
    ∀ e x, (Candidate s n now e x ∧ now < x + e.dur) ∧
        (∀ f y, Candidate s n now f y ∧ now < y + f.dur → (f = e ∧ y = x) ∨ x < y) →
      let u := State.chooseEmpty ((s.candidates n now).length + 1) n now s
      (now ≤ x → Chosen s u n e x false x) ∧ (x < now → now + 2 ≤ x + e.dur → Chosen s u n e x true now) ∧
        (x < now → x + e.dur < now + 2 → Missed s u n now e x .tooLate) := by
  have qualifies {o : Occ} (mem : o ∈ s.candidates n now) (on : now ≤ o.start ∨ now < o.stop) :
      Candidate s n now o.entry o.start ∧ now < o.start + o.entry.dur := by
    have candidate := candidate_of_mem s n now mem
    obtain ⟨-, long, -⟩ := ranges _ candidate.1
    exact ⟨candidate, on.elim (fun later => by omega) id⟩
  refine ⟨fun none_ => chooseEmpty_none _ fun o mem on => none_ _ _ (qualifies mem on), fun e x ⟨⟨candidate, on⟩, least⟩ => ?_⟩
  obtain ⟨start, -, dur⟩ := ranges e candidate.1
  have found : earliest ((s.candidates n now).filter fun o => decide (now ≤ o.start) || decide (now < o.stop)) = some ⟨e, x⟩ := by
    refine earliest_filter (mem_of_candidate s n now candidate start dur on) ?_ fun q mem meets => ?_
    · rw [Bool.or_eq_true, decide_eq_true_eq, decide_eq_true_eq]
      exact .inr on
    · rw [Bool.or_eq_true, decide_eq_true_eq, decide_eq_true_eq] at meets
      exact (least q.entry q.start (qualifies mem meets)).imp (fun ⟨same, at_⟩ => by rw [← same, ← at_]) id
  intro u
  have first : u = if now ≤ x then s.takeNext n ⟨e, x⟩ false x
      else if now + 2 ≤ x + e.dur then s.takeNext n ⟨e, x⟩ true now
      else State.chooseEmpty (s.candidates n now).length n now (s.missOcc ⟨e, x⟩ .tooLate now) := by
    show State.chooseEmpty ((s.candidates n now).length + 1) n now s = _
    rw [State.chooseEmpty, found]
    rfl
  refine ⟨fun soon => ?_, fun begun long => ?_, fun begun short => ?_⟩
  · rw [first, if_pos soon]
    exact takeNext_chosen s n false x
  · rw [first, if_neg (by omega), if_pos long]
    exact takeNext_chosen s n true now
  · rw [first, if_neg (by omega), if_neg (by omega)]
    obtain ⟨outcomes, marks⟩ := chooseEmpty_closed (s := s.missOcc ⟨e, x⟩ .tooLate now) (n := n) (now := now)
      (s.candidates n now).length fun o mem => by
        obtain ⟨-, after⟩ := candidates_missOcc .tooLate candidate mem
        omega
    exact missOcc_missed .tooLate candidate outcomes marks

/-- Choosing behind a CURRENT record (R136). -/
theorem chooseAfter_chooses (c : RunRec) (ahead : now ≤ c.stop) :
    ((∀ e x, ¬(c.table ≠ s.season.active ∧ Candidate s n now e x ∧ now < x + e.dur ∧ x < c.stop)) →
      ((∀ e x, ¬(Candidate s n now e x ∧ c.stop ≤ x)) → s.chooseAfter n c now = s) ∧
        ∀ e x, (Candidate s n now e x ∧ c.stop ≤ x) ∧
            (∀ f y, Candidate s n now f y ∧ c.stop ≤ y → (f = e ∧ y = x) ∨ x < y) →
          Chosen s (s.chooseAfter n c now) n e x false x) ∧
    ∀ e x, c.table ≠ s.season.active ∧ Candidate s n now e x ∧ now < x + e.dur ∧ x < c.stop →
      (∀ f y, c.table ≠ s.season.active ∧ Candidate s n now f y ∧ now < y + f.dur ∧ y < c.stop → f = e ∧ y = x) →
        Missed s (s.chooseAfter n c now) n now e x .carryOverlap := by
  have passes {o : Occ} : (decide (now < o.stop) && decide (o.start < c.stop)) = true ↔ now < o.stop ∧ o.start < c.stop := by
    rw [Bool.and_eq_true, decide_eq_true_eq, decide_eq_true_eq]
  refine ⟨fun none_ => ?_, fun e x ⟨carried, candidate, on, before⟩ alone => ?_⟩
  · have stays : s.afterCarried n c now = s := by
      unfold State.afterCarried
      split
      · rfl
      · next carried =>
        exact missCarried_none _ fun o mem ⟨on, before⟩ =>
          none_ o.entry o.start ⟨fun same => carried (beq_iff_eq.mpr same), candidate_of_mem s n now mem, on, before⟩
    rw [chooseAfter_eq, stays]
    refine ⟨fun none_ => ?_, fun e x ⟨⟨candidate, later⟩, least⟩ => ?_⟩
    · rw [earliest_filter_none fun q mem =>
        decide_eq_false fun later => none_ q.entry q.start ⟨candidate_of_mem s n now mem, later⟩]
    · obtain ⟨start, long, dur⟩ := ranges e candidate.1
      have found : earliest ((s.candidates n now).filter fun o => decide (c.stop ≤ o.start)) = some ⟨e, x⟩ :=
        earliest_filter (mem_of_candidate s n now candidate start dur (by omega)) (decide_eq_true later) fun q mem meets =>
          (least q.entry q.start ⟨candidate_of_mem s n now mem, of_decide_eq_true meets⟩).imp
            (fun ⟨same, at_⟩ => by rw [← same, ← at_]) id
      rw [found]
      exact takeNext_chosen s n false x
  · obtain ⟨start, long, dur⟩ := ranges e candidate.1
    have mem := mem_of_candidate s n now candidate start dur on
    have missed : s.afterCarried n c now = s.missOcc ⟨e, x⟩ .carryOverlap now := by
      rw [State.afterCarried, if_neg fun same => carried (beq_iff_eq.mp same)]
      obtain ⟨k, count⟩ : ∃ k, (s.candidates n now).length = k + 1 :=
        Nat.exists_eq_succ_of_ne_zero (List.length_pos_of_mem mem).ne'
      have found : earliest ((s.candidates n now).filter fun o => decide (now < o.stop) && decide (o.start < c.stop)) = some ⟨e, x⟩ :=
        earliest_filter mem (passes.mpr ⟨on, before⟩) fun q held meets => by
          obtain ⟨same, at_⟩ := alone q.entry q.start ⟨carried, candidate_of_mem s n now held, passes.mp meets⟩
          exact .inl (by rw [← same, ← at_])
      rw [count, State.missCarried, found]
      refine missCarried_none k fun o held ⟨goes, early⟩ => ?_
      obtain ⟨was, after⟩ := candidates_missOcc .carryOverlap candidate held
      obtain ⟨-, at_⟩ := alone o.entry o.start ⟨carried, candidate_of_mem s n now was, goes, early⟩
      omega
    rw [chooseAfter_eq, missed]
    split
    · exact missOcc_missed .carryOverlap candidate rfl rfl
    · exact missOcc_missed .carryOverlap candidate rfl rfl

end

end

/-! ## The antenna tests -/

theorem using_iff (t : RunState) : t.using = true ↔ t ∈ [RunState.preparing, .ready, .onAir] := by cases t <;> decide

theorem txActive_eq_false (s : State) (u : Tx) : s.txActive u = false ↔
    (s.permit[u]).output = .off ∧ s.taskRunning u = false ∧
      ∀ r : RunRec, s.run.cur[u] = some r → r.state ∉ [.preparing, .ready, .onAir] := by
  have cur : s.run.curUsing u = false ↔ ∀ r : RunRec, s.run.cur[u] = some r → r.state ∉ [.preparing, .ready, .onAir] := by
    unfold RunTable.curUsing
    cases s.run.cur[u] with
    | none => exact ⟨fun _ r same => absurd same.symm (Option.some_ne_none r), fun _ => rfl⟩
    | some r => simp only [← using_iff, Bool.not_eq_true, Option.some.injEq, forall_eq']
  rw [State.txActive, Bool.or_eq_false_iff, Bool.or_eq_false_iff, bne_eq_false_iff_eq, cur, and_assoc]

theorem antPasses_iff (s : State) (n : Tx) (f : Nat) (m : Ant) : s.antPasses n f m = true ↔
    s.cfg.antOk m = true ∧ s.locked (.ant m) = false ∧ s.faultMark[m] = false ∧ (s.sw (.sel m)).state ≠ .fault ∧
      inMask s.cfg.active s.enabled[m] f = true ∧
      (∀ r ∈ s.run.all, r.state ∈ [.preparing, .ready, .onAir] → r.inUse = some m → r.tx = n) ∧
      ∀ u : Tx, u ≠ n → s.mx.onPath u (.sel m) = true →
        (s.tx[u]).holder = none ∧ (s.permit[u]).output = .off ∧ s.taskRunning u = false ∧
          ∀ r : RunRec, s.run.cur[u] = some r → r.state ∉ [.preparing, .ready, .onAir] := by
  have users : ((s.run.usersOf m).any fun r => r.tx != n) = false ↔
      ∀ r ∈ s.run.all, r.state ∈ [.preparing, .ready, .onAir] → r.inUse = some m → r.tx = n := by
    simp only [List.any_eq_false, RunTable.usersOf, List.mem_filter, Bool.and_eq_true, using_iff, beq_iff_eq, bne_iff_ne, ne_eq,
      not_not]
    exact ⟨fun h r mem using_ uses => h r ⟨mem, using_, uses⟩, fun h r ⟨mem, using_, uses⟩ => h r mem using_ uses⟩
  have path : s.pathTaken n m = false ↔ ∀ u : Tx, u ≠ n → s.mx.onPath u (.sel m) = true →
      (s.tx[u]).holder = none ∧ s.txActive u = false := by
    simp only [State.pathTaken, List.any_eq_false, Bool.and_eq_true, Bool.or_eq_true, bne_iff_ne, Option.isSome_iff_ne_none]
    constructor
    · intro h u other on
      have free := h u (mem_allTx u)
      refine ⟨by_contra fun held => free ⟨⟨other, on⟩, .inl held⟩, ?_⟩
      exact Bool.eq_false_iff.mpr fun active => free ⟨⟨other, on⟩, .inr active⟩
    · rintro h u - ⟨⟨other, on⟩, held | active⟩
      · exact held (h u other on).1
      · rw [(h u other on).2] at active
        exact Bool.false_ne_true active
  have selector : s.mx.sel[m] = s.sw (.sel m) := rfl
  simp only [State.antPasses, Bool.and_eq_true, Bool.not_eq_true', users, path, txActive_eq_false, selector, bne_iff_ne]
  tauto

end Sys2Proof.Machine
end

