-- ==== Sys2Proof/Proofs/RunOutcomes.lean ====
section
/-! PROOF. Preparing, starting and ending run records, running through, and their outcomes (R137 to R139, R144 to R146). -/

namespace Sys2Proof.Machine

/-! ## Slots and run numbers -/

section
variable (s : State)

theorem setSlot_slot (n : Tx) (k : Slot) (x : Option RunRec) (j : Tx) (l : Slot) :
    (s.setSlot n k x).slot j l = if j = n ∧ l = k then x else s.slot j l := by
  cases k <;> cases l <;> simp only [State.setSlot, State.slot, getElem_set_fin, and_true, and_false, if_false, reduceCtorEq]

/-- A run number that one slot alone holds is found there. -/
theorem findRun_of_alone {n : Tx} {k : Slot} {r : RunRec} (held : s.slot n k = some r)
    (alone : ∀ (j : Tx) (l : Slot) (x : RunRec), s.slot j l = some x → x.num = r.num → j = n ∧ l = k) :
    s.findRun r.num = some (n, k, r) := by
  have holds (p : Tx × Slot) : s.holdsRun r.num p.1 p.2 = true ↔ p = (n, k) := by
    unfold State.holdsRun
    constructor
    · intro h
      split at h
      · next x at_ =>
        obtain ⟨tx, slot⟩ := alone p.1 p.2 x at_ (beq_iff_eq.mp h)
        exact Prod.ext tx slot
      · exact absurd h Bool.false_ne_true
    · rintro rfl
      dsimp only
      rw [held]
      exact beq_self_eq_true _
  have listed : (n, k) ∈ allTx.map (fun n => (n, Slot.cur)) ++ allTx.map (fun n => (n, Slot.nxt)) := by
    cases k with
    | cur => exact List.mem_append_left _ (List.mem_map_of_mem (mem_allTx n))
    | nxt => exact List.mem_append_right _ (List.mem_map_of_mem (mem_allTx n))
  have found : s.whereRun r.num = some (n, k) := by
    unfold State.whereRun
    cases at_ : List.find? (fun p => s.holdsRun r.num p.1 p.2)
        (allTx.map (fun n => (n, Slot.cur)) ++ allTx.map (fun n => (n, Slot.nxt))) with
    | none => exact absurd ((holds (n, k)).mpr rfl) (List.find?_eq_none.mp at_ (n, k) listed)
    | some p => rw [(holds p).mp (List.find?_some (p := fun p : Tx × Slot => s.holdsRun r.num p.1 p.2) at_)]
  rw [State.findRun, found]
  dsimp only
  rw [held]
  rfl

/-- A freely chosen order costs nothing but free choices. -/
theorem arrange_rest {α : Type} (xs : List α) : ∃ c : Nat, (s.arrange xs).2 = { s with choices := c } := by
  have choose (s : State) (count : Nat) : ∃ c : Nat, (s.choose count).2 = { s with choices := c } := by
    unfold State.choose
    split
    · exact ⟨s.choices, rfl⟩
    · exact ⟨s.choices + 1, rfl⟩
  have each (fuel : Nat) (xs : List α) (s : State) : ∃ c : Nat, (State.arrangeAux fuel xs s).2 = { s with choices := c } := by
    induction fuel generalizing xs s with
    | zero => exact ⟨s.choices, rfl⟩
    | succ fuel ih =>
      cases xs with
      | nil => exact ⟨s.choices, rfl⟩
      | cons x xs =>
        obtain ⟨c, chosen⟩ := choose s (xs.length + 1)
        obtain ⟨d, rest⟩ := ih ((x :: xs).eraseIdx (s.choose (xs.length + 1)).1) (s.choose (xs.length + 1)).2
        refine ⟨d, rest.trans ?_⟩
        rw [chosen]
  exact each _ xs s

/-- Where no item of a PREPARING record is due and one is not done, a request changes nothing (R139). -/
theorem request_idle {n : Tx} {k : Slot} {r : RunRec} (found : s.findRun r.num = some (n, k, r)) (idle : ∀ i : ItemKind, r.item i = .waiting → s.itemDue n k i = false) (open_ : r.route.ok = false) (t : RunNow) :
    ∃ c : Nat, s.request r.num t = { s with choices := c } := by
  obtain ⟨c, arranged⟩ := arrange_rest s [ItemKind.route, .tune, .slew]
  let z : State := { s with choices := c }
  have found' : z.findRun r.num = some (n, k, r) := found
  have item (req : Nat → State → State) (i : ItemKind) : z.requestItem req r.num i t = z := by
    rw [State.requestItem, found']
    dsimp only
    refine if_neg fun due => ?_
    rw [Bool.and_eq_true, Bool.and_eq_true, Bool.and_eq_true, beq_iff_eq, beq_iff_eq] at due
    obtain ⟨⟨⟨-, waits⟩, now⟩, -⟩ := due
    exact Bool.false_ne_true ((idle i waits).symm.trans now)
  have items (req : Nat → State → State) (is : List ItemKind) : forAll is (fun i s => s.requestItem req r.num i t) z = z := by
    induction is with
    | nil => rfl
    | cons i is ih => exact (congrArg (forAll is _) (item req i)).trans ih
  have ready : z.readyCheck r.num t = z := by
    rw [State.readyCheck, found']
    dsimp only
    rw [open_, Bool.and_false, Bool.false_and, Bool.false_and]
    rfl
  refine ⟨c, ?_⟩
  show (forAll (s.arrange [ItemKind.route, .tune, .slew]).1 (fun i s => s.requestItem _ r.num i t)
    (s.arrange [ItemKind.route, .tune, .slew]).2).readyCheck r.num t = z
  rw [arranged, items, ready]

end

/-! ## What a permit shows of the CURRENT slot -/

section
variable (s : State) {n : Tx} (free : (s.tx[n]).holder = none)
include free

theorem permitOf_onAir {r : RunRec} (held : s.run.cur[n] = some r) (airs : r.state = .onAir) :
    (s.permitOf n).requester = .schedule ∧ (s.permitOf n).requested = r.power := by
  have requester : s.requesterOf n = .schedule := by
    rw [State.requesterOf, free, held]
    exact if_pos (beq_iff_eq.mpr airs)
  refine ⟨requester, ?_⟩
  show s.requestedOf n = _
  rw [State.requestedOf, requester]
  dsimp only
  rw [held]

theorem permitOf_empty (empty : s.run.cur[n] = none) :
    (s.permitOf n).requester = .nobody ∧ (s.permitOf n).requested = .off := by
  have requester : s.requesterOf n = .nobody := by rw [State.requesterOf, free, empty]
  refine ⟨requester, ?_⟩
  show s.requestedOf n = _
  rw [State.requestedOf, requester]

end

/-! ## Records closed -/

/-- A record has been closed: it heads the outcome list (R133). -/
def Closes (s u : State) (now : Nat) (c : RunRec) (st : RunState) (reason : Option RunReason) (held : Bool) : Prop :=
  u.run.outcomes =
    ({ c with state := st, reason := reason, closedAt := some now, deferred := none, held := c.held || held } ::
      s.run.outcomes).take 32

section
variable (s : State) (n : Tx) (k : Slot) (r : RunRec) (now : Nat)

theorem closeRun_outcomes (st : RunState) (reason : Option RunReason) : (s.closeRun n k r st reason now).run.outcomes =
    ({ r with state := st, reason := reason, closedAt := some now, deferred := none } :: s.run.outcomes).take 32 := by
  rw [closeRun_run, writeOutcome_outcomes]
  cases k <;> rfl

theorem missRun_closes (why : RunReason) : Closes s (s.missRun n k r why now) now r .missed (some why) false := by
  rw [Closes, State.missRun, closeRun_outcomes, Bool.or_false]

theorem endRun_closes (held : Bool) : Closes s (s.endRun n k r held now) now r .ended none held := by
  rw [Closes, State.endRun, closeRun_outcomes]

/-- A record closed in CURRENT leaves the slot empty, and nobody asks for power where the transmitter is in nobody's hand (R145). -/
theorem closeRun_permit (st : RunState) (reason : Option RunReason) (free : (s.tx[n]).holder = none) :
    ((s.closeRun n .cur r st reason now).permit[n]).requester = .nobody ∧
      ((s.closeRun n .cur r st reason now).permit[n]).requested = .off := by
  have holder := (calm_closeRun s n .cur r st reason now (Calm.refl s)).holder n
  have empty := closeRun_cur_cur s n r st reason now n
  rw [if_pos rfl] at empty
  rw [State.closeRun] at holder empty ⊢
  rw [permitSync_permit]
  exact permitOf_empty _ (holder.trans free) empty

end

/-! ## Preparation -/

section
variable (s : State) {n : Tx} {now : Nat} {r : RunRec}

theorem txTest_cases : ((s.tx[n]).state = .tripped → s.txTest n = some .txTripped) ∧
    ((s.tx[n]).state = .offline → s.txTest n = some .txOffline) ∧
    ((s.tx[n]).state ≠ .tripped → (s.tx[n]).state ≠ .offline → s.locked (.tx n) = true → s.txTest n = some .lockedOut) ∧
    ((s.tx[n]).state ≠ .tripped → (s.tx[n]).state ≠ .offline → s.locked (.tx n) = false → s.txTest n = none) := by
  unfold State.txTest
  refine ⟨fun h => ?_, fun h => ?_, fun h k l => ?_, fun h k l => ?_⟩
  · rw [h]
    rfl
  · rw [h]
    rfl
  · rw [if_neg fun e => h (beq_iff_eq.mp e), if_neg fun e => k (beq_iff_eq.mp e), if_pos l]
  · rw [if_neg fun e => h (beq_iff_eq.mp e), if_neg fun e => k (beq_iff_eq.mp e), if_neg (by rw [l]; exact Bool.false_ne_true)]

variable (held : s.run.nxt[n] = some r) (waits : r.state = .waiting) (shut : s.isOpen = false)
include held waits shut

theorem prepare_eq : s.prepare n now =
    match s.txTest n with
    | some why => s.missRun n .nxt { r with deferred := none } why now
    | none =>
      match s.chooseAntenna { r with deferred := none } with
      | none => s.missRun n .nxt { r with deferred := none } .noAntenna now
      | some (m, alt) =>
        if s.curAntenna n == some m then s.setSlot n .nxt (some { r with deferred := some m })
        else
          (s.setSlot n .nxt (some { r with
            deferred := none, inUse := some m, alternate := alt, state := .preparing, route := .waiting, tune := .waiting,
            slew := s.slewItem { r with deferred := none } m })).request r.num ⟨now, false⟩ := by
  rw [State.prepare, held]
  dsimp only
  rw [waits, shut]
  rfl

/-- A record that does not pass its tests is MISSED (R137, R138). -/
theorem prepare_missed {why : RunReason}
    (fails : s.txTest n = some why ∨ (s.txTest n = none ∧ s.chooseAntenna { r with deferred := none } = none ∧ why = .noAntenna)) :
    (s.prepare n now).run.nxt[n] = none ∧ Closes s (s.prepare n now) now r .missed (some why) false := by
  have missed : s.prepare n now = s.missRun n .nxt { r with deferred := none } why now := by
    rw [prepare_eq s held waits shut]
    rcases fails with test | ⟨test, none_, rfl⟩
    · rw [test]
    · rw [test, none_]
  rw [missed]
  refine ⟨?_, missRun_closes s n .nxt { r with deferred := none } now why⟩
  rw [State.missRun, closeRun_nxt_nxt, if_pos rfl]

/-- A record with an antenna waits for it where CURRENT has it in use, and else takes it (R138, R139). -/
theorem prepare_takes (alone : ∀ (j : Tx) (k : Slot) (x : RunRec), s.slot j k = some x → x.num = r.num → j = n ∧ k = .nxt)
    (test : s.txTest n = none) {m : Ant} {other : Bool} (antenna : s.chooseAntenna { r with deferred := none } = some (m, other)) :
    ((∃ c : RunRec, s.run.cur[n] = some c ∧ c.inUse = some m) →
      (s.prepare n now).run.nxt[n] = some { r with deferred := some m }) ∧
    (∀ c : RunRec, s.run.cur[n] = some c → c.inUse ≠ some m → (r.az = none ∨ s.cfg.antRot m = none) →
      (s.prepare n now).run.nxt[n] = some { r with
        deferred := none, inUse := some m, alternate := other, state := .preparing, route := .waiting, tune := .waiting,
        slew := .notNeeded }) := by
  have prepared := prepare_eq s (now := now) held waits shut
  rw [test] at prepared
  dsimp only at prepared
  rw [antenna] at prepared
  dsimp only at prepared
  refine ⟨fun ⟨c, at_, uses⟩ => ?_, fun c at_ free still => ?_⟩
  · have same : s.curAntenna n = some m := by rw [State.curAntenna, at_]; exact uses
    have deferred := prepared.trans (if_pos (beq_iff_eq.mpr same))
    have stored : (s.setSlot n .nxt (some { r with deferred := some m })).slot n .nxt = some { r with deferred := some m } := by
      rw [setSlot_slot, if_pos ⟨rfl, rfl⟩]
    exact (congrArg (fun u : State => u.slot n .nxt) deferred).trans stored
  · have other_ : s.curAntenna n ≠ some m := by rw [State.curAntenna, at_]; exact free
    have item : s.slewItem { r with deferred := none } m = .notNeeded := by
      refine if_pos ?_
      rw [Bool.or_eq_true, Option.isNone_iff_eq_none, Option.isNone_iff_eq_none]
      exact still
    rw [if_neg fun e => other_ (beq_iff_eq.mp e), item] at prepared
    let r' : RunRec := { r with
      deferred := none, inUse := some m, alternate := other, state := .preparing, route := .waiting, tune := .waiting,
      slew := .notNeeded }
    let z := s.setSlot n .nxt (some r')
    have stored : z.slot n .nxt = some r' := by rw [setSlot_slot, if_pos ⟨rfl, rfl⟩]
    have found : z.findRun r'.num = some (n, .nxt, r') := findRun_of_alone z stored fun j l x at_ num => by
      rw [setSlot_slot] at at_
      split at at_
      · next same => exact same
      · exact alone j l x at_ num
    have behind : z.run.cur[n].isNone = false := by rw [show z.run.cur[n] = some c from at_]; rfl
    have undue (i : ItemKind) (waits : r'.item i = .waiting) : z.itemDue n .nxt i = false := by
      cases i with
      | slew => exact Item.noConfusion waits
      | route => exact behind
      | tune => exact behind
    obtain ⟨c', idle⟩ := request_idle z found undue rfl ⟨now, false⟩
    have requested : s.prepare n now = { z with choices := c' } := prepared.trans idle
    exact (congrArg (fun u : State => u.slot n .nxt) requested).trans stored

end

/-! ## Starts -/

section
variable (s : State) {n : Tx} {now : Nat} {r : RunRec} (empty : s.run.cur[n] = none) (held : s.run.nxt[n] = some r) (edge : Bool)
include empty held

theorem passToCurrent_early (h : now < r.start) : s.passToCurrent n ⟨now, edge⟩ = s := by
  unfold State.passToCurrent
  rw [empty, held]
  exact if_neg fun due => by
    rw [Bool.and_eq_true, decide_eq_true_eq] at due
    exact absurd due.1 (Nat.not_le.mpr h)

omit empty held in
/-- A record moved from NEXT to CURRENT is found there. -/
theorem passed_slots (alone : ∀ (j : Tx) (k : Slot) (x : RunRec), s.slot j k = some x → x.num = r.num → j = n ∧ k = .nxt) :
    let z := (s.setSlot n .nxt none).setSlot n .cur (some r)
    z.slot n .cur = some r ∧ z.slot n .nxt = none ∧ z.findRun r.num = some (n, .cur, r) := by
  intro z
  have cur : z.slot n .cur = some r := by rw [setSlot_slot, if_pos ⟨rfl, rfl⟩]
  have nxt : z.slot n .nxt = none := by
    rw [setSlot_slot, if_neg fun same => Slot.noConfusion same.2, setSlot_slot, if_pos ⟨rfl, rfl⟩]
  refine ⟨cur, nxt, findRun_of_alone z cur fun j l x at_ num => ?_⟩
  rw [setSlot_slot] at at_
  split at at_
  · next same => exact same
  · rw [setSlot_slot] at at_
    split at at_
    · exact absurd at_.symm (Option.some_ne_none x)
    · next other => exact absurd (alone j l x at_ num) other

/-- A READY record whose start has come goes on air (R144). -/
theorem passToCurrent_ready (alone : ∀ (j : Tx) (k : Slot) (x : RunRec), s.slot j k = some x → x.num = r.num → j = n ∧ k = .nxt)
    (due : r.start ≤ now) (ready : r.state = .ready) :
    let u := s.passToCurrent n ⟨now, edge⟩
    u.run.nxt[n] = none ∧ u.raised .run ∧
      u.run.cur[n] = some { r with state := .onAir, aired := true, late := r.late || !edge || decide (r.start < now) } ∧
      ((s.tx[n]).holder = none → (u.permit[n]).requester = .schedule ∧ (u.permit[n]).requested = r.power) := by
  obtain ⟨cur, nxt, found⟩ := passed_slots s alone
  let z := (s.setSlot n .nxt none).setSlot n .cur (some r)
  let r' : RunRec := { r with state := .onAir, aired := true, late := r.late || (!edge || decide (r.start < now)) }
  let a := z.setSlot n .cur (some r')
  have airs : s.passToCurrent n ⟨now, edge⟩ = a.permitSync.raise .run := by
    have passes : s.passToCurrent n ⟨now, edge⟩ = z.goOnAir r.num (!edge || decide (r.start < now)) := by
      unfold State.passToCurrent
      rw [empty, held]
      dsimp only
      rw [ready, if_pos (by rw [decide_eq_true due]; rfl)]
      rfl
    rw [passes, State.goOnAir, State.modRun, found]
  have stored : a.run.cur[n] = some r' := by
    have slot : a.slot n .cur = some r' := by rw [setSlot_slot, if_pos ⟨rfl, rfl⟩]
    exact slot
  have cleared : a.run.nxt[n] = none := nxt
  intro u
  have whole : u = a.permitSync.raise .run := airs
  rw [whole]
  refine ⟨cleared, raised_raise _ _, ?_, fun free => ?_⟩
  · rw [Bool.or_assoc]
    exact stored
  · rw [show (a.permitSync.raise .run).permit[n] = a.permitOf n from permitSync_permit a n]
    have shown := permitOf_onAir a (r := r') free stored rfl
    exact shown

/-- A PREPARING record whose start has come becomes CURRENT, and its route goes on (R144). -/
theorem passToCurrent_preparing
    (alone : ∀ (j : Tx) (k : Slot) (x : RunRec), s.slot j k = some x → x.num = r.num → j = n ∧ k = .nxt)
    (due : r.start ≤ now) (preparing : r.state = .preparing) (route : r.route = .inProgress) (tune : r.tune ≠ .waiting)
    (slew : r.slew ≠ .waiting) :
    (s.passToCurrent n ⟨now, edge⟩).run.nxt[n] = none ∧ (s.passToCurrent n ⟨now, edge⟩).run.cur[n] = some r := by
  obtain ⟨cur, nxt, found⟩ := passed_slots s alone
  let z := (s.setSlot n .nxt none).setSlot n .cur (some r)
  have passes : s.passToCurrent n ⟨now, edge⟩ = z.request r.num ⟨now, edge⟩ := by
    unfold State.passToCurrent
    rw [empty, held]
    dsimp only
    rw [preparing, if_pos (by rw [decide_eq_true due]; rfl)]
    exact if_neg Bool.false_ne_true
  have undue (i : ItemKind) (waits : r.item i = .waiting) : z.itemDue n .cur i = false := by
    cases i with
    | route => exact absurd (route.symm.trans waits) Item.noConfusion
    | tune => exact absurd waits tune
    | slew => exact absurd waits slew
  obtain ⟨c, idle⟩ := request_idle z found undue (by rw [route]; rfl) ⟨now, edge⟩
  rw [passes, idle]
  exact ⟨nxt, cur⟩

end

/-! ## Ends -/

/-- A record that is not ON_AIR at its end or the end of its grace has been closed (R145). -/
def LateEnded (s u : State) (n : Tx) (now : Nat) (c : RunRec) : Prop :=
  u.run.cur[n] = none ∧ (c.aired = true → Closes s u now c .ended none true) ∧
    (c.aired = false → Closes s u now c .missed (some (if s.hall.state = .normal then .graceExpired else .hall)) false)

section
variable (s : State) {n : Tx} {now : Nat} {c : RunRec}

theorem lateEnd_ends : LateEnded s (s.lateEnd n c now) n now c := by
  have reason : s.graceReason = if s.hall.state = .normal then .graceExpired else .hall :=
    if_congr beq_iff_eq rfl rfl
  unfold State.lateEnd
  cases aired : c.aired with
  | true =>
    rw [if_pos rfl]
    exact ⟨by rw [State.endRun, closeRun_cur_cur, if_pos rfl], fun _ => endRun_closes s n .cur c now true,
      fun h => absurd (aired.symm.trans h) Bool.noConfusion⟩
  | false =>
    rw [if_neg Bool.false_ne_true]
    refine ⟨by rw [State.missRun, closeRun_cur_cur, if_pos rfl], fun h => absurd (aired.symm.trans h) Bool.noConfusion, fun _ => ?_⟩
    rw [← reason]
    exact missRun_closes s n .cur c now s.graceReason

variable (held : s.run.cur[n] = some c)
include held

theorem endPhase_early (h : now < c.stop) : s.endPhase n now = s := by
  unfold State.endPhase
  rw [held]
  exact if_pos h

/-- Where no NEXT record starts at the end of CURRENT, CURRENT is closed (R145). -/
theorem endPhase_ends (ended : c.stop ≤ now) (apart : ∀ r : RunRec, s.run.nxt[n] = some r → r.start ≠ now) :
    s.endPhase n now = if c.state == .onAir then s.endRun n .cur c false now else s.lateEnd n c now := by
  unfold State.endPhase
  rw [held]
  dsimp only
  rw [if_neg (Nat.not_lt.mpr ended)]
  split
  · next r m next_ _ =>
    refine if_neg fun through => ?_
    simp only [State.runsThrough, Bool.and_eq_true, beq_iff_eq] at through
    exact apart r next_ through.1.1.1.1.1.1.1.1.1.2
  · rfl

theorem gracePhase_eq : s.gracePhase n now = if s.graceOver c now then s.lateEnd n c now else s := by
  unfold State.gracePhase
  rw [held]

theorem gracePhase_runs (h : c.state = .onAir ∨ now < c.graceBase + s.cfg.active.grace) : s.gracePhase n now = s := by
  rw [gracePhase_eq s held]
  refine if_neg fun ended => ?_
  rw [State.graceOver, Bool.and_eq_true, bne_iff_ne, decide_eq_true_eq] at ended
  exact h.elim ended.1 fun before => absurd ended.2 (Nat.not_le.mpr before)

theorem gracePhase_ends (rests : c.state ≠ .onAir) (ended : c.graceBase + s.cfg.active.grace ≤ now) :
    LateEnded s (s.gracePhase n now) n now c := by
  rw [gracePhase_eq s held, if_pos (by rw [State.graceOver, bne_iff_ne.mpr rests, decide_eq_true ended]; rfl)]
  exact lateEnd_ends s

end

/-! ## Run-through -/

section
variable (s : State) (n : Tx)

theorem endOrder_run_permit (e : Option OrderFail) : (s.endOrder n e).run = s.run ∧ (s.endOrder n e).permit = s.permit := by
  have rest := endOrder_rest s n e
  have run := congrArg State.run rest
  have permit := congrArg State.permit rest
  exact ⟨run, permit⟩

/-- A request for the feed leaves run records and permits alone. -/
theorem feedRequest_run_permit (feed run : Nat) :
    (s.feedRequest n feed run).2.run = s.run ∧ (s.feedRequest n feed run).2.permit = s.permit := by
  unfold State.feedRequest
  split_ifs
  iterate 7 exact ⟨rfl, rfl⟩
  exact endOrder_run_permit s n (some .cancelled)

/-- The feed asked for at a run-through, where it differs (R146). -/
def State.feedFor (s : State) (n : Tx) (c r : RunRec) : State :=
  if c.feed == r.feed then s
  else if (s.feedRequest n r.feed r.num).1 == .accepted then (s.feedRequest n r.feed r.num).2
  else (s.feedRequest n r.feed r.num).2.raise .run

theorem feedFor_run_permit (c r : RunRec) : (s.feedFor n c r).run = s.run ∧ (s.feedFor n c r).permit = s.permit := by
  unfold State.feedFor
  have asked := feedRequest_run_permit s n r.feed r.num
  split_ifs
  · exact ⟨rfl, rfl⟩
  · exact asked
  · exact asked

theorem calm_feedFor (c r : RunRec) : Calm s (s.feedFor n c r) := by
  unfold State.feedFor
  have asked := calm_feedRequest s n r.feed r.num (Calm.refl s)
  split_ifs
  · exact Calm.refl s
  · exact asked
  · exact calm_raise _ _ asked

/-- The record that a run-through puts on air on antenna `m`, where it has no azimuth (R146). -/
def RunRec.throughOn (r : RunRec) (m : Ant) : RunRec :=
  { r with state := .onAir, aired := true, inUse := some m, deferred := none, alternate := m != r.primary, route := .done,
           tune := .done, slew := .notNeeded }

/-- A run-through up to its requests: the slots moved, the old record closed, permits and attention made current (R146). -/
def State.passedThrough (s : State) (n : Tx) (c r' : RunRec) (now : Nat) : State :=
  ((((s.setSlot n .nxt none).setSlot n .cur (some r')).writeOutcome c .ended none now).permitSync).raise .run

theorem runThrough_eq {c r : RunRec} (m : Ant) (now : Nat) (still : r.az = none) :
    s.runThrough n c r m now = ((s.passedThrough n c (r.throughOn m) now).feedFor n c r).slewWithdraw c.num := by
  have item : s.slewItem r m = .notNeeded := if_pos (by rw [still]; rfl)
  obtain ⟨⟩ := r
  obtain rfl : _ = none := still
  rw [State.runThrough, item]
  rfl

theorem passedThrough_slots (c r' : RunRec) (now : Nat) :
    (s.passedThrough n c r' now).run.cur[n] = some r' ∧ (s.passedThrough n c r' now).run.nxt[n] = none := by
  let z := (s.setSlot n .nxt none).setSlot n .cur (some r')
  have cur : z.slot n .cur = some r' := by rw [setSlot_slot, if_pos ⟨rfl, rfl⟩]
  have nxt : z.slot n .nxt = none := by
    rw [setSlot_slot, if_neg fun same => Slot.noConfusion same.2, setSlot_slot, if_pos ⟨rfl, rfl⟩]
  exact ⟨cur, nxt⟩

theorem passedThrough_outcomes (c r' : RunRec) (now : Nat) : Closes s (s.passedThrough n c r' now) now c .ended none false := by
  rw [Closes, Bool.or_false]
  exact writeOutcome_outcomes ((s.setSlot n .nxt none).setSlot n .cur (some r')) c .ended none now

theorem passedThrough_permit {c r' : RunRec} (now : Nat) (airs : r'.state = .onAir) (free : (s.tx[n]).holder = none) :
    ((s.passedThrough n c r' now).permit[n]).requester = .schedule ∧
      ((s.passedThrough n c r' now).permit[n]).requested = r'.power := by
  let w := ((s.setSlot n .nxt none).setSlot n .cur (some r')).writeOutcome c .ended none now
  have shown : (s.passedThrough n c r' now).permit[n] = w.permitOf n := permitSync_permit w n
  rw [shown]
  exact permitOf_onAir w free (passedThrough_slots s n c r' now).1 airs

/-- After a run-through (R146). -/
theorem runThrough_runs {c r : RunRec} (m : Ant) (now : Nat) (still : r.az = none) :
    let u := s.runThrough n c r m now
    Closes s u now c .ended none false ∧ u.run.nxt[n] = none ∧ u.raised .run ∧ u.run.cur[n] = some (r.throughOn m) ∧
      ((s.tx[n]).holder = none → (u.permit[n]).requester = .schedule ∧ (u.permit[n]).requested = r.power) := by
  intro u
  let p := s.passedThrough n c (r.throughOn m) now
  have whole : u = (p.feedFor n c r).slewWithdraw c.num := runThrough_eq s n m now still
  have withdrawn := takesBack_slewWithdraw (p.feedFor n c r) c.num
  obtain ⟨feedRun, feedPermit⟩ := feedFor_run_permit p n c r
  have run : u.run = p.run := by
    rw [whole]
    exact withdrawn.run.trans feedRun
  have permit : u.permit = p.permit := by
    rw [whole]
    exact withdrawn.permit.trans feedPermit
  have calm : Calm p u := by
    rw [whole]
    exact calm_slewWithdraw _ _ (calm_feedFor p n c r)
  obtain ⟨cur, nxt⟩ := passedThrough_slots s n c (r.throughOn m) now
  rw [Closes, run, permit]
  exact ⟨passedThrough_outcomes s n c (r.throughOn m) now, nxt, raised_of_calm calm (raised_raise _ _), cur,
    fun free => passedThrough_permit s n now rfl free⟩

end

theorem endPhase_through (s : State) {n : Tx} {now : Nat} {c r : RunRec} {m : Ant} (held : s.run.cur[n] = some c)
    (ended : c.stop ≤ now) (next : s.run.nxt[n] = some r) (uses : c.inUse = some m) (through : s.runsThrough n c r m now = true) :
    s.endPhase n now = s.runThrough n c r m now := by
  unfold State.endPhase
  rw [held]
  dsimp only
  rw [if_neg (Nat.not_lt.mpr ended), next, uses]
  exact if_pos through

/-! ## The antenna chosen -/

section
variable (s : State) (r : RunRec)

theorem chooseAntenna_primary (passes : s.antPasses r.tx r.freq r.primary = true) :
    s.chooseAntenna r = some (r.primary, false) := if_pos passes

variable (fails : s.antPasses r.tx r.freq r.primary = false)
include fails

theorem chooseAntenna_alternate {m : Ant} (alt : r.alt = some m) (passes : s.antPasses r.tx r.freq m = true) :
    s.chooseAntenna r = some (m, true) := by
  rw [State.chooseAntenna, if_neg (by rw [fails]; exact Bool.false_ne_true), alt]
  exact if_pos passes

theorem chooseAntenna_none (none_ : ∀ m : Ant, r.alt = some m → s.antPasses r.tx r.freq m = false) :
    s.chooseAntenna r = none := by
  rw [State.chooseAntenna, if_neg (by rw [fails]; exact Bool.false_ne_true)]
  cases alt : r.alt with
  | none => rfl
  | some m => exact if_neg (by rw [none_ m alt]; exact Bool.false_ne_true)

end

/-- Settles O60, part by part: the outcome list, choosing, the antenna tests, then preparing, starting and ending, each by the
equation of its phase. -/
theorem runOutcomes : Obligations.RunOutcomes := by
  unfold Obligations.RunOutcomes
  refine ⟨fun s r st reason now => ?outcome, fun s n now _ ranges => ?choosing, antPasses_iff, fun s n now => ?phases⟩
  case outcome =>
    intro u
    exact ⟨writeOutcome_kept s r st reason now, raised_raise _ _, rfl, rfl, writeOutcome_outcomes s r st reason now,
      fun n other => writeOutcome_mark_other s r st reason now other, writeOutcome_mark_hand s r st reason now,
      fun moves => ⟨fun m held same => by
        have moved := writeOutcome_mark_same s r st reason now moves
        rw [held, markAfter_same r.stop same] at moved
        exact moved, fun other => (writeOutcome_mark_same s r st reason now moves).trans (markAfter_other r.stop other)⟩⟩
  case choosing =>
    intro t next missed earliest
    refine ⟨chooseEmpty_chooses ranges, fun c ahead => ?_⟩
    exact chooseAfter_chooses ranges c ahead
  case phases =>
    intro closes alone late
    refine ⟨fun r held waits tx shut single => ?prepare, fun r empty held single edge => ?start, fun c held => ?stop⟩
    case prepare =>
      intro u missed sound takes
      obtain ⟨tripped, offline, locked, passes⟩ := txTest_cases s (n := n)
      refine ⟨fun h => prepare_missed s held waits shut (.inl (tripped h)),
        fun h => prepare_missed s held waits shut (.inl (offline h)),
        fun h k l => prepare_missed s held waits shut (.inl (locked h k l)), fun ⟨h, k, l⟩ primary => ?_,
        fun ⟨h, k, l⟩ fails => ⟨fun m alt second => ?_, fun none_ => ?_⟩⟩
      · rw [← tx] at primary
        exact prepare_takes s held waits shut single (passes h k l)
          (chooseAntenna_primary s { r with deferred := none } primary)
      · rw [← tx] at fails second
        exact prepare_takes s held waits shut single (passes h k l)
          (chooseAntenna_alternate s { r with deferred := none } fails alt second)
      · rw [← tx] at fails none_
        exact prepare_missed s held waits shut
          (.inr ⟨passes h k l, chooseAntenna_none s { r with deferred := none } fails none_, rfl⟩)
    case start =>
      intro u
      exact ⟨passToCurrent_early s empty held edge, passToCurrent_ready s empty held edge single,
        passToCurrent_preparing s empty held edge single⟩
    case stop =>
      refine ⟨endPhase_early s held, fun ended apart => ?_, gracePhase_runs s held, gracePhase_ends s held, ?_⟩
      · have ends := endPhase_ends s held ended apart
        intro u
        have whole : u = _ := ends
        refine ⟨fun airs => ?_, fun rests => ?_⟩
        · rw [whole, if_pos (beq_iff_eq.mpr airs)]
          exact ⟨by rw [State.endRun, closeRun_cur_cur, if_pos rfl], endRun_closes s n .cur c now false,
            closeRun_permit s n _ now .ended none⟩
        · rw [whole, if_neg fun airs => rests (beq_iff_eq.mp airs)]
          exact lateEnd_ends s
      · intro r m ended next airs uses start waits deferred passes freq az still out sel ready tuned
        have through : s.runsThrough n c r m now = true := by
          rw [State.runsThrough, airs, uses, start, waits, deferred, passes, freq, az, still, out, sel, (isReady_iff _).mpr ready, tuned]
          simp [State.slewCarries]
        rw [endPhase_through s held ended next uses through]
        exact runThrough_runs s n m now still

end Sys2Proof.Machine
end
